-- ==== Sys2Proof/Word.lean ====
section
/-! DEFINITION. Word types of the machine and the sparse maps its state is made of. -/
namespace Sys2Proof

/-- The smallest addressable unit of every address space (R109). -/
abbrev Byte := BitVec 8
/-- One 32-bit register, instruction word or scratchpad word (R99, R224). -/
abbrev Word := BitVec 32
/-- A 64-bit value, as a register pair holds it (R6). -/
abbrev DWord := BitVec 64
/-- The architected part of a virtual address or a program counter (R95, R110). -/
abbrev Pc := BitVec 57

/-- Sparse data by key: entries with strictly rising keys, none equal to the default of the map. -/
abbrev SMap (α : Type) := List (Nat × α)

end Sys2Proof
end

