-- ==== Sys2Proof/Config.lean ====
section
/-! DEFINITION. What an implementation fixes, and the free values of the model. A constant without a body can
be neither evaluated nor proved to have a value: a statement about the machine holds whatever it is. -/
namespace Sys2Proof

/-- Free choice of one bit, numbered by the state's counter of free values (R168, log entry 12). -/
opaque Config.freeBit : Nat → Bool
/-- Free 32-bit value (log entry 12). -/
opaque Config.freeWord : Nat → Word
/-- Free latency, in core cycles, of an operation whose time the spec does not fix (R8, R120, log entry 10). -/
opaque Config.delay : Nat → Nat
/-- Free place of an item in an order the spec leaves open (R128, R312, R336, log entry 11). -/
opaque Config.rank : Nat → Nat → Nat

/-- How many of the model's cycles a core has none of its own for: in a numbered start, number 0 from the model's cycle 0 until its
die leaves reset, number n from the n-th change of the clock on. Counters of different cores are not aligned, and no difference of two is
fixed (R190, log entry 77). The index 255 is the clock of the control cores. -/
opaque Config.coreHold : Nat → Nat → Nat → Nat

/-- The bytes of the areas of a core image whose layout the spec does not give, of a numbered save, by offset (R187, log entry
43). -/
opaque Config.imageByte : Nat → Nat → Byte

/-- SHA-384, which the spec names and does not define (R53, log entry 20). -/
opaque Config.sha384 : List Byte → BitVec 384
/-- ECDSA P-384 verification over a SHA-384 digest: key, digest, signature (R52, R55, R57, log entry 20). -/
opaque Config.ecdsaVerify : BitVec 768 → BitVec 384 → BitVec 768 → Bool
/-- The signature of the device identity key over a digest (R54, log entry 20). -/
opaque Config.identitySign : BitVec 384 → BitVec 768
/-- The certificate chain of the device to Birrov (R54, R60). -/
opaque Config.certChain : List Byte
/-- The Birrov key held in the boot ROM (R52, R60). -/
opaque Config.birrovKey : BitVec 768
/-- The pod authority's public key, whose hash MEAS1 covers (R53, R55, R57). -/
opaque Config.podKey : BitVec 768
/-- The FJO file that a launch comes from; a descriptor does not carry it (R222, log entry 45). -/
opaque Config.imageFile : BitVec 1024 → List Byte
/-- The public key at the leaf of a DER certificate chain (R222, log entry 45). -/
opaque Config.chainKey : List Byte → BitVec 768
/-- A certificate chain ends at a key that the policy measured in MEAS4 trusts (R222, log entry 45). -/
opaque Config.chainTrusted : BitVec 384 → List Byte → Bool
/-- The SHA-384 of the public key of the host behind the service's connection, by its entry (R56, R58, log entry 78). -/
opaque Config.peerKey : BitVec 128 → BitVec 384
/-- A certificate of the pod authority for a claimant's key verifies (R55, log entry 20). -/
opaque Config.certVerify : List Byte → BitVec 768 → Bool

/-- Spare lanes of a die boundary (R11, log entry 21). -/
opaque Config.boundarySpares : Nat → Nat
/-- The rate in GB/s at which a boundary runs with some lanes lost beyond its spares (R11, log entry 21). -/
opaque Config.boundaryRate : Nat → Nat → Nat
/-- Spare SerDes lanes of a Kwamon port: one (R15). -/
def Config.serdesSpares : Nat := 1
/-- Spare rows of a stack (R14, log entry 21). -/
opaque Config.rowSpares : Nat → Nat
/-- Spare cores of a compute die (R12). -/
def Config.coreSpares : Nat := 8
/-- Whether a power window of the given watts leaves headroom below the limit at the clock (R23, log entry 22). -/
opaque Config.powerHeadroom : Nat → Nat → Nat → Bool
/-- The service's page-out age, at its default (R62). -/
def Config.pageOutAge : Nat := 2 ^ 32
/-- Bytes of the records STATUS returns for the device (WHAT 0) and for temperature, power and clock (WHAT 1), from the lists
of what each reports; the spec does not give their layout (R60, log entry 23). -/
opaque Config.statusRecord : Nat → List (List Nat) → List Byte
/-- Whether the cycles of a core's corrected errors pass the threshold of the service's policy (R66; log entry 80). -/
opaque Config.coreWornOut : List Nat → Bool

end Sys2Proof
end

