-- ==== Sys2Proof/Syntax.lean ====
section
/-! DEFINITION. The steps of the machine as syntax: one constructor of `Instr` for each row of the opcode
table. Instructions carry the fields of their encoding (R226 to R228); events and service requests carry
the data that arrives with them. -/
namespace Sys2Proof

/-- Operand types T (R236), in the order of their codes. -/
inductive Ty where
  | i32 | n32 | i64 | n64 | f32 | f16 | bf16 | e4m3 | e5m2 | i16 | n16 | i8 | n8 | b32 | h2 | bh2
  deriving DecidableEq, Repr

/-- Scopes (R130), in the order of their codes. -/
inductive Scope where
  | core | clu | dev | sys
  deriving DecidableEq, Repr

/-- Memory orders (R131), in the order of their codes. -/
inductive MemOrd where
  | rlx | acq | rel | ar | sc
  deriving DecidableEq, Repr

/-- The decoded fields of an instruction (R224 to R228, R229). In a short form the fields of words 1 and 2
hold the values R229 gives them; `lit` is zero when LEN[1] is 0. -/
structure Fields where
  /-- LEN[0]: words 1 and 2 are present. -/
  long : Bool
  /-- LEN[1]: a literal is present. -/
  hasLit : Bool
  /-- S: strand side. -/
  strand : Bool
  d : BitVec 7
  a : BitVec 7
  b : BitVec 7
  /-- I: B is a short immediate. -/
  imm : Bool
  g : BitVec 4
  c : BitVec 7
  ea : Bool
  eb : Bool
  ec : Bool
  fn : BitVec 8
  ty : Ty
  md : BitVec 6
  imm16 : BitVec 16
  scope : Scope
  ord : MemOrd
  cache : BitVec 2
  hz : Bool
  aux : BitVec 8
  lit : DWord
  deriving DecidableEq, Repr

/-- Who sends a service request (R58): a host, named by the SHA-384 of its public key, over the network or
the management port, or a strand of a context through SYS. -/
inductive Sender where
  | host (key : BitVec 384)
  | strand (gid : Nat) (ctx : Nat)
  deriving DecidableEq, Repr

/-- The header of a service request (R59): who sends it, SEQ and CODE. -/
structure Req where
  sender : Sender
  seq : Word
  code : BitVec 16
  deriving DecidableEq, Repr

/-- A member entry of a collective descriptor (R42). -/
structure Member where
  dev : Nat
  strand : Nat
  w : Bool
  deriving DecidableEq, Repr

/-- What the first firmware stage of the boot flash holds (R52). -/
structure BootStage where
  image : List Byte
  sig : BitVec 768
  deriving DecidableEq, Repr

/-- What the training of one Kwamon port finds (R15, R20, R26): the node it is wired to, the devices that
node reaches, its request credits, and whether the far end is a device. -/
structure PortTraining where
  port : Nat
  node : Nat
  reach : List Nat
  credits : Nat
  miswired : Bool
  deriving DecidableEq, Repr

/-- An endpoint that enumeration finds at the PCI Express root port (R16). -/
structure Endpoint where
  number : Nat
  nvme : Bool
  deriving DecidableEq, Repr

/-- What comes with the start of the service (R20 step 5, R25): the digests that extend MEAS1 to MEAS4 (R53), the training of
the ports, the endpoints at the root port, and the device's fabric id. -/
structure StartUp where
  configuration : BitVec 384
  training : BitVec 384
  service : BitVec 384
  policy : BitVec 384
  ports : List PortTraining
  endpoints : List Endpoint
  deviceId : Nat
  deriving DecidableEq, Repr

/-- The die boundaries (R10): compute dies in a 2 × 2 arrangement, and each compute die with its I/O die. -/
inductive Boundary where
  | compute01 | compute13 | compute32 | compute20 | compute0io0 | compute1io0 | compute2io1 | compute3io1
  deriving DecidableEq, Repr

/-- A remote request of another device as it reaches this one (R39, R38). -/
inductive RemoteKind where
  | read (size : Nat)
  | write (bytes : List Byte)
  | atom (fn : BitVec 8) (ty : Ty) (operand : DWord)
  | cas (ty : Ty) (expected new : DWord)
  | cellAdd (x : Word)
  | cellInit (scale : Byte)
  | cellRead
  | cellReadz
  deriving DecidableEq, Repr

/-- A remote request with its source and offset (R39). -/
structure RemoteReq where
  src : Nat
  offset : Nat
  kind : RemoteKind
  deriving DecidableEq, Repr

/-- Where a storage error lies (R188). Registers name core, slot, lane and register. -/
inductive EccLoc where
  | vreg (core slot lane reg : Nat)
  | sreg (core slot reg : Nat)
  | spad (core word : Nat)
  | acc (core word : Nat)
  | mbox (core n : Nat)
  | bank (core : Nat) (bankB : Bool) (cell : Nat)
  | cacheLine (dieCache : Bool) (line : Nat)
  /-- A cached line of remote memory, by fabric address / 128. -/
  | tokenLine (line : Nat)
  | stackLine (line : Nat)
  deriving DecidableEq, Repr

/-- Where a checker mismatch strikes (R185): the instruction a split issues, or an engine operation. -/
inductive CheckerLoc where
  | split (core entry : Nat) (unit : Nat)
  | engine (op : Nat) (unit : Nat)
  deriving DecidableEq, Repr

/-- A write of the service to a structure that has no row of its own (R29, R33, R48). -/
inductive RegWrite where
  | window (n : Nat) (bits : BitVec 128)
  | connection (n : Nat) (bits : BitVec 128)
  | path (n : Nat) (bits : BitVec 128)
  | exportTable (n : Nat) (bits : BitVec 256)
  | deviceId (id : Nat)
  /-- An owner-supplied digest extends one of MEAS7 to MEAS15 (R53). -/
  | measure (n : Nat) (digest : BitVec 384)
  /-- A message at the management port, from the host with a key (R58, R59). -/
  | management (key : BitVec 384) (msg : List Byte)
  deriving DecidableEq, Repr

/-- The delivery modes of Ultra Ethernet (R47). -/
inductive NetMode where
  | rod | rud | rudi | uud
  deriving DecidableEq, Repr

/-- The outcome of a TKACQ at its home (R318). -/
inductive TokenStatus where
  | granted | limit | failed
  deriving DecidableEq, Repr

/-- What a translation fault at the service belongs to (R177, R243): an access of an operation, or the fetch of a split. -/
inductive FaultRef where
  | access (op acc : Nat)
  | fetch (core entry : Nat)
  deriving DecidableEq, Repr

/-- Every step of the machine: one constructor for each row of the opcode table. -/
inductive Instr where
  -- power and start-up (R18 to R24)
  | vinApplied | vinRemoved | pwrEnAssert | pwrGoodRise | pwrEnDeassert | pwrGoodFall | vinOutOfRange
  | rstNAssert
  | resetRelease (stage : BootStage)
  | serviceStart (st : StartUp)
  | powerWindow (watts : Nat)
  | thermalWindow (milliDegrees : List Nat)
  | smbusPowerLimitWrite (watts : Nat)
  -- physical failures (R11, R14, R66, R67, R185, R188)
  | dieBoundaryLaneFail (boundary : Boundary)
  | serdesLaneFail (port : Nat)
  | kwamonLinkDown (port : Nat)
  | stackRetire (stack : Nat)
  | spareRowMap (stack : Nat)
  | spareCoreBringIn (core : Nat)
  | eccErrorDetected (loc : EccLoc) (fatal : Bool) (guarded : Bool) (synd : Word)
  | patrolScrub (stack : Nat)
  | checkerMismatch (loc : CheckerLoc)
  -- fabric (R31 to R41, R369)
  | replyOk (id : Nat) (data : List Byte)
  | replyRetry (id : Nat)
  | retryReissue (id : Nat)
  | replyReject (id : Nat)
  | replyPoison (id : Nat)
  | replyDown (id : Nat)
  | targetDownNotice (target : Nat)
  | fabricTimeout (id : Nat)
  | remoteRequestServe (r : RemoteReq)
  | congestionMark (core slot : Nat)
  | ceilingGrowth (core slot : Nat)
  | pinnedPathSwitch (chanEntry : Nat)
  | remapPoint (core : Nat)
  | remapComplete (window : Nat)
  | tlbInvalidatePoint (core : Nat)
  | invalidationComplete (id : Nat)
  -- ownership tokens (R40, R318, R319)
  | tokenAcquireRequest (src region : Nat) (excl : Bool)
  | tokenRevocation (home region : Nat)
  | tokenRevokeAck (src region : Nat) (dirty : List (Nat × Byte))
  | tokenGrant (id : Nat) (st : TokenStatus)
  | tokenTenureExpiry (region src : Nat)
  | tokenReleaseReceived (src region : Nat) (dirty : List (Nat × Byte))
  -- collectives (R42 to R46, R370)
  | collArrivalPacket (src desc att rank : Nat) (quad0 quad1 : Word) (fn : Nat) (input : List Byte)
  | collAbortNotice (desc att : Nat)
  | collAbortAck (desc att src : Nat)
  | collTimeout (desc : Nat)
  | withdrawalNotice (desc att rank : Nat)
  -- Ultra Ethernet (R47 to R51)
  | netMessageArrival (mode : NetMode) (conn tag : Nat) (payload : List Byte)
  | netDeliveryConfirm (op : Nat)
  | netRetryExhausted (op : Nat)
  -- service requests (R58 to R60)
  | attest (q : Req) (nonce : BitVec 384)
  | claim (q : Req) (term : DWord) (key : BitVec 768) (cert : List Byte) (sig : BitVec 768)
  | electionWindowClose
  | release (q : Req) (term signer : DWord) (sig : BitVec 768)
  | ctxCreate (q : Req) (cfg jobid : DWord) (cores : BitVec 256) (tring : DWord)
  | ctxDestroy (q : Req) (ctx : DWord)
  | ctxWeight (q : Req) (ctx weight : DWord)
  | counterAllocate (q : Req) (ctx op : DWord)
  | counterFree (q : Req) (ctx op index : DWord)
  | counterRead (q : Req) (ctx op index : DWord)
  | ctxHandler (q : Req) (ctx handler : DWord)
  | map (q : Req) (ctx va size word0 word1 flags : DWord)
  | window (q : Req) (entry : DWord) (contents : BitVec 128)
  | exportEntry (q : Req) (entry : DWord) (contents : BitVec 256)
  | connectConnection (q : Req) (entry : DWord) (contents : BitVec 128)
  | connectPath (q : Req) (entry : DWord) (contents : BitVec 128)
  | colldescSetUp (q : Req) (desc ctx : DWord) (members : List Word)
  | colldescAddMembers (q : Req) (desc : DWord) (members : List Word)
  | colldescRemoveMembers (q : Req) (desc : DWord) (members : List Word)
  | colldescWithdraw (q : Req) (desc : DWord) (members : List Word)
  | colldescAbort (q : Req) (desc : DWord)
  | colldescRead (q : Req) (desc : DWord)
  | unmap (q : Req) (ctx va size : DWord)
  | launch (q : Req) (desc : BitVec 1024) (close : DWord)
  | powerLimit (q : Req) (watts : DWord)
  | fwUpdate (q : Req) (image : List Byte) (sig : BitVec 768)
  | statusDevice (q : Req)
  | statusThermal (q : Req)
  | statusErrorLog (q : Req) (first count : DWord)
  | unknownRequest (q : Req) (code : BitVec 16)
  | debugGrant (q : Req) (key : BitVec 384) (ctx : DWord)
  | debugRevoke (q : Req) (key : BitVec 384) (ctx : DWord)
  | traceCfg (q : Req) (ctx ringSize interval flags : DWord)
  | debugHalt (q : Req) (ctx strand : DWord)
  | debugResume (q : Req) (ctx strand steps : DWord)
  | readStop (q : Req) (ctx strand : DWord)
  | debugRead (q : Req) (ctx strand offset len : DWord)
  | debugWrite (q : Req) (ctx strand offset : DWord) (bytes : List Byte)
  | setBp (q : Req) (ctx index pc filter : DWord)
  | serviceReply (gid : Nat)
  | translationFaultAnswer (r : FaultRef) (resolved : Bool)
  | translationFaultTimeout (r : FaultRef)
  -- paging of save images (R62, R63)
  | pageOutStart (ctx : Nat)
  | pageOutComplete (ctx : Nat) (ok : Bool)
  | pageInComplete (ctx : Nat) (ok : Bool)
  -- from launch to slot (R73 to R83)
  | dispatchPlace (queue : Nat)
  | recordLaunchReserve (queue : Nat)
  | binTimerExpiry (core bin : Nat)
  | binStart (core bin : Nat)
  | localAccessComplete (op : Nat)
  -- sharing and pre-emption (R89 to R92, R184)
  | quantumExpiry (cluster : Nat)
  | ownershipLapse (cluster : Nat)
  | clusterTake (cluster : Nat)
  | engineStopAck (core : Nat)
  | preemptComplete (cluster : Nat)
  | preemptHandlerTimeout (core slot : Nat)
  | trapEntry (core slot : Nat)
  | breakpointHalt (core entry : Nat)
  | yieldExpiry (core entry : Nat)
  | filigreePerform (core : Nat)
  | cpyChunkComplete (op : Nat)
  | registerWrite (w : RegWrite)
  -- integer, logic, predicate (13)
  | nop (f : Fields) | iadd (f : Fields) | isub (f : Fields) | imul (f : Fields) | imulh (f : Fields)
  | imad (f : Fields) | idiv (f : Fields) | irem (f : Fields) | imin (f : Fields) | imax (f : Fields)
  | iabs (f : Fields) | ineg (f : Fields)
  | and (f : Fields) | or (f : Fields) | xor (f : Fields) | not (f : Fields)
  | shl (f : Fields) | shr (f : Fields) | sar (f : Fields) | rot (f : Fields)
  | bfx (f : Fields) | bfi (f : Fields) | popc (f : Fields) | clz (f : Fields) | brev (f : Fields)
  | icmp (f : Fields) | sel (f : Fields) | mov (f : Fields) | lea (f : Fields) | plop (f : Fields)
  | cvti (f : Fields) | idot4 (f : Fields)
  -- floating point and formats (14)
  | fadd (f : Fields) | fsub (f : Fields) | fmul (f : Fields) | ffma (f : Fields)
  | fmin (f : Fields) | fmax (f : Fields) | fdiv (f : Fields) | fsqrt (f : Fields)
  | frcp (f : Fields) | frsq (f : Fields) | fexp2 (f : Fields) | flog2 (f : Fields) | ftrig (f : Fields)
  | fcmp (f : Fields) | fclass (f : Fields) | cvt (f : Fields) | frnd (f : Fields) | fdot2 (f : Fields)
  | qenc (f : Fields) | qdec (f : Fields)
  -- cross-lane and special registers (13)
  | shfl (f : Fields) | vote (f : Fields) | lred (f : Fields) | lscan (f : Fields)
  | xmov (f : Fields) | getsr (f : Fields) | setsr (f : Fields)
  -- control, horizon, allowance (15)
  | bra (f : Fields) | brx (f : Fields) | call (f : Fields) | jmpr (f : Fields) | regang (f : Fields)
  | exit (f : Fields) | hzwait (f : Fields) | hzbr (f : Fields) | hztest (f : Fields)
  | albr (f : Fields) | dstbind (f : Fields) | bar (f : Fields)
  | waitb (f : Fields) | fbatch (f : Fields) | opfence (f : Fields)
  | trap (f : Fields) | tret (f : Fields) | tretReplay (f : Fields) | tretTerm (f : Fields)
  | yield (f : Fields) | mark (f : Fields) | brk (f : Fields) | sys (f : Fields)
  -- memory, atomics, cells, queues, tokens (16)
  | ld (f : Fields) | st (f : Fields) | lds (f : Fields) | sts (f : Fields)
  | ldsp (f : Fields) | stsp (f : Fields) | atom (f : Fields) | cas (f : Fields)
  | cellAdd (f : Fields) | cellInit (f : Fields) | cellRead (f : Fields) | cellReadz (f : Fields)
  | fence (f : Fields) | pref (f : Fields) | qcfg (f : Fields) | qctl (f : Fields)
  | tkacq (f : Fields) | tkrel (f : Fields)
  -- engines (17)
  | netwr (f : Fields) | netrd (f : Fields) | netsend (f : Fields) | netpost (f : Fields)
  | cpy (f : Fields)
  | collBar (f : Fields) | collRed (f : Fields) | collBcast (f : Fields) | collGather (f : Fields)
  | collAbort (f : Fields)
  -- work (15)
  | emit (f : Fields) | spawn (f : Fields) | cancel (f : Fields) | wcnt (f : Fields)
  -- Filigree (17)
  | fmma (f : Fields) | fdrain (f : Fields) | fmerge (f : Fields) | fzeroBank (f : Fields)
  | fzeroTile (f : Fields) | facc (f : Fields) | fcfg (f : Fields) | claspset (f : Fields)
  -- restore, data return, retrain
  | restoreComplete (cluster : Nat)
  | netrdDataReturn (op : Nat) (data : List Byte)
  | serdesRetrainComplete (port : Nat)
  deriving DecidableEq, Repr

end Sys2Proof
end

