-- ==== Sys2Proof/Machine/Encoding.lean ====
section
/-! DEFINITION. The encoding tables of the instruction set (R224 to R242 and the field tables of R247 to
R340): the opcode and the fields of a constructor, and the limits its fields keep. -/
namespace Sys2Proof

/-- The code of a type (R236). -/
def tyCode : Ty → BitVec 4
  | .i32 => 0 | .n32 => 1 | .i64 => 2 | .n64 => 3 | .f32 => 4 | .f16 => 5 | .bf16 => 6 | .e4m3 => 7
  | .e5m2 => 8 | .i16 => 9 | .n16 => 10 | .i8 => 11 | .n8 => 12 | .b32 => 13 | .h2 => 14 | .bh2 => 15

/-- The type of a code (R236). -/
def tyOf (c : BitVec 4) : Ty :=
  match c.toNat with
  | 0 => .i32 | 1 => .n32 | 2 => .i64 | 3 => .n64 | 4 => .f32 | 5 => .f16 | 6 => .bf16 | 7 => .e4m3
  | 8 => .e5m2 | 9 => .i16 | 10 => .n16 | 11 => .i8 | 12 => .n8 | 13 => .b32 | 14 => .h2 | _ => .bh2

/-- The width of a type in bits (R236). -/
def tyWidth : Ty → Nat
  | .i64 | .n64 => 64
  | .i32 | .n32 | .f32 | .b32 | .h2 | .bh2 => 32
  | .f16 | .bf16 | .i16 | .n16 => 16
  | .e4m3 | .e5m2 | .i8 | .n8 => 8

/-- A type whose register operand is an even pair (R236). -/
def tyIs64 : Ty → Bool
  | .i64 | .n64 => true
  | _ => false

/-- The signed types are the i types (R150, R246). -/
def tySigned : Ty → Bool
  | .i32 | .i64 | .i16 | .i8 => true
  | _ => false

/-- The integer types of R247 (T 0 to 3 and 9 to 12). -/
def tyIsInt : Ty → Bool
  | .i32 | .n32 | .i64 | .n64 | .i16 | .n16 | .i8 | .n8 => true
  | _ => false

/-- T 0 to 3 and 13 (R249). -/
def tyIsWordLogic : Ty → Bool
  | .i32 | .n32 | .i64 | .n64 | .b32 => true
  | _ => false

/-- T 0 to 3 and 9 to 13 (R249, R251). -/
def tyIsLogic (t : Ty) : Bool := tyIsInt t || t == .b32

/-- The packed types (R236). -/
def tyIsPacked : Ty → Bool
  | .h2 | .bh2 => true
  | _ => false

/-- The floating types of R263: f32, f16, bf16, h2, bh2. -/
def tyIsFp : Ty → Bool
  | .f32 | .f16 | .bf16 | .h2 | .bh2 => true
  | _ => false

/-- f32, f16 and bf16 (R259, R270, R276, R303). -/
def tyIsScalarFp : Ty → Bool
  | .f32 | .f16 | .bf16 => true
  | _ => false

/-- The code of a scope (R130). -/
def scopeCode : Scope → BitVec 2
  | .core => 0 | .clu => 1 | .dev => 2 | .sys => 3

/-- The scope of a code (R130). -/
def scopeOf (c : BitVec 2) : Scope :=
  match c.toNat with
  | 0 => .core | 1 => .clu | 2 => .dev | _ => .sys

/-- The code of an order (R131). -/
def ordCode : MemOrd → BitVec 3
  | .rlx => 0 | .acq => 1 | .rel => 2 | .ar => 3 | .sc => 4

/-- The order of a code; 5 to 7 are reserved (R131). -/
def ordOf (c : BitVec 3) : Option MemOrd :=
  match c.toNat with
  | 0 => some .rlx | 1 => some .acq | 2 => some .rel | 3 => some .ar | 4 => some .sc | _ => none

/-- What a register field names (R230, R246, R302, R320). -/
inductive OperandKind where
  /-- Unused: must be 0. -/
  | none
  /-- A register of the side, queues and mailboxes included; a pair when `wide`. -/
  | reg (wide : Bool)
  /-- A v or s register; a pair when `wide`. -/
  | plain (wide : Bool)
  /-- A predicate, 0 to 7. -/
  | pred
  /-- s[X] to s[X + 3], X from 0 to 60. -/
  | quad
  /-- s[X] to s[X + 2], X from 0 to 61. -/
  | triple
  /-- An s register named by a lane-side instruction (R260). -/
  | crossS (wide : Bool)
  /-- A v register named by a strand-side instruction (R260). -/
  | crossV (wide : Bool)
  /-- v[A] to v[A + 3] of EMIT, A up to 116 (R297). -/
  | payload
  deriving DecidableEq, Repr

/-- The limits of one instruction's fields. -/
structure FieldSpec where
  lane : Bool := false
  strand : Bool := false
  short : Bool := true
  d : OperandKind := .none
  a : OperandKind := .none
  b : OperandKind := .none
  c : OperandKind := .none
  /-- B accepts a short immediate or, without a target, a literal (R233). -/
  bi : Bool := false
  /-- IMM16 or the literal is a PC-relative target (R234). -/
  tgt : Bool := false
  fnOk : Bool := true
  /-- An FN reserved to the service (R242). -/
  priv : Bool := false
  tyOk : Bool := true
  mdOk : Bool := true
  immOk : Bool := true
  scopeOk : Bool := true
  ordOk : Bool := true
  cacheOk : Bool := true
  hzOk : Bool := true
  aux : Bool := false

/-- A predicate field, a G index excluded (R230). -/
def kindOk (strand : Bool) (k : OperandKind) (v : Nat) : Bool :=
  let even := v % 2 == 0
  match k with
  | .none => v == 0
  | .reg true => even && v < (if strand then 64 else 120)
  | .reg false => v < (if strand then 96 else 128)
  | .plain w => v < (if strand then 64 else 120) && (!w || even)
  | .pred => v < 8
  | .quad => v ≤ 60
  | .triple => v ≤ 61
  | .crossS w => v < 64 && (!w || even)
  | .crossV w => v < 120 && (!w || even)
  | .payload => v ≤ 116

/-- A field that names a register source, for the E bits (R232). -/
def kindIsReg : OperandKind → Bool
  | .none | .pred => false
  | _ => true

/-- Both sides. -/
def FieldSpec.both (s : FieldSpec) : FieldSpec := { s with lane := true, strand := true }

/-- The special registers that GETSR may name (R104). -/
def specialListed (n : Nat) : Bool :=
  n ≤ 0x00B || n == 0x010 || n == 0x011 || (0x020 ≤ n && n ≤ 0x022) || (0x030 ≤ n && n ≤ 0x041) ||
  n == 0x050 || n == 0x051 || (0x060 ≤ n && n ≤ 0x062) || n == 0x070 || n == 0x071 || n == 0x080

/-- An FN field below a limit. -/
def fnBelow (f : Fields) (n : Nat) : Bool := f.fn.toNat < n

/-- No bit of MOD outside the mask is set. -/
def mdWithin (f : Fields) (mask : BitVec 6) : Bool := (f.md &&& ~~~mask) == 0

/-- MOD[0], named .sat (R247). -/
def mdBit (f : Fields) (n : Nat) : Bool := f.md.getLsbD n

/-- Arithmetic of R247 on A and B. -/
def specArith2 (f : Fields) (sat : Bool) : FieldSpec :=
  ({ d := .reg (tyIs64 f.ty), a := .reg (tyIs64 f.ty), b := .reg (tyIs64 f.ty), bi := true,
     fnOk := f.fn == 0, tyOk := tyIsInt f.ty, mdOk := mdWithin f (if sat then 1 else 0),
     immOk := f.imm16 == 0, scopeOk := f.scope == .core, ordOk := f.ord == .rlx, cacheOk := f.cache == 0,
     hzOk := !f.hz } : FieldSpec).both

/-- Arithmetic of R247 on A alone. -/
def specArith1 (f : Fields) : FieldSpec :=
  { specArith2 f true with b := .none, bi := false }

/-- Two-source logic of R249. -/
def specLogic2 (f : Fields) : FieldSpec := { specArith2 f false with tyOk := tyIsLogic f.ty }

/-- Shifts and bit fields of R249, with B a w operand. -/
def specShift (f : Fields) (narrow : Bool) : FieldSpec :=
  { specArith2 f false with b := .reg false, tyOk := if narrow then tyIsLogic f.ty else tyIsWordLogic f.ty }

/-- The base of an instruction without type, order, scope, cache and offset. -/
def specPlain (f : Fields) : FieldSpec :=
  { fnOk := f.fn == 0, tyOk := f.ty == .i32, mdOk := f.md == 0, immOk := f.imm16 == 0,
    scopeOk := f.scope == .core, ordOk := f.ord == .rlx, cacheOk := f.cache == 0, hzOk := !f.hz }

/-- The static rounding modifier of R264. -/
def roundModOk (f : Fields) : Bool := f.md == 0 || f.md == 4 || f.md == 5 || f.md == 6 || f.md == 7

/-- Floating arithmetic of R265. Its x operands follow T (R246), so that under a 64-bit T, which the type check refuses, the
register checks before it ask for even pairs (R241). -/
def specFp (f : Fields) (lane strand short : Bool) (a b c : Bool) : FieldSpec :=
  let x : OperandKind := .reg (tyIs64 f.ty)
  { specPlain f with
      lane := lane, strand := strand, short := short, d := x, a := if a then x else .none, b := if b then x else .none,
      c := if c then x else .none, bi := b, tyOk := tyIsFp f.ty, mdOk := roundModOk f }

/-- The memory instructions share an address pair, an offset and the cache hint (R302, R303). -/
def specMem (f : Fields) : FieldSpec :=
  { specPlain f with a := .reg true, immOk := true, scopeOk := true, cacheOk := true, ordOk := true }

/-- Orders of a load, a store (R131). -/
def ordLoad (f : Fields) : Bool := f.ord == .rlx || f.ord == .acq || f.ord == .sc
def ordStore (f : Fields) : Bool := f.ord == .rlx || f.ord == .rel || f.ord == .sc

/-- .raw and .rawexp need b32 (R303). -/
def rawTyOk (f : Fields) : Bool := !(mdBit f 0 || mdBit f 1) || f.ty == .b32

/-- LD and LDS (R302, R303). -/
def specLoad (f : Fields) : FieldSpec :=
  { specMem f with
      d := .plain (tyIs64 f.ty), tyOk := rawTyOk f, ordOk := ordLoad f,
      mdOk := mdWithin f 3 && !(mdBit f 0 && mdBit f 1) }

/-- ST and STS (R302, R303). -/
def specStore (f : Fields) : FieldSpec :=
  { specMem f with
      b := .reg (tyIs64 f.ty), bi := true, tyOk := rawTyOk f, ordOk := ordStore f, hzOk := true,
      mdOk := !(mdBit f 0 && mdBit f 1) && (mdBit f 2 || f.md.extractLsb' 3 3 == 0) }

/-- The network instructions (R320). -/
def specNet (f : Fields) (b : OperandKind) (hz : Bool) : FieldSpec :=
  { specPlain f with
      strand := true, short := false, d := .plain false, a := .quad, b := b, cacheOk := true,
      hzOk := hz || !f.hz }

/-- COLL (R320, R337): order and scope only for .bar. -/
def specColl (f : Fields) (fn : BitVec 8) : FieldSpec :=
  { specPlain f with
      strand := true, short := false, d := .plain false, a := .quad, fnOk := f.fn == fn,
      scopeOk := f.fn == 0 || f.scope == .dev, ordOk := f.fn == 0 || f.ord == .rlx }

/-- The transcendentals of R269. -/
def specTrans (f : Fields) (fns : Nat) : FieldSpec :=
  { specFp f true false true true false false with fnOk := fnBelow f fns, mdOk := f.md == 0 }

/-- The Filigree instructions with a clasp (R320). -/
def specFil (f : Fields) (mask : BitVec 6) : FieldSpec :=
  { specPlain f with strand := true, mdOk := mdWithin f mask, aux := mdBit f 2 }

/-- The source type that CVT and CVTI name in FN[3:0] (R254, R273). -/
def srcTy (f : Fields) : Ty := tyOf (f.fn.extractLsb' 0 4)

/-- CVT's B is used for a packed result of a scalar source (R273). -/
def cvtTwo (f : Fields) : Bool := tyIsPacked f.ty && !tyIsPacked (srcTy f)

/-- B names a mailbox, D names a mailbox (R252). -/
def bNamesMailbox (f : Fields) : Bool := f.strand && !f.imm && !f.hasLit && 64 ≤ f.b.toNat && f.b.toNat < 96
def dNamesMailbox (f : Fields) : Bool := f.strand && 64 ≤ f.d.toNat && f.d.toNat < 96

/-- The opcode (R238) and the fields of an instruction; none for an event. -/
def instrParts : Instr → Option (BitVec 7 × Fields)
  | .nop f => some (0x00, f) | .iadd f => some (0x01, f) | .isub f => some (0x02, f) | .imul f => some (0x03, f)
  | .imulh f => some (0x04, f) | .imad f => some (0x05, f) | .idiv f => some (0x06, f) | .irem f => some (0x07, f)
  | .imin f => some (0x08, f) | .imax f => some (0x09, f) | .iabs f => some (0x0A, f) | .ineg f => some (0x0B, f)
  | .and f => some (0x0C, f) | .or f => some (0x0D, f) | .xor f => some (0x0E, f) | .not f => some (0x0F, f)
  | .shl f => some (0x10, f) | .shr f => some (0x11, f) | .sar f => some (0x12, f) | .rot f => some (0x13, f)
  | .bfx f => some (0x14, f) | .bfi f => some (0x15, f) | .popc f => some (0x16, f) | .clz f => some (0x17, f)
  | .brev f => some (0x18, f) | .icmp f => some (0x19, f) | .sel f => some (0x1A, f) | .mov f => some (0x1B, f)
  | .lea f => some (0x1C, f) | .plop f => some (0x1D, f) | .cvti f => some (0x1E, f) | .idot4 f => some (0x1F, f)
  | .fadd f => some (0x20, f) | .fsub f => some (0x21, f) | .fmul f => some (0x22, f) | .ffma f => some (0x23, f)
  | .fmin f => some (0x24, f) | .fmax f => some (0x25, f) | .fdiv f => some (0x26, f) | .fsqrt f => some (0x27, f)
  | .frcp f => some (0x28, f) | .frsq f => some (0x29, f) | .fexp2 f => some (0x2A, f) | .flog2 f => some (0x2B, f)
  | .ftrig f => some (0x2C, f) | .fcmp f => some (0x2D, f) | .fclass f => some (0x2E, f) | .cvt f => some (0x2F, f)
  | .frnd f => some (0x30, f) | .fdot2 f => some (0x31, f) | .qenc f => some (0x32, f) | .qdec f => some (0x33, f)
  | .shfl f => some (0x34, f) | .vote f => some (0x35, f) | .lred f => some (0x36, f) | .lscan f => some (0x37, f)
  | .xmov f => some (0x38, f) | .getsr f => some (0x39, f) | .setsr f => some (0x3A, f)
  | .bra f => some (0x3C, f) | .brx f => some (0x3D, f) | .call f => some (0x3E, f) | .jmpr f => some (0x3F, f)
  | .regang f => some (0x40, f) | .exit f => some (0x41, f) | .hzwait f => some (0x42, f) | .hzbr f => some (0x43, f)
  | .hztest f => some (0x44, f) | .albr f => some (0x45, f) | .dstbind f => some (0x46, f) | .bar f => some (0x47, f)
  | .waitb f => some (0x48, f) | .fbatch f => some (0x49, f) | .opfence f => some (0x4A, f) | .trap f => some (0x4B, f)
  | .tret f => some (0x4C, f) | .tretReplay f => some (0x4C, f) | .tretTerm f => some (0x4C, f)
  | .yield f => some (0x4D, f) | .mark f => some (0x4E, f) | .brk f => some (0x4F, f)
  | .sys f => some (0x50, f) | .ld f => some (0x51, f) | .st f => some (0x52, f) | .lds f => some (0x53, f)
  | .sts f => some (0x54, f) | .ldsp f => some (0x55, f) | .stsp f => some (0x56, f) | .atom f => some (0x57, f)
  | .cas f => some (0x58, f) | .cellAdd f => some (0x59, f) | .cellInit f => some (0x5A, f)
  | .cellRead f => some (0x5A, f) | .cellReadz f => some (0x5A, f) | .fence f => some (0x5B, f)
  | .pref f => some (0x5C, f) | .qcfg f => some (0x5D, f) | .qctl f => some (0x5E, f) | .tkacq f => some (0x5F, f)
  | .tkrel f => some (0x60, f) | .netwr f => some (0x61, f) | .netrd f => some (0x62, f)
  | .netsend f => some (0x63, f) | .netpost f => some (0x64, f) | .cpy f => some (0x65, f)
  | .collBar f => some (0x66, f) | .collRed f => some (0x66, f) | .collBcast f => some (0x66, f)
  | .collGather f => some (0x66, f) | .collAbort f => some (0x66, f)
  | .emit f => some (0x67, f) | .spawn f => some (0x68, f) | .cancel f => some (0x69, f) | .wcnt f => some (0x6A, f)
  | .fmma f => some (0x6B, f) | .fdrain f => some (0x6C, f) | .fmerge f => some (0x6D, f)
  | .fzeroBank f => some (0x6E, f) | .fzeroTile f => some (0x6E, f) | .facc f => some (0x6F, f)
  | .fcfg f => some (0x70, f) | .claspset f => some (0x71, f)
  | _ => none

/-- The instruction an opcode and its fields name (R238). An FN outside the entry's values builds the
entry's first instruction, which the check of field 12 then refuses. -/
def instrOf (op : Nat) (f : Fields) : Option Instr :=
  match op with
  | 0x00 => some (.nop f) | 0x01 => some (.iadd f) | 0x02 => some (.isub f) | 0x03 => some (.imul f)
  | 0x04 => some (.imulh f) | 0x05 => some (.imad f) | 0x06 => some (.idiv f) | 0x07 => some (.irem f)
  | 0x08 => some (.imin f) | 0x09 => some (.imax f) | 0x0A => some (.iabs f) | 0x0B => some (.ineg f)
  | 0x0C => some (.and f) | 0x0D => some (.or f) | 0x0E => some (.xor f) | 0x0F => some (.not f)
  | 0x10 => some (.shl f) | 0x11 => some (.shr f) | 0x12 => some (.sar f) | 0x13 => some (.rot f)
  | 0x14 => some (.bfx f) | 0x15 => some (.bfi f) | 0x16 => some (.popc f) | 0x17 => some (.clz f)
  | 0x18 => some (.brev f) | 0x19 => some (.icmp f) | 0x1A => some (.sel f) | 0x1B => some (.mov f)
  | 0x1C => some (.lea f) | 0x1D => some (.plop f) | 0x1E => some (.cvti f) | 0x1F => some (.idot4 f)
  | 0x20 => some (.fadd f) | 0x21 => some (.fsub f) | 0x22 => some (.fmul f) | 0x23 => some (.ffma f)
  | 0x24 => some (.fmin f) | 0x25 => some (.fmax f) | 0x26 => some (.fdiv f) | 0x27 => some (.fsqrt f)
  | 0x28 => some (.frcp f) | 0x29 => some (.frsq f) | 0x2A => some (.fexp2 f) | 0x2B => some (.flog2 f)
  | 0x2C => some (.ftrig f) | 0x2D => some (.fcmp f) | 0x2E => some (.fclass f) | 0x2F => some (.cvt f)
  | 0x30 => some (.frnd f) | 0x31 => some (.fdot2 f) | 0x32 => some (.qenc f) | 0x33 => some (.qdec f)
  | 0x34 => some (.shfl f) | 0x35 => some (.vote f) | 0x36 => some (.lred f) | 0x37 => some (.lscan f)
  | 0x38 => some (.xmov f) | 0x39 => some (.getsr f) | 0x3A => some (.setsr f)
  | 0x3C => some (.bra f) | 0x3D => some (.brx f) | 0x3E => some (.call f) | 0x3F => some (.jmpr f)
  | 0x40 => some (.regang f) | 0x41 => some (.exit f) | 0x42 => some (.hzwait f) | 0x43 => some (.hzbr f)
  | 0x44 => some (.hztest f) | 0x45 => some (.albr f) | 0x46 => some (.dstbind f) | 0x47 => some (.bar f)
  | 0x48 => some (.waitb f) | 0x49 => some (.fbatch f) | 0x4A => some (.opfence f) | 0x4B => some (.trap f)
  | 0x4C => some (if f.fn = 1 then .tretReplay f else if f.fn = 2 then .tretTerm f else .tret f)
  | 0x4D => some (.yield f) | 0x4E => some (.mark f) | 0x4F => some (.brk f)
  | 0x50 => some (.sys f) | 0x51 => some (.ld f) | 0x52 => some (.st f) | 0x53 => some (.lds f)
  | 0x54 => some (.sts f) | 0x55 => some (.ldsp f) | 0x56 => some (.stsp f) | 0x57 => some (.atom f)
  | 0x58 => some (.cas f) | 0x59 => some (.cellAdd f)
  | 0x5A => some (if f.fn = 1 then .cellRead f else if f.fn = 2 then .cellReadz f else .cellInit f)
  | 0x5B => some (.fence f) | 0x5C => some (.pref f) | 0x5D => some (.qcfg f) | 0x5E => some (.qctl f)
  | 0x5F => some (.tkacq f) | 0x60 => some (.tkrel f) | 0x61 => some (.netwr f) | 0x62 => some (.netrd f)
  | 0x63 => some (.netsend f) | 0x64 => some (.netpost f) | 0x65 => some (.cpy f)
  | 0x66 => some (if f.fn = 1 then .collRed f else if f.fn = 2 then .collBcast f
                  else if f.fn = 3 then .collGather f else if f.fn = 4 then .collAbort f else .collBar f)
  | 0x67 => some (.emit f) | 0x68 => some (.spawn f) | 0x69 => some (.cancel f) | 0x6A => some (.wcnt f)
  | 0x6B => some (.fmma f) | 0x6C => some (.fdrain f) | 0x6D => some (.fmerge f)
  | 0x6E => some (if f.fn = 1 then .fzeroTile f else .fzeroBank f)
  | 0x6F => some (.facc f) | 0x70 => some (.fcfg f) | 0x71 => some (.claspset f)
  | _ => none

/-- The default type of an entry (R204, R229), by opcode. -/
def defaultTy (op : Nat) : Ty :=
  match op with
  | 0x1C => .n64
  | 0x1F => .i8
  | 0x31 => .h2
  | 0x59 => .f32
  | 0x2F => .i32
  | n => if 0x20 ≤ n ∧ n ≤ 0x33 then .f32 else .i32

/-- The instructions that take a scope, by opcode (R229, R288, R303, R320). -/
def usesScope (op : Nat) : Bool :=
  op == 0x47 || (0x51 ≤ op && op ≤ 0x5B) || op == 0x66

/-- The limits of an instruction's fields, entry by entry. -/
def fieldSpec : Instr → FieldSpec
  | .nop f => (specPlain f).both
  | .iadd f => specArith2 f true
  | .isub f => specArith2 f true
  | .imul f => specArith2 f true
  | .imulh f => specArith2 f false
  | .imad f => { specArith2 f true with short := false, c := .reg (tyIs64 f.ty) }
  | .idiv f => specArith2 f false
  | .irem f => specArith2 f false
  | .imin f => specArith2 f false
  | .imax f => specArith2 f false
  | .iabs f => specArith1 f
  | .ineg f => specArith1 f
  | .and f => specLogic2 f
  | .or f => specLogic2 f
  | .xor f => specLogic2 f
  | .not f => { specLogic2 f with b := .none, bi := false }
  | .shl f => specShift f true
  | .shr f => specShift f true
  | .sar f => specShift f true
  | .rot f => specShift f true
  | .bfx f => specShift f false
  | .bfi f => { specShift f false with short := false, c := .reg (tyIs64 f.ty) }
  | .popc f => { specShift f false with d := .reg false, b := .none, bi := false }
  | .clz f => { specShift f false with d := .reg false, b := .none, bi := false }
  | .brev f => { specShift f false with b := .none, bi := false }
  | .icmp f => { specLogic2 f with d := .pred, fnOk := fnBelow f 8 }
  | .sel f => { specArith2 f false with short := false, c := .pred, tyOk := true }
  | .mov f =>
      { specArith2 f false with
          a := .none, tyOk := true,
          mdOk := mdWithin f 3 && (!mdBit f 0 || bNamesMailbox f) && (!mdBit f 1 || dNamesMailbox f) }
  | .lea f =>
      { specArith2 f false with
          b := .reg false, tyOk := tyIs64 f.ty, fnOk := fnBelow f 5, immOk := true }
  | .plop f => { (specPlain f).both with d := .pred, a := .pred, b := .pred, c := .pred, fnOk := true }
  | .cvti f =>
      { (specPlain f).both with
          d := .reg (tyIs64 f.ty), a := .reg (tyIs64 (srcTy f)), tyOk := tyIsInt f.ty,
          fnOk := f.fn.extractLsb' 4 4 == 0 && tyIsInt (srcTy f), mdOk := mdWithin f 1 }
  | .idot4 f =>
      { specPlain f with
          lane := true, short := false, d := .reg false, a := .reg false, b := .reg false, c := .reg false,
          bi := true, tyOk := f.ty == .i8 || f.ty == .n8, mdOk := mdWithin f 1 }
  | .fadd f => specFp f true true true true true false
  | .fsub f => specFp f true true true true true false
  | .fmul f => specFp f true true true true true false
  | .ffma f => specFp f true true false true true true
  | .fmin f => { specFp f true false true true true false with fnOk := fnBelow f 2, mdOk := f.md == 0 }
  | .fmax f => { specFp f true false true true true false with fnOk := fnBelow f 2, mdOk := f.md == 0 }
  | .fdiv f => specFp f true false true true true false
  | .fsqrt f => specFp f true false true true false false
  | .frcp f => specTrans f 1
  | .frsq f => specTrans f 1
  | .fexp2 f => specTrans f 1
  | .flog2 f => specTrans f 1
  | .ftrig f => specTrans f 2
  | .fcmp f =>
      { specFp f true true true true true false with
          d := .pred, tyOk := tyIsScalarFp f.ty, fnOk := fnBelow f 8, mdOk := f.md == 0 }
  | .fclass f =>
      { specFp f true false true true false false with
          d := .reg false, tyOk := tyIsScalarFp f.ty || f.ty == .e4m3 || f.ty == .e5m2, mdOk := f.md == 0 }
  | .cvt f =>
      { specPlain f with
          lane := true, strand := true, short := false, d := .reg (tyIs64 f.ty),
          a := .reg (tyIs64 (srcTy f)), b := if cvtTwo f then .reg (tyIs64 (srcTy f)) else .none, bi := cvtTwo f,
          fnOk := srcTy f != .b32 && !(tyIsInt (srcTy f) && tyIsInt f.ty) &&
            !(f.fn.getLsbD 4 && (!tyIsPacked (srcTy f) || tyIsPacked f.ty)) && f.fn.extractLsb' 5 3 == 0,
          tyOk := f.ty != .b32, mdOk := roundModOk f }
  | .frnd f => { specFp f true false true true false false with fnOk := fnBelow f 5, mdOk := f.md == 0 }
  | .fdot2 f =>
      { specFp f true false false true true true with d := .reg false, c := .reg false, tyOk := tyIsPacked f.ty }
  | .qenc f =>
      { specPlain f with
          lane := true, short := false, d := .reg false, a := .reg false, b := .reg false, bi := true,
          tyOk := tyIsScalarFp f.ty, fnOk := f.fn == 0 || (2 ≤ f.fn.toNat && f.fn.toNat ≤ 8),
          mdOk := if f.fn == 0 then mdWithin f 1 else f.md == 0, aux := f.fn == 0 && !mdBit f 0 }
  | .qdec f =>
      { specPlain f with
          lane := true, short := false, d := .reg false, a := .reg false, b := .reg false, bi := true,
          tyOk := f.ty == .f32, fnOk := 2 ≤ f.fn.toNat && f.fn.toNat ≤ 8 }
  | .shfl f =>
      { specPlain f with
          lane := true, short := false, d := .reg (tyIs64 f.ty), a := .reg (tyIs64 f.ty), b := .reg false,
          bi := true, tyOk := true, fnOk := fnBelow f 4, mdOk := mdWithin f 1, aux := !mdBit f 0 }
  | .vote f =>
      { specPlain f with
          lane := true, short := false, d := if f.fn == 0 then .reg false else .pred, a := .pred,
          fnOk := fnBelow f 4, mdOk := mdWithin f 1, aux := !mdBit f 0 }
  | .lred f =>
      { specPlain f with
          lane := true, short := false, d := .reg (tyIs64 f.ty), a := .reg (tyIs64 f.ty),
          tyOk := f.ty == .i32 || f.ty == .n32 || tyIs64 f.ty || tyIsScalarFp f.ty,
          fnOk := fnBelow f (if tyIsScalarFp f.ty then 3 else 6), mdOk := mdWithin f 1, aux := !mdBit f 0 }
  | .lscan f =>
      { specPlain f with
          lane := true, short := false, d := .reg (tyIs64 f.ty), a := .reg (tyIs64 f.ty),
          tyOk := f.ty == .i32 || f.ty == .n32 || tyIs64 f.ty || tyIsScalarFp f.ty,
          fnOk := fnBelow f (if tyIsScalarFp f.ty then 3 else 6), mdOk := mdWithin f 3, aux := !mdBit f 0 }
  | .xmov f =>
      { specPlain f with
          lane := true, strand := true, short := false, d := .reg (tyIs64 f.ty),
          a := if f.strand then .crossV (tyIs64 f.ty) else .crossS (tyIs64 f.ty), tyOk := true,
          fnOk := if f.strand then f.fn == 1 || f.fn == 2 else f.fn == 0,
          immOk := if f.strand && f.fn == 2 then f.imm16.toNat < 32 else f.imm16 == 0 }
  | .getsr f =>
      { specPlain f with
          lane := true, strand := true, short := false, d := .reg false,
          b := if f.imm16 == 0x071 then .reg false else .none, bi := f.imm16 == 0x071,
          immOk := specialListed f.imm16.toNat }
  | .setsr f =>
      { specPlain f with
          strand := true, short := false, a := .reg false, immOk := f.imm16 == 0x050 || f.imm16 == 0x051 }
  | .bra f =>
      { specPlain f with
          strand := true, short := false, a := .pred, tgt := true, fnOk := fnBelow f 2, mdOk := mdWithin f 1,
          immOk := true }
  | .brx f =>
      { specPlain f with
          strand := true, short := false, a := .pred, tgt := true, fnOk := true,
          mdOk := mdWithin f 7 && f.md.extractLsb' 0 2 != 3, immOk := true }
  | .call f =>
      { specPlain f with
          strand := true, short := false, a := if f.fn == 1 then .reg true else .none, tgt := f.fn == 0,
          fnOk := fnBelow f 2, immOk := f.fn == 0 || f.imm16 == 0 }
  | .jmpr f =>
      { specPlain f with strand := true, a := if f.fn == 1 then .reg false else .reg true, fnOk := fnBelow f 2 }
  | .regang f => { specPlain f with strand := true, short := false, immOk := f.imm16.toNat < 256 }
  | .exit f =>
      { specPlain f with strand := true, a := if f.fn == 1 then .pred else .none, fnOk := fnBelow f 2 }
  | .hzwait f =>
      { specPlain f with
          strand := true, b := if f.fn == 1 then .reg false else .none, bi := f.fn == 1, fnOk := fnBelow f 2 }
  | .hzbr f =>
      { specPlain f with
          strand := true, short := false, b := if f.fn == 2 then .reg false else .none, bi := f.fn == 2,
          tgt := true, fnOk := fnBelow f 3, immOk := true }
  | .hztest f =>
      { specPlain f with
          lane := true, d := .pred, b := if f.fn == 1 then .reg false else .none, bi := f.fn == 1,
          fnOk := fnBelow f 2 }
  | .albr f =>
      { specPlain f with
          strand := true, short := false, b := .reg false, bi := true, tgt := true, fnOk := fnBelow f 16,
          mdOk := mdWithin f 1, immOk := true }
  | .dstbind f => { specPlain f with strand := true, a := .reg false, b := .reg false, bi := true }
  | .bar f =>
      { specPlain f with
          strand := true, d := .reg false, a := .reg false, b := .reg false, bi := true,
          scopeOk := f.scope != .sys, ordOk := true }
  | .waitb f => { specPlain f with strand := true, b := .reg false, bi := true }
  | .fbatch f => { specPlain f with strand := true, d := .reg false }
  | .opfence f => { specPlain f with strand := true }
  | .trap f => { specPlain f with strand := true, immOk := true }
  | .tret f => { specPlain f with strand := true, fnOk := f.fn == 0 }
  | .tretReplay f => { specPlain f with strand := true, fnOk := f.fn == 1 }
  | .tretTerm f => { specPlain f with strand := true, fnOk := f.fn == 2 }
  | .yield f => { specPlain f with strand := true, b := .reg false, bi := true }
  | .mark f => { specPlain f with strand := true, short := false, immOk := true }
  | .brk f => { specPlain f with strand := true }
  | .sys f =>
      { specPlain f with
          strand := true, d := .reg false, a := .reg true, fnOk := f.fn == 0, priv := 0x80 ≤ f.fn.toNat,
          immOk := true }
  | .ld f => { specLoad f with lane := true }
  | .st f => { specStore f with lane := true }
  | .lds f => { specLoad f with strand := true }
  | .sts f => { specStore f with strand := true }
  | .ldsp f =>
      { specMem f with
          lane := true, d := .reg (tyIs64 f.ty), a := .reg false, tyOk := true, ordOk := ordLoad f,
          cacheOk := f.cache == 0 }
  | .stsp f =>
      { specMem f with
          lane := true, a := .reg false, b := .reg (tyIs64 f.ty), bi := true, tyOk := true, ordOk := ordStore f,
          cacheOk := f.cache == 0 }
  | .atom f =>
      { specMem f with
          lane := true, strand := true, short := false,
          d := if mdBit f 0 then .none else .plain (tyIs64 f.ty), b := .reg (tyIs64 f.ty), bi := true,
          fnOk := fnBelow f 7, tyOk := tyIsWordLogic f.ty, mdOk := mdWithin f 1 }
  | .cas f =>
      { specMem f with
          lane := true, strand := true, short := false, d := .plain (tyIs64 f.ty), b := .reg (tyIs64 f.ty),
          c := .reg (tyIs64 f.ty), bi := true, tyOk := tyIsWordLogic f.ty }
  | .cellAdd f =>
      { specMem f with lane := true, strand := true, b := .reg (tyIs64 f.ty), bi := true, tyOk := tyIsScalarFp f.ty }
  | .cellInit f =>
      { specMem f with lane := true, strand := true, b := .reg false, bi := true, fnOk := f.fn == 0 }
  | .cellRead f => { specMem f with lane := true, strand := true, d := .plain false, fnOk := f.fn == 1 }
  | .cellReadz f => { specMem f with lane := true, strand := true, d := .plain false, fnOk := f.fn == 2 }
  | .fence f => { specPlain f with strand := true, scopeOk := true, ordOk := true }
  | .pref f =>
      { specMem f with lane := true, fnOk := fnBelow f 2, scopeOk := f.scope == .core, ordOk := f.ord == .rlx }
  | .qcfg f =>
      { specPlain f with
          strand := true, short := false, a := .reg false, b := .reg false, bi := true,
          immOk := f.imm16.toNat < 8 }
  | .qctl f => { specPlain f with strand := true, d := .reg false, fnOk := fnBelow f 6, immOk := f.imm16.toNat < 8 }
  | .tkacq f =>
      { specPlain f with strand := true, d := .plain false, a := .reg true, fnOk := fnBelow f 2, immOk := true }
  | .tkrel f => { specPlain f with strand := true, a := .reg true, immOk := true }
  | .netwr f => specNet f (.reg true) true
  | .netrd f => specNet f (.reg true) false
  | .netsend f => specNet f .none true
  | .netpost f => { specNet f (if f.fn == 1 then .reg true else .none) false with fnOk := fnBelow f 3 }
  | .cpy f =>
      { specPlain f with
          strand := true, short := false, d := .plain false, a := .quad, b := .reg false, fnOk := fnBelow f 4,
          cacheOk := true, hzOk := true }
  | .collBar f => specColl f 0
  | .collRed f => specColl f 1
  | .collBcast f => specColl f 2
  | .collGather f => specColl f 3
  | .collAbort f => specColl f 4
  | .emit f => { specPlain f with lane := true, a := .payload, b := .reg false, bi := true }
  | .spawn f =>
      { specPlain f with
          strand := true, short := false, d := if f.fn == 1 then .pred else .none, tgt := true,
          fnOk := fnBelow f 2, immOk := true }
  | .cancel f => { specPlain f with strand := true, d := .reg false, a := .reg false }
  | .wcnt f => { specPlain f with strand := true, d := .reg false, a := .reg false, fnOk := fnBelow f 2 }
  | .fmma f =>
      { specFil f 7 with short := false, a := .quad, b := .quad, c := .triple, immOk := f.imm16.toNat < 16 }
  | .fdrain f => specFil f 5
  | .fmerge f => specFil f 4
  | .fzeroBank f => { specFil f 5 with fnOk := f.fn == 0 }
  | .fzeroTile f => { specFil f 4 with fnOk := f.fn == 1, immOk := f.imm16.toNat < 16 }
  | .facc f =>
      { specFil f 4 with
          short := false, a := .reg false, b := .reg false, c := .reg false, fnOk := fnBelow f 3,
          immOk := f.imm16.toNat < 16 }
  | .fcfg f => { specPlain f with strand := true, a := .reg false }
  | .claspset f => { specPlain f with strand := true, d := .reg false, aux := true }
  | _ => {}

/-- What is wrong with an instruction's fields: an ILLEGAL field number (R241), or PRIV (R242). -/
inductive FieldError where
  | illegal (field : Nat)
  | priv
  deriving DecidableEq, Repr

/-- The literal is B's value: present in an instruction without a target (R233). -/
def litIsB (sp : FieldSpec) (f : Fields) : Bool := f.hasLit && !sp.tgt

/-- The first failing check of R241, in its order, for the fields `f` of an entry `sp`. Field 17 with ORD 5 to 7
is found before `MemOrd` exists, in the decoder. -/
def fieldError (sp : FieldSpec) (f : Fields) : Option FieldError :=
  if !(if f.strand then sp.strand else sp.lane) then some (.illegal 1)
  else if !f.long && !sp.short then some (.illegal 2)
  else if !kindOk f.strand sp.d f.d.toNat then some (.illegal 3)
  else if !kindOk f.strand sp.a f.a.toNat then some (.illegal 4)
  else if (if litIsB sp f then f.b != 0 else if f.imm && sp.b != .none then false
           else !kindOk f.strand sp.b f.b.toNat) then some (.illegal 5)
  else if f.imm && (!sp.bi || litIsB sp f) then some (.illegal 6)
  else if !kindOk f.strand sp.c f.c.toNat then some (.illegal 8)
  else if f.ea && !kindIsReg sp.a then some (.illegal 9)
  else if f.eb && (!kindIsReg sp.b || f.imm || litIsB sp f) then some (.illegal 10)
  else if f.ec && !kindIsReg sp.c then some (.illegal 11)
  else if sp.priv then some .priv
  else if !sp.fnOk then some (.illegal 12)
  else if !sp.tyOk then some (.illegal 13)
  else if !sp.mdOk then some (.illegal 14)
  else if !sp.immOk || (sp.tgt && f.hasLit && f.imm16 != 0) then some (.illegal 15)
  else if !sp.scopeOk then some (.illegal 16)
  else if !sp.ordOk then some (.illegal 17)
  else if !sp.cacheOk then some (.illegal 18)
  else if !sp.hzOk then some (.illegal 19)
  else if (if sp.aux then 64 ≤ f.aux.toNat else f.aux != 0) then some (.illegal 20)
  else if f.hasLit && !sp.bi && !sp.tgt then some (.illegal 21)
  else none

/-- The fields of words 1 and 2 that a short form supplies (R229). -/
def shortOk (op : Nat) (f : Fields) : Bool :=
  f.long ||
  (f.g == 0 && f.c == 0 && !f.ea && !f.eb && !f.ec && f.fn == 0 && f.ty == defaultTy op && f.md == 0 &&
   f.imm16 == 0 && f.scope == (if usesScope op then .dev else .core) && f.ord == .rlx && f.cache == 0 &&
   !f.hz && f.aux == 0)

end Sys2Proof
end

