-- ==== Sys2Proof/Machine/State.lean ====
section
/-! DEFINITION. The state of one device: everything the spec gives the machine, as plain data. Sparse parts are lists by
rising key (`SMap`); a key that is not listed reads as the default of its type. -/
namespace Sys2Proof.Machine

/-! ### Registers and waits -/

/-- The three conditions of a v or s register (R100). -/
inductive RegState where
  | full | pending | vacant
  deriving DecidableEq, Repr

/-- One 32-bit register word with its full/empty condition (R100) and its poison mark (R188). -/
structure RegCell where
  val : Word
  st : RegState
  poison : Bool
  deriving DecidableEq, Repr

/-- The stall classes of R86, in the order of their codes 1 to 16. -/
inductive WaitClass where
  | halt | trap | preempt | barrier | regang | clasp | batch | horizon | queue | mailbox | register | allowance
  | slot | fetch | pipe | notsel
  deriving DecidableEq, Repr

/-- What a blocked operation waits on in a blocking order (R101, R103, R187). -/
inductive WaitObj where
  | qpop (n : Nat) | qpush (n : Nat) | mread (n : Nat) | mwrite (n : Nat)
  deriving DecidableEq, Repr

/-- An instruction that has arrived somewhere and is finished by an event, with the register D and the PC of the next
instruction: BAR at barrier `n`, a joint operation, SYS. The split does not try it again. `deliver` is a result that still
has to be written to a mailbox, `claspFault` the fault of a waiter whose clasp a member has broken in a cycle (R98). -/
inductive Park where
  | barrier (n : Nat) (d : Nat) (next : Pc)
  | joint (d : Nat) (next : Pc)
  | sys (d : Nat) (next : Pc)
  | deliver (d : Nat) (val : Word) (next : Pc)
  | claspFault (value : Word) (offender since : Nat)
  deriving DecidableEq, Repr

/-- The fetch of an instruction that is not ready at once (R243): at the service since a cycle, asked for at a remote home
with the bytes that have come by offset, or failed with a cause at an address. -/
inductive FetchSt where
  | atService (va : DWord) (since detail : Nat)
  | asked (reqs : List Nat) (bytes : SMap Byte)
  | failed (code : Nat) (detail : Word) (va : DWord)
  deriving DecidableEq, Repr

/-- The tag of a sampled instruction (R192, R193). -/
structure Sample where
  pc : Pc
  opc : BitVec 7
  strandSide : Bool
  tclass : Nat
  active : Word
  /-- ISN in the lowest slice that takes part; 0 for an instruction that is not fallible. -/
  isn : Nat
  wait : Nat
  issued : Nat
  deriving DecidableEq, Repr

/-- One split-table entry (R95): SLOT, SMASK, PC, JSTK (bottom first, DEPTH is its length), RGW, STAMP (the whole core
cycle of the last issue; bits [47:0] and the age bound of R85 are taken when it is read). The other fields are the
model's record of why the split does not issue (R86). -/
structure Split where
  slot : Nat
  smask : BitVec 8
  pc : Pc
  jstk : List (BitVec 8)
  rgw : Bool
  stamp : Nat
  /-- The class recorded at the last try (R86). -/
  cls : Option WaitClass
  /-- One more than the cycle of the last try to issue; 0 before the first. -/
  tried : Nat
  /-- The place in a blocking order: object and sequence number (R187). -/
  blocked : Option (WaitObj × Nat)
  /-- The deschedule stamp and the slots waited on (R87). -/
  desched : Option (Nat × List Nat)
  /-- First cycle at which YIELD lets the split issue again (R293). -/
  yieldTo : Nat
  parked : Option Park
  /-- The instruction at this PC issues once without halting on its breakpoint (R198). -/
  bpSkip : Bool
  /-- The split waits in class SLOT at a SPAWN (R83). -/
  spawnWait : Bool
  /-- The instruction at this PC repeats one that raised PIPE (R185). -/
  replay : Bool
  /-- A fetch under way, with the PC it is for. -/
  fetch : Option (Pc × FetchSt)
  /-- The sampled instruction that the split has issued and waits in (R192). -/
  held : Option Sample
  /-- While the core serves blocked operations (R101, R103): the split has been tried, and whether its scheduler has chosen it (the
  model's own). -/
  turn : Option Bool
  /-- The split has entered its handler and not issued the handler's first instruction (R86). -/
  entering : Bool
  /-- The class in which the split was reported in the last cycle, 0 when it issued in it (R86, R193). -/
  reported : Nat
  deriving DecidableEq, Repr

/-! ### Strands -/

/-- The states of a slot that holds a strand (R84). -/
inductive SlotPhase where
  | live | linger | ending
  deriving DecidableEq, Repr

/-- A cause that has arisen (R174, R175) and has not been entered. -/
structure Cause where
  code : Nat
  detail : Word
  faddr : DWord
  /-- FPC and SPC of the record (R178). -/
  pc : Pc
  spc : Pc
  active : Word
  flanes : Word
  /-- Slices of the issuing split. -/
  smask : BitVec 8
  /-- Lowest slice with an active lane and its next ISN. -/
  fslice : Nat
  fisn : BitVec 16
  rpl : Bool
  /-- The service saw the fault first (R177). -/
  svc : Bool
  /-- The cycle in which it arose (R183). -/
  cycle : Nat
  deriving DecidableEq, Repr

/-- The trap record (R178), by its fields; `prov` holds the listed entries of R179. -/
structure TrapRec where
  cause : Nat
  hzf : Bool
  ling : Bool
  svc : Bool
  povf : Bool
  rpl : Bool
  fisn : BitVec 16
  fslice : Nat
  fpc : Pc
  spc : Pc
  active : Word
  flanes : Word
  faddr : DWord
  detail : Word
  exited : Word
  nesc : Nat
  nblk : Nat
  nflt : Nat
  splits : List (Nat × Split)
  prov : List DWord
  /-- The interrupted entry of the faulting split, which resumes at SPC. -/
  fentry : Option Nat
  deriving DecidableEq, Repr

/-- The stop record (R199). -/
structure StopRec where
  reason : Nat
  bp : Nat
  depth : Bool
  nsplit : Nat
  cycle : Nat
  pc : Pc
  smask : BitVec 8
  /-- The keys of the debuggers that have halted the strand (R200). -/
  holders : List (BitVec 384)
  deriving DecidableEq, Repr

/-- A SYS request of a strand (R296): code, block address, the register D, the sequence number, whether the service has
taken it, the cycle from which the service may act, and the reply once given. -/
structure SysReq where
  code : BitVec 16
  va : DWord
  d : Nat
  entry : Nat
  seq : Word
  taken : Bool
  due : Nat
  /-- LEN of the block, once the service has read it. -/
  len : Nat
  reply : Option (Nat × List Byte)
  /-- Bytes of a remote block that have come, by fabric address; the requests for its bytes that are outstanding; one of them
  failed. -/
  far : SMap Byte
  asked : List Nat
  lost : Bool
  /-- The reply has been written into the block. -/
  written : Bool
  deriving DecidableEq, Repr

/-- A strand in its slot (R84, R93, R99, R106, R153, R186). v register `r` of lane `l` has key 32 × r + l. -/
structure Strand where
  phase : SlotPhase
  ctx : Nat
  lcnt : Nat
  slices : Nat
  dmr : Bool
  v : SMap RegCell
  s : SMap RegCell
  /-- k1 to k7, bit l for lane l. -/
  k : SMap Word
  /-- g1 to g7 in bits 1 to 7. -/
  g : BitVec 8
  exited : Word
  /-- Lanes that EXIT has marked inside the handler (R284). -/
  hexit : Word
  /-- Next ISN of each slice. -/
  nisn : SMap (BitVec 16)
  fpflags : BitVec 6
  /-- The cycle in which engines last raised flags, and these flags (R262). -/
  engFlags : Option (Nat × BitVec 6)
  fpmode : BitVec 3
  batch : BitVec 16
  clatch : Option Word
  /-- The record of the trap being handled: present exactly at handler depth 1 (R175). -/
  handling : Option TrapRec
  /-- Ids of the delivered and the other faulted operations of that trap. -/
  trapOps : List Nat
  /-- The number the next operation had when the handler was entered; operations before it are the interrupted
  program's (R175). -/
  trapMark : Nat
  /-- The last trap record, kept as R186 saves it. -/
  lastRec : Option TrapRec
  /-- A precise cause that has arisen and not been entered. -/
  arisen : Option Cause
  /-- The code of the fatal termination, in ENDING (R181). -/
  fatal : Option Nat
  /-- The cycle of a CANCEL that takes effect at the next instruction boundary (R183, R299). -/
  cancelNext : Option Nat
  halted : Option StopRec
  /-- Instructions a stepped RESUME still issues, and the key of its debugger (R200). -/
  steps : Option (Nat × BitVec 384)
  sysSeq : Word
  sys : Option SysReq
  /-- Stall counters: key 0 ISSUED, keys 1 to 16 the classes (R194). -/
  stalls : SMap Nat
  deriving DecidableEq, Repr

/-! ### Operations in flight -/

/-- A leaf entry as a walk or a TLB gives it (R121, R122, R126): context, virtual base, log2 of the page size, the two
words, and the number of the walk that found it. -/
structure Leaf where
  ctx : Nat
  base : Nat
  bits : Nat
  w0 : DWord
  w1 : DWord
  deriving DecidableEq, Repr

/-- Where an access goes after translation. -/
inductive Place where
  /-- Device memory at a physical address, with CATTR. -/
  | dev (pa : Nat) (cattr : Nat)
  /-- A fabric address (R28), token-cached or not. -/
  | fab (addr : Nat) (tkc : Bool)
  /-- The on-chip physical map (R113). -/
  | chip (pa : Nat)
  deriving DecidableEq, Repr

/-- The condition of one access. -/
inductive AccState where
  /-- Not yet translated: the service has the translation fault since a cycle (R177). -/
  | atService (since : Nat) (detail : Nat)
  /-- Translated and checked; may be performed from the cycle `due` on. -/
  | ready (due : Nat)
  /-- In a fabric request. -/
  | sent (req : Nat)
  | settled
  | faulted (code : Nat) (detail : Word) (addr : DWord) (cycle : Nat)
  /-- Discarded (R180, R181). -/
  | dropped
  deriving DecidableEq, Repr

/-- One access of an operation: the lanes it stands for, its address, its translation and its data. -/
structure Access where
  lanes : Word
  va : DWord
  /-- The ordinary virtual address behind it: another one in the private window (R111). -/
  eva : Nat
  place : Option Place
  /-- The leaf, kept for formatted pages (R306). -/
  leaf : Option Leaf
  /-- Store data, atomic operand, expected value. -/
  data : DWord
  /-- New value of CAS. -/
  data2 : DWord
  st : AccState
  /-- The service saw it first (R177, SVC). -/
  svc : Bool
  /-- Its translation was not in the core's TLB (R193). -/
  walked : Bool
  deriving DecidableEq, Repr

/-- The kinds of operation of R179, and the engine operations that are not fallible. -/
inductive OpKind where
  | load | store | atom | cas | cell | cpy | net | coll | tkacq | tkrel | fmma | fil
  deriving DecidableEq, Repr

/-- Why an operation may not become visible yet (R140). -/
inductive Gate where
  | none | release | hz
  deriving DecidableEq, Repr

/-- Where a run of bits lies. -/
inductive Spot where
  | mem (p : Place)
  | spad (a : Nat)
  deriving DecidableEq, Repr

/-- A run of bits to copy, from bit offsets at two spots; `va` names it in a fault. -/
structure Move where
  src : Spot
  sbit : Nat
  dst : Spot
  dbit : Nat
  n : Nat
  va : DWord
  deriving DecidableEq, Repr

/-- A granule tag (R116). -/
structure Tag where
  fmt : Nat
  blk : Nat
  sp : Nat
  comp : Nat
  deriving DecidableEq, Repr

/-- How the chunks of a copy lie in its destination (R336): the bit at which its codes start, the bits that some elements take, and
the elements of a block. -/
structure CpyShape where
  start : Nat
  bits : Nat
  elems : Nat
  block : Nat
  deriving DecidableEq, Repr

/-- A chunk that a .hz copy has translated, checked and read (R140, R336): its number, its moves, the tags it writes, its bytes. -/
structure CpyKept where
  chunk : Nat
  moves : List Move
  tags : List (Nat × Tag)
  got : SMap Byte
  deriving DecidableEq, Repr

/-- The work of a copy-engine operation (R334 to R336): sides, count, the shape of its chunks, those not yet started, and the
chunk in progress. -/
structure CpyWork where
  fn : Nat
  src : DWord
  dst : DWord
  count : Nat
  comp : Nat
  /-- Known once the format of the memory side is. -/
  shape : Option CpyShape
  /-- The address of the first element whose scratchpad bytes lie outside the reservation: chunks before it are performed, then
  the copy faults (R334). -/
  past : Option DWord
  /-- A .hz copy translates, checks and reads every chunk before it writes any (R140). -/
  dry : Bool
  /-- What the chunks have reached so far (R193). -/
  reach : List Nat
  /-- Chunk numbers not yet performed. -/
  todo : List Nat
  /-- The chunks that a .hz copy has ready. -/
  kept : List CpyKept
  /-- The chunk in progress, once started. -/
  cur : Option Nat
  /-- Its moves, with their translations, and the granule tags it writes. -/
  moves : List Move
  tags : List (Nat × Tag)
  /-- Whether the remote writes of the current chunk have been sent. -/
  writing : Bool
  due : Nat
  /-- Place in a blocking order of a mailbox or queue port (R187). -/
  blocked : Option (Nat × WaitObj × Nat)
  deriving DecidableEq, Repr

/-- The work of a network operation (R340, R341): `what` is 0 a write, 1 a read, 2 a send, 3 a message for a .recv request
(its whole length stands in `peer`), 4 the entry of a NETPOST, whose function stands in the fields. -/
structure NetWork where
  what : Nat
  conn : Nat
  tag : Nat
  len : Nat
  buf : DWord
  peer : DWord
  /-- Cycle at which the message left. -/
  sent : Option Nat
  deriving DecidableEq, Repr

/-- What an operation does beyond its accesses. -/
inductive Work where
  | mem
  | cpy (w : CpyWork)
  | net (w : NetWork)
  /-- The quad of the COLL (R337). -/
  | coll (quad : List Word)
  | token (region : Nat) (excl : Bool)
  | fil (id : Nat)
  deriving DecidableEq, Repr

/-- A charge of the send allowance (R41, R87): destination slot, epoch of its binding, units, the lanes whose accesses it stands
for, and whether it is still to be returned. -/
structure Charge where
  slot : Nat
  epoch : Nat
  units : Nat
  lanes : Word
  owed : Bool
  deriving DecidableEq, Repr

/-- An operation issued and not yet passed by every horizon or not yet complete (R105, R106, R179, R321). -/
structure Op where
  id : Nat
  core : Nat
  slot : Nat
  ctx : Nat
  kind : OpKind
  pc : Pc
  /-- PC of the next instruction of the split at issue (SPC, R178). -/
  npc : Pc
  opc : BitVec 7
  fields : Fields
  /-- Slices of the issuing split. -/
  smask : BitVec 8
  /-- The ISN taken in each slice (R106). -/
  isns : List (Nat × BitVec 16)
  /-- Lanes that took part, and the active lanes at issue. -/
  lanes : Word
  active : Word
  /-- Lanes that have settled. -/
  settled : Word
  accs : List Access
  gate : Gate
  acq : Bool
  sc : Bool
  scope : Scope
  /-- FPMODE at issue. -/
  fpmode : BitVec 3
  work : Work
  /-- Complete as R321 says (engine operations), or every lane settled, faulted or dropped. -/
  complete : Bool
  /-- Discarded by TRET or termination. -/
  discarded : Bool
  batch : Option (BitVec 16)
  /-- A replay of PIPE (R185). -/
  replay : Bool
  charge : List Charge
  sample : Option Sample
  /-- Bytes an engine has read for the operation, by offset in its buffer or chunk. -/
  got : SMap Byte
  /-- Fabric requests of the engine outstanding. -/
  waits : List Nat
  /-- The token value to write once the requests have been answered. -/
  tok : Option Word
  /-- The REGANG merges since its issue (R129): the slices of the merged split, and the number the next operation had. -/
  merges : List (BitVec 8 × Nat)
  deriving DecidableEq, Repr

/-! ### Core state -/

/-- A mailbox (R101). -/
structure Mailbox where
  val : Word
  full : Bool
  poison : Bool
  /-- TSEQ of its blocking order (R187). -/
  tseq : Nat
  deriving DecidableEq, Repr

/-- A queue descriptor (R102) and the TSEQ of its blocking order (R187). -/
structure QueueDesc where
  en : Bool
  base : Nat
  size : Nat
  head : Word
  tail : Word
  tseq : Nat
  /-- Cycle of the last push or pop, and HEAD and TAIL at the start of that cycle: blocked operations are evaluated
  against these (R103, R356). -/
  snapAt : Nat
  snapHead : Word
  snapTail : Word
  deriving DecidableEq, Repr

/-- One K index that a bank has counted: the operation, the cells it was counted in and the decoded source values (R170). -/
structure KStep where
  fil : Nat
  k : Nat
  cells : List Nat
  rows : List Word
  cols : List Word
  deriving DecidableEq, Repr

/-- A count bank (R159): its descriptor and its counters. In counting mode counter n of cell c has key 30 × c + n; in
integer mode the integer of cell c has key 30 × c (R164). The K indices it holds are kept for recheck (R170). -/
structure Bank where
  live : Bool
  integer : Bool
  steps : Nat
  tile : Nat
  scale : Int
  counts : SMap Int
  /-- Cells with a parity error (R188). -/
  bad : List Nat
  klog : List KStep
  deriving DecidableEq, Repr

/-- A bin (R80) with its records of four words (R81) and the held expiry. -/
structure Bin where
  en : Bool
  thr : Nat
  tmr : Nat
  tlc : Nat
  left : Nat
  ton : Bool
  expired : Bool
  recs : List (List RegCell)
  deriving DecidableEq, Repr

/-- A barrier entry (R289). -/
structure BarEntry where
  isOpen : Bool
  bound : Bool
  scope : Scope
  lcnt : Nat
  expect : Nat
  ord : MemOrd
  arr : Nat
  term : Nat
  abt : Bool
  wait : Word
  gen : BitVec 16
  /-- Slots whose strand has arrived in the open instance. -/
  arrived : Word
  /-- Arrived participants that have terminated in this cycle (R290). -/
  late : Nat
  deriving DecidableEq, Repr

/-- A destination of the send allowance (R287). -/
inductive Dest where
  | fabric (target : Nat) | group (desc : Nat)
  deriving DecidableEq, Repr

/-- A destination slot (R41): binding, credit measure, ceiling, cycle of the last mark or growth, and a count of its
binds, by which replies to earlier charges are told apart (R287). -/
structure DstSlot where
  bind : Option Dest
  credit : Int
  ceiling : Nat
  since : Nat
  epoch : Nat
  /-- One more than the cycle of the last DSTBIND, and the slot of its strand (R287). -/
  boundAt : Nat
  boundBy : Nat
  deriving DecidableEq, Repr

/-- A launch's reservation on a core (R76), with what the launch's strands start with (R79). -/
structure Resv where
  lcnt : Nat
  ctx : Nat
  base : Nat
  spad : Nat
  queues : BitVec 8
  mbox : Word
  bins : BitVec 16
  recl : Bool
  slices : Nat
  dmr : Bool
  entry : Pc
  nstrand : Nat
  params : BitVec 448
  deriving DecidableEq, Repr

/-- A member that has arrived at a joint operation (R98, R326): its slot, its split entry, the instruction words that
are compared and the register values they name, with AUX and D. -/
structure ClaspArrival where
  slot : Nat
  entry : Nat
  opc : BitVec 7
  fields : Fields
  vals : List Word
  deriving DecidableEq, Repr

/-- A joint operation that gathers (R98). -/
structure Clasp where
  value : Word
  arrived : List ClaspArrival
  deriving DecidableEq, Repr

/-- A Filigree operation in the array's queue (R327): the operations that stand for it (one a member), the instruction
and the register values read at issue, the gather list, and the progress of an FMMA as its next K index. -/
structure FilOp where
  id : Nat
  ctx : Nat
  lcnt : Nat
  /-- Slot of the issuer (first-listed member). -/
  slot : Nat
  ops : List Nat
  opc : BitVec 7
  fields : Fields
  vals : List Word
  gather : List Nat
  base : Nat
  spad : Nat
  nextK : Nat
  started : Bool
  due : Nat
  sampled : Bool
  batch : BitVec 16
  pc : Pc
  /-- Elements that a checker mismatch of this operation has poisoned: accumulator index, or 2^20 + scratchpad word. -/
  marked : List Nat
  deriving DecidableEq, Repr

/-- A recheck in progress (R170): the sampled FMMA and the tile value of each element of its shape when it began, with what the
reference follows since. -/
structure Recheck where
  fil : Nat
  ctx : Nat
  bankB : Bool
  m : Nat
  n : Nat
  tile : Nat
  row0 : Nat
  col0 : Nat
  lcnt : Nat
  strand : Nat
  pc : Pc
  batch : BitVec 16
  ref : SMap Word
  /-- Slots of the members that have not retired. -/
  members : List Nat
  /-- The K indices the reference follows: those of the sampled operation, and those its bank has taken since. -/
  log : List KStep
  /-- The accumulators at the drain that ends it. -/
  taken : Option (SMap Word)
  deriving DecidableEq, Repr

/-- A scratchpad word that a strand's store has overwritten and that an engine may still read (R142, R324): core, slot and slices of the
store, the word, the old value, and the number of the first operation that an OPFENCE keeps from it. -/
structure StaleWord where
  core : Nat
  slot : Nat
  smask : BitVec 8
  word : Nat
  old : Word
  till : Option Nat
  deriving DecidableEq, Repr

/-- A core (R84 to R108): its slots and splits, and the core state of the context resident on it. -/
structure Core where
  slots : SMap Strand
  splits : SMap Split
  mbox : SMap Mailbox
  queues : SMap QueueDesc
  /-- Scratchpad bytes by core-absolute address (R109, R115). -/
  spad : SMap Byte
  /-- Poisoned scratchpad words. -/
  spadPoison : List Nat
  tags : SMap Tag
  /-- Accumulator elements by tile × 4,096 + i × 64 + j (R117). -/
  acc : SMap Word
  accPoison : List Nat
  bankA : Bank
  bankB : Bank
  bins : SMap Bin
  barriers : SMap BarEntry
  dst : SMap DstSlot
  resvs : List Resv
  clasps : List Clasp
  fil : List FilOp
  /-- Operations that have faulted: the array keeps their inputs for a replay (R180, R331). -/
  filFaulted : List FilOp
  /-- Recheck setting and FMMA count of each context (R170, R333). -/
  recheck : SMap (Nat × Nat)
  rechecks : List Recheck
  /-- Instructions counted for sampling, of each context (R192). -/
  samples : SMap Nat
  tlb : List Leaf
  /-- Window contents this core still uses: remaps whose point it has not passed (R31). -/
  oldWin : SMap (BitVec 128)
  /-- Invalidations whose point it has not passed (R127). -/
  invs : List Nat
  /-- Schedulers that have issued in this cycle. -/
  issued : List Nat
  /-- Slots of which a split has issued in this cycle (R194). -/
  issuedSlots : List Nat
  /-- Blocked operations have their turn in this cycle before the others (R101, R103; the model's own). -/
  serving : Bool
  /-- Cycle of the collector's stop request, and whether every engine has acknowledged (R184). -/
  stopReq : Option Nat
  engAck : Bool
  deriving DecidableEq, Repr

/-! ### Clusters, contexts, launches -/

/-- A store that a cluster cache has accepted and the home die cache has not (R118, R133): its first physical address,
its bytes, and the cycle from which the home may accept it. -/
structure ClStore where
  pa : Nat
  bytes : List Byte
  gid : Nat
  due : Nat
  /-- A relaxed store that follows no release fence of its strand: an acquire that reads it synchronises with nothing (R135). -/
  plain : Bool
  /-- The home has accepted a store that the cluster accepted later: other clusters may have seen what follows this one (R136). -/
  passed : Bool
  deriving DecidableEq, Repr

/-- What the collectors of a cluster do (R91, R184). -/
inductive Collector where
  | idle
  /-- Saving the resident; afterwards the cluster is taken by a context, where one is named. -/
  | saving (next : Option Nat)
  | restoring (ctx : Nat)
  deriving DecidableEq, Repr

/-- A cluster (R89 to R91). -/
structure Cluster where
  run : Option Nat
  resident : Option Nat
  last : Nat
  coll : Collector
  collDue : Nat
  weight : SMap Nat
  deficit : SMap Int
  /-- Instructions issued in this cycle by the owner's strands (R90). -/
  charge : Nat
  stores : List ClStore
  tlb : List Leaf
  deriving DecidableEq, Repr

/-- A breakpoint (R198): PC, enable, filter (a strand, or all), and the key of the debugger that set it (R200). -/
structure Breakpoint where
  pc : Pc
  en : Bool
  filter : Option Nat
  setter : BitVec 384
  deriving DecidableEq, Repr

/-- A trace or telemetry ring (R172, R191): physical base of its header, capacity. -/
structure Ring where
  pa : Nat
  size : Nat
  deriving DecidableEq, Repr

/-- A save image on NVMe flash (R62). -/
structure FlashImage where
  cells : List Host.Cell
  poison : List Nat
  digest : BitVec 384
  deriving DecidableEq, Repr

/-- A context descriptor (R61) and what the service keeps beside it. -/
structure Ctx where
  res : Bool
  sigreq : Bool
  moving : Bool
  weight : Nat
  priomax : Nat
  jobid : Word
  cores : BitVec 192
  ptroot : BitVec 36
  imgbase : BitVec 27
  handler : Pc
  psz : Nat
  pbase : BitVec 23
  /-- CTXDESTROY waits for the strands to retire (R61), and has cancelled the context's counters. -/
  destroying : Option Req
  doomed : Bool
  /-- A page-in failed (R62). -/
  failed : Bool
  idleSince : Nat
  /-- The image while it is on flash (R62): its bytes by offset, its poisoned lines (R188), and the digest. -/
  flash : Option FlashImage
  tring : Option Ring
  trace : Option Ring
  interval : Nat
  stallRecs : Bool
  markRecs : Bool
  bps : SMap Breakpoint
  deriving DecidableEq, Repr

/-- A completion counter (R69). -/
structure Counter where
  count : Nat
  level : Nat
  cancel : Bool
  aband : Bool
  done : Bool
  parent : Option Nat
  ctx : Nat
  deriving DecidableEq, Repr

/-- A launch in its queue (R73, R74): the descriptor, the strands already placed, the core of the last one, and whether its
open hold is not yet released (R70). -/
structure Launch where
  desc : BitVec 1024
  placed : Nat
  last : Option Nat
  held : Bool
  deriving DecidableEq, Repr

/-- Work on its way to the cores (R73 to R77): queues, the queue of each priority served last, and record launches that
hold their reservations. -/
structure Sched where
  queues : SMap (List Launch)
  served : SMap Nat
  records : List Launch
  /-- Dies on which a strand has been placed in this cycle (R77). -/
  dies : List Nat
  /-- Fatal terminations of a launch on a core since it began, by launch counter × 192 + core (R288). -/
  terms : SMap Nat
  deriving DecidableEq, Repr

/-! ### Fabric, collectives, network -/

/-- What a fabric request asks for. -/
inductive FabKind where
  | read (size : Nat)
  | write (bytes : List Byte)
  | atom (fn : Nat) (ty : Ty) (operand : DWord)
  | cas (ty : Ty) (expected new : DWord)
  | cellAdd (x : Word)
  | cellInit (scale : Byte)
  | cellRead (zero : Bool)
  | tokenAcq (excl : Bool)
  | tokenRel (dirty : List (Nat × Byte))
  /-- An arrival at a collective descriptor (R370): descriptor, attempt, rank, the first two words of the quad, function, input. -/
  | coll (desc att rank : Nat) (quad0 quad1 : Word) (fn : Nat) (input : List Byte)
  deriving DecidableEq, Repr

/-- Whose request it is. -/
inductive ReqOwner where
  /-- Accesses of an operation, by index, one for each part of the request. -/
  | accesses (op : Nat) (accs : List Nat)
  /-- Bytes of an engine operation: their offset in its buffer or chunk, and their virtual address. -/
  | chunk (op : Nat) (offset : Nat) (va : DWord)
  | token (op : Nat)
  | writeBack (op : Option Nat)
  /-- The arrival of a COLL at a descriptor. -/
  | coll (op desc : Nat)
  /-- Bytes of an instruction, from an offset on, for a split. -/
  | fetch (core entry : Nat) (off : Nat)
  /-- Bytes of the block of a SYS request of a strand (R296). -/
  | block (ctx gid : Nat)
  deriving DecidableEq, Repr

/-- An outstanding fabric request (R32 to R38). -/
structure FabReq where
  id : Nat
  core : Nat
  addr : Nat
  /-- The parts of the request by fabric address: several for the lanes that share a line (R361). -/
  parts : List (Nat × FabKind)
  owner : ReqOwner
  chan : Option Nat
  port : Option Nat
  age : Nat
  first : Nat
  reissue : Option Nat
  sent : Bool
  deriving DecidableEq, Repr

/-- Messages that leave the device. -/
inductive Wire where
  | request (id : Nat) (parts : List (Nat × FabKind)) (port : Nat) (age : Nat)
  | reply (src : Nat) (status : Nat) (data : List Byte)
  | revoke (src region : Nat)
  | revokeAck (home region : Nat) (dirty : List (Nat × Byte))
  | grant (src region : Nat) (st : TokenStatus) (excl : Bool)
  | collAbort (dev desc att : Nat)
  | collAck (dev desc att : Nat)
  | withdraw (dev desc att rank : Nat)
  | remapNotice (window : Nat)
  | net (kind : Nat) (conn tag : Nat) (peer : DWord) (payload : List Byte) (len : Nat)
  deriving DecidableEq, Repr

/-- A home's directory entry for a region (R40): holders (device, exclusive, cycle of the grant), the waiting
acquisitions in arrival order, and the holders whose revocation is outstanding. -/
structure DirEntry where
  holders : List (Nat × Bool × Nat)
  queue : List (Nat × Bool)
  revoking : List Nat
  deriving DecidableEq, Repr

/-- An EXPORT that waits for revocations and requests in flight (R39). -/
structure ExportWait where
  entry : Nat
  bits : BitVec 256
  req : Option Req
  deriving DecidableEq, Repr

/-- A change of a window that waits until the device has given back its tokens for the window's old range (R31). -/
structure WindowWait where
  window : Nat
  bits : BitVec 128
  req : Option Req
  deriving DecidableEq, Repr

/-- A remap in progress (R31): the window, the generation it leaves, its old contents, the request to answer, and the
operation number each core had reached at its point. -/
structure Remap where
  window : Nat
  gen : Nat
  old : BitVec 128
  req : Option Req
  marks : SMap Nat
  deriving DecidableEq, Repr

/-- The Kwamon side of the device (R25 to R41). -/
structure Fab where
  windows : SMap (BitVec 128)
  conns : SMap (BitVec 128)
  paths : SMap (BitVec 128)
  exports : SMap (BitVec 256)
  windowWaits : List WindowWait
  remaps : List Remap
  /-- Pinned channels that wait for the old path to drain: entry, replacement (R33). -/
  switching : SMap (BitVec 128)
  reqs : List FabReq
  /-- Tokens held, by fabric address >> 21; true when exclusive (R40). -/
  tokens : SMap Bool
  /-- Acquisitions of this device at a home: region, exclusive, operations that joined. -/
  acquiring : List (Nat × Bool × List Nat)
  /-- Revocations taken while accesses under the token still run (R40). -/
  revoking : List Nat
  /-- Regions that a TKREL has in hand, with the operation (R319). -/
  releasing : List (Nat × Nat)
  /-- Bytes cached under a token, by fabric address, with their dirty mark (R147). -/
  cached : SMap (Byte × Bool)
  /-- Poisoned lines among them, by fabric address / 128 (R188). -/
  cachedPoison : List Nat
  /-- Cycle from which a write-back that failed is tried again (the model's own). -/
  cleanAt : Nat
  dir : SMap DirEntry
  exportWaits : List ExportWait
  wire : List Wire
  deriving DecidableEq, Repr

/-- The states of a collective descriptor (R42). -/
inductive CollState where
  | idle | running | aborting
  deriving DecidableEq, Repr

/-- An arrival at a descriptor (R44, R338): rank, input, and the operation when the member is of this device. -/
structure Arrival where
  rank : Nat
  input : List Byte
  op : Option Nat
  /-- Cycle of the arrival. -/
  since : Nat
  deriving DecidableEq, Repr

/-- The attempt in progress (R338). -/
structure Attempt where
  fn : Nat
  dtype : Nat
  op : Nat
  count : Nat
  root : Nat
  noRoot : Bool
  arrivals : List Arrival
  /-- Devices whose acknowledgement is outstanding. -/
  acks : List Nat
  since : Nat
  deriving DecidableEq, Repr

/-- An edit that waits for IDLE (R44). -/
inductive CollEdit where
  | setUp (ctx : Nat) (members : List Member)
  | add (members : List Member)
  | remove (members : List Member)
  deriving DecidableEq, Repr

/-- An abort that has reached a descriptor in this cycle: whether this device has to send it, and the devices that have acknowledged it
already (R45, R339, R370). -/
structure AbortDue where
  own : Bool
  acked : List Nat
  deriving DecidableEq, Repr

/-- A collective descriptor (R42) with its member list. -/
structure CollDesc where
  state : CollState
  att : BitVec 16
  arr : Nat
  wdr : Nat
  drop : Nat
  ctx : Nat
  members : List Member
  attempt : Option Attempt
  abort : Option AbortDue
  /-- Operations that have not arrived and wait for the end of an abort (R45, R338). -/
  waiting : List Nat
  edits : List (CollEdit × Req)
  deriving DecidableEq, Repr

/-- A pre-posted request (R51, R340 to R342): kind 0 .recv, 1 .wr, 2 .send, and where its token goes. -/
structure Post where
  conn : Nat
  tag : Nat
  kind : Nat
  len : Nat
  buf : DWord
  peer : DWord
  core : Nat
  slot : Nat
  ctx : Nat
  d : Nat
  /-- The triggered operation's number, once a message has started it. -/
  fired : Option Nat
  deriving DecidableEq, Repr

/-- The network engine's tables (R51, R341). -/
structure Net where
  posts : List Post
  received : List (Nat × Nat × List Byte)
  dropped : Nat
  deriving DecidableEq, Repr

/-! ### Service, power, physical condition -/

/-- An admitted claim of an open election window (R55). -/
structure Claim where
  req : Req
  term : DWord
  key : BitVec 768
  keyHash : BitVec 384
  /-- SHA-384 of the signed bytes, which extends MEAS5. -/
  digest : BitVec 384
  deriving DecidableEq, Repr

/-- A reply that leaves the service for a host (R58, R59). -/
structure Reply where
  sender : Sender
  seq : Word
  code : BitVec 16
  status : Nat
  args : List Byte
  deriving DecidableEq, Repr

/-- An error-log record (R189). -/
structure LogRec where
  kind : Nat
  sev : Nat
  ctx : Nat
  core : Nat
  strand : Nat
  loc : Nat
  cycle : Nat
  synd : Word
  deriving DecidableEq, Repr

/-- An invalidation in progress (R127): id, context, virtual range, the request to answer, the frames to give back, and the
operation number each core had reached at its point. -/
structure Inval where
  id : Nat
  ctx : Nat
  lo : Nat
  hi : Nat
  req : Option Req
  frames : List (Nat × Nat)
  marks : SMap Nat
  deriving DecidableEq, Repr

/-- The Linzel service (R52 to R67, R189, R200). -/
structure Svc where
  running : Bool
  meas : SMap (BitVec 384)
  owner : Option (BitVec 384)
  ownerKey : BitVec 768
  term : DWord
  claims : List Claim
  flashLocked : Bool
  replies : List Reply
  log : List LogRec
  grants : List (BitVec 384 × Nat)
  invals : List Inval
  /-- Next free 4 KiB frame of each stack, and the stack of the next frame (R112). -/
  nextFrame : SMap Nat
  rotation : Nat
  /-- Runs of physical bytes given back: base and length (R61, R62, R127). -/
  freeFrames : List (Nat × Nat)
  /-- Runs allocated: the context, base and length (R60, R61). -/
  owned : List (Nat × Nat × Nat)
  deriving DecidableEq, Repr

/-- The phase of start-up (R20). -/
inductive BootPhase where
  | off | railsUp | held | romFailed | booting | running
  deriving DecidableEq, Repr

/-- The carrier power controller and the module's power (R18 to R24). Temperatures are in milli-degrees Celsius. -/
structure Power where
  vin : Bool
  /-- VIN lies in its range. -/
  vinOk : Bool
  pwrEn : Bool
  pwrGood : Bool
  rstN : Bool
  phase : BootPhase
  trip : Nat
  boot : Nat
  tdie : Nat
  limit : Nat
  clockPower : Nat
  clockTherm : Nat
  cool : Nat
  alertN : Bool
  /-- SMB_ALERT_N (R18): the spec says nothing that drives it (log entry 2). -/
  smbAlertN : Bool
  temps : List Nat
  watts : Nat
  /-- The clock in force when this 1 ms window began, and what has been judged in it: the power, the temperatures (R23, R24). -/
  windowClock : Nat
  powerSeen : Bool
  thermSeen : Bool
  /-- The number of this start's free values, once the service has started, and the cycles at which the core clock has changed since
  (R190). -/
  started : Option Nat
  changes : List Nat
  deriving DecidableEq, Repr

/-- A Kwamon port (R15, R26, R27, R67). -/
structure Port where
  up : Bool
  node : Nat
  reach : List Nat
  credits : Nat
  miswired : Bool
  spareUsed : Nat
  retraining : Bool
  deriving DecidableEq, Repr

/-- Physical condition (R11 to R15, R66, R67). -/
structure Phys where
  deviceId : Nat
  /-- Spare lanes used of each die boundary, and the lanes lost since they were exhausted (R11). -/
  laneUsed : SMap Nat
  degraded : SMap Nat
  ports : SMap Port
  /-- Endpoints at the root port: the NVMe ones, and the others, which are left disabled (R16). -/
  nvme : List Nat
  disabled : List Nat
  retired : List Nat
  rowsUsed : SMap Nat
  /-- Spare cores used per compute die, and the logical cores that run on one (R66). -/
  coresUsed : SMap Nat
  onSpare : List Nat
  /-- Logical cores that a spare is to take over once they are pre-empted (R66). -/
  bringIn : List Nat
  /-- Logical cores lost because no spare was left (R66). -/
  lostCores : List Nat
  /-- Logical cores that the service has to bring a spare in for (R66). -/
  suspect : List Nat
  /-- Cycle from which a spare runs a logical core (R66). -/
  spareSince : SMap Nat
  deriving DecidableEq, Repr

/-- Bytes of device memory that a write has overwritten (R137): in the view of one cluster, whose cache accepted it, or at the home,
which changes the view of every cluster that held no store there; whether an acquire that reads the write synchronises. -/
structure PastWrite where
  cluster : Option Nat
  apart : List Nat
  pa : Nat
  old : List Byte
  plain : Bool
  deriving DecidableEq, Repr

/-- What a strand's plain reads may still return (R132, R137): they are not older than a point of the past writes, nor, in an 8-byte
word, than what the strand has read or written there; and whether the strand has passed a release fence (R139). -/
structure View where
  floor : Nat
  seen : SMap Nat
  fenced : Bool
  deriving DecidableEq, Repr

/-- A saved image of a context on a core (R184, R186, R187). -/
structure Image where
  ctx : Nat
  core : Nat
  data : Core
  /-- Operations continued across the pre-emption (R184). -/
  ops : List Op
  deriving DecidableEq, Repr

/-- The machine. -/
structure State where
  power : Power
  /-- What the boot flash holds, and whether it has been told: by the first release of reset, or by an update (R16, R17, R52). -/
  bootFlash : BootStage
  flashKnown : Bool
  phys : Phys
  svc : Svc
  fab : Fab
  coll : SMap CollDesc
  net : Net
  ctxs : SMap Ctx
  counters : SMap Counter
  sched : Sched
  clusters : SMap Cluster
  /-- Device memory in canonical form: addresses strictly rising, no entry equal to what an unlisted address reads as. -/
  mem : List Host.Cell
  /-- Poisoned 128-byte lines of device memory (R188). -/
  poison : List Nat
  /-- The writes to device memory that plain reads may still miss, oldest first, and what each strand may miss (the model's own). -/
  past : List PastWrite
  views : SMap View
  /-- Scratchpad words that an engine may still read old (R142; the model's own). -/
  stale : List StaleWord
  cores : SMap Core
  ops : List Op
  images : List Image
  /-- Core cycles since the compute dies left reset (R190). -/
  now : Nat
  /-- Numbers the free values (the model's own). -/
  fresh : Nat
  /-- Numbers operations and requests (the model's own). -/
  nextId : Nat
  /-- Events of the outside world and the cycle at which each lands (the model's own). -/
  inbox : List (Nat × Instr)
  /-- The split whose turn it is to issue: core and split-table entry (the model's own). -/
  cur : Option (Nat × Nat)
  deriving DecidableEq, Repr

/-- Why a step stops with a fault. -/
inductive Fault where
  /-- Raised by the meaning of an instruction when the state names no split that issues it. No step of the machine gets
  here, because `step` names the split before it executes an instruction; safe: nothing is claimed of it. -/
  | noIssuer
  deriving DecidableEq, Repr

/-- Why a step has no meaning. -/
inductive Refusal where
  /-- Raised by the arm of an instruction whose meaning is not written; safe: nothing can be proved of it. -/
  | notModelled (mnemonic : String)
  deriving DecidableEq, Repr

/-! ### Reset -/

/-- The carrier power controller right after reset (R18 to R24; log entry 2). -/
def Power.reset : Power :=
  { vin := true, vinOk := true, pwrEn := true, pwrGood := true, rstN := false, phase := .held, trip := 0, boot := 0, tdie := 0,
    limit := 1800, clockPower := 1400, clockTherm := 1400, cool := 0, alertN := true, smbAlertN := true, temps := [], watts := 0,
    windowClock := 1400, powerSeen := false, thermSeen := false, started := none, changes := [] }

/-- The physical condition before the service trains anything (R20; log entries 3, 4). -/
def Phys.reset : Phys :=
  { deviceId := 0, laneUsed := [], degraded := [], ports := [], nvme := [], disabled := [], retired := [], rowsUsed := [], coresUsed := [],
    onSpare := [], bringIn := [], lostCores := [], suspect := [], spareSince := [] }

/-- The service before it runs (R19, R53, R55; log entry 3). -/
def Svc.reset : Svc :=
  { running := false, meas := [], owner := none, ownerKey := 0, term := 0, claims := [], flashLocked := false,
    replies := [], log := [], grants := [], invals := [], nextFrame := [], rotation := 0, freeFrames := [], owned := [] }

/-- The fabric side after reset (R29, R39, R48). -/
def Fab.reset : Fab :=
  { windows := [], conns := [], paths := [], exports := [], windowWaits := [], remaps := [], switching := [], reqs := [], tokens := [],
    acquiring := [], revoking := [], releasing := [], cached := [], cachedPoison := [], cleanAt := 0, dir := [], exportWaits := [], wire := [] }

/-- The machine right after reset (R19, R20): the module is held in reset, nothing is listed in memory. -/
def State.reset : State :=
  { power := .reset, bootFlash := { image := [], sig := 0 }, flashKnown := false, phys := .reset, svc := .reset, fab := .reset, coll := [],
    net := { posts := [], received := [], dropped := 0 }, ctxs := [], counters := [],
    sched := { queues := [], served := [], records := [], dies := [], terms := [] }, clusters := [], mem := [], poison := [], past := [], views := [], stale := [], cores := [],
    ops := [], images := [], now := 0, fresh := 0, nextId := 0, inbox := [], cur := none }

end Sys2Proof.Machine
end

