-- ==== Sys2Proof/Machine/Maps.lean ====
section
/-! DEFINITION. Sparse maps, memory bytes, byte order, bit fields and lane masks. -/
namespace Sys2Proof.Machine

/-! ### Sparse maps -/

/-- The entry of a key. -/
def mget {α : Type} : List (Nat × α) → Nat → Option α
  | [], _ => none
  | (k', x) :: r, k => if k' = k then some x else mget r k

/-- The entry of a key, or the default. -/
def mgetD {α : Type} (m : List (Nat × α)) (k : Nat) (d : α) : α := (mget m k).getD d

/-- Remove a key. -/
def mdel {α : Type} : List (Nat × α) → Nat → List (Nat × α)
  | [], _ => []
  | (k', x) :: r, k => if k' = k then mdel r k else (k', x) :: mdel r k

/-- Insert before the first greater key. -/
def mins {α : Type} : List (Nat × α) → Nat → α → List (Nat × α)
  | [], k, x => [(k, x)]
  | (k', x') :: r, k, x => if k < k' then (k, x) :: (k', x') :: r else (k', x') :: mins r k x

/-- Write an entry. -/
def mput {α : Type} (m : List (Nat × α)) (k : Nat) (x : α) : List (Nat × α) := mins (mdel m k) k x

/-- Write a value whose default is not listed. -/
def mset {α : Type} [DecidableEq α] (m : List (Nat × α)) (k : Nat) (x d : α) : List (Nat × α) :=
  if x = d then mdel m k else mput m k x

/-- Keys rise strictly. -/
def keysRise {α : Type} : List (Nat × α) → Bool
  | [] => true
  | [_] => true
  | (k, _) :: (k', x) :: r => decide (k < k') && keysRise ((k', x) :: r)

/-- Apply a change to every value. -/
def mmap {α : Type} (m : List (Nat × α)) (f : Nat → α → α) : List (Nat × α) := m.map fun p => (p.1, f p.1 p.2)

/-! ### Memory bytes -/

/-- What an address of memory that is not listed reads as (log entry 1). -/
def blankByte : Byte := 0

/-- Read one byte. -/
def peek (m : List Host.Cell) (a : Nat) : Byte := mgetD m a blankByte

/-- Write one byte, keeping the canonical form. -/
def poke (m : List Host.Cell) (a : Nat) (b : Byte) : List Host.Cell := mset m a b blankByte

/-- The canonical form: addresses strictly rising, no entry equal to what an unlisted address reads as. -/
def Memory.wf (m : List Host.Cell) : Bool := keysRise m && m.all fun c => c.2 != blankByte

/-- Write bytes at successive addresses. -/
def pokes (m : List Host.Cell) (a : Nat) : List Byte → List Host.Cell
  | [] => m
  | b :: r => pokes (poke m a b) (a + 1) r

/-- Read `n` bytes at successive addresses. -/
def peeks (m : List Host.Cell) (a : Nat) : Nat → List Byte
  | 0 => []
  | n + 1 => peek m a :: peeks m (a + 1) n

/-- Write listed cells one by one. -/
def pokeCells (m : List Host.Cell) : List Host.Cell → List Host.Cell
  | [] => m
  | (a, b) :: r => pokeCells (poke m a b) r

/-- Make a range read as zero. -/
def clearRange (m : List Host.Cell) (lo hi : Nat) : List Host.Cell :=
  m.filter fun c => decide (c.1 < lo) || decide (hi ≤ c.1)

/-- The cells of a range. -/
def cellsIn (m : List Host.Cell) (lo hi : Nat) : List Host.Cell :=
  m.filter fun c => decide (lo ≤ c.1) && decide (c.1 < hi)

/-! ### Byte order and bit fields -/

/-- The number little-endian bytes hold (R6). -/
def leNat : List Byte → Nat
  | [] => 0
  | b :: r => b.toNat + 256 * leNat r

/-- `n` little-endian bytes of a number (R6). -/
def leBytes : Nat → Nat → List Byte
  | 0, _ => []
  | n + 1, x => BitVec.ofNat 8 x :: leBytes n (x / 256)

/-- Bits [hi:lo] of a number. -/
def bitsOf (x hi lo : Nat) : Nat := x / 2 ^ lo % 2 ^ (hi + 1 - lo)

/-- One bit of a number. -/
def bitOf (x n : Nat) : Bool := x.testBit n

/-- A Bool as a bit. -/
def bit (b : Bool) : Nat := if b then 1 else 0

/-- Two's-complement value of the low `w` bits. -/
def signedOf (w x : Nat) : Int :=
  let y := x % 2 ^ w
  if w != 0 && y.testBit (w - 1) then (y : Int) - (2 ^ w : Nat) else (y : Int)

/-- The low `w` bits of an integer in two's complement. -/
def wrapOf (w : Nat) (x : Int) : Nat := (x % (2 ^ w : Nat)).toNat

/-- ⌈a ÷ b⌉. -/
def ceilDiv (a b : Nat) : Nat := (a + b - 1) / b

/-! ### Lane masks -/

/-- The lanes of a mask, ascending. -/
def lanesOf (m : Word) : List Nat := (List.range 32).filter fun l => m.getLsbD l

/-- A mask of one lane. -/
def laneBit (l : Nat) : Word := BitVec.ofNat 32 (2 ^ l)

/-- The mask of the lanes that satisfy a test. -/
def maskOf (p : Nat → Bool) : Word :=
  (List.range 32).foldl (fun m l => if p l then m ||| laneBit l else m) 0

/-- The lanes of the slices of a mask (R93). -/
def lanesOfSlices (m : BitVec 8) : Word := maskOf fun l => m.getLsbD (l / 4)

/-- The slices that hold a lane of a mask, ascending (R93). -/
def slicesOf (m : Word) : List Nat := (List.range 8).filter fun s => (m.extractLsb' (4 * s) 4) != 0

/-- The lowest lane of a mask. -/
def lowLane (m : Word) : Nat := (lanesOf m).headD 0

/-- The least element of a list by a key, ties to the earlier one. -/
def leastBy {α : Type} (key : α → Nat) : List α → Option α
  | [] => none
  | x :: r => match leastBy key r with
      | none => some x
      | some y => if key x ≤ key y then some x else some y

/-- Insert by a key, before the equal ones. -/
def insBy {α : Type} (key : α → Nat) (x : α) : List α → List α
  | [] => [x]
  | y :: r => if key x ≤ key y then x :: y :: r else y :: insBy key x r

/-- Sort by a key, stable. -/
def sortBy {α : Type} (key : α → Nat) : List α → List α
  | [] => []
  | x :: r => insBy key x (sortBy key r)

end Sys2Proof.Machine
end

