-- ==== Sys2Proof/Machine/Float.lean ====
section
/-! DEFINITION. Floating-point arithmetic on exact values, rounded once (R151, R152, R154, R266, R274), the
transcendentals within their bounds (R168), block formats (R155, R156) and wide cells (R166, R167). -/
namespace Sys2Proof.Machine

/-! ### Flags (R153) -/

/-- The six sticky flags of R153. -/
abbrev FpFlags := BitVec 6
def flNV : FpFlags := 1
def flDZ : FpFlags := 2
def flOF : FpFlags := 4
def flUF : FpFlags := 8
def flNX : FpFlags := 16
def flSAT : FpFlags := 32

/-- Rounding directions (R154). -/
inductive Round where
  | ne | tz | dn | up
  deriving DecidableEq, Repr

/-- The rounding of RM (R154). -/
def roundOf (n : Nat) : Round :=
  match n % 4 with
  | 0 => .ne | 1 => .tz | 2 => .dn | _ => .up

/-! ### Formats (R151) -/

/-- A scalar format (R151): exponent bits, fraction bits, bias, and how it treats the top exponent. -/
structure Fmt where
  width : Nat
  eb : Nat
  mb : Nat
  bias : Nat
  /-- E4M3: no infinity, NaN only with all ones (R151). -/
  noInf : Bool
  deriving DecidableEq, Repr

def fmtF32 : Fmt := { width := 32, eb := 8, mb := 23, bias := 127, noInf := false }
def fmtF16 : Fmt := { width := 16, eb := 5, mb := 10, bias := 15, noInf := false }
def fmtBf16 : Fmt := { width := 16, eb := 8, mb := 7, bias := 127, noInf := false }
def fmtE4m3 : Fmt := { width := 8, eb := 4, mb := 3, bias := 7, noInf := true }
def fmtE5m2 : Fmt := { width := 8, eb := 5, mb := 2, bias := 15, noInf := false }

/-- The format of a floating type, element format of a packed one. -/
def fmtOf : Ty → Fmt
  | .f16 | .h2 => fmtF16
  | .bf16 | .bh2 => fmtBf16
  | .e4m3 => fmtE4m3
  | .e5m2 => fmtE5m2
  | _ => fmtF32

/-- The 8-bit formats (R154, R274). -/
def Fmt.is8 (f : Fmt) : Bool := f.width == 8

/-- An exact value: NaN, infinity, or (−1)^neg × m × 2^e. -/
inductive FVal where
  | nan (signalling : Bool)
  | inf (neg : Bool)
  | fin (neg : Bool) (m : Nat) (e : Int)
  deriving DecidableEq, Repr

/-- The smallest quantum exponent of a format. -/
def minQ (f : Fmt) : Int := 1 - (f.bias : Int) - (f.mb : Int)

/-- Decode a bit pattern (R151). -/
def fdec (f : Fmt) (x : Nat) : FVal :=
  let neg := x.testBit (f.width - 1)
  let ex := x / 2 ^ f.mb % 2 ^ f.eb
  let fr := x % 2 ^ f.mb
  let top := 2 ^ f.eb - 1
  if f.noInf && ex == top && fr == 2 ^ f.mb - 1 then .nan false
  else if !f.noInf && ex == top then
    (if fr = 0 then .inf neg else .nan (!fr.testBit (f.mb - 1)))
  else if ex = 0 then .fin neg fr (minQ f)
  else .fin neg (2 ^ f.mb + fr) (minQ f + ((ex - 1 : Nat) : Int))

def signBit (f : Fmt) (neg : Bool) : Nat := if neg then 2 ^ (f.width - 1) else 0
/-- The canonical NaN (R151). -/
def nanBits (f : Fmt) : Nat :=
  if f.noInf then 2 ^ (f.width - 1) - 1 else (2 ^ f.eb - 1) * 2 ^ f.mb + 2 ^ (f.mb - 1)
def infBits (f : Fmt) (neg : Bool) : Nat := signBit f neg + (2 ^ f.eb - 1) * 2 ^ f.mb
/-- The largest finite value (R151). -/
def maxBits (f : Fmt) (neg : Bool) : Nat :=
  signBit f neg + (if f.noInf then 2 ^ (f.width - 1) - 2 else (2 ^ f.eb - 1) * 2 ^ f.mb - 1)

/-! ### One rounding -/

/-- Whether a magnitude with quotient parity `odd`, remainder `rem` of `2^sh` and sticky bit rounds up. -/
def roundsUp (rm : Round) (neg odd : Bool) (rem sh : Nat) (sticky : Bool) : Bool :=
  let inexact := rem != 0 || sticky
  match rm with
  | .tz => false
  | .dn => neg && inexact
  | .up => !neg && inexact
  | .ne =>
      if sh = 0 then false
      else
        let half := 2 ^ (sh - 1)
        half < rem || (rem == half && (sticky || odd))

/-- Round m × 2^e (and a little more, when sticky) to a multiple of 2^q: the multiple, and whether it is inexact. With
sticky, q lies above e. -/
def roundTo (rm : Round) (neg : Bool) (m : Nat) (e q : Int) (sticky : Bool) : Nat × Bool :=
  if q ≤ e then (m * 2 ^ (e - q).toNat, sticky)
  else
    let sh := (q - e).toNat
    let r := m / 2 ^ sh
    let rem := m % 2 ^ sh
    (if roundsUp rm neg (r % 2 == 1) rem sh sticky then r + 1 else r, rem != 0 || sticky)

/-- What an overflow gives (R266, R274). -/
def overflowed (f : Fmt) (rm : Round) (sat8 neg : Bool) : Nat × FpFlags :=
  if f.is8 then
    if sat8 then (maxBits f neg, flSAT ||| flNX)
    else if f.noInf then (signBit f neg + nanBits f, flOF ||| flNX) else (infBits f neg, flOF ||| flNX)
  else
    let toInf := match rm with
      | .ne => true | .tz => false | .dn => neg | .up => !neg
    (if toInf then infBits f neg else maxBits f neg, flOF ||| flNX)

/-- Round the exact value (−1)^neg × m × 2^e (a little more in magnitude, when sticky) into a format: bits and flags. -/
def fround (f : Fmt) (rm : Round) (sat8 neg : Bool) (m : Nat) (e : Int) (sticky : Bool) : Nat × FpFlags :=
  if m = 0 ∧ !sticky then (signBit f neg, 0)
  else
    let top : Int := e + (Nat.log2 m : Int)
    let emin : Int := 1 - (f.bias : Int)
    let q := max (top - (f.mb : Int)) (minQ f)
    let (r, inexact) := roundTo rm neg m e q sticky
    let bits := (q - minQ f).toNat * 2 ^ f.mb + r
    if maxBits f false < bits then overflowed f rm sat8 neg
    else
      let (r2, _) := roundTo rm neg m e (top - (f.mb : Int)) sticky
      -- tiny after rounding: r2 × 2^(top − mb) lies below 2^emin
      let tiny := decide (top - (f.mb : Int) + (Nat.log2 r2 : Int) < emin) || r2 == 0
      let fl : FpFlags := (if inexact then flNX else 0) ||| (if inexact && tiny then flUF else 0)
      (signBit f neg + bits, fl)

/-- Round an exact value that is not a NaN. -/
def fenc (f : Fmt) (rm : Round) (sat8 : Bool) : FVal → Nat × FpFlags
  | .nan _ => (nanBits f, 0)
  | .inf neg =>
      if f.noInf then (if sat8 then (maxBits f neg, flSAT) else (signBit f neg + nanBits f, flNV))
      else (infBits f neg, 0)
  | .fin neg m e => fround f rm sat8 neg m e false

/-! ### Exact arithmetic (R265, R266) -/

def FVal.isNan : FVal → Bool
  | .nan _ => true
  | _ => false
def FVal.isSnan : FVal → Bool
  | .nan s => s
  | _ => false
def FVal.neg : FVal → FVal
  | .nan s => .nan s
  | .inf n => .inf (!n)
  | .fin n m e => .fin (!n) m e
/-- The sign and magnitude of an integer scaled by 2^e; the zero takes the given sign. -/
def ofInt (zeroNeg : Bool) (x : Int) (e : Int) : FVal :=
  if x = 0 then .fin zeroNeg 0 e else .fin (decide (x < 0)) x.natAbs e
/-- A finite value as an integer scaled by 2^q, q not above its exponent. -/
def toScaled (neg : Bool) (m : Nat) (e q : Int) : Int :=
  let y : Int := (m * 2 ^ (e - q).toNat : Nat)
  if neg then -y else y

/-- An invalid operation: canonical NaN and NV. -/
def invalid : FVal × FpFlags := (.nan false, flNV)
/-- NV of signalling operands. -/
def snanFlag (xs : List FVal) : FpFlags := if xs.any FVal.isSnan then flNV else 0

/-- Exact sum (R266); an exact zero of unlike signs is −0 only toward −∞. -/
def faddX (rm : Round) : FVal → FVal → FVal × FpFlags
  | .nan a, y => (.nan false, snanFlag [.nan a, y])
  | x, .nan b => (.nan false, snanFlag [x, .nan b])
  | .inf a, .inf b => if a = b then (.inf a, 0) else invalid
  | .inf a, _ => (.inf a, 0)
  | _, .inf b => (.inf b, 0)
  | .fin a m e, .fin b n g =>
      let q := min e g
      let zeroNeg := if a = b then a else rm == .dn
      (ofInt zeroNeg (toScaled a m e q + toScaled b n g q) q, 0)

/-- Exact product (R266). -/
def fmulX : FVal → FVal → FVal × FpFlags
  | .nan a, y => (.nan false, snanFlag [.nan a, y])
  | x, .nan b => (.nan false, snanFlag [x, .nan b])
  | .inf a, .inf b => (.inf (a != b), 0)
  | .inf a, .fin b n _ => if n = 0 then invalid else (.inf (a != b), 0)
  | .fin a m _, .inf b => if m = 0 then invalid else (.inf (a != b), 0)
  | .fin a m e, .fin b n g => (.fin (a != b) (m * n) (e + g), 0)

/-- Finish an exact result: round and add its flags. -/
def finishF (f : Fmt) (rm : Round) (sat8 : Bool) (r : FVal × FpFlags) : Nat × FpFlags :=
  let (b, fl) := fenc f rm sat8 r.1
  (b, fl ||| r.2)

def fAdd (f : Fmt) (rm : Round) (x y : Nat) : Nat × FpFlags := finishF f rm false (faddX rm (fdec f x) (fdec f y))
def fSub (f : Fmt) (rm : Round) (x y : Nat) : Nat × FpFlags :=
  finishF f rm false (faddX rm (fdec f x) (fdec f y).neg)
def fMul (f : Fmt) (rm : Round) (x y : Nat) : Nat × FpFlags := finishF f rm false (fmulX (fdec f x) (fdec f y))

/-- A × B + C with one rounding (R265); 0 × ∞ is invalid whatever C is (R266). -/
def fmaX (rm : Round) (x y z : FVal) : FVal × FpFlags :=
  let sn := snanFlag [x, y, z]
  let (p, fl) := fmulX x y
  if p.isNan || z.isNan then (.nan false, sn ||| fl)
  else faddX rm p z

def fFma (f : Fmt) (rm : Round) (x y z : Nat) : Nat × FpFlags :=
  finishF f rm false (fmaX rm (fdec f x) (fdec f y) (fdec f z))

/-- Correctly rounded quotient (R265, R266). -/
def fDiv (f : Fmt) (rm : Round) (x y : Nat) : Nat × FpFlags :=
  match fdec f x, fdec f y with
  | .nan a, b => (nanBits f, snanFlag [.nan a, b])
  | a, .nan b => (nanBits f, snanFlag [a, .nan b])
  | .inf _, .inf _ => (nanBits f, flNV)
  | .inf a, .fin b _ _ => (infBits f (a != b), 0)
  | .fin a _ _, .inf b => (signBit f (a != b), 0)
  | .fin a m e, .fin b n g =>
      if n = 0 then (if m = 0 then (nanBits f, flNV) else (infBits f (a != b), flDZ))
      else if m = 0 then (signBit f (a != b), 0)
      else
        let k := f.mb + 4 + Nat.log2 n
        let t := m * 2 ^ k
        fround f rm false (a != b) (t / n) (e - g - (k : Int)) (t % n != 0)

/-- ⌊√n⌋, bit by bit from bit k. -/
def isqrtBits : Nat → Nat → Nat → Nat
  | 0, _, r => r
  | k + 1, n, r => let t := r + 2 ^ k; isqrtBits k n (if t * t ≤ n then t else r)
/-- ⌊√n⌋. -/
def isqrt (n : Nat) : Nat := isqrtBits (Nat.log2 n / 2 + 1) n 0

/-- Correctly rounded square root (R265, R266). -/
def fSqrt (f : Fmt) (rm : Round) (x : Nat) : Nat × FpFlags :=
  match fdec f x with
  | .nan s => (nanBits f, if s then flNV else 0)
  | .inf neg => if neg then (nanBits f, flNV) else (infBits f false, 0)
  | .fin neg m e =>
      if m = 0 then (signBit f neg, 0)
      else if neg then (nanBits f, flNV)
      else
        let odd := e % 2 != 0
        let m' := if odd then m * 2 else m
        let e' := if odd then e - 1 else e
        let k := f.mb + 4
        let t := m' * 2 ^ (2 * k)
        let r := isqrt t
        fround f rm false false r (e' / 2 - (k : Int)) (r * r != t)

/-- Order of two values that are not NaNs: −1, 0, 1. -/
def fcmpX : FVal → FVal → Int
  | .inf a, .inf b => if a = b then 0 else if a then -1 else 1
  | .inf a, _ => if a then -1 else 1
  | _, .inf b => if b then 1 else -1
  | .fin a m e, .fin b n g =>
      let q := min e g
      let d := toScaled a m e q - toScaled b n g q
      if d < 0 then -1 else if d = 0 then 0 else 1
  | _, _ => 0

/-- Minimum or maximum of R267; −0 is less than +0. -/
def fMinMax (f : Fmt) (isMax nanForm : Bool) (x y : Nat) : Nat × FpFlags :=
  let a := fdec f x
  let b := fdec f y
  let sn := snanFlag [a, b]
  if a.isNan && b.isNan then (nanBits f, sn)
  else if a.isNan || b.isNan then
    (if nanForm then nanBits f else if a.isNan then y % 2 ^ f.width else x % 2 ^ f.width, sn)
  else
    let c := fcmpX a b
    let less := c < 0 || (c == 0 && (x.testBit (f.width - 1)) && !(y.testBit (f.width - 1)))
    ((if less != isMax then x else y) % 2 ^ f.width, sn)

/-- The relation of FCMP and its flags (R270). -/
def fCompare (f : Fmt) (fn : Nat) (x y : Nat) : Bool × FpFlags :=
  let a := fdec f x
  let b := fdec f y
  let un := a.isNan || b.isNan
  let quiet := snanFlag [a, b]
  let loud : FpFlags := if un then flNV else 0
  let c := fcmpX a b
  match fn with
  | 0 => (!un && c == 0, quiet)
  | 1 => (un || c != 0, quiet)
  | 2 => (!un && c < 0, loud)
  | 3 => (!un && c ≤ 0, loud)
  | 4 => (!un && 0 < c, loud)
  | 5 => (!un && 0 ≤ c, loud)
  | 6 => (!un, quiet)
  | _ => (un, quiet)

/-- The one-hot class of R271. -/
def fClass (f : Fmt) (x : Nat) : Nat :=
  match fdec f x with
  | .nan s => if s then 256 else 512
  | .inf neg => if neg then 1 else 128
  | .fin neg m _ =>
      if m = 0 then (if neg then 8 else 16)
      else if m < 2 ^ f.mb then (if neg then 4 else 32)
      else (if neg then 2 else 64)

/-- Round to an integral value in the format (R272). -/
def fIntegral (f : Fmt) (rm : Round) (x : Nat) : Nat × FpFlags :=
  match fdec f x with
  | .nan s => (nanBits f, if s then flNV else 0)
  | .inf neg => (infBits f neg, 0)
  | .fin neg m e =>
      let (r, _) := roundTo rm neg m e 0 false
      if 0 ≤ e then (x % 2 ^ f.width, 0) else ((fround f .tz false neg r 0 false).1, 0)

/-- Convert between floating formats (R274). -/
def fConvert (src dst : Fmt) (rm : Round) (sat8 : Bool) (x : Nat) : Nat × FpFlags :=
  let a := fdec src x
  let (b, fl) := fenc dst rm sat8 a
  (b, fl ||| snanFlag [a])

/-- Convert an integer to a floating format (R274). -/
def fFromInt (dst : Fmt) (rm : Round) (sat8 : Bool) (x : Int) : Nat × FpFlags :=
  fround dst rm sat8 (decide (x < 0)) x.natAbs 0 false

/-- Convert to an integer type of `w` bits (R275). -/
def fToInt (src : Fmt) (rm : Round) (w : Nat) (signed : Bool) (x : Nat) : Int × FpFlags :=
  let lo : Int := if signed then -((2 ^ (w - 1) : Nat) : Int) else 0
  let hi : Int := if signed then ((2 ^ (w - 1) : Nat) : Int) - 1 else ((2 ^ w : Nat) : Int) - 1
  match fdec src x with
  | .nan _ => (0, flNV)
  | .inf neg => (if neg then lo else hi, flNV)
  | .fin neg m e =>
      let (r, inexact) := roundTo rm neg m e 0 false
      let v : Int := if neg then -(r : Int) else (r : Int)
      if v < lo then (lo, flNV) else if hi < v then (hi, flNV) else (v, if inexact then flNX else 0)

/-- C + A.e0 × B.e0 + A.e1 × B.e1 with one rounding into f32 (R268). -/
def fDot2 (f : Fmt) (rm : Round) (a b c : Nat) : Nat × FpFlags :=
  let el (x i : Nat) : FVal := fdec f (x / 2 ^ (16 * i) % 2 ^ 16)
  let z := fdec fmtF32 c
  let sn := snanFlag [el a 0, el a 1, el b 0, el b 1, z]
  let (p0, f0) := fmulX (el a 0) (el b 0)
  let (p1, f1) := fmulX (el a 1) (el b 1)
  let (s1, f2) := faddX rm p0 p1
  let (s2, f3) := faddX rm s1 z
  let infs := [p0, p1, z].filterMap fun v => match v with | .inf n => some n | _ => none
  if [p0, p1, z].any FVal.isNan then (nanBits fmtF32, sn ||| f0 ||| f1)
  else if infs.contains true && infs.contains false then (nanBits fmtF32, flNV)
  else
    -- an exact zero keeps the sign that all its terms share
    let signs := [p0, p1, z].map fun v => match v with | .fin n _ _ => n | .inf n => n | .nan _ => false
    let s2' : FVal := match s2 with
      | .fin _ 0 e => .fin (if signs.all (· == true) then true else if signs.all (· == false) then false
          else rm == .dn) 0 e
      | v => v
    finishF fmtF32 rm false (s2', f2 ||| f3 ||| sn)

/-! ### Transcendentals (R168) -/

/-- Round a magnitude known as m × 2^e and a little more to one of its two neighbours: down, or away when `away`. -/
def transRound (f : Fmt) (neg : Bool) (m : Nat) (e : Int) (away : Bool) : Nat × FpFlags :=
  let (b, fl) := fround f (if away then (if neg then .dn else .up) else .tz) false neg m e true
  if fl &&& flOF != 0 then (infBits f neg, flOF ||| flNX) else (b, fl ||| flNX)

/-- Move a magnitude pattern by one unit in the last place, not past zero, the largest finite value or, upwards, a power of two
(above one the unit is twice the unit of the exact value below it). -/
def nudge (f : Fmt) (bits : Nat) (up : Bool) : Nat :=
  if up then (if bits % 2 ^ (f.width - 1) < maxBits f false ∧ bits % 2 ^ f.mb ≠ 0 then bits + 1 else bits)
  else (if bits % 2 ^ (f.width - 1) = 0 then bits else bits - 1)

/-- m is a power of two. -/
def isPow2 (m : Nat) : Bool := m == 2 ^ Nat.log2 m

/-- FRCP (R168): exact for a power of two whose reciprocal is representable. -/
def fRcp (f : Fmt) (fresh : Nat) (x : Nat) : Nat × FpFlags :=
  match fdec f x with
  | .nan s => (nanBits f, if s then flNV else 0)
  | .inf neg => (signBit f neg, 0)
  | .fin neg m e =>
      if m = 0 then (infBits f neg, flDZ)
      else if isPow2 m then
        let (b, fl) := fround f .ne false neg 1 (-e - (Nat.log2 m : Int)) false
        if fl &&& flOF != 0 then (infBits f neg, flOF ||| flNX) else (b, fl)
      else
        let k := f.mb + 6 + 2 * Nat.log2 m
        transRound f neg (2 ^ k / m) (-e - (k : Int)) (Config.freeBit fresh)

/-- FRSQ (R168): exact for an even power of two, within two units elsewhere. -/
def fRsq (f : Fmt) (fresh : Nat) (x : Nat) : Nat × FpFlags :=
  match fdec f x with
  | .nan s => (nanBits f, if s then flNV else 0)
  | .inf neg => if neg then (nanBits f, flNV) else (0, 0)
  | .fin neg m e =>
      if m = 0 then (infBits f neg, flDZ)
      else if neg then (nanBits f, flNV)
      else
        let top : Int := e + (Nat.log2 m : Int)
        if isPow2 m && top % 2 == 0 then fround f .ne false false 1 (-(top / 2)) false
        else
          -- 1/√(m 2^e) = √(2^(2k)/m) × 2^(−e/2 − k), with e made even
          let odd := e % 2 != 0
          let m' := if odd then m * 2 else m
          let e' := if odd then e - 1 else e
          let k := f.mb + 8 + Nat.log2 m'
          let r := isqrt (2 ^ (2 * k) / m')
          let (b, fl) := transRound f false r (-(e' / 2) - (k : Int)) (Config.freeBit fresh)
          (if Config.freeBit (fresh + 1) then nudge f b (Config.freeBit fresh) else b, fl)

/-- ln 2 and 2π in units of 2^−128; 2π has 130 significant bits. -/
def ln2Fix : Nat := 0xb17217f7d1cf79abc9e3b39803f2f6af
def twoPiFix : Nat := 0x6487ed5110b4611a62633145c06e0e689

/-- Σ t^k / k! in units of 2^−128, from term k on. -/
def expSeries : Nat → Nat → Nat → Nat → Nat
  | 0, _, _, _ => 0
  | n + 1, k, term, t => term + expSeries n (k + 1) (term * t / 2 ^ 128 / (k + 1)) t

/-- Σ alternating terms of sine or cosine in units of 2^−192, with the square of the angle. -/
def trigSeries : Nat → Nat → Int → Int → Int
  | 0, _, _, _ => 0
  | n + 1, k, term, sq => term + trigSeries n (k + 2) (-(term * sq / (2 ^ 192 : Nat) / ((k + 1) * (k + 2) : Nat))) sq

/-- Fraction bits of log2 of y, 1 ≤ y < 2 in units of 2^−160, by repeated squaring. -/
def logBits : Nat → Nat → Nat → Nat
  | 0, _, acc => acc
  | n + 1, y, acc =>
      let z := y * y / 2 ^ 160
      if 2 ^ 161 ≤ z then logBits n (z / 2) (2 * acc + 1) else logBits n z (2 * acc)

/-- FEXP2 (R168): exact for an integer whose power is representable. -/
def fExp2 (f : Fmt) (fresh : Nat) (x : Nat) : Nat × FpFlags :=
  match fdec f x with
  | .nan s => (nanBits f, if s then flNV else 0)
  | .inf neg => if neg then (0, 0) else (infBits f false, 0)
  | .fin neg m e =>
      let lim : Int := 1024
      let big := decide (12 ≤ e + (Nat.log2 m : Int)) && m != 0
      if big then
        (if neg then transRound f false (2 ^ 64) (-lim) (Config.freeBit fresh) else (infBits f false, flOF ||| flNX))
      else
        -- x in units of 2^−128, rounded down
        let lost := decide (e < -128) && m % 2 ^ (-128 - e).toNat != 0
        let near : Int := toScaled neg (if e < -128 then m / 2 ^ (-128 - e).toNat else m) (max e (-128)) (-128)
        let fix := if neg && lost then near - 1 else near
        let whole := fix / (2 ^ 128 : Nat)
        let frac := (fix % (2 ^ 128 : Nat)).toNat
        if frac = 0 && !lost then
          let (b, fl) := fround f .ne false false 1 whole false
          if fl &&& flOF != 0 then (infBits f false, flOF ||| flNX) else (b, fl)
        else
          let t := frac * ln2Fix / 2 ^ 128
          transRound f false (expSeries 40 0 (2 ^ 128) t) (whole - 128) (Config.freeBit fresh)

/-- The finite number `b` lies within 2^−22 of every value that differs from x units of 2^−u by less than 2^−80, as the exact result
does. -/
def absNear (f : Fmt) (b : Nat) (x : Int) (u : Nat) : Bool :=
  match fdec f b with
  | .fin neg m e => decide ((toScaled neg m e (-((u + 160 : Nat) : Int)) - x * (2 ^ 160 : Nat)).natAbs ≤ 2 ^ (u + 138) - 2 ^ (u + 80))
  | _ => false

/-- A signed value of units 2^−u moved by a free amount up to 2^−22 and rounded (R168), where a subnormal or zero result is tiny
(R269); where the rounding would leave the bound, the value is rounded unmoved.  In the half formats one of its two neighbours
(log entry 12). -/
def absRound (f : Fmt) (fresh : Nat) (x : Int) (u : Nat) : Nat × FpFlags :=
  if f.mb = 23 then
    let d : Int := signedOf 32 (Config.freeWord fresh).toNat
    let near (y : Int) := fround f .ne false (decide (y < 0)) y.natAbs (-(u : Int)) false
    -- |d| ≤ 2^31: the move is at most 2^−22
    let moved := near (x + d * (2 ^ (u - 53) : Nat))
    let (b, fl) := if absNear f moved.1 x u then moved else near x
    (b, fl ||| flNX ||| (if b % 2 ^ 31 < 2 ^ 23 then flUF else 0))
  else transRound f (decide (x < 0)) x.natAbs (-(u : Int)) (Config.freeBit fresh)

/-- FLOG2 (R168). -/
def fLog2 (f : Fmt) (fresh : Nat) (x : Nat) : Nat × FpFlags :=
  match fdec f x with
  | .nan s => (nanBits f, if s then flNV else 0)
  | .inf neg => if neg then (nanBits f, flNV) else (infBits f false, 0)
  | .fin neg m e =>
      if m = 0 then (infBits f true, flDZ)
      else if neg then (nanBits f, flNV)
      else
        let top : Int := e + (Nat.log2 m : Int)
        if isPow2 m then fFromInt f .ne false top
        else
          let y := m * 2 ^ (160 - Nat.log2 m)
          let v : Int := top * (2 ^ 100 : Nat) + (logBits 100 y 0 : Nat)
          -- inside [0.5, 2] the bound is absolute
          if top = 0 ∨ top = -1 then absRound f fresh v 100
          else transRound f (decide (v < 0)) v.natAbs (-100) (Config.freeBit fresh)

/-- FTRIG (R168): sine, or cosine, of x turns. -/
def fTrig (f : Fmt) (cosine : Bool) (fresh : Nat) (x : Nat) : Nat × FpFlags :=
  let one : Nat := (fFromInt f .ne false 1).1
  match fdec f x with
  | .nan s => (nanBits f, if s then flNV else 0)
  | .inf _ => (nanBits f, flNV)
  | .fin neg m e =>
      let top : Int := e + (Nat.log2 m : Int)
      if m ≠ 0 ∧ 24 ≤ top then (if cosine then (one, 0) else (signBit f neg, 0))
      else
        -- quarter turns, when x is a multiple of 0.25
        let (quarters, inexact) := roundTo .tz false m e (-2) false
        if !inexact then
          let qn : Nat := (if neg then (4 - quarters % 4) % 4 else quarters % 4)
          if cosine then
            (match qn with
             | 0 => (one, 0) | 2 => (signBit f true + one, 0) | _ => (0, 0))
          else
            (match qn with
             | 1 => (one, 0) | 3 => (signBit f true + one, 0) | _ => (signBit f neg, 0))
        else
          -- the angle within half a turn of zero, in units of 2^−160 of a turn
          let mm := if e < -160 then m / 2 ^ (-160 - e).toNat else m
          let turn := (toScaled neg mm (max e (-160)) (-160)) % (2 ^ 160 : Nat)
          let fr := if (2 ^ 159 : Nat) ≤ turn then turn - (2 ^ 160 : Nat) else turn
          let angle : Int := fr * (twoPiFix : Nat) / (2 ^ 96 : Nat)
          let sq := angle * angle / (2 ^ 192 : Nat)
          let v := if cosine then trigSeries 48 0 ((2 ^ 192 : Nat) : Int) sq else trigSeries 48 1 angle sq
          -- away from the quarter turns the exact result lies inside (−1, 1)
          absRound f fresh (max (1 - ((2 ^ 192 : Nat) : Int)) (min v (((2 ^ 192 : Nat) : Int) - 1))) 192

/-! ### Block floating point (R155, R156) and wide cells (R166, R167) -/

/-- The FP32 pattern of code q under exponent e, width w (R155). -/
def bfpDecode (w : Nat) (e : Nat) (q : Int) : Nat :=
  if e = 0 then 0
  else if e = 255 then nanBits fmtF32
  else if q = 0 then 0
  else (fround fmtF32 .ne false (decide (q < 0)) q.natAbs ((e : Int) - 127 - ((w : Int) - 1)) false).1

/-- floor(log2 |x|) + 128 clamped to 1..254; 255 for NaN and infinity, 0 for zero (R156, R276). -/
def blockExp : FVal → Nat
  | .nan _ => 255
  | .inf _ => 255
  | .fin _ m e =>
      if m = 0 then 0 else (max 1 (min 254 (e + (Nat.log2 m : Int) + 128))).toNat

/-- The code of a finite value under exponent e in 1..254 (R156): code and flags. -/
def bfpCode (w e : Nat) (x : FVal) : Int × FpFlags :=
  match x with
  | .fin neg m ex =>
      let q : Int := (e : Int) - 127 - ((w : Int) - 1)
      let (r, inexact) := roundTo .ne neg m ex q false
      let lim := 2 ^ (w - 1)
      let t := if lim ≤ r then lim - 1 else r
      ((if neg then -(t : Int) else (t : Int)),
        (if lim ≤ r then flSAT else 0) ||| (if inexact || lim ≤ r then flNX else 0))
  | _ => (0, 0)

/-- Encode a block (R156): exponent, codes, flags. -/
def encodeBlock (w : Nat) (xs : List FVal) : Nat × List Int × FpFlags :=
  if xs.any fun x => blockExp x == 255 then (255, xs.map fun _ => 0, flNV)
  else
    let e := xs.foldl (fun m x => max m (blockExp x)) 0
    if e = 0 then (0, xs.map fun _ => 0, 0)
    else
      let cs := xs.map (bfpCode w e)
      (e, cs.map (·.1), cs.foldl (fun fl c => fl ||| c.2) 0)

/-- A wide cell (R166). -/
structure WideCell where
  body : Int
  ovf : Bool
  inv : Bool
  e : Nat
  deriving DecidableEq, Repr

def cellOf (x : Nat) : WideCell :=
  { body := signedOf 118 x, ovf := x.testBit 118, inv := x.testBit 119, e := bitsOf x 127 120 }
def cellBits (c : WideCell) : Nat :=
  wrapOf 118 c.body + bit c.ovf * 2 ^ 118 + bit c.inv * 2 ^ 119 + c.e % 256 * 2 ^ 120

/-- cell_add (R167). -/
def cellAddX (c : WideCell) (x : FVal) : WideCell × FpFlags :=
  match x with
  | .fin neg m e =>
      let (r, inexact) := roundTo .ne neg m e ((c.e : Int) - 192) false
      let nx : FpFlags := if inexact then flNX else 0
      if 2 ^ 117 ≤ r then ({ c with ovf := true }, nx ||| flOF)
      else
        let t := c.body + (if neg then -(r : Int) else (r : Int))
        let out := decide (t < -((2 ^ 117 : Nat) : Int)) || decide (((2 ^ 117 : Nat) : Int) ≤ t)
        ({ c with body := signedOf 118 (wrapOf 118 t), ovf := c.ovf || out }, nx ||| (if out then flOF else 0))
  | _ => ({ c with inv := true }, flNV)

/-- CELLOP.read (R167, R314). -/
def cellReadX (c : WideCell) : Nat × FpFlags :=
  if c.inv || c.ovf then (nanBits fmtF32, flNV)
  else fround fmtF32 .ne false (decide (c.body < 0)) c.body.natAbs ((c.e : Int) - 192) false

end Sys2Proof.Machine
end

