-- ==== Sys2Proof/WellFormed.lean ====
section
/-! DEFINITION. Well-formed instructions: those an encoding of R224 to R242 can stand for. -/
namespace Sys2Proof

/-- The fields of an instruction keep every check of R241, a short form holds the values of R229, an absent
literal is zero, and the fields name the constructor they stand under. Events and service requests carry no
encoding and are well-formed. -/
def Instr.wf (i : Instr) : Bool :=
  match instrParts i with
  | none => true
  | some (op, f) =>
      fieldError (fieldSpec i) f == none && shortOk op.toNat f && (f.hasLit || f.lit == 0) &&
      instrOf op.toNat f == some i

/-- An instruction that has an encoding. -/
def Instr.encoded (i : Instr) : Bool := (instrParts i).isSome

end Sys2Proof
end

