-- ==== Sys2Proof/Decode.lean ====
section
/-! DEFINITION. Decoding (R229, R241, R242) and, after it, the encoder. -/
namespace Sys2Proof

/-- Why bytes are no instruction: too few of them, ILLEGAL with its DETAIL word (R241), or PRIV with its DETAIL
word (R242). -/
inductive DecodeError where
  | truncated
  | illegal (detail : Word)
  | priv (detail : Word)
  deriving DecidableEq, Repr

/-- Little-endian 32-bit words of a byte string (R6, R224); a tail shorter than a word is dropped. -/
def wordsOf : List Byte → List Word
  | b0 :: b1 :: b2 :: b3 :: rest => (b3 ++ b2 ++ b1 ++ b0 : BitVec 32) :: wordsOf rest
  | _ => []

/-- The bytes of a word, lowest address first (R6). -/
def bytesOfWord (w : Word) : List Byte :=
  [w.extractLsb' 0 8, w.extractLsb' 8 8, w.extractLsb' 16 8, w.extractLsb' 24 8]

/-- The number of 32-bit words of an instruction, from the LEN field of its word 0 (R224). -/
def wordCount (w0 : Word) : Nat :=
  1 + (if w0.getLsbD 0 then 2 else 0) + (if w0.getLsbD 1 then 2 else 0)

/-- The size of an instruction in bytes (R224). -/
def instrSize (f : Fields) : Nat := 4 + (if f.long then 8 else 0) + (if f.hasLit then 8 else 0)

/-- DETAIL of an ILLEGAL encoding (R241). -/
def illegalDetail (opc : BitVec 7) (s : Bool) (field : Nat) : Word :=
  BitVec.ofNat 32 (opc.toNat + (if s then 128 else 0) + 256 * (field % 256))

/-- The fields of the words of an instruction (R226 to R229): `w1` and `w2` are absent in a short form, `lit` is zero
without a literal. ORD values 5 to 7 stand as relaxed here and are refused by `decodeFields`. -/
def rawFields (w0 : Word) (w12 : Option (Word × Word)) (hasLit : Bool) (lit : DWord) : Fields :=
  let op := (w0.extractLsb' 3 7).toNat
  let base : Fields :=
    { long := false, hasLit := hasLit, strand := w0.getLsbD 2, d := w0.extractLsb' 10 7,
      a := w0.extractLsb' 17 7, b := w0.extractLsb' 24 7, imm := w0.getLsbD 31, g := 0, c := 0, ea := false,
      eb := false, ec := false, fn := 0, ty := defaultTy op, md := 0, imm16 := 0,
      scope := if usesScope op then .dev else .core, ord := .rlx, cache := 0, hz := false, aux := 0, lit := lit }
  match w12 with
  | none => base
  | some (w1, w2) =>
      { base with
          long := true, g := w1.extractLsb' 0 4, c := w1.extractLsb' 4 7, ea := w1.getLsbD 11,
          eb := w1.getLsbD 12, ec := w1.getLsbD 13, fn := w1.extractLsb' 14 8, ty := tyOf (w1.extractLsb' 22 4),
          md := w1.extractLsb' 26 6, imm16 := w2.extractLsb' 0 16, scope := scopeOf (w2.extractLsb' 16 2),
          ord := (ordOf (w2.extractLsb' 18 3)).getD .rlx, cache := w2.extractLsb' 21 2, hz := w2.getLsbD 23,
          aux := w2.extractLsb' 24 8 }

/-- The checks of R241 in their order, over the fields and whether ORD is one of the five orders. -/
def decodeFields (opc : BitVec 7) (f : Fields) (ordGood : Bool) : Except DecodeError Instr :=
  match instrOf opc.toNat f with
  | none => .error (.illegal (illegalDetail opc f.strand 1))
  | some i =>
      match fieldError (fieldSpec i) f with
      | some (.illegal n) =>
          .error (.illegal (illegalDetail opc f.strand (if !ordGood && 17 < n then 17 else n)))
      | some .priv => .error (.priv (f.fn.zeroExtend 32))
      | none => if ordGood then .ok i else .error (.illegal (illegalDetail opc f.strand 17))

/-- Whether the ORD field of word 2 names an order (R131). -/
def ordGoodOf (w12 : Option (Word × Word)) : Bool :=
  match w12 with
  | none => true
  | some (_, w2) => (ordOf (w2.extractLsb' 18 3)).isSome

/-- Decode the words of one instruction; words beyond it are not read. -/
def decodeWords (ws : List Word) : Except DecodeError Instr :=
  match ws with
  | [] => .error .truncated
  | w0 :: rest =>
      let opc := w0.extractLsb' 3 7
      match w0.getLsbD 0, w0.getLsbD 1, rest with
      | false, false, _ => decodeFields opc (rawFields w0 none false 0) true
      | true, false, w1 :: w2 :: _ =>
          decodeFields opc (rawFields w0 (some (w1, w2)) false 0) (ordGoodOf (some (w1, w2)))
      | false, true, l0 :: l1 :: _ => decodeFields opc (rawFields w0 none true (l1 ++ l0)) true
      | true, true, w1 :: w2 :: l0 :: l1 :: _ =>
          decodeFields opc (rawFields w0 (some (w1, w2)) true (l1 ++ l0)) (ordGoodOf (some (w1, w2)))
      | _, _, _ => .error .truncated

/-- Decode the instruction at the head of a byte string. Total: bytes that are no instruction are refused with the
field that fails. -/
def decode (bs : List Byte) : Except DecodeError Instr := decodeWords (wordsOf bs)

/-- Word 0 of the encoding (R226). -/
def encodeWord0 (op : BitVec 7) (f : Fields) : Word :=
  (BitVec.ofBool f.imm ++ f.b ++ f.a ++ f.d ++ op ++ BitVec.ofBool f.strand ++ BitVec.ofBool f.hasLit ++
    BitVec.ofBool f.long : BitVec 32)

/-- Word 1 of the encoding (R227). -/
def encodeWord1 (f : Fields) : Word :=
  (f.md ++ tyCode f.ty ++ f.fn ++ BitVec.ofBool f.ec ++ BitVec.ofBool f.eb ++ BitVec.ofBool f.ea ++ f.c ++ f.g :
    BitVec 32)

/-- Word 2 of the encoding (R228). -/
def encodeWord2 (f : Fields) : Word :=
  (f.aux ++ BitVec.ofBool f.hz ++ f.cache ++ ordCode f.ord ++ scopeCode f.scope ++ f.imm16 : BitVec 32)

/-- The words of an instruction (R224); none for an event, which has no encoding. -/
def encodeWords (i : Instr) : List Word :=
  match instrParts i with
  | none => []
  | some (op, f) =>
      encodeWord0 op f :: ((if f.long then [encodeWord1 f, encodeWord2 f] else []) ++
        (if f.hasLit then [f.lit.extractLsb' 0 32, f.lit.extractLsb' 32 32] else []))

/-- The bytes of an instruction in memory order (R6, R224). -/
def encode (i : Instr) : List Byte := (encodeWords i).flatMap bytesOfWord

/-- `n` bytes of a number, the least significant first. -/
def natBytes : Nat → Nat → List Byte
  | 0, _ => []
  | n + 1, w => BitVec.ofNat 8 w :: natBytes n (w / 256)

/-- The longest instruction, in bytes (R224). -/
def maxInstrBytes : Nat := 20

/-- The bytes of a table word of `nbits` bits, with zeros above it up to the longest instruction. -/
def tableBytes (nbits w : Nat) : List Byte := natBytes maxInstrBytes (w % 2 ^ nbits)

/-- The instruction decoded from bits numbered as the opcode table numbers them: bit 0 is the least significant bit
of word 0 at the lowest address (R6, R224). -/
def decodeTableWord (nbits w : Nat) : Option Instr :=
  match decode (tableBytes nbits w) with
  | .ok i => some i
  | .error _ => none

end Sys2Proof
end

