-- ==== Sys2Proof/Machine/Layout.lean ====
section
/-! DEFINITION. The bit layouts of architected structures, as numbers whose bit n is bit n of the layout. -/
namespace Sys2Proof.Machine

/-- Fields (low bit, width, value) placed in one number. -/
def pack : List (Nat × Nat × Nat) → Nat
  | [] => 0
  | (lo, w, x) :: r => x % 2 ^ w * 2 ^ lo + pack r

/-- A two's-complement field. -/
def sfield (w : Nat) (x : Int) : Nat := wrapOf w x

/-- The code of a stall class (R86). -/
def classCode : WaitClass → Nat
  | .halt => 1 | .trap => 2 | .preempt => 3 | .barrier => 4 | .regang => 5 | .clasp => 6 | .batch => 7
  | .horizon => 8 | .queue => 9 | .mailbox => 10 | .register => 11 | .allowance => 12 | .slot => 13
  | .fetch => 14 | .pipe => 15 | .notsel => 16

/-- The join ids of a stack, entry 0 at the bottom (R95). -/
def packStack : List (BitVec 8) → Nat → Nat
  | [], _ => 0
  | j :: r, i => j.toNat * 2 ^ (8 * i) + packStack r (i + 1)

/-- The age of a stamp (R85). -/
def ageOf (now stamp : Nat) : Nat := min (now - stamp) (2 ^ 47)

/-- STAMP as the table of a core with the counter `clk` holds it (R85, R95, R190). -/
def stampField (now : Nat) (clk : Nat → Nat) (stamp : Nat) : Nat := clk (now - ageOf now stamp) % 2 ^ 48

/-- A split-table entry (R95). -/
def splitWord (now : Nat) (clk : Nat → Nat) (p : Split) : Nat :=
  pack [(0, 1, 1), (1, 5, p.slot), (6, 8, p.smask.toNat), (14, 4, p.jstk.length), (18, 1, bit p.rgw),
    (32, 57, p.pc.toNat), (96, 64, packStack p.jstk 0), (160, 48, stampField now clk p.stamp)]

/-- A completion counter (R69). -/
def counterWord (c : Counter) : Nat :=
  pack [(0, 32, c.count), (32, 2, c.level), (34, 1, 1), (35, 1, bit c.cancel), (36, 1, bit c.aband),
    (37, 1, bit c.done), (40, 12, c.parent.getD 0), (52, 1, bit c.parent.isSome)]

/-- A granule tag (R116). -/
def tagWord (t : Tag) : Nat := pack [(0, 4, t.fmt), (4, 3, t.blk), (7, 2, t.sp), (9, 7, t.comp)]

/-- A bank descriptor (R159). -/
def bankWord (b : Bank) : Nat :=
  pack [(0, 1, bit b.live), (1, 1, bit b.integer), (2, 11, b.steps), (13, 4, b.tile), (17, 10, sfield 10 b.scale)]

/-- A queue descriptor (R102). -/
def queueWord (q : QueueDesc) : Nat :=
  pack [(0, 1, bit q.en), (8, 17, q.base), (32, 18, q.size), (64, 32, q.head.toNat), (96, 32, q.tail.toNat)]

/-- A bin's state (R80). -/
def binWord (b : Bin) : Nat :=
  pack [(0, 1, bit b.en), (1, 5, b.thr), (6, 16, b.tmr), (22, 12, b.tlc), (34, 7, b.recs.length), (41, 17, b.left),
    (58, 1, bit b.ton)]

/-- A barrier entry (R289). -/
def barWord (b : BarEntry) : Nat :=
  pack [(0, 1, bit b.isOpen), (1, 1, bit b.bound), (2, 2, (scopeCode b.scope).toNat), (4, 12, b.lcnt),
    (16, 13, b.expect), (29, 3, (ordCode b.ord).toNat), (32, 13, b.arr), (45, 13, b.term), (58, 1, bit b.abt),
    (64, 32, b.wait.toNat), (96, 16, b.gen.toNat)]

/-- A cluster's entry for a context (R89); PEND is given. -/
def deficitWord (pend run : Bool) (weight : Nat) (deficit : Int) : Nat :=
  pack [(0, 1, bit pend), (1, 1, bit run), (8, 8, weight), (16, 40, sfield 40 deficit)]

/-- A context descriptor (R61). -/
def ctxWord (id : Nat) (c : Ctx) : Nat :=
  pack [(0, 1, 1), (1, 1, bit c.res), (2, 1, bit c.sigreq), (3, 1, bit c.moving), (8, 8, id), (16, 8, c.weight),
    (24, 2, c.priomax), (32, 32, c.jobid.toNat), (64, 192, c.cores.toNat), (256, 36, c.ptroot.toNat),
    (320, 27, c.imgbase.toNat), (384, 57, c.handler.toNat), (441, 4, c.psz), (445, 23, c.pbase.toNat)]

/-- The state code of a collective descriptor (R42). -/
def collCode : CollState → Nat
  | .idle => 0 | .running => 1 | .aborting => 2

/-- A collective descriptor (R42). -/
def collWord (c : CollDesc) : Nat :=
  pack [(0, 2, collCode c.state), (2, 16, c.att.toNat), (18, 11, c.members.length), (29, 11, c.arr),
    (40, 11, c.wdr), (51, 13, c.drop)]

/-- A member entry (R42). -/
def memberWord (m : Member) : Nat := pack [(0, 7, m.dev), (7, 13, m.strand), (20, 1, bit m.w)]

/-- An error-log record (R189). -/
def logWord (r : LogRec) : Nat :=
  pack [(0, 8, r.kind), (8, 2, r.sev), (16, 8, r.ctx), (24, 8, r.core), (32, 13, r.strand), (64, 48, r.loc),
    (128, 64, r.cycle), (192, 32, r.synd.toNat)]

/-- A stop record (R199). -/
def stopWord (gid : Nat) (r : StopRec) : Nat :=
  pack [(0, 4, r.reason), (4, 3, r.bp), (7, 1, bit r.depth), (8, 13, gid), (21, 4, r.nsplit), (32, 64, r.cycle),
    (96, 57, r.pc.toNat), (160, 8, r.smask.toNat)]

/-- Provisional entries one after another (R178). -/
def packProv : List DWord → Nat → Nat
  | [], _ => 0
  | p :: r, i => p.toNat * 2 ^ (2560 + 64 * i) + packProv r (i + 1)

/-- Interrupted split-table entries (R178). -/
def packSplits (now : Nat) (clk : Nat → Nat) : List (Nat × Split) → Nat → Nat
  | [], _ => 0
  | (_, p) :: r, i => splitWord now clk p * 2 ^ (512 + 256 * i) + packSplits now clk r (i + 1)

/-- The trap record (R178) as a number of 4,096 bits. -/
def trapWord (now : Nat) (clk : Nat → Nat) (r : TrapRec) : Nat :=
  pack [(0, 8, r.cause), (8, 1, bit r.hzf), (9, 1, bit r.ling), (10, 1, bit r.svc), (11, 1, bit r.povf),
    (12, 1, bit r.rpl), (16, 8, r.prov.length), (32, 16, r.fisn.toNat), (48, 3, r.fslice), (64, 57, r.fpc.toNat),
    (128, 57, r.spc.toNat), (192, 32, r.active.toNat), (224, 32, r.flanes.toNat), (256, 64, r.faddr.toNat),
    (320, 32, r.detail.toNat), (352, 32, r.exited.toNat), (384, 16, r.nesc), (400, 16, r.nblk), (416, 16, r.nflt)]
  + packSplits now clk r.splits 0 + packProv r.prov 0

/-- The fields of a launch descriptor (R74). -/
def descField (d : BitVec 1024) (hi lo : Nat) : Nat := bitsOf d.toNat hi lo

/-- A fabric request kind's units are counted from its bytes (R41). -/
def fabBytes : FabKind → Nat
  | .read n => n
  | .write bs => bs.length
  | .atom _ ty _ => tyWidth ty / 8
  | .cas ty _ _ => tyWidth ty / 8
  | .cellAdd _ => 4
  | .cellInit _ => 4
  | .cellRead _ => 4
  | .tokenAcq _ => 0
  | .tokenRel _ => 0
  | .coll _ _ _ _ _ _ _ => 0

end Sys2Proof.Machine
end

