-- ==== Sys2Proof/Machine/Regs.lean ====
section
/-! DEFINITION. Named operations over the state: cores, strands, registers, horizons, operations, counters, rings,
retirement. -/
namespace Sys2Proof.Machine

/-! ### Empty parts -/

/-- A bank after reset (R159). -/
def emptyBank : Bank :=
  { live := false, integer := false, steps := 0, tile := 0, scale := 0, counts := [], bad := [], klog := [] }

/-- A core after reset, and a core without a resident. -/
def emptyCore : Core :=
  { slots := [], splits := [], mbox := [], queues := [], spad := [], spadPoison := [], tags := [], acc := [],
    accPoison := [], bankA := emptyBank, bankB := emptyBank, bins := [], barriers := [], dst := [], resvs := [],
    clasps := [], fil := [], filFaulted := [], recheck := [], rechecks := [], samples := [], tlb := [], oldWin := [], invs := [],
    issued := [], issuedSlots := [], serving := false, stopReq := none, engAck := false }

/-- A register that nothing has written: zero and FULL (R79). -/
def zeroCell : RegCell := { val := 0, st := .full, poison := false }

/-- A FULL register that holds a value. -/
def fullCell (w : Word) : RegCell := { val := w, st := .full, poison := false }

/-- A mailbox after reset (R101). -/
def emptyMailbox : Mailbox := { val := 0, full := false, poison := false, tseq := 0 }

/-- A queue descriptor after reset (R102). -/
def emptyQueue : QueueDesc :=
  { en := false, base := 0, size := 0, head := 0, tail := 0, tseq := 0, snapAt := 0, snapHead := 0, snapTail := 0 }

/-- A destination slot after reset (R41; log entry 5). -/
def emptyDst : DstSlot := { bind := none, credit := 4095, ceiling := 4095, since := 0, epoch := 0, boundAt := 0, boundBy := 0 }

/-- A granule tag after reset (R116). -/
def emptyTag : Tag := { fmt := 0, blk := 0, sp := 0, comp := 0 }

/-- A bin after reset (R80). -/
def emptyBin : Bin :=
  { en := false, thr := 0, tmr := 0, tlc := 0, left := 0, ton := false, expired := false, recs := [] }

/-- A barrier entry after reset (R289). -/
def emptyBar : BarEntry :=
  { isOpen := false, bound := false, scope := .core, lcnt := 0, expect := 0, ord := .rlx, arr := 0, term := 0,
    abt := false, wait := 0, gen := 0, arrived := 0, late := 0 }

/-- A cluster after reset (R89). -/
def emptyCluster : Cluster :=
  { run := none, resident := none, last := 0, coll := .idle, collDue := 0, weight := [], deficit := [], charge := 0,
    stores := [], tlb := [] }

/-- A collective descriptor after reset (R42). -/
def emptyColl : CollDesc :=
  { state := .idle, att := 0, arr := 0, wdr := 0, drop := 0, ctx := 0, members := [], attempt := none, abort := none, waiting := [], edits := [] }

/-- A directory entry of a region nobody holds (R40). -/
def emptyDir : DirEntry := { holders := [], queue := [], revoking := [] }

/-- How many of the model's cycles a core has no cycle of its own for after the n-th change of the clock; number 0 is its die's
release from reset (R190; log entry 77). -/
def coreHold (p : Power) (c n : Nat) : Nat :=
  match p.started with
  | none => 0
  | some k => Config.coreHold k c n

/-- The cycles that holds take up to a time, from the times at which they begin, oldest first; a later one ends an earlier one. -/
def heldCycles (hold : Nat → Nat) (t : Nat) : Nat → List Nat → Nat
  | _, [] => 0
  | n, a :: rest => min (hold n) (min t (rest.headD t) - a) + heldCycles hold t (n + 1) rest

/-- The counter of a core at a time: it starts at 0 when its die leaves reset, and advances by one in each of the core's cycles
(R190; log entry 77). -/
def clockAt (p : Power) (c t : Nat) : Nat := t - heldCycles (coreHold p c) t 0 (0 :: p.changes)

/-- This is a cycle of the core (R190). -/
def coreRuns (s : State) (c : Nat) : Bool := decide (clockAt s.power c s.now < clockAt s.power c (s.now + 1))

/-- The cycle counter of a core (R190). -/
def cycleOf (s : State) (c : Nat) : Nat := clockAt s.power c s.now

/-! ### Cores, strands, splits -/

def coreOf (s : State) (c : Nat) : Core := mgetD s.cores c emptyCore
def putCore (s : State) (c : Nat) (x : Core) : State := { s with cores := mput s.cores c x }
def modCore (s : State) (c : Nat) (g : Core → Core) : State := putCore s c (g (coreOf s c))
def strandAt (s : State) (c sl : Nat) : Option Strand := mget (coreOf s c).slots sl
def putStrand (s : State) (c sl : Nat) (x : Strand) : State :=
  modCore s c fun k => { k with slots := mput k.slots sl x }
def modStrand (s : State) (c sl : Nat) (g : Strand → Strand) : State :=
  match strandAt s c sl with
  | none => s
  | some x => putStrand s c sl (g x)
def splitAt (s : State) (c e : Nat) : Option Split := mget (coreOf s c).splits e
def putSplit (s : State) (c e : Nat) (x : Split) : State :=
  modCore s c fun k => { k with splits := mput k.splits e x }
def modSplit (s : State) (c e : Nat) (g : Split → Split) : State :=
  match splitAt s c e with
  | none => s
  | some x => putSplit s c e (g x)
def delSplit (s : State) (c e : Nat) : State := modCore s c fun k => { k with splits := mdel k.splits e }
/-- The splits of a strand, by entry. -/
def splitsOf (s : State) (c sl : Nat) : List (Nat × Split) := (coreOf s c).splits.filter fun p => p.2.slot == sl
/-- The global strand number (R94). -/
def gidOf (c sl : Nat) : Nat := c * 32 + sl
/-- The cluster of a core, 0 to 23 (R94). -/
def clusterOf (c : Nat) : Nat := c / 8
/-- The compute die of a core (R94). -/
def dieOf (c : Nat) : Nat := c / 48
def clusterAt (s : State) (k : Nat) : Cluster := mgetD s.clusters k emptyCluster
def modCluster (s : State) (k : Nat) (g : Cluster → Cluster) : State :=
  { s with clusters := mput s.clusters k (g (clusterAt s k)) }
def modCtx (s : State) (x : Nat) (g : Ctx → Ctx) : State :=
  match mget s.ctxs x with
  | none => s
  | some c => { s with ctxs := mput s.ctxs x (g c) }
/-- The reservation of a launch on a core (R76). -/
def resvOf (k : Core) (l : Nat) : Option Resv := k.resvs.find? fun r => r.lcnt == l
/-- The issue scheduler of a slot (R77). -/
def schedOf (sl : Nat) : Nat := sl / 8
/-- The lowest free split-table entry of a scheduler (R95, R96). -/
def freeEntry (k : Core) (sch : Nat) : Nat :=
  ((List.range 64).map (· + 64 * sch)).find? (fun e => (mget k.splits e).isNone) |>.getD (64 * sch)
/-- The next number of an operation or request, and the state that has used it. -/
def takeId (s : State) : Nat × State := (s.nextId, { s with nextId := s.nextId + 1 })
/-- A free latency (R8) from the current cycle on. -/
def takeDue (s : State) : Nat × State := (s.now + 1 + Config.delay s.fresh, { s with fresh := s.fresh + 1 })

/-- Change a strand of a context wherever it is: in its slot, or in the slot image of its core (R114, R184). -/
def modStrandAny (s : State) (ctx c sl : Nat) (g : Strand → Strand) : State :=
  match strandAt s c sl with
  | some x => if x.ctx = ctx then putStrand s c sl (g x) else inImage
  | none => inImage
where
  inImage : State :=
    { s with images := s.images.map fun im =>
        if im.ctx = ctx ∧ im.core = c then
          { im with data := { im.data with slots := mmap im.data.slots fun k x => if k = sl then g x else x } }
        else im }

/-! ### What plain reads may return (R132, R137; log entry 57) -/

/-- The view of a strand. -/
def viewAt (s : State) (g : Nat) : View := mgetD s.views g { floor := 0, seen := [], fenced := false }

/-- Change the view of a strand. -/
def modView (s : State) (g : Nat) (f : View → View) : State := { s with views := mput s.views g (f (viewAt s g)) }

/-- Everything performed so far happens before what the strand reads from now on (R135, R136). -/
def raiseView (s : State) (c sl : Nat) : State := modView s (gidOf c sl) fun w => { w with floor := s.past.length }

/-! ### What engines may read of the scratchpad (R142, R324; log entry 93) -/

/-- Engine operations from a number on see the new words of the stores of a slot that a test picks out. -/
def settleStale (s : State) (c sl : Nat) (p : BitVec 8 → Bool) : State :=
  { s with stale := s.stale.map fun w =>
      if w.core = c ∧ w.slot = sl ∧ w.till = none ∧ p w.smask then { w with till := some s.nextId } else w }

/-- The scratchpad as an engine operation of a core reads it: a word that has been stored without an OPFENCE is old or new. -/
def engineSpad (s : State) (c id : Nat) : SMap Byte :=
  (s.stale.zipIdx.filter fun p => p.1.core == c && (p.1.till.map (decide <| id < ·)).getD true).foldl (fun m p =>
    if Config.freeBit (Config.rank s.fresh p.2) then pokes m (4 * p.1.word) (bytesOfWord p.1.old) else m) (coreOf s c).spad

/-! ### Registers (R99, R100) -/

def vget (x : Strand) (r l : Nat) : RegCell := mgetD x.v (32 * r + l) zeroCell
def vset (x : Strand) (r l : Nat) (c : RegCell) : Strand := { x with v := mset x.v (32 * r + l) c zeroCell }
def sget (x : Strand) (r : Nat) : RegCell := mgetD x.s r zeroCell
def sset (x : Strand) (r : Nat) (c : RegCell) : Strand := { x with s := mset x.s r c zeroCell }
/-- k0 reads true (R99). -/
def kmask (x : Strand) (n : Nat) : Word := if n = 0 then BitVec.allOnes 32 else mgetD x.k n 0
/-- Write predicate n in the given lanes; writes to k0 are discarded (R99). -/
def kset (x : Strand) (n : Nat) (lanes val : Word) : Strand :=
  if n = 0 then x else { x with k := mset x.k n ((kmask x n &&& ~~~lanes) ||| (val &&& lanes)) 0 }
/-- g0 reads true (R99). -/
def gget (x : Strand) (n : Nat) : Bool := n == 0 || x.g.getLsbD n
/-- Writes to g0 are discarded (R99). -/
def gset (x : Strand) (n : Nat) (b : Bool) : Strand :=
  if n = 0 then x
  else { x with g := if b then x.g ||| BitVec.ofNat 8 (2 ^ n) else x.g &&& ~~~BitVec.ofNat 8 (2 ^ n) }
/-- Change the condition of the registers a producer owns (R100). -/
def vmark (x : Strand) (r : Nat) (lanes : List Nat) (c : RegState) : Strand :=
  lanes.foldl (fun y l => vset y r l { vget y r l with st := c }) x
def smark (x : Strand) (r : Nat) (c : RegState) : Strand := sset x r { sget x r with st := c }

/-- Registers of a new strand (R79), with stack pointer from PSZ (R79, R111). -/
def newStrand (ctx lcnt slices : Nat) (dmr : Bool) (psz : Nat) : Strand :=
  let sp := 0x1FE000000000000 + 4096 * 2 ^ psz
  let v := (List.range (4 * slices)).foldl (fun m l =>
    mset (mset m (32 * 118 + l) (fullCell (BitVec.ofNat 32 sp)) zeroCell)
      (32 * 119 + l) (fullCell (BitVec.ofNat 32 (sp / 2 ^ 32))) zeroCell) []
  { phase := .live, ctx := ctx, lcnt := lcnt, slices := slices, dmr := dmr, v := v, s := [], k := [], g := 0,
    exited := 0, hexit := 0, nisn := [], fpflags := 0, engFlags := none, fpmode := 0,
    batch := 0, clatch := none, handling := none, trapOps := [], trapMark := 0, lastRec := none, arisen := none,
    fatal := none, cancelNext := none, halted := none, steps := none, sysSeq := 0, sys := none,
    stalls := [] }

/-- Lanes that exist in a strand (R79, R93). -/
def lanesThere (x : Strand) : Word := BitVec.ofNat 32 (2 ^ (4 * x.slices) - 1)

/-- The lanes that may act: not exited, or, in a handler, the record's FLANES not exited inside it (R93, R175, R284). -/
def livingLanes (x : Strand) : Word :=
  match x.handling with
  | none => ~~~x.exited &&& lanesThere x
  | some r => r.flanes &&& ~~~x.hexit

/-! ### Operations and the horizon (R105, R106) -/

/-- The operations of the strand in a slot, in issue order. -/
def opsOf (s : State) (c sl : Nat) : List Op :=
  match strandAt s c sl with
  | none => []
  | some x => s.ops.filter fun o => o.core == c && o.slot == sl && o.ctx == x.ctx
def opById (s : State) (id : Nat) : Option Op := s.ops.find? fun o => o.id == id
def modOp (s : State) (id : Nat) (g : Op → Op) : State :=
  { s with ops := s.ops.map fun o => if o.id = id then g o else o }
/-- Lanes of an operation that have not settled and still stand in the horizon. -/
def openLanes (o : Op) : Word := if o.discarded || o.isns.isEmpty then 0 else o.lanes &&& ~~~o.settled
def isnOf (o : Op) (sl : Nat) : Option (BitVec 16) := (o.isns.find? fun p => p.1 == sl).map (·.2)
def nextIsn (x : Strand) (slice : Nat) : BitVec 16 := mgetD x.nisn slice 0
/-- The oldest unsettled operation of a lane. -/
def oldestOpen (ops : List Op) (l : Nat) : Option Op := ops.find? fun o => (openLanes o).getLsbD l
/-- HZ is clear (R106). -/
def hzClear (ops : List Op) (l : Nat) : Bool := (oldestOpen ops l).isNone
/-- The lane's horizon (R106). -/
def hzOf (ops : List Op) (x : Strand) (l : Nat) : BitVec 16 :=
  match oldestOpen ops l with
  | none => nextIsn x (l / 4)
  | some o => (isnOf o (l / 4)).getD (nextIsn x (l / 4))
/-- Fallible operations outstanding in a slice (R106). -/
def hzOut (ops : List Op) (slice : Nat) : Nat :=
  (ops.filter fun o => (isnOf o slice).isSome && ((openLanes o).extractLsb' (4 * slice) 4 != 0)).length
/-- Every lane's horizon is clear. -/
def allClear (ops : List Op) : Bool := ops.all fun o => openLanes o == 0
/-- a precedes b modulo 2^16 (R106). -/
def precedes (a b : BitVec 16) : Bool := let d := (b - a).toNat; 1 ≤ d && d ≤ 32767
/-- An operation that has faulted: the condition of a lane's access (R175). -/
def accFault : Access → Option (Nat × Word × DWord × Nat)
  | { st := .faulted code detail addr cyc, .. } => some (code, detail, addr, cyc)
  | _ => none
def opFaulted (o : Op) : Bool := !o.discarded && o.accs.any fun a => (accFault a).isSome
/-- Engine operations that go on during a trap (R175). -/
def engineKind : OpKind → Bool
  | .cpy | .coll | .net | .fmma => true
  | _ => false
/-- An operation that has nothing more to do. -/
def opFinished (o : Op) : Bool := o.discarded || (o.complete && openLanes o == 0)
/-- Some lane of the operation has not passed it in slice `slice`: an operation at or before it is open in that lane
(R106, R179). -/
def notPassed (ops : List Op) (o : Op) (slice : Nat) : Bool :=
  (lanesOf (o.lanes &&& lanesOfSlices (BitVec.ofNat 8 (2 ^ slice)))).any fun l =>
    (ops.takeWhile fun p => p.id != o.id).any (fun p => (openLanes p).getLsbD l) || (openLanes o).getLsbD l
/-- Drop the operations that are finished and passed. -/
def sweepOps (s : State) (c sl : Nat) : State :=
  let mine := opsOf s c sl
  let gone := (mine.filter fun o => opFinished o && !(slicesOf o.lanes).any fun i => notPassed mine o i).map (·.id)
  if gone.isEmpty then s else { s with ops := s.ops.filter fun o => !gone.contains o.id }

/-- BDONE (R322). -/
def bdoneOf (s : State) (c sl : Nat) (x : Strand) : BitVec 16 :=
  let openB := ((opsOf s c sl).filter fun o => !(o.complete || o.discarded)).filterMap (·.batch)
  let far := openB.foldl (fun m b => max m (x.batch - b).toNat) 0
  x.batch - BitVec.ofNat 16 (if far = 0 then 1 else far + 1)

/-- Closed batches that are not complete (R322). -/
def openBatches (s : State) (c sl : Nat) : Nat :=
  (((opsOf s c sl).filter fun o => !(o.complete || o.discarded)).filterMap (·.batch)).eraseDups.length

/-! ### Send allowance (R41) -/

def dstOf (k : Core) (n : Nat) : DstSlot := mgetD k.dst n emptyDst
/-- ALWn (R41). -/
def alwOf (k : Core) (n : Nat) : Nat :=
  let d := dstOf k n
  (min 4095 (max 0 (min d.credit (d.ceiling : Int)))).toNat
/-- Subtract units from a slot. -/
def spend (k : Core) (n units : Nat) : Core :=
  let d := dstOf k n
  { k with dst := mput k.dst n { d with credit := d.credit - (units : Int) } }
/-- Return units to a slot, unless it was bound again since (R287). -/
def refund (k : Core) (c : Charge) : Core :=
  let d := dstOf k c.slot
  if d.epoch = c.epoch then { k with dst := mput k.dst c.slot { d with credit := d.credit + (c.units : Int) } } else k
/-- Return the charges of an operation that a test picks out (R41, R87). -/
def refundWhere (s : State) (id : Nat) (p : Charge → Bool) : State :=
  match opById s id with
  | none => s
  | some o =>
      let back := o.charge.filter fun c => c.owed && p c
      if back.isEmpty then s
      else modOp (modCore s o.core fun k => back.foldl refund k) id fun q =>
        { q with charge := q.charge.map fun c => if p c then { c with owed := false } else c }
/-- The final outcome of an operation returns its charges (R41). -/
def refundOp (s : State) (id : Nat) : State := refundWhere s id fun _ => true
/-- An access that is neither settled nor ended. -/
def accOpen (a : Access) : Bool :=
  match a.st with
  | .atService _ _ | .ready _ | .sent _ => true
  | _ => false
/-- A charge returns once no access that it stands for is open: a local access's when it settles, a remote one's with its
outcome (R41, R87). -/
def refundDone (s : State) (id : Nat) : State :=
  match opById s id with
  | none => s
  | some o => refundWhere s id fun c => !(o.accs.any fun a => accOpen a && a.lanes &&& c.lanes != 0)
/-- The slot a destination is charged to: the lowest bound to it, else 15 (R41, R287). -/
def slotFor (k : Core) (d : Dest) : Nat :=
  ((List.range 16).find? fun n => (dstOf k n).bind == some d).getD 15

/-! ### The error log (R189) -/

/-- Append a record; a full log drops the oldest. -/
def logError (s : State) (r : LogRec) : State :=
  { s with svc := { s.svc with log := (if s.svc.log.length < 4096 then s.svc.log else s.svc.log.drop 1) ++ [r] } }

/-- A line of device memory is poisoned, or lies in a stack that is out of service (R14, R188). -/
def linePoisoned (s : State) (l : Nat) : Bool := s.poison.contains l || s.phys.retired.contains (l * 128 / 2 ^ 36)

/-! ### Measurement registers (R53) -/

/-- MEASn (R53). -/
def measOf (s : State) (n : Nat) : BitVec 384 := mgetD s.svc.meas n 0

/-- Extend MEASn (R53). -/
def extendMeas (s : State) (n : Nat) (digest : BitVec 384) : State :=
  let new := Config.sha384 (leBytes 48 (measOf s n).toNat ++ leBytes 48 digest.toNat)
  { s with svc := { s.svc with meas := mset s.svc.meas n new 0 } }

/-! ### Rings (R172, R191) -/

/-- Write a record of `bytes` into a ring: a full ring advances DROP instead; so does a poisoned line, of the header or of the record,
and it is logged (R172, R189). -/
def ringPut (s : State) (r : Ring) (bytes : List Byte) : State :=
  let wr := leNat (peeks s.mem r.pa 4)
  let rd := leNat (peeks s.mem (r.pa + 4) 4)
  let at_ := r.pa + 64 + bytes.length * (wr % r.size)
  let drop : State := { s with mem := pokes s.mem (r.pa + 8) (leBytes 4 (leNat (peeks s.mem (r.pa + 8) 4) + 1)) }
  let refused (loc : Nat) : State :=
    logError drop { kind := 6, sev := 1, ctx := 0, core := 255, strand := 0, loc := loc, cycle := cycleOf s 255, synd := 0 }
  if linePoisoned s (r.pa / 128) then refused r.pa
  else if (wr + 2 ^ 32 - rd) % 2 ^ 32 = r.size then drop
  else if linePoisoned s (at_ / 128) || linePoisoned s ((at_ + bytes.length - 1) / 128) then refused at_
  else
    { s with mem := pokes (pokes s.mem at_ bytes) r.pa (leBytes 4 (wr + 1)) }

/-- A trace record: the common part of R191 and the rest of its 1,024 bits. -/
def tracePut (s : State) (ctx c sl kind : Nat) (rest : Nat) : State :=
  match mget s.ctxs ctx with
  | none => s
  | some x => match x.trace with
      | none => s
      | some r => ringPut s r (leBytes 128
          (pack [(0, 8, kind), (8, 8, ctx), (16, 8, c), (24, 13, gidOf c sl), (64, 64, cycleOf s c)] + rest))

/-- The stall counts of a strand as R195 places them. -/
def stallBits (x : Strand) : Nat :=
  (List.range 17).foldl (fun n i => n + min (mgetD x.stalls i 0) (2 ^ 32 - 1) * 2 ^ (128 + 32 * i)) 0

/-- A stall record of kind 2 (save) or 3 (retirement), when they are enabled (R195). -/
def stallRecord (s : State) (c sl kind : Nat) (x : Strand) : State :=
  match mget s.ctxs x.ctx with
  | some k => if k.stallRecs then tracePut s x.ctx c sl kind (stallBits x) else s
  | none => s

/-- What a place is to a core (R193): 1 on-chip storage, 2 data on its own die, 3 data on another die, 7 a node, 8 a device. -/
def placeReach (core : Nat) : Place → Nat
  | .chip _ => 1
  | .fab addr _ => if addr / 2 ^ 48 < 128 then 8 else 7
  | .dev pa _ => if pa / 2 ^ 38 % 4 = dieOf core then 2 else 3

/-- The sides of the moves of a copy (R193). -/
def moveReach (core : Nat) (m : Move) : List Nat :=
  [m.src, m.dst].map fun x => match x with
    | .spad _ => 1
    | .mem p => placeReach core p

/-- The level of what was reached: of local data the cluster cache, or the die cache or a stack of the die it lies on. Which of these
it was the spec leaves to the caches: `near` and `far` pick (R193; log entry 13). -/
def reachLevel (near far : Nat) (n : Nat) : Nat :=
  match n with
  | 2 => (match near % 3 with | 0 => 2 | 1 => 3 | _ => 5)
  | 3 => (match far % 3 with | 0 => 2 | 1 => 4 | _ => 6)
  | n => n

/-- The furthest level that an operation reached (R193; log entry 13). -/
def levelOf (s : State) (o : Op) : Nat :=
  let pick (i : Nat) := (Config.freeWord (s.fresh + i)).toNat
  let furthest (l : List Nat) : Nat := (l.map (reachLevel (pick 0) (pick 1))).foldl max 0
  match o.kind, o.work with
  | .fmma, _ | .fil, _ => 1
  | .net, _ => 9
  | .coll, _ => 2 + pick 0 % 7
  | _, .cpy w => furthest w.reach
  | _, _ => furthest (o.accs.filterMap fun a => a.place.map (placeReach o.core))

/-- The operation was held, or it is visible while an older one of its lanes can still fault (R140). -/
def ranApart (s : State) (o : Op) : Bool :=
  o.gate != .none || (o.kind != .load && o.kind != .tkacq && s.ops.any fun p =>
    p.core == o.core && p.slot == o.slot && p.ctx == o.ctx && decide (p.id < o.id) && openLanes p &&& o.lanes != 0)

/-- The service has resolved a translation fault of the operation (R177, R193). -/
def svcResolved (o : Op) : Bool :=
  o.accs.any fun a => a.svc && (match a.st with
    | .atService _ _ => false
    | .faulted code detail _ _ => !(code == 0x04 && detail == 3)
    | _ => true)

/-- The opcodes of fallible instructions (R105, R303, R320). -/
def fallible (opc : BitVec 7) : Bool :=
  let n := opc.toNat
  (decide (0x51 ≤ n) && decide (n ≤ 0x66) && !([0x55, 0x56, 0x5B, 0x5C, 0x5D, 0x5E].contains n)) || n == 0x6B

/-- The record of a sampled instruction (R193). XLAT is a free part of SETTLE unless the core's TLB held every translation; EXEC is
SETTLE, or a free part of it for an operation that was held or has escaped (log entry 13). -/
def sampleRecord (s : State) (ctx c sl : Nat) (m : Sample) (outcome level : Nat) (svcf walked apart : Bool) : State :=
  let spent := min (s.now - m.issued) (2 ^ 32 - 1)
  let part (on : Bool) (i other : Nat) : Nat := if on then min (Config.freeWord (s.fresh + i)).toNat spent else other
  let xlat := part walked 2 0
  let exec := part apart 3 spent
  tracePut { s with fresh := s.fresh + 4 } ctx c sl 1 (pack [(128, 57, m.pc.toNat), (192, 7, m.opc.toNat),
    (199, 1, bit m.strandSide), (200, 8, m.tclass), (208, 16, m.isn), (224, 1, bit (fallible m.opc)),
    (225, 2, outcome), (227, 4, level), (231, 1, bit svcf), (256, 32, m.active.toNat),
    (288, 32, min m.wait (2 ^ 32 - 1)), (320, 32, xlat), (352, 32, exec), (384, 32, spent)])

/-- LEVEL of an instruction that leaves no operation: 1 for LDSP and STSP, 0 for the others (R193). -/
def plainLevel (m : Sample) : Nat := if m.opc = 0x55 ∨ m.opc = 0x56 then 1 else 0

/-- The record of a sampled instruction that started no operation (R192). -/
def plainRecord (s : State) (ctx c sl : Nat) (m : Option Sample) (outcome : Nat) : State :=
  match m with
  | none => s
  | some m => sampleRecord s ctx c sl m outcome (plainLevel m) false false false

/-- Write the record of a sampled operation once (R192). -/
def sampleOp (s : State) (id outcome : Nat) : State :=
  match opById s id with
  | none => s
  | some o => match o.sample with
      | none => s
      | some m => modOp (sampleRecord s o.ctx o.core o.slot m outcome (levelOf s o)
          (svcResolved o) (o.accs.any (·.walked)) (ranApart s o)) id fun p => { p with sample := none }

/-- The record of a sampled operation that has faulted, once no access of it is open (R192). -/
def sampleFaulted (s : State) (id : Nat) : State :=
  match opById s id with
  | none => s
  | some o => if opFaulted o && !o.accs.any accOpen then sampleOp s id 1 else s

/-! ### Completion counters (R69 to R71) -/

/-- A core without the reservation of a record launch (R76). -/
def dropRecord (l : Nat) (k : Core) : Core :=
  if k.resvs.any fun r => r.lcnt == l && r.recl then
    { k with
        resvs := k.resvs.filter fun r => !(r.lcnt == l && r.recl)
        bins := mmap k.bins fun _ b => if b.tlc = l then { b with en := false } else b
        barriers := mmap k.barriers fun _ b => if b.lcnt = l then { b with bound := false } else b }
  else k

/-- A core without the barrier instances of a launch that is over (R288). -/
def closeBars (l : Nat) (k : Core) : Core :=
  { k with barriers := mmap k.barriers fun _ b => if b.lcnt = l then { b with isOpen := false } else b }

/-- A launch counter has reached zero: its barrier instances are over (R288), a record launch frees its reservations, or asks for
none any more (R76). -/
def freeRecords (s : State) (l : Nat) : State :=
  { s with
      cores := mmap s.cores fun _ k => closeBars l (dropRecord l k)
      images := s.images.map fun im => { im with data := closeBars l (dropRecord l im.data) }
      sched := { s.sched with
        records := s.sched.records.filter fun p => descField p.desc 27 16 != l
        queues := mmap s.sched.queues fun _ q => q.filter fun p => !(descField p.desc 3 3 == 1 && descField p.desc 27 16 == l) } }

/-- Add to COUNT; a counter whose DONE is 1 is never incremented (R70). -/
def counterAdd (s : State) (i n : Nat) : State :=
  match mget s.counters i with
  | none => s
  | some c => if c.done then s else { s with counters := mput s.counters i { c with count := c.count + n } }

/-- Subtract from COUNT; at zero set DONE and go on to the parent (R70). The chain has at most four levels (R68). -/
def counterSub : Nat → State → Nat → Nat → State
  | 0, s, _, _ => s
  | fuel + 1, s, i, n =>
      match mget s.counters i with
      | none => s
      | some c =>
          if c.done then s
          else if c.count ≤ n then
            let s := { s with counters := mput s.counters i { c with count := 0, done := true } }
            let s := if c.level = 0 then freeRecords s i else s
            match c.parent with
            | none => s
            | some p => counterSub fuel s p 1
          else { s with counters := mput s.counters i { c with count := c.count - n } }

/-- Set ABAND in a counter and along its PARENT chain (R71). -/
def markAband : Nat → State → Nat → State
  | 0, s, _ => s
  | fuel + 1, s, i =>
      match mget s.counters i with
      | none => s
      | some c =>
          let s := { s with counters := mput s.counters i { c with aband := true } }
          match c.parent with
          | none => s
          | some p => markAband fuel s p

/-- The PARENT chain of a counter reaches another, or is it (R72). -/
def reaches : Nat → State → Nat → Nat → Bool
  | 0, _, _, _ => false
  | fuel + 1, s, i, target =>
      i == target || match mget s.counters i with
        | some { parent := some p, .. } => reaches fuel s p target
        | _ => false

/-- The counter of a level on a launch counter's chain, or 0xFFFF_FFFF (R68, R104). -/
def levelCounter : Nat → State → Nat → Nat → Nat
  | 0, _, _, _ => 0xFFFFFFFF
  | fuel + 1, s, i, level =>
      match mget s.counters i with
      | none => 0xFFFFFFFF
      | some c =>
          if c.level = level then i
          else match c.parent with
            | none => 0xFFFFFFFF
            | some p => levelCounter fuel s p level

/-! ### Retirement (R76, R84, R97, R301) -/

/-- A core without the reservation of a launch whose last strand there has retired; a record launch keeps it (R76). Its part of an
instance that spans cores stays until the instance completes (R288, R289). -/
def dropResv (l : Nat) (k : Core) : Core :=
  if k.slots.any (fun p => p.2.lcnt == l) || !(k.resvs.any fun r => r.lcnt == l && !r.recl) then k
  else
    { k with
        resvs := k.resvs.filter fun r => r.lcnt != l
        barriers := mmap k.barriers fun _ b => if b.lcnt = l then { b with bound := false, isOpen := b.isOpen && b.scope != .core } else b }

/-- Free a launch's reservation on a core once its last strand there has retired (R76). -/
def freeResv (s : State) (c l : Nat) : State := modCore s c (dropResv l)

/-- The context has a strand in a slot or in an image (R61, R62). -/
def ctxHasStrands (s : State) (x : Nat) : Bool :=
  s.cores.any (fun p => p.2.slots.any fun q => q.2.ctx == x) ||
  s.images.any fun im => im.ctx == x && !im.data.slots.isEmpty

/-- A launch of the context waits in a queue (R62). -/
def ctxHasQueued (s : State) (x : Nat) : Bool := s.sched.queues.any fun p => p.2.any fun l => descField l.desc 15 8 == x

/-- A context is not idle: it has a strand or a queued launch (R62). -/
def ctxActive (s : State) (x : Nat) : Bool := ctxHasStrands s x || ctxHasQueued s x

/-- A launch of the context waits in a queue or holds record reservations (R61). -/
def ctxHasLaunches (s : State) (x : Nat) : Bool :=
  ctxHasQueued s x || s.sched.records.any fun l => descField l.desc 15 8 == x

/-- Two runs of bytes meet. -/
def meet (x n y m : Nat) : Bool := decide (x < y + m) && decide (y < x + n)

/-- The clusters that hold a store to some bytes. -/
def holdersOf (s : State) (pa n : Nat) : List Nat :=
  (s.clusters.filter fun p => p.2.stores.any fun e => meet e.pa e.bytes.length pa n).map (·.1)

/-- The home die cache is about to be written: what the bytes were may still be read by a plain read (R137). -/
def notePast (s : State) (pa n : Nat) (plain : Bool) : State :=
  { s with past := s.past ++ [{ cluster := none, apart := holdersOf s pa n, pa := pa, old := peeks s.mem pa n, plain := plain }] }

/-- The home die cache accepts a store of a cluster (R118, R133). -/
def acceptStore (s : State) (e : ClStore) : State :=
  let s := notePast s e.pa e.bytes.length e.plain
  { s with mem := pokes s.mem e.pa e.bytes }

/-- The home accepts the stores of a cluster that satisfy a test; those that stay have been passed (R118, R136). -/
def acceptFrom (s : State) (k : Nat) (p : ClStore → Bool) : State :=
  let hit := (clusterAt s k).stores.filter p
  if hit.isEmpty then s
  else modCluster (hit.foldl acceptStore s) k fun x =>
    { x with stores := (x.stores.filter fun e => !p e).map fun e => { e with passed := true } }

/-- The home die caches accept every store that the cluster of a core still holds, and every one that has been passed (R118, R136). -/
def drainCluster (s : State) (c : Nat) : State :=
  (List.range 24).foldl (fun s k => acceptFrom s k fun e => k == clusterOf c || e.passed) s

/-- A slot number that no strand has: the register of a posted request whose strand has retired is gone. -/
def noSlot : Nat := 99

/-- An operation that a message started, in which no strand takes part (R51). -/
def triggered (s : State) (o : Op) : Bool := s.net.posts.any fun p => p.fired == some o.id

/-- What a strand that has retired leaves: operations that a message has started, and requests it has posted, whose register is
gone (R51, R84). -/
def leaveOps (s : State) (ctx c sl : Nat) : State :=
  { s with
      ops := s.ops.filterMap fun o =>
        if !(o.core == c && o.slot == sl && o.ctx == ctx) then some o
        else if triggered s o && !o.complete then some { o with slot := noSlot } else none
      net := { s.net with posts := s.net.posts.map fun p =>
        if p.core == c && p.slot == sl && p.ctx == ctx then { p with slot := noSlot } else p } }

/-- A counter that saturates at 2^32 - 1 (R194). -/
def countUp (m : SMap Nat) (key : Nat) : SMap Nat := mput m key (min (mgetD m key 0 + 1) (2 ^ 32 - 1))

/-- The strand retires, a release at device scope (R301): the cycle of its last issue is counted (R194, R195), its slot is FREE, its registers are discarded, its launch counter falls (R70, R84, R97). -/
def retire (s : State) (c sl : Nat) : State :=
  match strandAt s c sl with
  | none => s
  | some x =>
      let x := if (coreOf s c).issuedSlots.contains sl then { x with stalls := countUp x.stalls 0 } else x
      let s := settleStale (drainCluster (stallRecord s c sl 3 x) c) c sl fun _ => true
      let s := modCore s c fun k =>
        { k with slots := mdel k.slots sl, splits := k.splits.filter fun p => p.2.slot != sl,
                 issuedSlots := k.issuedSlots.filter (· != sl)
                 rechecks := k.rechecks.map fun r => { r with members := r.members.filter (· != sl) } }
      let s := freeResv (leaveOps s x.ctx c sl) c x.lcnt
      counterSub 4 s x.lcnt 1

/-- A strand in LINGER or ENDING whose every horizon is clear retires; one that is at a trap or in a handler does not
(R84). -/
def checkRetire (s : State) (c sl : Nat) : State :=
  match strandAt s c sl with
  | none => s
  | some x =>
      if x.phase != .live && x.handling.isNone && x.arisen.isNone && allClear (opsOf s c sl) then retire s c sl else s

/-! ### Completion of operations -/

/-- An operation made of memory accesses. -/
def memWork (o : Op) : Bool := o.work == .mem

/-- Some lanes of an operation have settled (R106): their charges return, a sample record is written with the last, and a
lingering strand may retire. -/
def settleLanes (s : State) (id : Nat) (lanes : Word) : State :=
  match opById s id with
  | none => s
  | some o =>
      let settled := o.settled ||| (lanes &&& o.lanes)
      let all := (o.lanes &&& ~~~settled) == 0
      let s := modOp s id fun p => { p with settled := settled, complete := p.complete || (all && p.work == .mem) }
      let s := if all then sampleOp (refundOp s id) id 0 else if memWork o then sampleFaulted (refundDone s id) id else s
      checkRetire (sweepOps s o.core o.slot) o.core o.slot

/-- A token register of a live or saved strand becomes FULL (R100, R321). -/
def putToken (s : State) (o : Op) (d : Nat) (w : Word) : State :=
  raiseView (modStrandAny s o.ctx o.core o.slot fun x => sset x d (fullCell w)) o.core o.slot

/-- An operation with a token completes: the token is written and the operation settles in every lane (R321). -/
def finishToken (s : State) (id : Nat) (w : Word) : State :=
  match opById s id with
  | none => s
  | some o =>
      let s := if o.discarded then s else putToken s o o.fields.d.toNat w
      settleLanes (modOp s id fun p => { p with complete := true }) id o.lanes

/-- Flags that an engine has raised for a strand in this cycle (R262). -/
def flagsNow (s : State) (x : Strand) : BitVec 6 :=
  match x.engFlags with
  | some (t, fl) => if t = s.now then fl else 0
  | none => 0

/-- OR floating flags of an engine into a strand (R153, R262). -/
def orFlags (s : State) (ctx c sl : Nat) (fl : BitVec 6) : State :=
  if fl = 0 then s
  else modStrandAny s ctx c sl fun x =>
    { x with fpflags := x.fpflags ||| fl, engFlags := some (s.now, flagsNow s x ||| fl) }

/-- The registers a long-latency producer writes (R100): a v or s register or pair, or none. -/
def destRegs (o : Op) : List Nat :=
  let d := o.fields.d.toNat
  let pair := if tyIs64 o.fields.ty then [d, d + 1] else [d]
  match o.kind with
  | .load | .cas => pair
  | .atom => if o.fields.md.getLsbD 0 then [] else pair
  | .cell => if o.fields.fn = 1 ∨ o.fields.fn = 2 then [d] else []
  | .tkacq | .cpy | .net | .coll => [d]
  | _ => []

/-- Destinations of a producer that faults or is discarded are VACANT in its lanes, where they are PENDING (R100). -/
def vacate (s : State) (o : Op) (lanes : Word) : State :=
  if lanes = 0 then s
  else modStrandAny s o.ctx o.core o.slot fun x => (destRegs o).foldl (fun x r =>
    if o.fields.strand then (if (sget x r).st = .pending then smark x r .vacant else x)
    else vmark x r ((lanesOf lanes).filter fun l => (vget x r l).st == .pending) .vacant) x

/-- What follows the fault of some accesses: destinations are VACANT, charges return (R41), and in
ENDING the operation is discarded silently (R84, R181). -/
def afterFault (s : State) (id : Nat) : State :=
  match opById s id with
  | none => s
  | some o =>
      let s := vacate (refundDone s id) o
        (o.accs.foldl (fun m a => if (accFault a).isSome then m ||| a.lanes else m) 0)
      match strandAt s o.core o.slot with
      | some x =>
          if x.phase == .ending then
            checkRetire (sweepOps (sampleOp (modOp s id fun p => { p with discarded := true, complete := true }) id 2)
              o.core o.slot) o.core o.slot
          else sampleFaulted s id
      | none => sampleFaulted s id

/-- Lanes of an operation fault (R174, R175): the accesses `idx` of it take the fault. -/
def faultAccs (s : State) (id : Nat) (idx : List Nat) (code : Nat) (detail : Word) : State :=
  afterFault (modOp s id fun o =>
    { o with accs := o.accs.zipIdx.map fun (a, i) =>
        if idx.contains i then { a with st := .faulted code detail a.va s.now } else a }) id

/-- An engine operation faults as a whole, with the address of its first failure. -/
def faultOp (s : State) (id : Nat) (code : Nat) (detail : Word) (addr : DWord) : State :=
  match opById s id with
  | none => s
  | some o =>
      let s := modOp s id fun p =>
        { p with accs := p.accs ++ [{ lanes := p.lanes, va := addr, eva := 0, place := none, leaf := none, data := 0,
                                      data2 := 0, st := .settled, svc := false, walked := false }] }
      faultAccs s id [o.accs.length] code detail

end Sys2Proof.Machine
end

