-- ==== Sys2Proof/Machine/Send.lean ====
section
/-! DEFINITION. Sending fabric requests: usable ports, holding rules, pinned channels, lost paths (R27, R33, R132, R369). -/
namespace Sys2Proof.Machine

/-- Bytes of a store lie in the lines that a range touches. -/
def sharesLine (pa len lo n : Nat) : Bool := pa / 128 ≤ (lo + n - 1) / 128 && lo / 128 ≤ (pa + len - 1) / 128

/-- The home die caches accept every store that a cluster cache still holds to the lines of a range (R118): the copies
are dropped before another access is performed there. -/
def flushLines (s : State) (lo n : Nat) : State :=
  s.clusters.foldl (fun s p => acceptFrom s p.1 fun e => sharesLine e.pa e.bytes.length lo n) s

/-- The home die caches accept every store that a cluster still holds (R118). -/
def flushAll (s : State) : State := flushLines s 0 (2 ^ 40)

/-- Write bytes at the home die cache (R118, R133); a line written whole is no longer poisoned. -/
def homeStore (s : State) (pa : Nat) (bs : List Byte) (plain : Bool) : State :=
  let s := notePast (flushLines s pa bs.length) pa bs.length plain
  { s with
      mem := pokes s.mem pa bs
      poison := s.poison.filter fun l => !(pa ≤ l * 128 && l * 128 + 128 ≤ pa + bs.length) }

/-- Write bytes at the home die cache by what is no plain store. -/
def homeWrite (s : State) (pa : Nat) (bs : List Byte) : State := homeStore s pa bs false

/-- A poisoned line lies in a range. -/
def poisonedIn (s : State) (pa len : Nat) : Bool :=
  (s.poison.any fun l => pa < l * 128 + 128 && l * 128 < pa + len) || s.phys.retired.contains (pa / 2 ^ 36)

/-- The service answers a request: a host's reply leaves the device, a strand's waits for SERVICE_REPLY (R58, R59,
R296). A reply that does not fit a SYS block is judged when it is written. -/
def replyTo (s : State) (q : Req) (status : Nat) (args : List Byte) : State :=
  match q.sender with
  | .host _ =>
      { s with svc := { s.svc with replies := s.svc.replies ++
          [{ sender := q.sender, seq := q.seq, code := q.code, status := status, args := args }] } }
  | .strand gid ctx =>
      let (due, s) := takeDue s
      modStrandAny s ctx (gid / 32) (gid % 32) fun x =>
        { x with sys := x.sys.map fun r =>
            if r.seq = q.seq then { r with reply := some (status, args), due := due } else r }

/-- The target of a fabric address (R28). -/
def fabTarget (addr : Nat) : Nat := addr / 2 ^ 48

/-- A present device, or a node wired to this device (R30). -/
def targetPresent (s : State) (t : Nat) : Bool :=
  s.phys.ports.any fun p => !p.2.miswired && (p.2.node == t || p.2.reach.contains t)

/-- The ports usable for a target (R27). -/
def usablePorts (s : State) (t : Nat) : List (Nat × Port) :=
  s.phys.ports.filter fun p => p.2.up && !p.2.miswired && (if 128 ≤ t then p.2.node == t else p.2.reach.contains t)

/-- The port with the most free request credits, ties to the lowest number (R27). Ports that retrain hold their
requests (R67). -/
def bestPort (ps : List (Nat × Port)) : Option Nat :=
  ((ps.filter fun p => 0 < p.2.credits && !p.2.retraining).foldl (fun best p =>
    match best with
    | none => some p
    | some q => if q.2.credits < p.2.credits then some p else some q) none).map (·.1)

/-- The port of a pinned channel's path, when it names one (R33, R60). -/
def pathPort (s : State) (t chan : Nat) : Option Nat :=
  match mget s.fab.paths (8 * t + chan) with
  | none => none
  | some w => some (bitsOf w.toNat 7 0)

/-- Change the credits of a port. -/
def modPort (s : State) (n : Nat) (g : Port → Port) : State :=
  match mget s.phys.ports n with
  | none => s
  | some p => { s with phys := { s.phys with ports := mput s.phys.ports n (g p) } }

def dropReq (s : State) (id : Nat) : State :=
  { s with fab := { s.fab with reqs := s.fab.reqs.filter fun r => r.id != id } }
def modReq (s : State) (id : Nat) (g : FabReq → FabReq) : State :=
  { s with fab := { s.fab with reqs := s.fab.reqs.map fun r => if r.id = id then g r else r } }

/-- The fetch that a request is part of. -/
def fetchAsks (id : Nat) (p : Split) : Bool :=
  match p.fetch with
  | some (_, .asked reqs _) => reqs.contains id
  | _ => false

/-- A remote fetch fails with a cause (log entry 40). -/
def fetchFail (s : State) (c e id code : Nat) (detail : Word) : State :=
  modSplit s c e fun p =>
    if fetchAsks id p then { p with fetch := p.fetch.map fun q => (q.1, .failed code detail (q.1.zeroExtend 64)) } else p

/-- Bytes of a remote fetch arrive. -/
def fetchGot (s : State) (c e id off : Nat) (data : List Byte) (poison : Bool) : State :=
  if poison then fetchFail s c e id 0x80 0
  else modSplit s c e fun p =>
    match p.fetch with
    | some (pc, .asked reqs bs) =>
        if reqs.contains id then
          { p with fetch := some (pc, .asked (reqs.filter (· != id)) (data.zipIdx.foldl (fun m (b, i) => mput m (off + i) b) bs)) }
        else p
    | _ => p

/-- A request for bytes of a strand's block is over: the bytes that came, or that it failed (R296; log entry 49). -/
def blockGot (s : State) (ctx g id addr : Nat) (data : List Byte) (bad : Bool) : State :=
  let take (r : SysReq) : SysReq :=
    if r.asked.contains id then
      { r with
          asked := r.asked.filter (· != id)
          far := data.zipIdx.foldl (fun m (b, i) => mput m (addr + i) b) r.far
          lost := r.lost || bad }
    else r
  modStrandAny s ctx (g / 32) (g % 32) fun x => { x with sys := x.sys.map take }

/-! ### What this device caches under tokens (R40, R147, R308) -/

/-- A TKREL still has its region in hand. -/
def opReleases (s : State) (op : Nat) : Bool :=
  match opById s op with
  | some o => !o.discarded && o.accs.any accOpen
  | none => false

/-- A request that returns a token. -/
def isReturn (r : FabReq) : Bool :=
  match r.parts with
  | [(_, .tokenRel _)] => true
  | _ => false

/-- A region lies in the range of a window's contents (R29, R30). -/
def windowHolds (w region : Nat) : Bool :=
  let lo := bitsOf w 15 8 * 2 ^ 48 + bitsOf w 90 64 * 2 ^ 21
  bitOf w 0 && decide (lo ≤ region * 2 ^ 21) && decide (region * 2 ^ 21 < lo + 2 ^ bitsOf w 6 1)

/-- The device gives back the token of a region for a window that is to be remapped (R31). -/
def windowReleases (s : State) (region : Nat) : Bool :=
  s.fab.windowWaits.any fun w => windowHolds (mgetD s.fab.windows w.window 0).toNat region

/-- Cached use of a region has stopped: a revocation is taken, or a release is under way (R31, R40, R319). -/
def useStopped (s : State) (region : Nat) : Bool :=
  s.fab.revoking.contains region || (s.fab.releasing.any fun r => r.1 == region && opReleases s r.2) || windowReleases s region ||
  s.fab.reqs.any fun r => isReturn r && r.addr / 2 ^ 21 == region

/-- The token of a region serves an access (R40, R308). -/
def tokenServes (s : State) (region : Nat) (write : Bool) : Bool :=
  !useStopped s region &&
  match mget s.fab.tokens region with
  | none => false
  | some ex => ex || !write

/-- Every byte of a range is cached (R147). -/
def cachedAll (s : State) (addr n : Nat) : Bool := (List.range n).all fun i => (mget s.fab.cached (addr + i)).isSome

/-- Bytes of the cache under tokens. -/
def cachedBytes (s : State) (addr n : Nat) : List Byte :=
  (List.range n).map fun i => ((mget s.fab.cached (addr + i)).map (·.1)).getD 0

/-- Write bytes of the cache under an exclusive token: they are dirty. -/
def cacheWrite (s : State) (addr : Nat) (bs : List Byte) : State :=
  { s with fab := { s.fab with cached := bs.zipIdx.foldl (fun m (b, i) => mput m (addr + i) (b, true)) s.fab.cached } }

/-- Cached bytes of a range with their poison (R188). -/
def cachedRead (s : State) (addr n : Nat) : List (Byte × Bool) :=
  (cachedBytes s addr n).zipIdx.map fun (b, i) => (b, s.fab.cachedPoison.contains ((addr + i) / 128))

/-- Bytes that have come from a home, with what this device has cached of them since. -/
def overCached (s : State) (addr : Nat) (bs : List Byte) : List Byte :=
  bs.zipIdx.map fun (b, i) => ((mget s.fab.cached (addr + i)).map (·.1)).getD b

/-- A fetch of a line under a token (R40). -/
def isFill (r : FabReq) : Bool :=
  match r.owner, r.parts with
  | .accesses _ _, [(_, .read 128)] => true
  | _, _ => false

/-- A write-back (R147). -/
def isWriteBack (r : FabReq) : Bool :=
  match r.owner with
  | .writeBack _ => !isReturn r
  | _ => false

/-- An access of this device that its home serves, uncached. -/
def isUncached (r : FabReq) : Bool :=
  match r.owner with
  | .accesses _ _ => !isFill r
  | .chunk _ _ _ | .fetch _ _ _ | .block _ _ => true
  | _ => false

/-- The lines of a request hold bytes that this device holds dirty under a token (R147). -/
def onDirty (s : State) (r : FabReq) : Bool := s.fab.cached.any fun c => c.2.2 && r.parts.any fun p => p.1 / 128 == c.1 / 128

/-- A part of a request may write. -/
def partWrites (p : Nat × FabKind) : Bool :=
  match p.2 with
  | .read _ => false
  | _ => true

/-- A request of this device to a home is over, however it ended: clean copies of the lines it may have written are dropped, so
that no later read of the device returns an older value (R132). -/
def dropWritten (s : State) (r : FabReq) : State :=
  if isUncached r then
    let lines := (r.parts.filter partWrites).map fun p => p.1 / 128
    if lines.isEmpty then s
    else { s with fab := { s.fab with cached := s.fab.cached.filter fun c => c.2.2 || !lines.contains (c.1 / 128) } }
  else s

/-- The home has accepted a write-back: the bytes it carried are clean unless they have changed since (R147). -/
def markClean (s : State) (r : FabReq) : State :=
  if isWriteBack r then
    let clean (m : SMap (Byte × Bool)) (p : Nat × FabKind) : SMap (Byte × Bool) := match p.2, mget m p.1 with
      | .write [b], some (x, true) => if x = b then mput m p.1 (x, false) else m
      | _, _ => m
    { s with fab := { s.fab with cached := r.parts.foldl clean s.fab.cached } }
  else s

/-! ### The abort of a collective (R44, R45, R370) -/

def collOf (s : State) (d : Nat) : CollDesc := mgetD s.coll d emptyColl
def putColl (s : State) (d : Nat) (c : CollDesc) : State := { s with coll := mput s.coll d c }

/-- Answer a request, where there is one. -/
def answerIf (s : State) (q : Option Req) (status : Nat) (args : List Byte) : State :=
  match q with
  | some q => replyTo s q status args
  | none => s

/-- Members whose W is 1 (R42). -/
def withdrawnCount (c : CollDesc) : Nat := (c.members.filter (·.w)).length
/-- The other devices of a group (R370). -/
def otherDevices (s : State) (c : CollDesc) : List Nat :=
  ((c.members.map (·.dev)).filter (· != s.phys.deviceId)).eraseDups
/-- The COLL token (R339). -/
def collToken (status wdr : Nat) (att : BitVec 16) : Word :=
  BitVec.ofNat 32 (pack [(0, 3, status), (4, 11, wdr), (16, 16, att.toNat)])
/-- Apply the edits that wait, in order, when a descriptor is IDLE (R44); each requester is answered. -/
def applyEdits (s : State) (d : Nat) : State :=
  let c := collOf s d
  if c.state != .idle then s
  else
    let (members, ctx) := c.edits.foldl (fun (acc : List Member × Nat) e =>
      match e.1 with
      | .setUp x ms => (ms, x)
      | .add ms => (acc.1 ++ ms, acc.2)
      | .remove ms =>
          (acc.1.filter fun m => !ms.any fun r => r.dev == m.dev && r.strand == m.strand, acc.2)) (c.members, c.ctx)
    let s := putColl s d { c with members := members, ctx := ctx, edits := [], wdr := (members.filter (·.w)).length }
    c.edits.foldl (fun s e => replyTo s e.2 0 []) s

/-- Every member device has acknowledged the abort (R44, R45): the pending tokens carry the new ATT and the members absent from the
attempt (R339). -/
def collAbortEnd (s : State) (d : Nat) : State :=
  let c := collOf s d
  match c.attempt with
  | none => s
  | some a =>
      let att := c.att + 1
      let tok := collToken 1 c.wdr att
      let s := putColl s d
        { c with state := .idle, att := att, arr := 0, wdr := withdrawnCount c, attempt := none, waiting := [] }
      let s := (a.arrivals.filterMap (·.op) ++ c.waiting).foldl (fun s id => finishToken s id tok) s
      applyEdits s d

/-- An abort reaches this copy. It takes effect at the end of the cycle, after a completion of the same cycle (R339), and one that
comes during an abort merges with it (R45). -/
def abortComes (s : State) (d : Nat) (own : Bool) (acked : List Nat) : State :=
  let c := collOf s d
  if c.state == .aborting || c.members.isEmpty then s
  else
    let x := c.abort.getD { own := false, acked := [] }
    putColl s d { c with abort := some { own := x.own || own, acked := x.acked ++ acked } }

/-- An abort of this device is raised in RUNNING (R45). -/
def collAbort (s : State) (d : Nat) : State := if (collOf s d).state == .running then abortComes s d true [] else s

/-- This copy enters ABORTING: an abort of its own is sent to every other member device, and each gets its acknowledgement (R44, R45,
R370). A copy whose attempt has completed, or that no arrival has reached yet, enters it from IDLE (R339; log entry 55). -/
def enterAborting (s : State) (d : Nat) (x : AbortDue) : State :=
  let c := collOf s d
  let others := otherDevices s c
  let acks := others.filter fun v => !x.acked.contains v
  let a : Attempt := c.attempt.getD
    { fn := 4, dtype := 0, op := 0, count := 0, root := 0, noRoot := false, arrivals := [], acks := [], since := s.now }
  let s := putColl s d { c with state := .aborting, abort := none, attempt := some { a with acks := acks } }
  let sent := (if x.own then others.map fun v => Wire.collAbort v d c.att.toNat else []) ++ others.map fun v => .collAck v d c.att.toNat
  let s := { s with fab := { s.fab with wire := s.fab.wire ++ sent } }
  if acks.isEmpty then collAbortEnd s d else s

/-- The end of a cycle at the collective unit: the aborts of the cycle take effect (R339). -/
def collSweep (s : State) : State :=
  s.coll.foldl (fun s p => match (collOf s p.1).abort with
    | some x => enterAborting s p.1 x
    | none => s) s

/-- The member of an attempt that an operation is leaves it without waiting for its end. -/
def leaveAttempt (s : State) (d id : Nat) : State :=
  let c := collOf s d
  let leave (a : Attempt) : Attempt :=
    { a with arrivals := a.arrivals.map fun r => if r.op = some id then { r with op := none } else r }
  putColl s d { c with attempt := c.attempt.map leave, waiting := c.waiting.filter (· != id) }

/-- The operation has arrived, or waits for the end of an abort. -/
def collHas (s : State) (d id : Nat) : Bool :=
  let c := collOf s d
  c.waiting.contains id || match c.attempt with
    | none => false
    | some a => a.arrivals.any fun r => r.op == some id

/-- A packet of a COLL's arrival has failed: the COLL faults REMOTE, and its attempt is aborted (R339). One that is no longer
in its attempt has its token already. -/
def collLost (s : State) (op desc : Nat) (detail : Word) : State :=
  if collHas s desc op then collAbort (faultOp (leaveAttempt s desc op) op 0x0E detail 0) desc else s

/-- A request ends without OK: its operation faults REMOTE with the code and the target (R34, R37, R369). The bytes of a
write-back that fails stay dirty, and it is tried again (log entry 84). -/
def failReq (s : State) (r : FabReq) (code target : Nat) : State :=
  let s := match r.port with
    | some n => if r.sent then modPort s n fun p => { p with credits := p.credits + 1 } else s
    | none => s
  let s := dropWritten (dropReq s r.id) r
  let detail := BitVec.ofNat 32 (code + 256 * target)
  match r.owner with
  | .accesses op idx => faultAccs s op idx 0x0E detail
  | .chunk op _ va => faultOp (modOp s op fun o => { o with waits := o.waits.filter (· != r.id) }) op 0x0E detail va
  | .token op =>
      let joined := (s.fab.acquiring.filter fun a => a.2.2.contains op).flatMap fun a => a.2.2
      let s := { s with fab := { s.fab with acquiring := s.fab.acquiring.filter fun a => !a.2.2.contains op } }
      (if joined.isEmpty then [op] else joined).foldl (fun s id => faultAccs s id [0] 0x0E detail) s
  | .coll op desc => collLost s op desc detail
  | .writeBack (some op) => faultAccs s op [0] 0x0E detail
  | .writeBack none => { s with fab := { s.fab with cleanAt := s.now + 1 } }
  | .fetch c e _ => fetchFail s c e r.id 0x0E detail
  | .block ctx g => blockGot s ctx g r.id r.addr [] true

/-- A request that carries an arrival to another device's collective unit; it names no line. -/
def isArrival (r : FabReq) : Bool :=
  match r.owner with
  | .coll _ _ => true
  | _ => false

/-- Two requests of the accesses of one operation. -/
def sameOp (q r : FabReq) : Bool :=
  match q.owner, r.owner with
  | .accesses a _, .accesses b _ => a == b
  | _, _ => false

/-- A request may leave now: its reissue time has come, no earlier request of the device to the same line awaits its
reply (R132), no earlier pinned store of its channel awaits its reply, since a node can send that one back with RETRY (R33,
R35, R146; log entry 83), its channel is not switching paths (R33), and no data that the device has cached of its lines is dirty or on
its way home (R40, R132, R133; log entry 84). An access of an instruction never holds another one of it (R361). -/
def mayLeave (s : State) (r : FabReq) : Bool :=
  (match r.reissue with | none => true | some t => decide (t ≤ s.now)) &&
  !(isUncached r && (useStopped s (r.addr / 2 ^ 21) || onDirty s r)) &&
  (isArrival r || !(s.fab.reqs.any fun q => q.id < r.id && !isArrival q && q.addr / 128 == r.addr / 128 && !sameOp q r &&
    !(isWriteBack r && isUncached q && !q.sent))) &&
  (match r.chan with
   | none => true
   | some n => !(s.fab.reqs.any fun q => q.id < r.id && q.chan == some n && fabTarget q.addr == fabTarget r.addr) &&
       (mget s.fab.switching (8 * fabTarget r.addr + n)).isNone)

/-- The port of a request that leaves now: none when it has no path, none within when it is held (R27, R33). -/
def portPick (s : State) (r : FabReq) : Option (Option Nat) :=
  let t := fabTarget r.addr
  let ports := usablePorts s t
  match r.chan with
  | none => if ports.isEmpty then none else some (bestPort ports)
  | some n => match pathPort s t n with
      | none => none
      | some p => if ports.any (·.1 == p) then some (bestPort (ports.filter (·.1 == p))) else none

/-- An unsent request can leave, or has lost its path. -/
def sendable (s : State) (r : FabReq) : Bool := !r.sent && mayLeave s r && portPick s r != some none

/-- Send one unsent request, hold it, or fault it when it has no path (R27, R33, R369). -/
def trySend (s : State) (r : FabReq) : State :=
  if r.sent || !mayLeave s r then s
  else
    match portPick s r with
    | none => failReq s r 0x15 (fabTarget r.addr)
    | some none => s
    | some (some p) =>
        let s := modPort s p fun q => { q with credits := q.credits - 1 }
        let s := modReq s r.id fun q => { q with sent := true, port := some p, reissue := none, first := if q.age = 0 then s.now else q.first }
        { s with fab := { s.fab with wire := s.fab.wire ++ [.request r.id r.parts p r.age] } }

/-- Send what may leave, in the order of the requests. -/
def pump (s : State) : State :=
  s.fab.reqs.foldl (fun t r => match t.fab.reqs.find? fun q => q.id == r.id with
    | none => t
    | some q => trySend t q) s

/-- A new request, unsent. -/
def newReq (s : State) (core : Nat) (parts : List (Nat × FabKind)) (owner : ReqOwner) (chan : Option Nat) :
    Nat × State :=
  let (id, s) := takeId s
  let r : FabReq :=
    { id := id, core := core, addr := (parts.head?.map (·.1)).getD 0, parts := parts, owner := owner, chan := chan,
      port := none, age := 0, first := s.now, reissue := none, sent := false }
  (id, { s with fab := { s.fab with reqs := s.fab.reqs ++ [r] } })

/-- The window of an address as a core uses it: the entry of the table, or the contents before a remap whose point the
core has not passed (R30, R31). Lowest hit first. -/
def windowHit (s : State) (c va : Nat) : Option (Nat × Nat) :=
  if s.fab.windows.isEmpty && (coreOf s c).oldWin.isEmpty then none
  else (List.range 256).findSome? fun n =>
    let w := match mget (coreOf s c).oldWin n with
      | some b => b.toNat
      | none => ((mget s.fab.windows n).getD 0).toNat
    let sz := bitsOf w 6 1
    if bitOf w 0 && va / 2 ^ sz == (bitsOf w 51 16 * 2 ^ 21) / 2 ^ sz then some (n, w) else none

/-- The fabric address a hit window gives (R30). -/
def windowAddr (w va : Nat) : Nat :=
  bitsOf w 15 8 * 2 ^ 48 + (bitsOf w 90 64 * 2 ^ 21 + (va - bitsOf w 51 16 * 2 ^ 21)) % 2 ^ 48

/-- Split a byte range at the 128-byte lines of its addresses: (address, offset, length). -/
def lineParts : Nat → Nat → Nat → Nat → List (Nat × Nat × Nat)
  | 0, _, _, _ => []
  | fuel + 1, addr, off, len =>
      if len = 0 then []
      else
        let n := min len (128 - addr % 128)
        (addr, off, n) :: lineParts fuel (addr + n) (off + n) (len - n)

/-- Write bytes of an engine operation to remote memory, by lines: in the cache under an exclusive token, else by requests
(R40, R133, R142). -/
def writeFar (s : State) (o : Op) (addr : Nat) (tkc : Bool) (off : Nat) (va : DWord) (bs : List Byte) : State :=
  (lineParts (bs.length + 1) addr 0 bs.length).foldl (fun s (a, f, n) =>
    let part := (bs.drop f).take n
    if tkc && tokenServes s (a / 2 ^ 21) true then cacheWrite s a part
    else
      let (id, s) := newReq s o.core [(a, .write part)] (.chunk o.id (off + f) (va + BitVec.ofNat 64 f)) none
      modOp s o.id fun o => { o with waits := o.waits ++ [id] }) s

/-- Write a buffer of an engine operation from bytes by offset: device memory at once, remote lines by requests. -/
def writeSegs (s : State) (op : Nat) (segs : List (Place × Nat × DWord × Nat)) (bytes : SMap Byte) : State :=
  segs.foldl (fun s (pl, off, va, len) =>
    match opById s op, pl with
    | none, _ => s
    | some _, .dev pa _ =>
        homeWrite s pa ((List.range len).map fun i => mgetD bytes (off + i) 0)
    | some _, .chip _ => s
    | some o, .fab addr tkc => writeFar s o addr tkc off va ((List.range len).map fun i => mgetD bytes (off + i) 0)) s

/-- The buffer segments of an engine operation: its accesses, whose `data` holds the length of each (R338, R340). -/
def bufSegs (o : Op) : List (Place × Nat × DWord × Nat) :=
  (o.accs.foldl (fun (acc : List (Place × Nat × DWord × Nat) × Nat) a =>
    match a.place with
    | none => acc
    | some p => (acc.1 ++ [(p, acc.2, a.va, a.data.toNat)], acc.2 + a.data.toNat)) ([], 0)).1

/-- Finish an engine operation's token once its requests are answered. -/
def tokenWhenDone (s : State) (op : Nat) (w : Word) : State :=
  match opById s op with
  | none => s
  | some o => if o.waits.isEmpty then finishToken s op w else modOp s op fun p => { p with tok := some w }

end Sys2Proof.Machine
end

