-- ==== Sys2Proof/Machine/Group.lean ====
section
/-! DEFINITION. The collective unit: arrivals, completions, aborts and withdrawals (R42 to R46, R338, R339, R370). -/
namespace Sys2Proof.Machine

/-- The rank of a strand of this device among the members with W = 0 (R338). -/
def rankOf (s : State) (c : CollDesc) (gid : Nat) : Option Nat :=
  (c.members.zipIdx.find? fun (m, _) => m.dev == s.phys.deviceId && m.strand == gid && !m.w).map (·.2)
/-- Bytes of an element of a DTYPE (R41, R337). -/
def collElem (dtype : Nat) : Nat :=
  match dtype with
  | 0 => 4 | 1 => 8 | 2 => 4 | _ => 16

/-- Wide-cell total of R338. -/
def cellTotal (xs : List (Nat × Nat)) : Nat :=
  let cs := xs.map fun (r, x) => (r, cellOf x)
  let total : Int := cs.foldl (fun t c => t + c.2.body) 0
  let e := ((leastBy (·.1) cs).map (·.2.e)).getD 0
  let out := decide (total < -((2 ^ 117 : Nat) : Int)) || decide (((2 ^ 117 : Nat) : Int) ≤ total)
  cellBits { body := total, ovf := out || cs.any (·.2.ovf), inv := cs.any (·.2.inv) || cs.any (·.2.e != e), e := e }

/-- One combination of R46 and R338, of integers as w bits, or of f32 patterns. -/
def collCombine (dtype op : Nat) (x y : Nat) : Nat :=
  let w := if dtype = 1 then 64 else 32
  if dtype = 2 then (fMinMax fmtF32 (op == 2) false x y).1
  else match op with
    | 0 => (x + y) % 2 ^ w
    | 1 => if signedOf w x ≤ signedOf w y then x else y
    | 2 => if signedOf w x ≤ signedOf w y then y else x
    | 3 => x &&& y
    | _ => x ||| y

/-- Element i of an input. -/
def elemOf (dtype : Nat) (bs : List Byte) (i : Nat) : Nat :=
  leNat ((bs.drop (i * collElem dtype)).take (collElem dtype))

/-- The reduction of the arrived inputs (R338). -/
def collReduce (a : Attempt) : List Byte :=
  let ins := sortBy (·.rank) a.arrivals
  (List.range a.count).flatMap fun i =>
    let xs := ins.map fun r => (r.rank, elemOf a.dtype r.input i)
    leBytes (collElem a.dtype)
      (if a.dtype = 3 then cellTotal xs
       else match xs with
         | [] => 0
         | x :: r => r.foldl (fun t y => collCombine a.dtype a.op t y.2) x.2)

/-- Bytes as a map by offset. -/
def byteMap (bs : List Byte) : SMap Byte := bs.zipIdx.map fun (b, i) => (i, b)

/-- What an arrived member's buffer receives: offset in the buffer's own bytes and the bytes (R338). -/
def collOutput (a : Attempt) (rank : Nat) : Option (SMap Byte) :=
  if a.noRoot then none
  else match a.fn with
    | 1 => some (byteMap (collReduce a))
    | 2 => (a.arrivals.find? fun r => r.rank == a.root).map fun r => byteMap r.input
    | 3 =>
        if rank = a.root then
          some ((sortBy (·.rank) a.arrivals).flatMap fun r =>
            r.input.zipIdx.map fun (b, i) => (r.rank * a.count * collElem a.dtype + i, b))
        else none
    | _ => none

/-- Write the listed bytes of a buffer, leaving the others. -/
def writeListed (s : State) (op : Nat) (segs : List (Place × Nat × DWord × Nat)) (bytes : SMap Byte) : State :=
  segs.foldl (fun s (pl, off, va, len) =>
    let runs := (bytes.filter fun p => off ≤ p.1 && p.1 < off + len)
    match runs with
    | [] => s
    | (lo, _) :: _ =>
        -- the members' parts of a gather are whole runs of elements: each run is written by itself
        (runs.foldl (fun (acc : List (Nat × List Byte)) p =>
            match acc.getLast? with
            | some (a, bs) => if a + bs.length = p.1 then acc.dropLast ++ [(a, bs ++ [p.2])] else acc ++ [(p.1, [p.2])]
            | none => [(lo, [p.2])]) []).foldl (fun s (a, bs) =>
          let pl' : Place := match pl with
            | .dev pa k => .dev (pa + (a - off)) k
            | .fab ad t => .fab (ad + (a - off)) t
            | .chip pa => .chip pa
          writeSegs s op [(pl', a, va + BitVec.ofNat 64 (a - off), bs.length)] (bs.zipIdx.map fun (b, i) => (a + i, b))) s) s

/-- The attempt completes (R44): results, tokens, IDLE. -/
def collComplete (s : State) (d : Nat) : State :=
  let c := collOf s d
  match c.attempt with
  | none => s
  | some a =>
      let tok := collToken (if a.noRoot then 4 else 0) c.wdr c.att
      let s := putColl s d { c with state := .idle, arr := 0, wdr := withdrawnCount c, attempt := none }
      let s := a.arrivals.foldl (fun s r =>
        match r.op with
        | none => s
        | some id => match opById s id with
            | none => s
            | some o =>
                let s := match collOutput a r.rank with
                  | none => s
                  | some out => writeListed s id (bufSegs o) out
                tokenWhenDone s id tok) s
      applyEdits (pump s) d

/-- The attempt is complete when every member has arrived or counts as absent (R44). -/
def collCheck (s : State) (d : Nat) : State :=
  let c := collOf s d
  if c.state == .running && c.arr + c.wdr == c.members.length then collComplete s d else s

/-- An attempt takes an arrival: it has the parameters that the first one fixed, COUNT only where it is read, and the member has not
arrived yet (R337, R338). -/
def collTakes (a : Attempt) (rank fn dtype op count root : Nat) : Bool :=
  a.fn == fn && a.dtype == dtype && a.op == op && a.root == root && (fn == 0 || a.count == count) &&
  !(a.arrivals.any fun q => q.rank == rank)

/-- A member arrives (R44, R338): the first fixes the attempt's parameters; one that differs, or a second arrival of the
member, raises an abort and waits for its end. -/
def collArrive (s : State) (d rank fn dtype op count root : Nat) (input : List Byte) (id : Option Nat) : State :=
  let c := collOf s d
  let r : Arrival := { rank := rank, input := input, op := id, since := s.now }
  match c.state, c.attempt with
  | .idle, _ =>
      let rootGone := (fn == 2 || fn == 3) &&
        (decide (c.members.length ≤ root) || ((c.members[root]?).map (·.w)).getD false)
      let a : Attempt :=
        { fn := fn, dtype := dtype, op := op, count := count, root := root, noRoot := rootGone, arrivals := [r],
          acks := [], since := s.now }
      collCheck (putColl s d { c with state := .running, arr := 1, attempt := some a }) d
  | .running, some a =>
      if collTakes a rank fn dtype op count root then
        collCheck (putColl s d
          { c with arr := c.arr + 1, attempt := some { a with arrivals := a.arrivals ++ [r], since := s.now } }) d
      else
        collAbort (putColl s d { c with waiting := c.waiting ++ id.toList }) d
  | _, _ => putColl s d { c with waiting := c.waiting ++ id.toList }

/-- A withdrawal notice for a rank (R46). -/
def collWithdrawRank (s : State) (d rank : Nat) : State :=
  let c := collOf s d
  match c.members[rank]? with
  | none => s
  | some m =>
      if m.w then s
      else
        let members := c.members.set rank { m with w := true }
        match c.state, c.attempt with
        | .running, some a =>
            if a.arrivals.any fun r => r.rank == rank then putColl s d { c with members := members }
            else if a.fn = 0 then
              collCheck (putColl s d
                { c with members := members, wdr := c.wdr + 1, attempt := some { a with since := s.now } }) d
            else collAbort (putColl s d { c with members := members }) d
        | .aborting, _ => putColl s d { c with members := members }
        | _, _ => putColl s d { c with members := members, wdr := c.wdr + 1 }

/-- The service of this device withdraws a member and notifies the other member devices (R46, R370). -/
def collWithdraw (s : State) (d rank : Nat) : State :=
  let c := collOf s d
  let s := { s with fab := { s.fab with
    wire := s.fab.wire ++ (otherDevices s c).map fun v => .withdraw v d c.att.toNat rank } }
  collWithdrawRank s d rank

/-- A strand of this device that terminates is withdrawn from every descriptor that lists it (R46, R182). -/
def collWithdrawStrand (s : State) (gid ctx : Nat) : State :=
  s.coll.foldl (fun s (d, c) =>
    if c.ctx = ctx then
      (match rankOf s c gid with
       | none => s
       | some r => collWithdraw s d r)
    else s) s

end Sys2Proof.Machine
end

