-- ==== Sys2Proof/Machine/Order.lean ====
section
/-! DEFINITION. When an access may be performed: program order on overlapping bytes, gates, acquires, fences (R129,
R132 to R140, R147). -/
namespace Sys2Proof.Machine

/-! ### Formatted pages (R122, R124) -/

/-- ADDR of an entry as a physical address (R122). -/
def entryAddr (w0 : Nat) : Nat := bitsOf w0 55 16 * 256
def leafLoc (w0 : Nat) : Nat := bitsOf w0 6 5
def leafFmt (w1 : Nat) : Nat := bitsOf w1 3 0
/-- Elements of a block (R122). -/
def blkLen (blk : Nat) : Nat :=
  match blk with
  | 0 => 16 | 1 => 32 | 2 => 64 | 3 => 128 | 4 => 256 | 5 => 1024 | _ => 4096
/-- Kept elements of a group of eight; 0 for dense (R122). -/
def spKept (sp : Nat) : Nat :=
  match sp with
  | 1 => 4 | 2 => 2 | _ => 0
/-- Bytes of an element of a scalar format (R124). -/
def fmtBytes (fmt : Nat) : Nat :=
  match fmt with
  | 1 => 4 | 2 => 2 | 3 => 2 | _ => 1

/-- Code storage in bytes of a page of p elements or bytes (R124). -/
def codeStorage (p fmt sp : Nat) : Nat :=
  if fmt = 0 then p
  else if fmt < 6 then p * fmtBytes fmt
  else if spKept sp = 0 then p * (fmt - 4) / 8
  else p * (fmt - 4) * spKept sp / 64

/-! ### The order of accesses -/

/-- Bytes of one access of an operation on a plain page (R304, R313). -/
def accBytes (o : Op) : Nat :=
  match o.kind with
  | .cell => 16
  | .tkacq | .tkrel => 1
  | _ => tyWidth o.fields.ty / 8

/-- Operations of the same strand issued before this one, still standing. -/
def olderOps (s : State) (o : Op) : List Op :=
  ((opsOf s o.core o.slot).takeWhile fun p => p.id != o.id).filter fun p => !p.discarded

/-- An operation of the program that a trap interrupted, while the handler runs (R175): what of it is still open is blocked, and
stays invisible until TRET decides on it (R141, R180). -/
def behindTrap (s : State) (o : Op) : Bool :=
  match strandAt s o.core o.slot with
  | some x => x.handling.isSome && decide (o.id < x.trapMark)
  | none => false

/-- The older operations that an operation is ordered after on overlapping bytes (R134); those that a trap found blocked are not
in the program order of the handler's split (R129; log entry 54). -/
def orderedOps (s : State) (o : Op) : List Op := (olderOps s o).filter fun p => !behindTrap s p || behindTrap s o

/-- The operations of a strand that precede what it issues now: a handler runs in a split of its own, and what was issued before
its trap is not in the program order of that split (R129, R140, R175; log entry 54). -/
def splitOps (s : State) (c sl : Nat) : List Op := (opsOf s c sl).filter fun o => !behindTrap s o

/-- A translated access that has not been performed. -/
def accReady (a : Access) : Bool :=
  match a.st with
  | .ready _ => true
  | _ => false

/-- An access that has not been performed and is in no request. -/
def accHeld (a : Access) : Bool :=
  match a.st with
  | .ready _ | .atService _ _ => true
  | _ => false

/-- Where the elements of a formatted page of device memory lie: frame, exponents, metadata with their sizes (R122, R124). -/
def planesOf (l : Leaf) : List (Nat × Nat) :=
  let w1 := l.w1.toNat
  let fmt := leafFmt w1
  let n := 2 ^ l.bits
  [(entryAddr l.w0.toNat, codeStorage n fmt (bitsOf w1 8 7))] ++
    (if fmt < 6 then [] else [(bitsOf w1 35 9 * 8192, n / blkLen (bitsOf w1 6 4))] ++
      (if bitsOf w1 8 7 = 0 then [] else [(bitsOf w1 62 36 * 8192, ceilDiv (3 * n) 8)]))

/-- The bytes of memory that an access touches, as places: every byte of the planes for a formatted page, because elements of it
can share codes and exponents (R124). -/
def spansOf (o : Op) (a : Access) : List (Nat × Nat) :=
  match a.place, a.leaf with
  | some (.dev _ _), some l => planesOf l
  | some (.dev pa _), none => [(pa, accBytes o)]
  | _, _ => []

/-- Two runs of bytes may meet in pages that are not known: their offsets in 4 KiB meet, which every page keeps (R122). -/
def mayMeet (x n y m : Nat) : Bool := decide ((y + 4096 - x % 4096) % 4096 < n) || decide ((x + 4096 - y % 4096) % 4096 < m)

/-- Two accesses of one strand touch overlapping bytes, by the places they have; while one of them is not yet translated, they may. -/
def overlaps (o : Op) (a : Access) (p : Op) (b : Access) : Bool :=
  match a.place, b.place with
  | some (.dev _ _), some (.dev _ _) => (spansOf o a).any fun x => (spansOf p b).any fun y => meet x.1 x.2 y.1 y.2
  | some (.fab x _), some (.fab y _) => meet x (accBytes o) y (accBytes p)
  | some (.chip x), some (.chip y) => meet x (accBytes o) y (accBytes p)
  | some _, some _ => false
  | _, _ => a.leaf.isSome || b.leaf.isSome || mayMeet a.eva (accBytes o) b.eva (accBytes p)

/-- Two operations whose splits share a slice, or whose splits a REGANG has merged: the first is earlier in the program order of
a split of these slices (R129). -/
def sameSplit (p : Op) (smask : BitVec 8) : Bool := p.smask &&& smask != 0 || p.merges.any fun m => m.1 &&& smask != 0

/-- A REGANG merge stands between two operations (R129, R134). -/
def mergedBefore (p o : Op) : Bool := p.merges.any fun m => decide (m.2 ≤ o.id) && m.1 &&& o.smask != 0

/-- An older operation is earlier in the program order of another's split (R129). -/
def orderedBefore (p o : Op) : Bool := p.smask &&& o.smask != 0 || mergedBefore p o

/-- The physical address of a plain access to device memory. -/
def devPlace (b : Access) : Option Nat :=
  match b.place, b.leaf with
  | some (.dev pa _), none => some pa
  | _, _ => none

/-- A store to device memory whose value a younger load of the same program order may take before it is performed; the store of
a diverged split is awaited instead, since a release after the load covers it (R136). -/
def forwardable (o p : Op) (b : Access) : Bool :=
  p.kind == .store && accReady b && (devPlace b).isSome && orderedBefore p o

/-- Kinds of operation whose accesses a merge orders: those of the strand itself, not of an engine (R129, R142). -/
def strandKind (k : OpKind) : Bool :=
  match k with
  | .load | .store | .atom | .cas | .cell => true
  | _ => false

/-- No older access of the strand stands in the way: one to overlapping bytes, or one from before a REGANG merge (R132,
R134). -/
def orderOk (older : List Op) (o : Op) (a : Access) : Bool :=
  older.all fun p =>
    !(strandKind p.kind && strandKind o.kind && mergedBefore p o && p.accs.any accOpen) &&
    p.accs.all fun b => !(accOpen b && overlaps o a p b) || (o.kind == .load && forwardable o p b)

/-- The channel of a pinned store (R33, R308): on a token-cached leaf it has no effect. -/
def channelOf (o : Op) (a : Access) : Option Nat :=
  match a.place with
  | some (.fab _ false) =>
      if o.kind == .store && o.fields.md.getLsbD 2 then some (o.fields.md.extractLsb' 3 3).toNat else none
  | _ => none

/-- The target and the channel of a pinned store. -/
def pinOf (o : Op) (a : Access) : Option (Nat × Nat) :=
  match a.place with
  | some (.fab x _) => (channelOf o a).map fun n => (fabTarget x, n)
  | _ => none

/-- A store with a channel that is not yet translated may turn out to be pinned. -/
def mayPin (o : Op) (a : Access) (n : Nat) : Bool :=
  accHeld a && a.place.isNone && o.kind == .store && o.fields.md.getLsbD 2 && (o.fields.md.extractLsb' 3 3).toNat == n

/-- Every pinned store of the same target and channel that this device issued earlier, whatever strand issued it, has left
(R33, R146, R308). -/
def pinnedTurn (s : State) (o : Op) (a : Access) : Bool :=
  match pinOf o a with
  | none => true
  | some t => !(s.ops.any fun p => decide (p.id < o.id) && !behindTrap s p && p.accs.any fun b =>
      (accReady b && pinOf p b == some t) || mayPin p b t.2)

/-- An operation still stands in some lane's horizon. -/
def opOpen (p : Op) : Bool := openLanes p != 0

/-- Bytes that this device holds dirty under tokens (R147). -/
def hasDirty (s : State) : Bool := s.fab.cached.any fun c => c.2.2

/-- A write-back is outstanding (R40, R147). -/
def writingBack (s : State) : Bool :=
  s.fab.reqs.any fun r => match r.owner with | .writeBack _ => true | _ => false

/-- Stores that the cluster of a core holds and the home has not accepted (R118). -/
def clusterHolds (s : State) (c : Nat) : Bool := !(clusterAt s (clusterOf c)).stores.isEmpty

/-- Every store that may happen before what a core does now is at the home: those of its cluster, and those of other clusters that a
later store has passed, so that a strand of this cluster may have read what follows them (R133, R136; log entry 14). -/
def storesHome (s : State) (c : Nat) : Bool := !clusterHolds s c && (List.range 24).all fun k => !(clusterAt s k).stores.any (·.passed)

/-- Everything that happens before a release is performed at its scope, apart from its own strand's open operations
(R133, R136, R147; log entry 14). -/
def scopeClean (s : State) (c : Nat) (sc : Scope) : Bool :=
  match sc with
  | .core | .clu => true
  | .dev => storesHome s c
  | .sys => storesHome s c && !hasDirty s && !writingBack s

/-- Start the write-back of dirty lines that are not being written back (R147); the lines stay cached, and are clean once the home has
accepted it. -/
def writeBackSome (s : State) (c : Nat) (op : Option Nat) (pick : Nat → Bool) : State :=
  let asked := (s.fab.reqs.filter isWriteBack).map fun r => r.addr / 128
  let dirty := if s.now < s.fab.cleanAt then [] else s.fab.cached.filter fun p => p.2.2 && pick (p.1 / 128) && !asked.contains (p.1 / 128)
  let lines := (dirty.map fun p => p.1 / 128).eraseDups
  pump (lines.foldl (fun s l =>
    (newReq s c ((dirty.filter fun p => p.1 / 128 == l).map fun p => (p.1, .write [p.2.1])) (.writeBack op) none).2) s)

/-- Start the write-back of every dirty line (R147). -/
def writeBackAll (s : State) (c : Nat) (op : Option Nat) : State := writeBackSome s c op fun _ => true

/-- A dirty line that an uncached access of this device waits for, and whose write-back has not begun (R132, R133). -/
def dirtyWaits (s : State) : Option FabReq :=
  if s.now < s.fab.cleanAt then none
  else s.fab.reqs.find? fun r => isUncached r && !r.sent && r.parts.any fun p =>
    (s.fab.cached.any fun c => c.2.2 && c.1 / 128 == p.1 / 128) && !(s.fab.reqs.any fun q => isWriteBack q && q.addr / 128 == p.1 / 128)

/-- The visibility condition of R140 for one access, and the total order of sc accesses (R138): .hz waits for every older
operation of its lane, a release for those of its split. -/
def gateOpen (s : State) (older split : List Op) (o : Op) (a : Access) : Bool :=
  (match o.gate with
   | .none => true
   | .release => !(split.any fun p => opOpen p && orderedBefore p o) && scopeClean s o.core o.scope
   | .hz => !(older.any fun p => openLanes p &&& a.lanes != 0)) &&
  (!o.sc || (!(split.any fun p => p.sc && opOpen p && orderedBefore p o) && scopeClean s o.core o.scope))

/-- A store that may turn out to write whole blocks waits until every lane is translated (R307). -/
def awaitsBlocks (o : Op) : Bool :=
  o.kind == .store && o.fields.ty == .f32 && !o.fields.md.getLsbD 0 && !o.fields.md.getLsbD 1 &&
  o.accs.any fun a => match a.st with
    | .atService _ _ => true
    | _ => false

/-- Neither the order of the strand nor the condition of R140 holds a translated access back. -/
def visible (s : State) (o : Op) (a : Access) : Bool :=
  accReady a && !behindTrap s o && !awaitsBlocks o && orderOk (orderedOps s o) o a &&
  gateOpen s (olderOps s o) (orderedOps s o) o a

/-- A translated access may be performed, whatever its latency. -/
def performable (s : State) (o : Op) (a : Access) : Bool := visible s o a && pinnedTurn s o a

/-- A memory operation is in a state in which a trap no longer waits for it (R175). -/
def opResolved (s : State) (o : Op) : Bool :=
  engineKind o.kind || o.kind == .fil || o.discarded ||
  o.accs.all fun a => match a.st with
    | .settled | .faulted _ _ _ _ | .dropped => true
    | .ready _ => !visible s o a
    | _ => false

/-- A younger memory access may issue: no acquire of the split still waits for its value (R140). -/
def acquireClear (ops : List Op) (smask : BitVec 8) : Bool :=
  !(ops.any fun p => p.acq && opOpen p && sameSplit p smask)

/-- No access from before a REGANG merge that joins these slices is still open (R129, R134). -/
def mergeClear (ops : List Op) (smask : BitVec 8) : Bool :=
  !(ops.any fun p => strandKind p.kind && p.accs.any accOpen && p.merges.any fun m => m.1 &&& smask != 0)

/-- No write of the split to a remote place still waits for its reply (R38, R139); one that is not yet translated may be such. -/
def remoteClear (ops : List Op) (smask : BitVec 8) : Bool :=
  !(ops.any fun p => strandKind p.kind && p.kind != .load && sameSplit p smask && p.accs.any fun a => accOpen a && match a.place with
    | some (.fab _ _) | none => true
    | _ => false)

/-- The conditions under which a fence, or an operation with its order, passes (R315). -/
def fenceReady (s : State) (c sl : Nat) (smask : BitVec 8) (acq rel : Bool) (sc : Scope) : Bool :=
  let ops := (splitOps s c sl).filter fun p => opOpen p && sameSplit p smask
  (!acq || !(ops.any fun p => p.kind == .load || p.kind == .atom || p.kind == .cas || p.kind == .cell)) &&
  (!rel || (ops.isEmpty && scopeClean s c sc))

/-- The order includes an acquire part, a release part (R131). -/
def ordAcq : MemOrd → Bool
  | .acq | .ar | .sc => true
  | _ => false
def ordRel : MemOrd → Bool
  | .rel | .ar | .sc => true
  | _ => false

/-- The youngest store of a cluster to a byte, else the home's byte (R118, R133). -/
def localByte (s : State) (cl pa : Nat) : Byte :=
  match ((clusterAt s cl).stores.reverse.find? fun e => e.pa ≤ pa && pa < e.pa + e.bytes.length) with
  | some e => (e.bytes[pa - e.pa]?).getD 0
  | none => peek s.mem pa

/-- A past write that changed what a cluster sees of a byte: the byte before it (R137). -/
def pastByte (cl pa : Nat) (w : PastWrite) : Option Byte :=
  if (match w.cluster with | some k => k == cl | none => !w.apart.contains cl) && w.pa ≤ pa then w.old[pa - w.pa]? else none

/-- A byte as a cluster saw it once the first t of the past writes had been made. -/
def viewByte (s : State) (cl t pa : Nat) : Byte := ((s.past.drop t).findSome? (pastByte cl pa)).getD (localByte s cl pa)

/-- The write that a cluster saw last at a byte then is a plain one: an acquire that reads it synchronises with nothing (R135). -/
def plainThen (s : State) (cl t pa : Nat) : Bool :=
  (((s.past.take t).reverse.find? fun w => (pastByte cl pa w).isSome).map (·.plain)).getD false

/-- Read bytes as a core of a cluster sees them. -/
def localBytes (s : State) (cl pa : Nat) : Nat → List Byte
  | 0 => []
  | n + 1 => localByte s cl pa :: localBytes s cl (pa + 1) n

end Sys2Proof.Machine
end

