-- ==== Sys2Proof/Machine/Ops.lean ====
section
/-! DEFINITION. Shared operations of the meanings: issuing an instruction, waiting, splits, barriers, clasps, fatal
terminations, taking a trap and returning from it, placing strands, cancelling. -/
namespace Sys2Proof.Machine

/-! ### The issuing split -/

/-- What an instruction sees when it issues: core, split-table entry, slot, the split and its strand, the decoded fields,
the PCs, the active lanes (R93) and the active, unguarded lanes. `off` says that a strand-side guard reads false. -/
structure Iss where
  c : Nat
  e : Nat
  sl : Nat
  sp : Split
  x : Strand
  opc : BitVec 7
  f : Fields
  pc : Pc
  next : Pc
  act : Word
  on : Word
  off : Bool
  sample : Option Sample

/-- Why an instruction does not take effect: it waits (R86), blocks in an order (R187), waits on allowance slots (R87) or at a SPAWN (R298), waits for a
write-back that it starts (R147),
raises a precise cause (R174), or ends the strand (R181). -/
inductive Stop where
  | wait (c : WaitClass)
  | block (o : WaitObj)
  | allow (slots : List Nat)
  | spawn
  | clean (c : WaitClass)
  | trap (code : Nat) (detail : Word)
  | fatal (code : Nat)
  deriving DecidableEq, Repr

/-- How an instruction waits for a release to hold at a scope: at system scope it starts the write-back of dirty lines
(R147). -/
def holdStop (s : State) (sc : Scope) (c : WaitClass) : Stop := if sc == .sys && hasDirty s then .clean c else .wait c

/-- ILLEGAL with a field number at the issuing instruction (R241). -/
def stopIllegal (v : Iss) (field : Nat) : Stop := .trap 0x01 (illegalDetail v.opc v.f.strand field)

/-- The sampling setting of the strand's context tags this instruction (R192). -/
def sampleOf (s : State) (c : Nat) (sp : Split) (x : Strand) (opc : BitVec 7) (f : Fields) (lanes : Word) :
    Option Sample :=
  match mget s.ctxs x.ctx with
  | none => none
  | some k =>
      if k.interval = 0 ∨ (mgetD (coreOf s c).samples x.ctx 0 + 1) % k.interval ≠ 0 then none
      else some { pc := sp.pc, opc := opc, strandSide := f.strand,
                  tclass := sp.reported,
                  active := lanes
                  isn := if fallible opc then (((slicesOf lanes).head?).map fun i => (nextIsn x i).toNat).getD 0 else 0
                  wait := s.now - sp.stamp, issued := s.now }

/-- The view of the split the state names. -/
def viewOf (s : State) (opc : BitVec 7) (f : Fields) : Option Iss :=
  match s.cur with
  | none => none
  | some (c, e) =>
      match splitAt s c e with
      | none => none
      | some sp =>
          match strandAt s c sp.slot with
          | none => none
          | some x =>
              let act := lanesOfSlices sp.smask &&& livingLanes x
              let gi := (f.g.extractLsb' 0 3).toNat
              let inv := f.g.getLsbD 3
              let on := if f.strand then (if gget x gi != inv then act else 0)
                else act &&& (if inv then ~~~kmask x gi else kmask x gi)
              some { c := c, e := e, sl := sp.slot, sp := sp, x := x, opc := opc, f := f, pc := sp.pc,
                     next := sp.pc + BitVec.ofNat 57 (instrSize f), act := act, on := on,
                     off := f.strand && gget x gi == inv,
                     sample := sampleOf s c sp x opc f on }

/-- An issue is counted (R85, R90, R192, R194). -/
def countIssue (s : State) (v : Iss) : State :=
  let s := modCore s v.c fun k =>
    { k with issued := schedOf v.sl :: k.issued, issuedSlots := v.sl :: k.issuedSlots,
             samples := mput k.samples v.x.ctx (mgetD k.samples v.x.ctx 0 + 1) }
  modCluster s (clusterOf v.c) fun k => { k with charge := k.charge + 1 }

/-- The issuing split leaves every wait and takes the stamp of this cycle (R85). -/
def markIssued (s : State) (v : Iss) : State :=
  modSplit (countIssue s v) v.c v.e fun p =>
    { p with stamp := s.now, cls := none, tried := s.now + 1, blocked := none, desched := none, bpSkip := false,
             spawnWait := false, replay := false, fetch := none, turn := none, entering := false }

/-- Go on at a PC. -/
def setPc (s : State) (v : Iss) (pc : Pc) : State := modSplit s v.c v.e fun p => { p with pc := pc }
/-- Go on at the next instruction (R225). -/
def advance (s : State) (v : Iss) : State := setPc s v v.next
/-- Change the issuing strand. -/
def onStrand (s : State) (v : Iss) (g : Strand → Strand) : State := modStrand s v.c v.sl g
/-- Change the issuing core. -/
def onCore (s : State) (v : Iss) (g : Core → Core) : State := modCore s v.c g
def gid (v : Iss) : Nat := gidOf v.c v.sl

/-- The stop record of a halt (R199) of a strand with some splits; `at_` is the split that caused it. What no rule fixes is
free: BP of a halt by no breakpoint, the split of a halt that no split has caused, and the split fields of a strand that has none
(log entry 85). -/
def stopOf (s : State) (c : Nat) (x : Strand) (splits : List (Nat × Split)) (reason bp : Nat) (at_ : Option (Pc × BitVec 8))
    (holders : List (BitVec 384)) : StopRec :=
  let free (i : Nat) : Nat := (Config.freeWord (s.fresh + i)).toNat
  let one := at_.orElse fun _ => (splits[free 0 % splits.length]?).map fun p => (p.2.pc, p.2.smask)
  { reason := reason, bp := if reason = 1 then bp else free 1 % 8, depth := x.handling.isSome
    nsplit := if splits.isEmpty then free 2 % 16 else splits.length, cycle := cycleOf s c
    pc := (one.map (·.1)).getD (BitVec.ofNat 57 (free 3 * 2 ^ 32 + free 4))
    smask := (one.map (·.2)).getD (BitVec.ofNat 8 (free 5)), holders := holders }

/-- A strand that halts keeps the record of its first stop; a strand in ENDING does not halt (R183, R197, R199). -/
def haltedBy (r : StopRec) (x : Strand) : Strand :=
  if x.phase = .ending then x
  else match x.halted with
    | some h => { x with halted := some { h with holders := (h.holders ++ r.holders).eraseDups } }
    | none => { x with halted := some r, steps := none }

/-- The free values of a stop record are used up. -/
def takeStop (s : State) : State := { s with fresh := s.fresh + 6 }

/-- The strand halts (R197, R199). -/
def haltStrand (s : State) (c sl reason bp : Nat) (pc : Pc) (smask : BitVec 8) (holders : List (BitVec 384)) : State :=
  match strandAt s c sl with
  | none => s
  | some x => modStrand (takeStop s) c sl (haltedBy (stopOf s c x (splitsOf s c sl) reason bp (some (pc, smask)) holders))

/-- An instruction of a stepped strand has issued (R200): the strand counts down, and halts with reason 4 after the last, held by the
debugger that stepped it. What the instruction does halts no strand that was running. -/
def countStep (s : State) (v : Iss) : State :=
  match v.x.steps, strandAt s v.c v.sl with
  | some (n, key), some x =>
      if n ≤ 1 then
        let p := (splitAt s v.c v.e).map fun p => (p.pc, p.smask)
        let r := stopOf s v.c x (splitsOf s v.c v.sl) 4 0 (some (p.getD (v.next, v.sp.smask))) [key]
        modStrand (takeStop s) v.c v.sl fun y => haltedBy r { y with halted := v.x.halted }
      else modStrand s v.c v.sl fun y => { y with steps := some (n - 1, key) }
  | _, _ => s

/-! ### Splits (R95 to R97) -/

/-- The lanes of a split that may act. -/
def splitLanes (x : Strand) (p : Split) : Word := lanesOfSlices p.smask &&& livingLanes x

/-- Another split of the strand shares the lowest d join ids (R96). -/
def isSibling (d : Nat) (p q : Split) : Bool := q.jstk.take d == p.jstk.take d && d ≤ q.jstk.length

/-- Operations that splits of a strand have issued before a merge of these slices come before what the merged split issues
(R129). -/
def mergeOps (s : State) (c sl : Nat) (all : BitVec 8) : State :=
  { s with
    ops := s.ops.map fun o =>
      if o.core = c ∧ o.slot = sl ∧ o.discarded = false ∧
          (o.smask &&& all != 0 || o.merges.any fun m => m.1 &&& all != 0) then
        { o with merges := o.merges ++ [(all, s.nextId)] }
      else o
    stale := s.stale.map fun w =>
      if w.core = c ∧ w.slot = sl ∧ w.smask &&& all != 0 then { w with smask := w.smask ||| all } else w }

/-- Merge the splits of a strand that wait at a REGANG whose every sibling has arrived: the first such group (R96). In a
handler only slices with a lane of FLANES are kept (log entry 16). -/
def mergeOne (s : State) (c sl : Nat) : State :=
  match strandAt s c sl with
  | none => s
  | some x =>
      let ps := splitsOf s c sl
      match ps.find? fun p => p.2.rgw && ps.all fun q =>
          !isSibling p.2.jstk.length p.2 q.2 || (q.2.rgw && q.2.jstk.length == p.2.jstk.length) with
      | none => s
      | some (e, p) =>
          let d := p.jstk.length
          let grp := ps.filter fun q => q.2.rgw && isSibling d p q.2
          let all := grp.foldl (fun m q => m ||| q.2.smask) 0
          let kept := BitVec.ofNat 8 (((List.range 8).filter fun i => all.getLsbD i &&
            (livingLanes x).extractLsb' (4 * i) 4 != 0).foldl (fun n i => n + 2 ^ i) 0)
          let low := (leastBy (fun q => ((List.range 8).find? fun i => q.2.smask.getLsbD i).getD 8) grp).getD (e, p)
          let stamp := grp.foldl (fun t q => min t q.2.stamp) p.stamp
          let s := grp.foldl (fun s q => plainRecord s x.ctx c sl q.2.held 0) s
          let s := grp.foldl (fun s q => if q.1 = e then s else delSplit s c q.1) s
          let s := mergeOps s c sl all
          -- a handler goes on to its TRET even when its lanes have exited (R284, log entry 16)
          let kept := if kept = 0 ∧ x.handling.isSome then p.smask else kept
          if kept = 0 then delSplit s c e
          else putSplit s c e
            { p with smask := kept, jstk := p.jstk.take (d - 1), rgw := false, stamp := stamp,
                     pc := low.2.pc + 12, cls := none, held := none }

/-- Merge every group of a strand whose siblings have all arrived (R96); a strand has at most eight splits. -/
def tryMerge (s : State) (c sl : Nat) : State := (List.range 8).foldl (fun s _ => mergeOne s c sl) s

/-- Divide the issuing split (R96, R281): the taken slices go to the target in its entry, the others fall through in the
lowest free entry of the scheduler. -/
def divide (s : State) (v : Iss) (taken : BitVec 8) (target : Pc) (join : BitVec 8) : State :=
  let e2 := freeEntry (coreOf s v.c) (schedOf v.sl)
  match splitAt s v.c v.e with
  | none => s
  | some p =>
      let st := p.jstk ++ [join]
      let s := putSplit s v.c v.e { p with smask := taken, pc := target, jstk := st }
      putSplit s v.c e2 { p with smask := p.smask &&& ~~~taken, pc := v.next, jstk := st }

/-! ### Parked splits: results of barriers, joint operations and SYS -/

/-- Change the splits of a strand that satisfy a test, wherever they are held: in the table, in the record of a trap being
handled, or in a saved image. -/
def modSplitsAny (s : State) (ctx c sl : Nat) (p : Split → Bool) (g : Split → Split) : State :=
  let h (q : Split) : Split := if q.slot = sl ∧ p q then g q else q
  let core (k : Core) : Core :=
    { k with
        splits := mmap k.splits fun _ q => h q
        slots := mmap k.slots fun n x =>
          if n = sl then { x with handling := x.handling.map fun r => { r with splits := mmap r.splits fun _ q => h q } }
          else x }
  match strandAt s c sl with
  | some x => if x.ctx = ctx then modCore s c core else inImages s core
  | none => inImages s core
where
  inImages (s : State) (core : Core → Core) : State :=
    { s with images := s.images.map fun im =>
        if im.ctx = ctx ∧ im.core = c then { im with data := core im.data } else im }

/-- The splits of a slot that a core state holds, those of the record of a trap being handled among them. -/
def splitsIn (k : Core) (sl : Nat) : List Split :=
  ((k.splits ++ (match (mget k.slots sl).bind (·.handling) with | some r => r.splits | none => [])).filter
    fun p => p.2.slot == sl).map (·.2)

/-- The splits of a strand of a context, wherever they are held. -/
def splitsAny (s : State) (ctx c sl : Nat) : List Split :=
  match strandAt s c sl with
  | some x => if x.ctx = ctx then splitsIn (coreOf s c) sl else saved
  | none => saved
where
  saved : List Split := s.images.flatMap fun im => if im.ctx = ctx ∧ im.core = c then splitsIn im.data sl else []

/-- Write a strand-side result and go on from the next cycle: an s register at once, a mailbox in its order (R101). -/
def deliver (s : State) (ctx c sl : Nat) (p : Split → Bool) (d : Nat) (w : Word) (next : Pc) : State :=
  let s := raiseView s c sl
  if d < 64 then
    let s := ((splitsAny s ctx c sl).filter p).foldl (fun s q => plainRecord s ctx c sl q.held 0) s
    modSplitsAny (modStrandAny s ctx c sl fun x => sset x d (fullCell w)) ctx c sl p fun q =>
      { q with parked := none, pc := next, cls := none, tried := s.now + 1, held := none }
  else modSplitsAny s ctx c sl p fun q => { q with parked := some (.deliver d w next) }

/-! ### Barriers (R288 to R290) -/

def barOf (k : Core) (n : Nat) : BarEntry := mgetD k.barriers n emptyBar
def putBar (s : State) (c n : Nat) (b : BarEntry) : State :=
  modCore s c fun k => { k with barriers := mput k.barriers n b }
/-- The cores of a scope instance (R130, R288). -/
def inInstance (sc : Scope) (c c' : Nat) : Bool :=
  match sc with
  | .core => c == c'
  | .clu => clusterOf c == clusterOf c'
  | _ => true
def termsOf (s : State) (l c : Nat) : Nat := mgetD s.sched.terms (l * 192 + c) 0

/-- Where the barrier entries of the device's launches are held: on the cores, and in saved images under their context. -/
def barPlaces (s : State) : List (Option Nat × Nat × Core) :=
  s.cores.map (fun p => (none, p.1, p.2)) ++ s.images.map fun im => (some im.ctx, im.core, im.data)

/-- The core state at such a place. -/
def placeCore (s : State) (w : Option Nat) (c : Nat) : Core :=
  match w with
  | none => coreOf s c
  | some ctx => ((s.images.find? fun im => im.ctx == ctx && im.core == c).map (·.data)).getD emptyCore

/-- Change the core state at such a place. -/
def modPlace (s : State) (w : Option Nat) (c : Nat) (g : Core → Core) : State :=
  match w with
  | none => modCore s c g
  | some ctx => { s with images := s.images.map fun im => if im.ctx = ctx ∧ im.core = c then { im with data := g im.data } else im }

/-- An entry of core c' belongs to the instance of an entry of core c. -/
def sameInstance (b : BarEntry) (c c' : Nat) (b' : BarEntry) : Bool :=
  inInstance b.scope c c' && b'.isOpen && b'.lcnt == b.lcnt && b'.scope == b.scope

/-- The entries of an instance of barrier n, each where it is held. -/
def barPeers (s : State) (c n : Nat) (b : BarEntry) : List (Option Nat × Nat × BarEntry) :=
  (barPlaces s).filterMap fun (w, c', k) => if sameInstance b c c' (barOf k n) then some (w, c', barOf k n) else none

/-- Participants counted in TERM over the instance: by its entries, and on a core without one since the launch began (R288, R289). -/
def barTerm (s : State) (c : Nat) (b : BarEntry) (peers : List (Option Nat × Nat × BarEntry)) : Nat :=
  ((List.range 192).filter fun c' => inInstance b.scope c c').foldl (fun t c' =>
    t + match peers.find? fun p => p.2.1 == c' with
      | some p => p.2.2.term
      | none => termsOf s b.lcnt c') 0

/-- The status of a completed instance (R288). -/
def barStatus (nterm : Nat) (aband : Bool) : Word := BitVec.ofNat 32 (pack [(0, 16, nterm), (16, 1, bit aband)])

/-- The status with which an instance completes, once its arrivals and terminations reach EXPECT; a waiter that terminates in the
cycle of completion is counted as terminated (R288, R290; log entry 86). -/
def barResult (s : State) (c : Nat) (b : BarEntry) (peers : List (Option Nat × Nat × BarEntry)) : Option Word :=
  let term := barTerm s c b peers
  if peers.foldl (fun t p => t + p.2.2.arr) 0 + term < b.expect then none
  else
    let late := peers.foldl (fun t p => t + p.2.2.late) 0
    some (barStatus (term + late) (term != 0 || peers.any fun p => p.2.2.abt))

/-- The split waits at barrier n. -/
def parkedAt (n : Nat) (q : Split) : Bool :=
  match q.parked with
  | some (.barrier m _ _) => m == n
  | _ => false

/-- Release every split of a slot that waits in an instance, where the instance is held. -/
def barRelease (s : State) (w : Option Nat) (c sl n : Nat) (st : Word) : State :=
  let k := placeCore s w c
  match mget k.slots sl with
  | none => s
  | some x => (splitsIn k sl).foldl (fun s q => match q.parked with
      | some (.barrier m d nx) =>
          if m = n then deliver s x.ctx c sl (fun p => p.smask == q.smask && parkedAt n p) d st nx else s
      | _ => s) s

/-- Close an instance in one of its entries and release its waiters (R288, R289). -/
def barClose (s : State) (n : Nat) (st : Word) (p : Option Nat × Nat × BarEntry) : State :=
  let (w, c, b) := p
  let b' := { b with isOpen := false, arr := 0, term := 0, abt := false, wait := 0, arrived := 0, gen := b.gen + 1 }
  let s := modPlace s w c fun k => { k with barriers := mput k.barriers n b' }
  (lanesOf b.wait).foldl (fun s sl => barRelease s w c sl n st) s

/-- Complete the instance of barrier n at a place if it can complete (R288). -/
def barCheck (s : State) (w : Option Nat) (c n : Nat) : State :=
  let b := barOf (placeCore s w c) n
  if !b.isOpen then s
  else
    let peers := barPeers s c n b
    match barResult s c b peers with
    | none => s
    | some st => peers.foldl (fun s p => barClose s n st p) s

/-- The end of a cycle at the barriers: every arrival and termination of the cycle counts (R290). -/
def barSweep (s : State) : State :=
  let at_ := (barPlaces s).flatMap fun (w, c, k) => (k.barriers.filter fun p => p.2.isOpen).map fun p => (w, c, p.1)
  let s := at_.foldl (fun s (w, c, n) => barCheck s w c n) s
  at_.foldl (fun s (w, c, n) =>
    if (barOf (placeCore s w c) n).late = 0 then s
    else modPlace s w c fun k => { k with barriers := mput k.barriers n { barOf k n with late := 0 } }) s

/-- A strand of launch l ended fatally where it is held (R182, R288). -/
def barTerminated (s : State) (w : Option Nat) (l c sl : Nat) : State :=
  let s := { s with sched := { s.sched with terms := mput s.sched.terms (l * 192 + c) (termsOf s l c + 1) } }
  modPlace s w c fun k =>
    { k with barriers := mmap k.barriers fun _ b =>
        if b.isOpen && b.lcnt == l then
          (if b.arrived.getLsbD sl then
             { b with abt := true, wait := b.wait &&& ~~~laneBit sl, arrived := b.arrived &&& ~~~laneBit sl, late := b.late + 1 }
           else { b with term := b.term + 1 })
        else b }

/-! ### Causes and fatal terminations (R174, R181) -/

/-- A cause at a split that waits at its instruction. -/
def splitCause (x : Strand) (p : Split) (code : Nat) (detail : Word) : Cause :=
  let act := splitLanes x p
  let fs := (slicesOf act).headD 0
  { code := code, detail := detail, faddr := 0, pc := p.pc, spc := p.pc, active := act, flanes := act, smask := p.smask,
    fslice := fs, fisn := nextIsn x fs, rpl := false, svc := false, cycle := 0 }

/-- The split waits at a joint operation. -/
def parkedJoint (q : Split) : Bool :=
  match q.parked with
  | some (.joint _ _) => true
  | _ => false

/-- Every waiter of a clasp is to fault CLASP at its joint operation, with the slot of the offending member (R98): in the next
cycle, so that the lowest of the members that offend in one cycle is known. -/
def claspBreak (s : State) (c offender : Nat) (g : Clasp) : State :=
  g.arrived.foldl (fun s a =>
    match strandAt s c a.slot with
    | none => s
    | some x => modSplitsAny s x.ctx c a.slot parkedJoint fun q => { q with parked := some (.claspFault g.value offender s.now) }) s

/-- A further member of a clasp that was broken in this cycle offends: the lowest slot counts (R98). -/
def lowerOffender (now offender : Nat) (hit : Word → Bool) (q : Split) : Split :=
  match q.parked with
  | some (.claspFault w o t) =>
      if t = now ∧ hit w then { q with parked := some (.claspFault w (min o offender) t) } else q
  | _ => q

/-- Break the clasps of a core whose values a test picks out. -/
def claspsBreak (s : State) (c offender : Nat) (hit : Word → Bool) : State :=
  let s := (coreOf s c).slots.foldl (fun s p =>
    modSplitsAny s p.2.ctx c p.1 (fun _ => true) (lowerOffender s.now offender hit)) s
  let gs := (coreOf s c).clasps.filter fun g => hit g.value
  gs.foldl (fun s g => claspBreak s c offender g) (modCore s c fun k =>
    { k with clasps := k.clasps.filter fun g => !hit g.value })

/-- A waiter whose clasp was broken in an earlier cycle, and whose strand is not at a trap, in a handler or ending. -/
def claspFaultDue (s : State) (c : Nat) (q : Split) : Option Nat :=
  match q.parked, strandAt s c q.slot with
  | some (.claspFault _ o t), some x =>
      if t < s.now ∧ x.arisen.isNone ∧ x.handling.isNone ∧ x.phase ≠ .ending then some o else none
  | _, _ => none

/-- The waiter faults CLASP precisely at its joint operation (R98). -/
def claspFault (s : State) (c e : Nat) (q : Split) (offender : Nat) : State :=
  let s := plainRecord s (((strandAt s c q.slot).map (·.ctx)).getD 0) c q.slot q.held 1
  modStrand (modSplit s c e fun q => { q with parked := none, cls := none, held := none }) c q.slot fun y =>
    { y with arisen := some { splitCause y q 0x0C (BitVec.ofNat 32 offender) with cycle := s.now } }

/-- A member left LIVE: the others that wait with it fault CLASP (R98). -/
def claspDeparts (s : State) (c sl : Nat) : State :=
  let s := modCore s c fun k => { k with clasps := k.clasps.map fun g =>
    { g with arrived := g.arrived.filter fun a => a.slot != sl } }
  claspsBreak s c sl fun w => w.getLsbD sl

/-- Operations of an ending strand: blocked ones and faulted ones are discarded, the others settle or fault silently
(R181): those that the condition of R140 or a trap holds back. With `engines`, operations in flight are stopped and discarded too
(R180). -/
def discardBlocked (s : State) (c sl : Nat) (engines : Bool) : State :=
  let mine := opsOf s c sl
  let out (o : Op) : Bool :=
    opFaulted o || (!engineKind o.kind && o.kind != .fil && o.accs.any fun a => accHeld a &&
      (behindTrap s o || !gateOpen s (olderOps s o) (orderedOps s o) o a)) ||
    (o.kind == .cpy && o.gate == .hz && !opFinished o && (olderOps s o).any fun p => openLanes p &&& o.lanes != 0) ||
    (engines && engineKind o.kind && !opFinished o)
  let ids := (mine.filter out).map (·.id)
  let s := ids.foldl (fun s id => sampleOp (refundOp s id) id 2) s
  { s with ops := s.ops.map fun o =>
      if ids.contains o.id then
        { o with discarded := true, complete := true, accs := o.accs.map fun a => if accOpen a then { a with st := .dropped } else a }
      else o }

/-- The service has to bring in a spare for a core (R66). -/
def suspectCore (s : State) (c : Nat) : State :=
  if s.phys.suspect.contains c then s else { s with phys := { s.phys with suspect := s.phys.suspect ++ [c] } }

/-- A cancelled strand's sampled FMMA writes no record (R170). -/
def unsample (s : State) (c sl : Nat) : State :=
  let mine (o : FilOp) : Bool := o.slot == sl || o.ops.any fun id => match opById s id with
    | some p => p.core == c && p.slot == sl
    | none => false
  modCore s c fun k =>
    { k with
        rechecks := k.rechecks.filter fun r => !r.members.contains sl
        fil := k.fil.map fun o => if mine o then { o with sampled := false } else o }

/-- A strand terminates fatally (R71, R181, R182): it enters ENDING, its blocked operations are discarded, its counters are
marked ABAND unless it was cancelled, barriers count it, its collectives withdraw it, its clasps break. -/
def terminateWith (s : State) (c sl code : Nat) (engines : Bool) : State :=
  match strandAt s c sl with
  | none => s
  | some x =>
      if x.phase = .ending then s
      else
        let s := (splitsIn (coreOf s c) sl).foldl (fun s q => plainRecord s x.ctx c sl q.held 2) s
        let s := discardBlocked s c sl engines
        let s := if code = 0x0B then
            logError s { kind := 8, sev := 2, ctx := x.ctx, core := c, strand := gidOf c sl, loc := 0, cycle := cycleOf s c, synd := 0 }
          else s
        -- a fatal PIPE brings in a spare (R66, R185)
        let s := if code = 0x0A then suspectCore s c else s
        let s := modStrand s c sl fun y =>
          { y with phase := .ending, fatal := some code, arisen := none, handling := none, trapOps := [],
                   halted := none, sys := none }
        let s := modCore s c fun k => { k with splits := k.splits.filter fun p => p.2.slot != sl }
        let s := if code = 0x82 then unsample s c sl else markAband 4 s x.lcnt
        let s := claspDeparts s c sl
        let s := barTerminated s none x.lcnt c sl
        let s := collWithdrawStrand s (gidOf c sl) x.ctx
        checkRetire (sweepOps s c sl) c sl

def terminate (s : State) (c sl code : Nat) : State := terminateWith s c sl code false

/-- The context's handler, 0 when it has none (R176). -/
def handlerOf (s : State) (x : Strand) : Pc := ((mget s.ctxs x.ctx).map (·.handler)).getD 0

/-- A precise cause arises (R174, R181): at handler depth 1 it is a double fault; otherwise the strand stops issuing and
waits for its trap (R175). -/
def raiseCause (s : State) (c sl : Nat) (k : Cause) : State :=
  match strandAt s c sl with
  | none => s
  | some x =>
      if x.handling.isSome then terminate s c sl 0x81
      else if x.arisen.isSome then s
      else putStrand s c sl { x with arisen := some { k with cycle := s.now } }

/-- The cause an instruction raises at issue; SOFT stops after the instruction (R174, R291). -/
def causeAt (v : Iss) (code : Nat) (detail : Word) : Cause :=
  let fs := (slicesOf v.act).headD 0
  { code := code, detail := detail, faddr := 0, pc := v.pc, spc := if code = 0x0F then v.next else v.pc,
    active := v.act, flanes := v.act, smask := v.sp.smask, fslice := fs, fisn := nextIsn v.x fs, rpl := v.sp.replay, svc := false,
    cycle := 0 }

/-- Leave a blocking order (R175, R187). -/
def unblock (p : Split) : Split := { p with blocked := none }

/-- TSEQ of a blocking order, and the core state that has given it out (R187). -/
def nextSeq (k : Core) (o : WaitObj) : Nat × Core :=
  match o with
  | .qpop n | .qpush n =>
      let q := mgetD k.queues n emptyQueue
      (q.tseq, { k with queues := mput k.queues n { q with tseq := (q.tseq + 1) % 2 ^ 32 } })
  | .mread n | .mwrite n =>
      let m := mgetD k.mbox n emptyMailbox
      (m.tseq, { k with mbox := mput k.mbox n { m with tseq := (m.tseq + 1) % 2 ^ 32 } })

/-- Take the next sequence number of a blocking order (R187). -/
def takeSeq (s : State) (c : Nat) (o : WaitObj) : Nat × State :=
  ((nextSeq (coreOf s c) o).1, putCore s c (nextSeq (coreOf s c) o).2)

/-! ### Splits that can be tried (R85, R103) -/

/-- 2^20 cycles have passed since the stop request (R184). -/
def stopLate (s : State) (c : Nat) : Bool :=
  match (coreOf s c).stopReq with
  | some t => decide (t + 2 ^ 20 ≤ s.now)
  | none => false

/-- Splits of a strand do not issue because of a stop request: a strand in its handler goes on until its TRET, or until
the stop request is 2^20 cycles old (R184). -/
def stoppedFor (s : State) (c : Nat) (x : Strand) : Bool :=
  (coreOf s c).stopReq.isSome && (x.handling.isNone || stopLate s c)

/-- The strand may issue instructions, apart from the conditions of its splits (R175, R183, R184, R197). -/
def strandIssues (s : State) (c sl : Nat) (x : Strand) : Bool :=
  x.phase != .ending && x.halted.isNone && x.arisen.isNone && x.cancelNext.isNone && !stoppedFor s c x &&
  (x.handling.isSome || !(opsOf s c sl).any opFaulted)

/-- One sequence number of a blocking order comes before another, modulo 2^32 (R187). -/
def seqBefore (q mine : Nat) : Bool := decide (0 < (mine + 2 ^ 32 - q) % 2 ^ 32 ∧ (mine + 2 ^ 32 - q) % 2 ^ 32 < 2 ^ 31)

/-- A blocked operation of a split stands in the order of an object, before a sequence number where one is given. -/
def blockedBefore (o : WaitObj) (mine : Option Nat) (p : Split) : Bool :=
  match p.blocked with
  | some (o', q) => o' == o && (mine.map (seqBefore q)).getD true
  | none => false

/-- An operation stands in the order of an object, before a sequence number where one is given: one of a split of the core, or a
write of the copy engine for a context (R101, R103, R187). The split `e` and the operation `op` are left out. -/
def waitsBefore (s : State) (ctx c : Nat) (k : Core) (o : WaitObj) (mine e op : Option Nat) : Bool :=
  (k.splits.any fun p => some p.1 != e && blockedBefore o mine p.2) ||
  (s.ops ++ s.images.flatMap fun im => im.ops).any fun p => some p.id != op && p.ctx == ctx && match p.work with
    | .cpy w => (match w.blocked with
        | some (c', o', q) => c' == c && o' == o && (mine.map (seqBefore q)).getD true
        | none => false)
    | _ => false

/-- A split that the mailbox alone held at its last try, and that the mailbox serves now: it has changed state and no older waiter is
left (R101). -/
def mailboxServes (s : State) (c e : Nat) (p : Split) : Bool :=
  let k := coreOf s c
  let first (o : WaitObj) (q : Nat) : Bool := match mget k.slots p.slot with
    | some x => !waitsBefore s x.ctx c k o (some q) (some e) none
    | none => false
  p.cls == some .mailbox && !k.issued.contains (schedOf p.slot) && match p.blocked with
    | some (.mread n, q) => (mgetD k.mbox n emptyMailbox).full && first (.mread n) q
    | some (.mwrite n, q) => !(mgetD k.mbox n emptyMailbox).full && first (.mwrite n) q
    | _ => false

/-- The split can be tried in this cycle. -/
def triable (s : State) (c e : Nat) (p : Split) : Bool :=
  (p.tried != s.now + 1 || mailboxServes s c e p) && !p.rgw && decide (p.yieldTo ≤ s.now) && e / 64 == schedOf p.slot &&
  p.parked.isNone &&
  match strandAt s c p.slot with
  | some x => strandIssues s c p.slot x
  | none => false

/-- A split is blocked on a queue. -/
def blockedOnQueue (n : Nat) (p : Split) : Bool :=
  match p.blocked with
  | some (.qpop m, _) | some (.qpush m, _) => m == n
  | _ => false

/-- A result is written to its mailbox when the mailbox is empty and no older operation waits there; otherwise it takes its place in
the order (R101, R187). -/
def deliverStep (s : State) (c e : Nat) : State :=
  match splitAt s c e with
  | none => s
  | some p => match p.parked, strandAt s c p.slot with
      | some (.deliver d w next), some x =>
          let n := d - 64
          if (mgetD (coreOf s c).mbox n emptyMailbox).full ||
              waitsBefore s x.ctx c (coreOf s c) (.mwrite n) (p.blocked.map (·.2)) (some e) none then
            let (q, s) := takeSeq s c (.mwrite n)
            modSplit s c e fun p => { p with blocked := some (.mwrite n, q), cls := some .mailbox }
          else
            let s := modCore s c fun k =>
              { k with mbox := mput k.mbox n { mgetD k.mbox n emptyMailbox with val := w, full := true, poison := false } }
            let s := plainRecord s x.ctx c p.slot p.held 0
            modSplit s c e fun q => { q with parked := none, pc := next, cls := none, tried := s.now + 1, blocked := none, held := none }
      | _, _ => s

/-- The class of a wait in a blocking order (R86). -/
def objClass : WaitObj → WaitClass
  | .qpop _ | .qpush _ => .queue
  | .mread _ | .mwrite _ => .mailbox

/-! ### The class of a wait (R86) -/

/-- Under redundancy the primary of a lane (R107). -/
def primaryOf (dmr : Bool) (l : Nat) : Nat := if dmr && l % 4 ≥ 2 then l - 2 else l

/-- The lanes of a mask that stand for queue words and accesses: under redundancy one a pair (R107). -/
def unitLanes (dmr : Bool) (m : Word) : List Nat := ((lanesOf m).map (primaryOf dmr)).eraseDups

/-- Words a pop may take: a blocked one sees the pushes of earlier cycles only (R103, R356). -/
def wordsFor (q : QueueDesc) (now : Nat) (blocked : Bool) : Nat :=
  let held := (q.tail - q.head).toNat
  if blocked && q.snapAt == now + 1 then
    let old := (q.snapTail - q.head).toNat
    if old < 2 ^ 31 then min held old else 0
  else held

/-- Space a push may take: a blocked one sees the pops of earlier cycles and those of its own instruction (R102, R103, R356). -/
def spaceFor (q : QueueDesc) (now : Nat) (blocked : Bool) (own : Nat) : Nat :=
  let held := if blocked && q.snapAt == now + 1 then (q.tail - (q.snapHead + BitVec.ofNat 32 own)).toNat else (q.tail - q.head).toNat
  q.size - held

/-- The source fields of an instruction that pop a queue (R103). -/
def popFields (i : Instr) (f : Fields) (n : Nat) : Nat :=
  let p := fieldSpec i
  let pops (k : OperandKind) (r : Nat) : Nat := match k with
    | .reg _ | .plain _ => bit (!f.strand && r == 120 + n)
    | _ => 0
  pops p.a f.a.toNat + (if p.bi && (f.imm || (f.hasLit && !p.tgt)) then 0 else pops p.b f.b.toNat) + pops p.c f.c.toNat

/-- The words that an instruction itself pops from a queue, before its push (R103). -/
def ownPops (v : Iss) (n : Nat) : Nat :=
  match instrOf v.opc.toNat v.f with
  | none => 0
  | some i => popFields i v.f n * (unitLanes v.x.dmr v.on).length

/-- The registers of an operand, and the lanes in which one of them is not in a condition. -/
def regsOf (wide : Bool) (r : Nat) : List Nat := if wide then [r, r + 1] else [r]

/-- The classes that a register source holds an instruction in (R86, R101, R103). -/
def sourceWaits (s : State) (v : Iss) (k : OperandKind) (r : Nat) (e : Bool) : List WaitClass :=
  let k0 := coreOf s v.c
  match k with
  | .reg wide | .plain wide =>
      if e then []
      else if v.f.strand then
        if 64 ≤ r then (if (mgetD k0.mbox (r - 64) emptyMailbox).full then [] else [.mailbox])
        else if (regsOf wide r).any fun q => (sget v.x q).st != .full then [.register] else []
      else if 120 ≤ r then
        let q := mgetD k0.queues (r - 120) emptyQueue
        (if q.en && decide (wordsFor q s.now false < (unitLanes v.x.dmr v.on).length) then [.queue] else [])
      else if (regsOf wide r).any fun q => (lanesOf v.on).any fun l => (vget v.x q l).st != .full then [.register] else []
  | _ => []

/-- The classes that the destination holds an instruction in (R86, R100, R101, R103). -/
def destWaits (s : State) (v : Iss) (k : OperandKind) (r : Nat) : List WaitClass :=
  let k0 := coreOf s v.c
  match k with
  | .reg wide | .plain wide =>
      if v.f.strand then
        if 64 ≤ r then
          (if (mgetD k0.mbox (r - 64) emptyMailbox).full && !(v.opc == 0x1B && v.f.md.getLsbD 1) then [.mailbox] else [])
        else if (regsOf wide r).any fun q => (sget v.x q).st == .pending then [.register] else []
      else if 120 ≤ r then
        let q := mgetD k0.queues (r - 120) emptyQueue
        let q := { q with head := q.head + BitVec.ofNat 32 (ownPops v (r - 120)) }
        (if q.en && decide (spaceFor q s.now false 0 < (unitLanes v.x.dmr v.on).length) then [.queue] else [])
      else if (regsOf wide r).any fun q => (lanesOf v.on).any fun l => (vget v.x q l).st == .pending then [.register] else []
  | _ => []

/-- An instruction that takes ISNs (R105). -/
def takesIsn (opc : BitVec 7) : Bool :=
  let n := opc.toNat
  (0x51 ≤ n && n ≤ 0x54) || (0x57 ≤ n && n ≤ 0x5A) || (0x5F ≤ n && n ≤ 0x66) || n == 0x6B

/-- A slice that takes part has 512 operations outstanding (R106). -/
def windowFull (s : State) (v : Iss) : Bool :=
  takesIsn v.opc && (slicesOf (if v.f.strand then v.act else v.on)).any fun i => decide (512 ≤ hzOut (opsOf s v.c v.sl) i)

/-- The classes of R86 that hold for the operands of an instruction and for the window of its slices. -/
def operandWaits (s : State) (v : Iss) : List WaitClass :=
  match instrOf v.opc.toNat v.f with
  | none => []
  | some i =>
      let p := fieldSpec i
      (if windowFull s v then [.horizon] else []) ++
      sourceWaits s v p.a v.f.a.toNat v.f.ea ++
      (if p.bi && (v.f.imm || (v.f.hasLit && !p.tgt)) then [] else sourceWaits s v p.b v.f.b.toNat v.f.eb) ++
      sourceWaits s v p.c v.f.c.toNat v.f.ec ++ destWaits s v p.d v.f.d.toNat

/-- The lowest-numbered of a class and the others that hold (R86). -/
def lowestWait (c : WaitClass) (others : List WaitClass) : WaitClass :=
  others.foldl (fun m w => if classCode w < classCode m then w else m) c

/-- The class a split is reported in when its instruction does not take effect: the lowest of the one met and those of the
operands (R86); none for what raises a cause. -/
def stopClass (s : State) (v : Iss) (e : Stop) : Option WaitClass :=
  (match e with
   | .wait c | .clean c => some c
   | .block o => some (objClass o)
   | .allow _ => some .allowance
   | .spawn => some .slot
   | .trap _ _ | .fatal _ => none).map fun c => lowestWait c (operandWaits s v)

/-- The scheduler of a split has issued in this cycle: the split is only looked at, for its class (R85, R86). -/
def passedOver (s : State) (v : Iss) : Bool := (coreOf s v.c).issued.contains (schedOf v.sl)

/-- A split that its scheduler cannot select any more in this cycle: it is reported in the class it waits in, or it is ready but not
selected (R86). -/
def lookedAt (s : State) (v : Iss) (r : Except Stop State) : State :=
  let c : WaitClass := match r with
    | .ok _ => .notsel
    | .error e => (stopClass s v e).getD .notsel
  modSplit s v.c v.e fun p => { p with cls := some c, tried := s.now + 1 }

/-- The state after an instruction that does not take effect. -/
def stopped (s : State) (v : Iss) (e : Stop) : State :=
  let hold (s : State) (g : Split → Split) : State :=
    modSplit s v.c v.e fun p => g { p with cls := stopClass s v e, tried := s.now + 1 }
  match e with
  | .wait _ => hold s id
  | .block o =>
      let held := match v.sp.blocked with
        | some (o', _) => o' == o
        | none => false
      if held then hold s id
      else
        let (q, s) := takeSeq s v.c o
        hold s fun p => { p with blocked := some (o, q) }
  | .allow slots => hold s fun p => { p with desched := some (((p.desched).map (·.1)).getD s.now, slots) }
  | .clean _ => hold (writeBackAll s v.c none) id
  | .spawn => hold s fun p => { p with spawnWait := true }
  | .trap code detail =>
      let s := modSplit (countIssue s v) v.c v.e fun p => { p with stamp := s.now, tried := s.now + 1, turn := none, blocked := none, desched := none }
      let s := raiseCause (plainRecord s v.x.ctx v.c v.sl v.sample 1) v.c v.sl (causeAt v code detail)
      countStep s v
  | .fatal code => terminate s v.c v.sl code

/-- The split waits in the instruction after it has issued: REGANG, BAR, SYS and joint operations keep their sample until they have
completed (R192). -/
def waitsIssued (v : Iss) : Bool :=
  !v.off && ((v.opc == 0x40 && v.sp.jstk.getLast? == some (v.f.imm16.truncate 8)) || v.opc == 0x47 || v.opc == 0x50 || v.opc == 0x71 ||
    (0x6B ≤ v.opc.toNat && v.opc.toNat ≤ 0x6F && v.f.md.getLsbD 2))

/-- After an instruction has taken effect: a sampled one that started no operation and is over is recorded (R192), and a stepped
strand counts it (R200). -/
def afterIssue (before s : State) (v : Iss) : State :=
  countStep (if waitsIssued v || (fallible v.opc && decide (before.nextId < s.nextId)) ||
      s.ops.any fun o => decide (before.nextId ≤ o.id) && o.sample.isSome then s
    else plainRecord s v.x.ctx v.c v.sl v.sample 0) v

/-- Issue an instruction with its effect. A false strand-side guard makes it nothing that counts as an issue (R231). -/
def issue (s : State) (opc : BitVec 7) (f : Fields) (body : State → Iss → Except Stop State) :
    Host.Outcome State Fault Refusal :=
  match viewOf s opc f with
  | none => .fault .noIssuer
  | some v =>
      if passedOver s v then .next (lookedAt s v (if v.off then .ok s else body (markIssued s v) v))
      else if v.off then .next (afterIssue s (advance (markIssued s v) v) v)
      else match body (markIssued s v) v with
        | .ok t => .next (afterIssue s t v)
        | .error e => .next (stopped s v e)

/-! ### Taking a trap (R175 to R179) -/

/-- The fault of an operation (R175): the first lane fault fixes the cause, the lowest lane among those of one cycle. -/
def faultOf (o : Op) : Option (Nat × Word × DWord × Word) :=
  let fs := o.accs.filterMap fun a => (accFault a).map fun t => (t, a.lanes)
  match leastBy (fun p => p.1.2.2.2 * 64 + lowLane p.2) fs with
  | none => none
  | some (t, _) =>
      let same := fs.filter fun p => p.1.1 == t.1
      let flanes := same.foldl (fun m p => m ||| p.2) 0
      match leastBy (fun p => lowLane p.2) same with
      | none => none
      | some (u, _) => some (u.1, u.2.1, u.2.2.1, flanes)

/-- The slices that hold a faulted lane of an operation (R175; log entry 19). -/
def faultSlices (o : Op) : List Nat :=
  if o.discarded then []
  else slicesOf (o.accs.foldl (fun m a => if (accFault a).isSome then m ||| a.lanes else m) 0)

/-- The delivered operation: lowest slice, then oldest (R175). -/
def deliveredOp (ops : List Op) : Option (Op × Nat) :=
  leastBy (·.2) (ops.filterMap fun o => if opFaulted o && o.kind != .fil then ((faultSlices o).head?).map fun i => (o, i) else none)

/-- KIND of a provisional entry (R179). -/
def kindCode : OpKind → Nat
  | .load => 0 | .store => 1 | .atom => 2 | .cas => 2 | .cell => 3 | .cpy => 4 | .net => 5 | .coll => 6
  | .tkacq => 7 | .fmma => 8 | .tkrel => 9 | .fil => 10

/-- A settled result of this kind is private to the strand (R179). -/
def privateKind (o : Op) : Bool :=
  o.kind == .load || o.kind == .tkacq || (o.kind == .cell && o.fields.fn == 1)

/-- The group of an entry in the record's order (R179): 0 ESCAPED, 1 BLOCKED, 2 in flight, 3 FAULTED, 4 COMPLETED. -/
def provGroup (o : Op) (slice : Nat) : Nat :=
  if opFaulted o then 3
  else if engineKind o.kind && !o.complete then 2
  else if ((o.lanes &&& ~~~o.settled).extractLsb' (4 * slice) 4) == 0 then (if privateKind o then 4 else 0)
  else 1

/-- STATUS of a group (R179). -/
def provStatus : Nat → Nat
  | 0 => 2 | 1 => 0 | 2 => 0 | 3 => 3 | _ => 1

/-- PCD: the distance to FPC, or 0x8000_0000 when it does not fit (R179). -/
def pcDistance (pc fpc : Pc) : Nat :=
  let d : Int := (pc.toNat : Int) - (fpc.toNat : Int)
  if -((2 ^ 31 : Nat) : Int) < d && d < ((2 ^ 31 : Nat) : Int) then wrapOf 32 d else 2 ^ 31

/-- A provisional entry (R179). -/
def provWord (o : Op) (slice : Nat) (fpc : Pc) : DWord :=
  let g := provGroup o slice
  BitVec.ofNat 64 (pack [(0, 16, ((isnOf o slice).getD 0).toNat), (16, 3, slice), (19, 2, provStatus g),
    (21, 4, kindCode o.kind), (25, 1, bit (o.gate != .none)), (26, 4, (o.lanes.extractLsb' (4 * slice) 4).toNat),
    (30, 1, bit (g == 2)), (32, 32, pcDistance o.pc fpc)])

/-- The entries of a record in their order (R179), apart from the delivered operation. -/
def provEntries (ops : List Op) (skip : Option Nat) : List (Op × Nat) :=
  let all := ops.flatMap fun o =>
    if o.discarded || some o.id == skip || o.kind == .fil then []
    else ((slicesOf o.lanes).filter fun i => (isnOf o i).isSome && notPassed ops o i).map fun i => (o, i)
  sortBy (fun p => provGroup p.1 p.2 * 8 + p.2) all

/-- Distinct operations of a group among the entries. -/
def groupCount (es : List (Op × Nat)) (p : Nat → Bool) : Nat :=
  (es.filter fun e => p (provGroup e.1 e.2)).length

/-- PIPE of a Filigree operation that takes no ISN: a precise cause at the strand's next instruction boundary, with the PC
of the operation (R185, R331). -/
def filCause (ops : List Op) (splits : List (Nat × Split)) (x : Strand) : Option Cause :=
  match ops.find? fun o => opFaulted o && o.kind == .fil with
  | none => none
  | some o => match faultOf o with
      | none => none
      | some (code, detail, _, _) =>
          let fs := (slicesOf o.active).headD 0
          let home := splits.find? fun p => p.2.smask.getLsbD fs
          some { code := code, detail := detail, faddr := 0, pc := o.pc, spc := (home.map (·.2.pc)).getD o.npc,
                 active := o.active, flanes := o.active, smask := (home.map (·.2.smask)).getD o.smask, fslice := fs,
                 fisn := nextIsn x fs, rpl := o.replay, svc := false, cycle := 0 }

/-- The record of a trap (R178): delivered fault or precise cause, totals, interrupted splits, provisional entries. -/
def trapRecord (s : State) (c sl : Nat) (x : Strand) : Option TrapRec :=
  let ops := opsOf s c sl
  let splits := splitsOf s c sl
  let horizon := match deliveredOp ops, x.arisen with
    | some (o, i), some k => if i ≤ k.fslice then some (o, i) else none
    | d, _ => d
  match horizon with
  | some (o, i) =>
      (match faultOf o with
       | none => none
       | some (code, detail, addr, fl) =>
           let es := provEntries ops (some o.id)
           let home := splits.find? fun p => p.2.smask.getLsbD i
           some { cause := code, hzf := true, ling := x.phase == .linger,
                  svc := code == 0x04 && o.accs.any fun a => a.svc && a.lanes.getLsbD (lowLane fl) && (accFault a).isSome,
                  povf := 24 < es.length, rpl := o.replay,
                  fisn := (isnOf o i).getD 0, fslice := i, fpc := o.pc,
                  spc := (home.map (·.2.pc)).getD o.npc, active := o.active, flanes := fl, faddr := addr,
                  detail := detail, exited := x.exited, nesc := groupCount es (· == 0),
                  nblk := groupCount es fun g => g == 1 || g == 2, nflt := groupCount es (· == 3),
                  splits := splits, prov := (es.take 24).map fun e => provWord e.1 e.2 o.pc,
                  fentry := home.map (·.1) })
  | none =>
      match x.arisen.orElse fun _ => filCause ops splits x with
      | none => none
      | some k =>
          let es := provEntries ops none
          some { cause := k.code, hzf := false, ling := x.phase == .linger, svc := k.svc, povf := 24 < es.length,
                 rpl := k.rpl, fisn := k.fisn, fslice := k.fslice, fpc := k.pc, spc := k.spc, active := k.active,
                 flanes := k.flanes, faddr := k.faddr, detail := k.detail, exited := x.exited,
                 nesc := groupCount es (· == 0), nblk := groupCount es fun g => g == 1 || g == 2,
                 nflt := groupCount es (· == 3), splits := splits,
                 prov := (es.take 24).map fun e => provWord e.1 e.2 k.pc,
                 fentry := (splits.find? fun p => p.2.smask == k.smask).map (·.1) }

/-- The faulted operations that a record lists; the one Filigree operation whose PIPE is delivered stands alone. -/
def trapFaults (ops : List Op) (other : Bool) : List Op :=
  ops.filter fun o => opFaulted o && (o.kind != .fil || (!other && some o.id == (ops.find? fun p => opFaulted p && p.kind == .fil).map (·.id)))

/-- Enter the handler (R175): the record is written, the strand runs as one split of all its slices at HANDLER with an
empty join stack, FLANES active, depth 1. Without a handler the strand terminates with the cause (R176). -/
def takeTrap (s : State) (c sl : Nat) : State :=
  match strandAt s c sl with
  | none => s
  | some x =>
      match trapRecord s c sl x with
      | none => s
      | some r =>
          if handlerOf s x = 0 then terminate s c sl r.cause
          else
            let s := modCore s c fun k => { k with splits := k.splits.filter fun p => p.2.slot != sl }
            let e := freeEntry (coreOf s c) (schedOf sl)
            let s := putStrand s c sl
              { x with
                  handling := some r, lastRec := some r, arisen := none, hexit := 0, trapMark := s.nextId,
                  trapOps := (trapFaults (opsOf s c sl) (r.hzf || x.arisen.isSome)).map (·.id) }
            let s := putSplit s c e
              { slot := sl, smask := BitVec.ofNat 8 (2 ^ x.slices - 1), pc := handlerOf s x, jstk := [], rgw := false,
                stamp := s.now, cls := none, tried := s.now + 1, blocked := none, desched := none, yieldTo := 0,
                parked := none, bpSkip := false, spawnWait := false, replay := false, fetch := none, held := none, turn := none,
                entering := true, reported := 0 }
            match x.halted with
            | none => s
            | some h => modStrand (takeStop s) c sl fun y =>
                { y with halted := some (stopOf s c y (splitsOf s c sl) 3 0 none h.holders) }

/-! ### Leaving the handler (R180, R284, R292) -/

/-- Discard an operation: its destinations stay VACANT, it leaves the horizon (R180). -/
def discardOp (s : State) (id : Nat) : State :=
  let s := sampleOp (refundOp s id) id 2
  let s := match opById s id with
    | some o => vacate s o (openLanes o)
    | none => s
  modOp s id fun o =>
    { o with discarded := true, complete := true,
             accs := o.accs.map fun a => if accOpen a then { a with st := .dropped } else a }

/-- Restore the interrupted splits, entries whose lanes are all exited freed (R180, R284). The faulting one resumes at SPC: only SOFT
leaves its split before that PC, and a split whose result came while the handler ran is past it. -/
def restoreSplits (s : State) (c sl : Nat) (r : TrapRec) : State :=
  let s := modCore s c fun k => { k with splits := k.splits.filter fun p => p.2.slot != sl }
  r.splits.foldl (fun s (e, p) =>
    match strandAt s c sl with
    | none => s
    | some x =>
        if splitLanes x p = 0 then s
        else
          let e' := if (splitAt s c e).isNone then e else freeEntry (coreOf s c) (schedOf sl)
          let p := if some e = r.fentry ∧ r.cause = 0x0F then { p with pc := r.spc } else p
          putSplit s c e' { unblock p with tried := s.now + 1, spawnWait := false, fetch := none, cls := p.parked.bind fun _ => p.cls }) s

/-- The strand is back at depth 0: LIVE, or LINGER when LING says so or every lane is exited (R180, R284). -/
def leaveHandler (s : State) (c sl : Nat) (r : TrapRec) : State :=
  let s := modStrand s c sl fun x =>
    { x with handling := none, exited := x.exited ||| x.hexit, hexit := 0, trapOps := [] }
  let s := restoreSplits s c sl r
  let s := modStrand s c sl fun x =>
    { x with phase := if r.ling || livingLanes x == 0 then .linger else .live }
  let s := match strandAt s c sl with
    | some x => if x.phase = .linger ∧ !r.ling then claspDeparts s c sl else s
    | none => s
  checkRetire (tryMerge (sweepOps s c sl) c sl) c sl

/-- Operations of the interrupted program that are blocked (R179): gated ones, and those held behind them. -/
def blockedOps (s : State) (c sl : Nat) (x : Strand) : List Nat :=
  ((opsOf s c sl).filter fun o => decide (o.id < x.trapMark) && !opFinished o && !opFaulted o && !engineKind o.kind &&
    o.kind != .fil).map (·.id)

/-- Faulted operations that the plain and the terminate form discard, and .replay re-issues: those of the record. -/
def recordedFaults (s : State) (c sl : Nat) (x : Strand) : List Nat :=
  ((opsOf s c sl).filter fun o => x.trapOps.contains o.id && !o.discarded).map (·.id)

/-! ### Placing strands (R77, R79) -/

/-- The slot a new strand takes (R77): the scheduler with the fewest occupied slots, its lowest free slot. -/
def pickSlot (k : Core) : Option Nat :=
  let free (n : Nat) : List Nat := ((List.range 8).map (· + 8 * n)).filter fun sl => (mget k.slots sl).isNone
  match leastBy (fun n => 8 - (free n).length) ((List.range 4).filter fun n => !(free n).isEmpty) with
  | none => none
  | some n => (free n).head?

/-- Put a strand into a slot with one split of every slice at a PC (R79, R83, R85). -/
def placeStrand (s : State) (c sl : Nat) (x : Strand) (pc : Pc) : State :=
  let e := freeEntry (coreOf s c) (schedOf sl)
  let s := modView s (gidOf c sl) fun _ => { floor := s.past.length, seen := [], fenced := false }
  putSplit (putStrand s c sl x) c e
    { slot := sl, smask := BitVec.ofNat 8 (2 ^ x.slices - 1), pc := pc, jstk := [], rgw := false, stamp := s.now, cls := none,
      tried := s.now + 1, blocked := none, desched := none, yieldTo := 0, parked := none, bpSkip := false, spawnWait := false,
      replay := false, fetch := none, held := none, turn := none,
      entering := false, reported := 0 }

/-- Registers common to every new strand of a launch (R79, R82, R83): stack pointers from the context. -/
def freshStrand (s : State) (ctx lcnt slices : Nat) (dmr : Bool) : Strand :=
  newStrand ctx lcnt slices dmr (((mget s.ctxs ctx).map (·.psz)).getD 0)

/-! ### Cancelling (R72) -/

/-- A core whose bins of a launch hold no record. -/
def emptyBins (l : Nat) (k : Core) : Core :=
  { k with bins := mmap k.bins fun _ b =>
      if b.en && b.tlc == l then { b with recs := [], ton := false, expired := false, left := 0 } else b }

/-- Records that the bins of a launch hold on a core. -/
def binsHeld (l : Nat) (k : Core) : Nat :=
  k.bins.foldl (fun n b => if b.2.en && b.2.tlc == l then n + b.2.recs.length else n) 0

/-- Discard the records of the bins bound to a launch. -/
def discardBins (s : State) (l : Nat) : State :=
  let held := s.cores.foldl (fun n p => n + binsHeld l p.2) 0 + s.images.foldl (fun n im => n + binsHeld l im.data) 0
  let s := { s with cores := mmap s.cores fun _ k => emptyBins l k,
                    images := s.images.map fun im => { im with data := emptyBins l im.data } }
  if held = 0 then s else counterSub 4 s l held

/-- A cancelled strand that is held in an image: its last stall record and the records of its unfinished samples are written, its
barriers count it, its collectives withdraw it, its posts lose their register; its stores are at the home (R72, R182, R192, R195,
R301). -/
def endSaved (s : State) (ctx c sl : Nat) (x : Strand) : State :=
  let s := (splitsAny s ctx c sl).foldl (fun s q => plainRecord s ctx c sl q.held 2) (drainCluster s c)
  let s := barTerminated (stallRecord s c sl 3 x) (some ctx) x.lcnt c sl
  leaveOps (collWithdrawStrand s (gidOf c sl) ctx) ctx c sl

/-- An image without the strands of a launch and what they had under way. -/
def dropSaved (l : Nat) (im : Image) : Image :=
  let gone := (im.data.slots.filter fun p => p.2.lcnt == l).map (·.1)
  { im with
      data := dropResv l { im.data with
        slots := im.data.slots.filter fun p => p.2.lcnt != l
        clasps := im.data.clasps.filter fun g => !(g.arrived.any fun a => gone.contains a.slot)
        splits := im.data.splits.filter fun p => !gone.contains p.2.slot
        fil := im.data.fil.filter fun o => o.lcnt != l
        filFaulted := im.data.filFaulted.filter fun o => o.lcnt != l
        rechecks := im.data.rechecks.filter fun r => !(r.members.any gone.contains) }
      ops := im.ops.filter fun o => !gone.contains o.slot }

/-- Strands of a launch held in save images are retired there (R72). -/
def retireImages (s : State) (l : Nat) : State :=
  let mine := s.images.flatMap fun im => (im.data.slots.filter fun p => p.2.lcnt == l).map fun p => (im.ctx, im.core, p)
  if mine.isEmpty then s
  else
    let s := mine.foldl (fun s (ctx, c, p) => endSaved s ctx c p.1 p.2) s
    counterSub 4 { s with images := s.images.map (dropSaved l) } l mine.length

/-- A live strand is cancelled: it issues no more and ends at its next instruction boundary, the end of the cycle unless a trap
comes first (R183, R299; log entry 60). -/
def cancelStrand (now : Nat) (x : Strand) : Strand := { x with cancelNext := x.cancelNext.orElse fun _ => some now }

/-- CANCEL on a counter (R72). -/
def cancelCounter (s : State) (i : Nat) : State :=
  let hit := (s.counters.filter fun p => reaches 4 s p.1 i).map (·.1)
  let s := { s with counters := mmap s.counters fun k c => if hit.contains k then { c with cancel := true } else c }
  let launches := hit.filter fun k => ((mget s.counters k).map (·.level)) == some 0
  launches.foldl (fun s l =>
    let queued : Nat := s.sched.queues.foldl (fun n p => n + (p.2.filter fun q => q.held && descField q.desc 27 16 == l).length) 0
    let holds : Nat := (s.sched.records.filter fun p => p.held && descField p.desc 27 16 == l).length
    let s := { s with sched := { s.sched with
      queues := mmap s.sched.queues fun _ q => q.filter fun q => descField q.desc 27 16 != l
      records := s.sched.records.map fun p => if descField p.desc 27 16 == l then { p with held := false } else p } }
    let s := discardBins s l
    let s := { s with cores := mmap s.cores fun _ k =>
      { k with slots := mmap k.slots fun _ x => if x.lcnt = l then cancelStrand s.now x else x } }
    let s := retireImages s l
    if queued + holds = 0 then s else counterSub 4 s l (queued + holds)) s

end Sys2Proof.Machine
end

