-- ==== Sys2Proof/Machine/Flags.lean ====
section
/-! DEFINITION. FPFLAGS and FPMODE (R152 to R154, R264): what an instruction raises and how it rounds. -/
namespace Sys2Proof.Machine

/-- FPMODE.RM of the strand (R154). -/
def rmOf (v : Iss) : Round := roundOf (v.x.fpmode.extractLsb' 0 2).toNat
/-- FPMODE.SAT8 of the strand (R154). -/
def sat8Of (v : Iss) : Bool := v.x.fpmode.getLsbD 2

/-- The static rounding modifier of R264: MOD[2] selects it, MOD[1:0] is the direction. -/
def staticRound (v : Iss) (otherwise : Round) : Round :=
  if v.f.md.getLsbD 2 then roundOf (v.f.md.extractLsb' 0 2).toNat else otherwise

/-- The rounding of arithmetic and of conversions to a floating type (R264). -/
def arithRound (v : Iss) : Round := staticRound v (rmOf v)

/-- The flags of the elements of a mask (R153): each active, unguarded lane, or the strand once. -/
def flagsOf (elems : Word) (g : Nat → FpFlags) : FpFlags := (lanesOf elems).foldl (fun fl l => fl ||| g l) 0

/-- OR flags into the issuing strand's FPFLAGS (R153). -/
def raiseFlags (s : State) (v : Iss) (fl : FpFlags) : State :=
  if fl = 0 then s else onStrand s v fun x => { x with fpflags := x.fpflags ||| fl }

end Sys2Proof.Machine
end

