-- ==== Sys2Proof/Machine/Operands.lean ====
section
/-! DEFINITION. Every operand form: immediates, v and s registers, queues, mailboxes, predicates, AUX (R99 to R103,
R230 to R236, R245, R246). -/
namespace Sys2Proof.Machine

/-! ### Immediates (R233) -/

/-- A short immediate converted to a type (R233). -/
def shortImm (b : BitVec 7) (t : Ty) : DWord :=
  match t with
  | .i64 | .n64 => b.signExtend 64
  | .f32 | .f16 | .bf16 | .e4m3 | .e5m2 => BitVec.ofNat 64 (fFromInt (fmtOf t) .ne false b.toInt).1
  | .h2 | .bh2 => let h := (fFromInt (fmtOf t) .ne false b.toInt).1; BitVec.ofNat 64 (h + h * 2 ^ 16)
  | _ => (b.signExtend 32).zeroExtend 64

/-- A literal converted to a type (R233). -/
def litImm (l : DWord) (t : Ty) : DWord :=
  match t with
  | .i64 | .n64 => l
  | .f16 | .bf16 => (l.extractLsb' 0 16).zeroExtend 64
  | .e4m3 | .e5m2 => (l.extractLsb' 0 8).zeroExtend 64
  | _ => (l.extractLsb' 0 32).zeroExtend 64

/-- B is an immediate: short, or a literal in an instruction without a target (R233). -/
def bIsImm (f : Fields) (tgt : Bool) : Bool := f.imm || (f.hasLit && !tgt)

/-- B's immediate for a type. -/
def immVal (f : Fields) (t : Ty) : DWord := if f.imm then shortImm f.b t else litImm f.lit t

/-! ### Sources -/

/-- The value of a source in each lane (the same in all on the strand side) and where it is poisoned. -/
structure Src where
  val : Nat → DWord
  poison : Word

/-- The elements an instruction acts on: its active, unguarded lanes, or one for the strand. -/
def elemsOf (v : Iss) : Word := if v.f.strand then 1 else v.on

/-- An earlier operation is blocked on the same object, before this split's own place (R101, R103, R187). -/
def mustQueue (s : State) (v : Iss) (o : WaitObj) : Bool :=
  waitsBefore s v.x.ctx v.c (coreOf s v.c) o (v.sp.blocked.bind fun (o', q) => if o' = o then some q else none) (some v.e) none

/-- The launch's reservation of the issuing strand. -/
def myResv (s : State) (v : Iss) : Option Resv := resvOf (coreOf s v.c) v.x.lcnt

/-- The scratchpad byte of word c of a queue (R78, R102). -/
def queueByte (r : Resv) (q : QueueDesc) (c : Nat) : Nat := r.base * 4096 + (q.base + c % q.size) * 4

/-- Read a scratchpad word. -/
def spadWord (k : Core) (a : Nat) : Word := BitVec.ofNat 32 (leNat (peeks k.spad a 4))
/-- Write a scratchpad word; it is no longer poisoned unless it carries poison. -/
def spadPut (k : Core) (a : Nat) (w : Word) (poison : Bool) : Core :=
  { k with
      spad := pokes k.spad a (bytesOfWord w)
      spadPoison := (if poison then [a / 4] else []) ++ k.spadPoison.filter (· != a / 4) }

/-- A queue is in the launch's mask (R103): PERM otherwise. A queue that is frozen by a stop request waits (R184). -/
def queueAllowed (s : State) (v : Iss) (n : Nat) : Except Stop (Resv × QueueDesc) :=
  match myResv s v with
  | none => .error (.trap 0x05 2)
  | some r =>
      let q := mgetD (coreOf s v.c).queues n emptyQueue
      if !r.queues.getLsbD n then .error (.trap 0x05 2)
      else if !q.en then .error (.trap 0x0D (BitVec.ofNat 32 n))
      else if (coreOf s v.c).stopReq.isSome then .error (.wait .preempt)
      else .ok (r, q)

/-- A queue with its state at the start of this cycle noted (R103, R356). -/
def snapQueue (q : QueueDesc) (now : Nat) : QueueDesc :=
  if q.snapAt = now + 1 then q else { q with snapAt := now + 1, snapHead := q.head, snapTail := q.tail }

/-- What orders every access of the split before what it reads now: no acquire before it still waits for its value, and no access from
before a REGANG merge is open (R129, R134, R140). -/
def accessPassed (s : State) (v : Iss) : Except Stop Unit :=
  let ops := splitOps s v.c v.sl
  if acquireClear ops v.sp.smask && mergeClear ops v.sp.smask then .ok () else .error (.wait .pipe)

/-- Pop one word for each unit lane (R103): an acquire (R144). -/
def popQueue (s : State) (v : Iss) (n : Nat) (e : Bool) : Except Stop (State × Src) := do
  let (r, q) ← queueAllowed s v n
  let units := unitLanes v.x.dmr v.on
  let blocked := match v.sp.blocked with
    | some (.qpop m, _) => m == n
    | _ => false
  if units.isEmpty then .ok (s, { val := fun _ => 0, poison := 0 })
  else if mustQueue s v (.qpop n) || wordsFor q s.now blocked < units.length then
    .error (if e then .trap 0x0D (BitVec.ofNat 32 n) else .block (.qpop n))
  else do
    accessPassed s v
    let k := coreOf s v.c
    let at_ (l : Nat) : Nat := queueByte r q ((q.head + BitVec.ofNat 32 (units.idxOf (primaryOf v.x.dmr l))).toNat)
    let q' := { snapQueue q s.now with head := q.head + BitVec.ofNat 32 units.length }
    .ok (raiseView (putCore s v.c { k with queues := mput k.queues n q' }) v.c v.sl,
      { val := fun l => (spadWord k (at_ l)).zeroExtend 64
        poison := maskOf fun l => v.on.getLsbD l && k.spadPoison.contains (at_ l / 4) })

/-- A writer that waits at a mailbox and can issue: an empty mailbox serves it before a later access (R101). -/
def writerFirst (s : State) (c n : Nat) : Bool :=
  (coreOf s c).splits.any fun p => blockedBefore (.mwrite n) none p.2 && match strandAt s c p.2.slot with
    | some x => strandIssues s c p.2.slot x
    | none => false

/-- Read a mailbox (R101), an acquire (R144): with E = 1 a read that would wait raises EMPTYREG, once the writers that wait have been served.
An emptied mailbox holds 0 (log entry 96). -/
def readMailbox (s : State) (v : Iss) (n : Nat) (e keep : Bool) : Except Stop (State × Src) :=
  let k := coreOf s v.c
  let m := mgetD k.mbox n emptyMailbox
  if !(((myResv s v).map fun r => r.mbox.getLsbD n).getD false) then .error (.trap 0x05 1)
  else if !m.full && e && writerFirst s v.c n then .error (.wait .mailbox)
  else if !m.full || mustQueue s v (.mread n) then .error (if e then .trap 0x09 (BitVec.ofNat 32 (64 + n)) else .block (.mread n))
  else do
    accessPassed s v
    let k' := if keep then k else { k with mbox := mput k.mbox n { m with full := false, val := 0, poison := false } }
    .ok (raiseView (putCore s v.c k') v.c v.sl, { val := fun _ => m.val.zeroExtend 64, poison := if m.poison then BitVec.allOnes 32 else 0 })

/-- Read lane registers in a mask (R99, R100, R232). -/
def readV (x : Strand) (lanes : Word) (r : Nat) (wide e : Bool) : Except Stop Src :=
  let regs := if wide then [r, r + 1] else [r]
  match regs.find? fun q => (lanesOf lanes).any fun l => (vget x q l).st != .full with
  | some q => .error (if e then .trap 0x09 (BitVec.ofNat 32 q) else .wait .register)
  | none =>
      .ok { val := fun l =>
              if wide then ((vget x (r + 1) l).val ++ (vget x r l).val : BitVec 64) else (vget x r l).val.zeroExtend 64
            poison := maskOf fun l => lanes.getLsbD l && regs.any fun q => (vget x q l).poison }

/-- Read strand registers (R99, R100, R232). -/
def readS (x : Strand) (r : Nat) (wide e : Bool) : Except Stop Src :=
  let regs := if wide then [r, r + 1] else [r]
  match regs.find? fun q => (sget x q).st != .full with
  | some q => .error (if e then .trap 0x09 (BitVec.ofNat 32 q) else .wait .register)
  | none =>
      let w : DWord := if wide then ((sget x (r + 1)).val ++ (sget x r).val : BitVec 64) else (sget x r).val.zeroExtend 64
      .ok { val := fun _ => w
            poison := if regs.any fun q => (sget x q).poison then BitVec.allOnes 32 else 0 }

/-- Read a register field of the instruction's side (R230): queues pop, mailboxes are read. -/
def readField (s : State) (v : Iss) (r : Nat) (wide e keep : Bool) : Except Stop (State × Src) :=
  if v.f.strand then
    (if 64 ≤ r then readMailbox s v (r - 64) e keep
     else do let x ← readS v.x r wide e; .ok (s, x))
  else
    (if 120 ≤ r then popQueue s v (r - 120) e
     else do let x ← readV v.x v.on r wide e; .ok (s, x))

/-- A source that is not read. -/
def noSrc : Src := { val := fun _ => 0, poison := 0 }

def srcA (s : State) (v : Iss) (wide : Bool) : Except Stop (State × Src) := readField s v v.f.a.toNat wide v.f.ea false
def srcC (s : State) (v : Iss) (wide : Bool) : Except Stop (State × Src) := readField s v v.f.c.toNat wide v.f.ec false
/-- B: a register, or the immediate converted to a type (R233). -/
def srcB (s : State) (v : Iss) (wide : Bool) (t : Ty) (tgt : Bool) : Except Stop (State × Src) :=
  if bIsImm v.f tgt then .ok (s, { val := fun _ => immVal v.f t, poison := 0 })
  else readField s v v.f.b.toNat wide v.f.eb false

/-- A read that consumes a poisoned word ends the strand with UNCORR (R188). -/
def consume (x : Src) (lanes : Word) : Except Stop Unit :=
  if x.poison &&& lanes != 0 then .error (.fatal 0x80) else .ok ()

/-- A register field that names a port: a queue on the lane side, a mailbox on the strand side (R99). -/
def isPort (v : Iss) (r : Nat) : Bool := if v.f.strand then decide (64 ≤ r) else decide (120 ≤ r)

/-- A pop and a mailbox read carry poison into the destination; a register read consumes it (R188; log entry 17). -/
def carryOrConsume (v : Iss) (r : Nat) (x : Src) (lanes : Word) : Except Stop Unit :=
  if isPort v r then .ok () else consume x lanes

/-- The AUX strand register, read once for the strand; an empty one waits (R235, R245). -/
def readAux (v : Iss) : Except Stop Word := do
  let x ← readS v.x v.f.aux.toNat false false
  consume x 1
  .ok ((x.val 0).truncate 32)

/-- Four consecutive strand registers (R320), read as words. -/
def readQuad (v : Iss) (r n : Nat) (e : Bool) : Except Stop (List Word) :=
  (List.range n).foldlM (fun acc i => do
    let x ← readS v.x (r + i) false e
    consume x 1
    .ok (acc ++ [(x.val 0).truncate 32])) []

/-! ### Destinations -/

/-- A push or a mailbox write is a release at core scope: it waits for the split's earlier operations (R140, R144). -/
def releaseFirst (s : State) (v : Iss) : Except Stop Unit :=
  if fenceReady s v.c v.sl v.sp.smask false true .core then .ok () else .error (.wait .pipe)

/-- The destination can be written (R100, R101, R103): a PENDING register waits, a queue needs space, a mailbox must be
empty unless .ovw, which overwrites a full one once the readers that wait there are served. -/
def destReady (s : State) (v : Iss) (r : Nat) (wide ovw : Bool) : Except Stop Unit :=
  let regs := if wide then [r, r + 1] else [r]
  if v.f.strand then
    if r < 64 then
      (if regs.any fun q => (sget v.x q).st == .pending then .error (.wait .register) else .ok ())
    else
      let n := r - 64
      let m := mgetD (coreOf s v.c).mbox n emptyMailbox
      if !(((myResv s v).map fun r => r.mbox.getLsbD n).getD false) then .error (.trap 0x05 1)
      else if m.full && ovw then
        (if mustQueue s v (.mread n) then .error (.block (.mwrite n)) else releaseFirst s v)
      else if m.full || mustQueue s v (.mwrite n) then .error (.block (.mwrite n))
      else releaseFirst s v
  else
    if r < 120 then
      (if (lanesOf v.on).any fun l => regs.any fun q => (vget v.x q l).st == .pending then .error (.wait .register)
       else .ok ())
    else do
      let (_, q) ← queueAllowed s v (r - 120)
      let n := (unitLanes v.x.dmr v.on).length
      let blocked := match v.sp.blocked with
        | some (.qpush m, _) => m == r - 120
        | _ => false
      if n = 0 then .ok ()
      else if mustQueue s v (.qpush (r - 120)) || spaceFor q s.now blocked (ownPops v (r - 120)) < n then .error (.block (.qpush (r - 120)))
      else releaseFirst s v

/-- Under redundancy both lanes of each pair agree on a value (R107). -/
def pairsAgree (v : Iss) (val : Nat → DWord) : Bool :=
  !v.x.dmr || (lanesOf v.on).all fun l =>
    !v.on.getLsbD (primaryOf true l) || val l == val (primaryOf true l)

/-- Both lanes of a pair take part or neither does (R107: the guard is compared too). -/
def pairsTogether (v : Iss) : Bool :=
  !v.x.dmr || (lanesOf v.act).all fun l =>
    !v.act.getLsbD (primaryOf true l) || v.on.getLsbD l == v.on.getLsbD (primaryOf true l)

/-- Redundant execution finds a mismatch (R107). -/
def comparePairs (v : Iss) (val : Nat → DWord) : Except Stop Unit :=
  if pairsAgree v val && pairsTogether v then .ok () else .error (.fatal 0x0B)

/-- Write one register word of the strand or of a lane. -/
def cellOf32 (w : DWord) (poison : Bool) : RegCell := { val := w.truncate 32, st := .full, poison := poison }
def cellHi32 (w : DWord) (poison : Bool) : RegCell := { val := w.extractLsb' 32 32, st := .full, poison := poison }

/-- Push one word for each unit lane (R103). -/
def pushQueue (s : State) (v : Iss) (n : Nat) (val : Nat → DWord) (poison : Word) : State :=
  match queueAllowed s v n with
  | .error _ => s
  | .ok (r, q) =>
      let units := unitLanes v.x.dmr v.on
      onCore s v fun k =>
        let k := units.zipIdx.foldl (fun k (l, i) =>
          spadPut k (queueByte r q (q.tail + BitVec.ofNat 32 i).toNat) ((val l).truncate 32) (poison.getLsbD l)) k
        { k with queues := mput k.queues n { snapQueue q s.now with tail := q.tail + BitVec.ofNat 32 units.length } }

/-- Write D (R100, R101, R103); k0, g0 and the like do not come here. -/
def writeD (s : State) (v : Iss) (r : Nat) (wide : Bool) (val : Nat → DWord) (poison : Word) : State :=
  if v.f.strand then
    if r < 64 then
      onStrand s v fun x =>
        let x := sset x r (cellOf32 (val 0) (poison.getLsbD 0))
        if wide then sset x (r + 1) (cellHi32 (val 0) (poison.getLsbD 0)) else x
    else
      onCore s v fun k =>
        let m := mgetD k.mbox (r - 64) emptyMailbox
        let m' := { m with val := (val 0).truncate 32, full := true, poison := poison.getLsbD 0 }
        { k with mbox := mput k.mbox (r - 64) m' }
  else
    if r < 120 then
      onStrand s v fun x => (lanesOf v.on).foldl (fun x l =>
        let x := vset x r l (cellOf32 (val l) (poison.getLsbD l))
        if wide then vset x (r + 1) l (cellHi32 (val l) (poison.getLsbD l)) else x) x
    else pushQueue s v (r - 120) val poison

/-- Write a predicate D: k in the active, unguarded lanes, or g (R99). -/
def writeP (s : State) (v : Iss) (n : Nat) (val : Nat → Bool) : State :=
  if v.f.strand then onStrand s v fun x => gset x n (val 0)
  else onStrand s v fun x => kset x n v.on (maskOf val)

/-- Read a predicate operand: k in each lane, or g (R230). -/
def readP (v : Iss) (n : Nat) : Nat → Bool :=
  if v.f.strand then fun _ => gget v.x n else fun l => (kmask v.x n).getLsbD l

/-! ### The shared shapes of register instructions -/

/-- A queue destination compares its pairs under redundancy (R107). -/
def destCompare (v : Iss) (r : Nat) (val : Nat → DWord) : Except Stop Unit :=
  if !v.f.strand && 120 ≤ r then comparePairs v val else .ok ()

/-- An optional source in a field: 0 A, 1 B with the type of an immediate, 2 C; `some wide` reads it. -/
def srcOpt (s : State) (v : Iss) (field : Nat) (w : Option Bool) (t : Ty) : Except Stop (State × Src) :=
  match w with
  | none => .ok (s, noSrc)
  | some wide => match field with
      | 0 => srcA s v wide
      | 1 => srcB s v wide t false
      | _ => srcC s v wide

/-- Read the sources in the order A, B, C (R230, R245): registers consume poison, ports carry it (R188). -/
def readSources (s : State) (v : Iss) (a b c : Option Bool) (t : Ty) : Except Stop (State × Src × Src × Src) := do
  let (s, xa) ← srcOpt s v 0 a t
  let (s, xb) ← srcOpt s v 1 b t
  let (s, xc) ← srcOpt s v 2 c t
  carryOrConsume v v.f.a.toNat xa (elemsOf v)
  carryOrConsume v v.f.b.toNat xb (elemsOf v)
  carryOrConsume v v.f.c.toNat xc (elemsOf v)
  .ok (s, xa, xb, xc)

/-- Finish a register instruction: the result and its flags in each element, then the next PC. -/
def finishAlu (s : State) (v : Iss) (wide : Bool) (res : Nat → DWord × FpFlags) (poison : Word) : State :=
  advance (raiseFlags (writeD s v v.f.d.toNat wide (fun l => (res l).1) poison) v (flagsOf (elemsOf v) fun l => (res l).2)) v

/-- An instruction that computes D from A, B and C in each element. -/
def aluOp (a b c : Option Bool) (t : Ty) (wide : Bool) (g : Iss → DWord → DWord → DWord → DWord × FpFlags)
    (s : State) (v : Iss) : Except Stop State := do
  let (s, xa, xb, xc) ← readSources s v a b c t
  let res := fun l => g v (xa.val l) (xb.val l) (xc.val l)
  destReady s v v.f.d.toNat wide false
  destCompare v v.f.d.toNat fun l => (res l).1
  .ok (finishAlu s v wide res (xa.poison ||| xb.poison ||| xc.poison))

/-- An instruction that computes a predicate D from A and B in each element; a predicate holds no poison, so that the sources
are consumed (R188). -/
def aluPred (wide : Bool) (t : Ty) (g : Iss → DWord → DWord → Bool × FpFlags) (s : State) (v : Iss) :
    Except Stop State := do
  let (s, xa, xb, _) ← readSources s v (some wide) (some wide) none t
  consume xa (elemsOf v)
  consume xb (elemsOf v)
  let res := fun l => g v (xa.val l) (xb.val l)
  .ok (advance (raiseFlags (writeP s v v.f.d.toNat fun l => (res l).1) v
    (flagsOf (elemsOf v) fun l => (res l).2)) v)

end Sys2Proof.Machine
end

