-- ==== Sys2Proof/Machine/Integer.lean ====
section
/-! DEFINITION. Integer arithmetic, logic, shifts, bit fields, compare, select, move and integer conversion
(R245 to R255). -/
namespace Sys2Proof.Machine

/-! ### The helpers of R246 -/

/-- rd: a value read as a mathematical integer of type T (R246). -/
def rdInt (t : Ty) (x : DWord) : Int :=
  if tySigned t then signedOf (tyWidth t) x.toNat else ((x.toNat % 2 ^ tyWidth t : Nat) : Int)

/-- bits: the low w bits of a value as a pattern (R246). -/
def rdBits (t : Ty) (x : DWord) : Nat := x.toNat % 2 ^ tyWidth t

/-- The least and the greatest value of an integer type (R150). -/
def minOfTy (t : Ty) : Int := if tySigned t then -((2 ^ (tyWidth t - 1) : Nat) : Int) else 0
def maxOfTy (t : Ty) : Int :=
  if tySigned t then ((2 ^ (tyWidth t - 1) : Nat) : Int) - 1 else ((2 ^ tyWidth t : Nat) : Int) - 1

/-- sat: clamp to the type when MOD.sat is 1 (R246). -/
def satInt (on : Bool) (t : Ty) (x : Int) : Int := if on then max (minOfTy t) (min (maxOfTy t) x) else x

/-- wr: D := x mod 2^w, extended to 32 bits for the narrow types (R150, R246). -/
def wrInt (t : Ty) (x : Int) : DWord :=
  match t with
  | .i64 | .n64 => BitVec.ofInt 64 x
  | .i16 => (BitVec.ofInt 32 (signedOf 16 (wrapOf 16 x))).zeroExtend 64
  | .i8 => (BitVec.ofInt 32 (signedOf 8 (wrapOf 8 x))).zeroExtend 64
  | _ => BitVec.ofNat 64 (wrapOf (tyWidth t) x)

/-- wr of a w-bit pattern. -/
def wrBits (t : Ty) (x : Nat) : DWord := wrInt t (x : Int)

/-- MOD.sat of the instruction (R247). -/
def satMod (v : Iss) : Bool := v.f.md.getLsbD 0

/-- Shape: D x, A x, B x·i, computing an exact integer (R247). -/
def arith2 (f : Fields) (g : Int → Int → Int) : State → Iss → Except Stop State :=
  aluOp (some (tyIs64 f.ty)) (some (tyIs64 f.ty)) none f.ty (tyIs64 f.ty) fun v a b _ =>
    (wrInt f.ty (satInt (satMod v) f.ty (g (rdInt f.ty a) (rdInt f.ty b))), 0)

/-- Shape: D x, A x (R247). -/
def arith1 (f : Fields) (g : Int → Int) : State → Iss → Except Stop State :=
  aluOp (some (tyIs64 f.ty)) none none f.ty (tyIs64 f.ty) fun v a _ _ =>
    (wrInt f.ty (satInt (satMod v) f.ty (g (rdInt f.ty a))), 0)

/-- Shape: D x, A x, B x·i on w-bit patterns (R249). -/
def logic2 (f : Fields) (g : Nat → Nat → Nat) : State → Iss → Except Stop State :=
  aluOp (some (tyIs64 f.ty)) (some (tyIs64 f.ty)) none f.ty (tyIs64 f.ty) fun _ a b _ =>
    (wrBits f.ty (g (rdBits f.ty a) (rdBits f.ty b)), 0)

/-- Shape: D x or w, A x on w-bit patterns (R249). -/
def logic1 (f : Fields) (wide : Bool) (g : Nat → DWord) : State → Iss → Except Stop State :=
  aluOp (some (tyIs64 f.ty)) none none f.ty wide fun _ a _ _ => (g (rdBits f.ty a), 0)

/-- Shape: D x, A x, B w·i: a shift of the w-bit pattern by c (R249). -/
def shift (f : Fields) (g : Nat → Nat → Nat → Nat) : State → Iss → Except Stop State :=
  aluOp (some (tyIs64 f.ty)) (some false) none .b32 (tyIs64 f.ty) fun _ a b _ =>
    let w := tyWidth f.ty
    (wrBits f.ty (g w (rdBits f.ty a) (rdBits .b32 b % w)), 0)

/-- Quotient of R248: toward zero; all ones for a zero divisor. -/
def quotOf (t : Ty) (a b : Int) : Int :=
  if b = 0 then (if tySigned t then -1 else ((2 ^ tyWidth t : Nat) : Int) - 1) else a.tdiv b

/-- Remainder of R248: the dividend for a zero divisor. -/
def remOf (a b : Int) : Int := if b = 0 then a else a - a.tdiv b * b

/-- Left shift, logical and arithmetic right shift, rotation of a w-bit pattern (R249). -/
def shlBits (w x c : Nat) : Nat := x * 2 ^ c % 2 ^ w
def shrBits (_w x c : Nat) : Nat := x / 2 ^ c
def sarBits (w x c : Nat) : Nat := wrapOf w (signedOf w x / ((2 ^ c : Nat) : Int))
def rotBits (w x c : Nat) : Nat := (x * 2 ^ c + x * 2 ^ c / 2 ^ w) % 2 ^ w

/-- Position and length of a bit field (R250). -/
def fieldPos (b : DWord) : Nat := bitsOf b.toNat 7 0
def fieldLen (w : Nat) (b : DWord) : Nat :=
  if w ≤ fieldPos b then 0 else min (bitsOf b.toNat 15 8) (w - fieldPos b)

/-- BFX (R250). -/
def extractField (t : Ty) (a b : DWord) : Int :=
  let w := tyWidth t
  let len := fieldLen w b
  let x := rdBits t a / 2 ^ fieldPos b % 2 ^ len
  if tySigned t then signedOf len x else (x : Int)

/-- BFI (R250). -/
def insertField (t : Ty) (a b c : DWord) : Nat :=
  let len := fieldLen (tyWidth t) b
  if len = 0 then rdBits t c
  else
    let pos := fieldPos b
    let old := rdBits t c
    old - old / 2 ^ pos % 2 ^ len * 2 ^ pos + rdBits t a % 2 ^ len * 2 ^ pos

/-- Number of ones among the low n bits. -/
def onesOf : Nat → Nat → Nat
  | 0, _ => 0
  | n + 1, x => x % 2 + onesOf n (x / 2)

/-- Number of leading zeros of a w-bit pattern. -/
def leadingZeros (w x : Nat) : Nat := if x = 0 then w else w - 1 - Nat.log2 x

/-- The low n bits in reverse order. -/
def reverseBits : Nat → Nat → Nat → Nat
  | 0, _, acc => acc
  | n + 1, x, acc => reverseBits n (x / 2) (2 * acc + x % 2)

/-- cond_FN of R251. -/
def condOf (fn : Nat) (t : Ty) (a b : DWord) : Bool :=
  let x := rdInt t a
  let y := rdInt t b
  match fn with
  | 0 => x == y
  | 1 => x != y
  | 2 => x < y
  | 3 => x ≤ y
  | 4 => y < x
  | 5 => y ≤ x
  | 6 => (rdBits t a &&& rdBits t b) != 0
  | _ => (rdBits t a &&& rdBits t b) == 0

/-- An immediate that move writes (R252): an integer through wr, a floating value as it stands. -/
def moveImm (f : Fields) : DWord :=
  if tyIsInt f.ty then wrInt f.ty (rdInt f.ty (immVal f f.ty)) else immVal f f.ty

/-- move(B): a register unchanged, an immediate converted (R252). -/
def moveB (f : Fields) (b : DWord) : DWord := if bIsImm f false then moveImm f else b

/-! ### Meanings -/

/-- NOP (R247). -/
def execNop (f : Fields) (s : State) : Host.Outcome State Fault Refusal :=
  issue s 0x00 f fun s v => .ok (advance s v)
/-- IADD (R247). -/
def execIadd (f : Fields) (s : State) : Host.Outcome State Fault Refusal :=
  issue s 0x01 f (arith2 f fun a b => a + b)
/-- ISUB (R247). -/
def execIsub (f : Fields) (s : State) : Host.Outcome State Fault Refusal :=
  issue s 0x02 f (arith2 f fun a b => a - b)
/-- IMUL (R247). -/
def execImul (f : Fields) (s : State) : Host.Outcome State Fault Refusal :=
  issue s 0x03 f (arith2 f fun a b => a * b)
/-- IMULH (R247). -/
def execImulh (f : Fields) (s : State) : Host.Outcome State Fault Refusal :=
  issue s 0x04 f (arith2 f fun a b => a * b / ((2 ^ tyWidth f.ty : Nat) : Int))
/-- IMAD: one clamp on the exact result (R247). -/
def execImad (f : Fields) (s : State) : Host.Outcome State Fault Refusal :=
  issue s 0x05 f (aluOp (some (tyIs64 f.ty)) (some (tyIs64 f.ty)) (some (tyIs64 f.ty)) f.ty (tyIs64 f.ty)
    fun v a b c => (wrInt f.ty (satInt (satMod v) f.ty (rdInt f.ty a * rdInt f.ty b + rdInt f.ty c)), 0))
/-- IDIV (R248). -/
def execIdiv (f : Fields) (s : State) : Host.Outcome State Fault Refusal :=
  issue s 0x06 f (arith2 f (quotOf f.ty))
/-- IREM (R248). -/
def execIrem (f : Fields) (s : State) : Host.Outcome State Fault Refusal :=
  issue s 0x07 f (arith2 f remOf)
/-- IMIN (R247). -/
def execImin (f : Fields) (s : State) : Host.Outcome State Fault Refusal :=
  issue s 0x08 f (arith2 f fun a b => min a b)
/-- IMAX (R247). -/
def execImax (f : Fields) (s : State) : Host.Outcome State Fault Refusal :=
  issue s 0x09 f (arith2 f fun a b => max a b)
/-- IABS (R247). -/
def execIabs (f : Fields) (s : State) : Host.Outcome State Fault Refusal :=
  issue s 0x0A f (arith1 f fun a => (a.natAbs : Int))
/-- INEG (R247). -/
def execIneg (f : Fields) (s : State) : Host.Outcome State Fault Refusal :=
  issue s 0x0B f (arith1 f fun a => -a)
/-- AND (R249). -/
def execAnd (f : Fields) (s : State) : Host.Outcome State Fault Refusal :=
  issue s 0x0C f (logic2 f fun a b => a &&& b)
/-- OR (R249). -/
def execOr (f : Fields) (s : State) : Host.Outcome State Fault Refusal :=
  issue s 0x0D f (logic2 f fun a b => a ||| b)
/-- XOR (R249). -/
def execXor (f : Fields) (s : State) : Host.Outcome State Fault Refusal :=
  issue s 0x0E f (logic2 f fun a b => a ^^^ b)
/-- NOT (R249). -/
def execNot (f : Fields) (s : State) : Host.Outcome State Fault Refusal :=
  issue s 0x0F f (logic1 f (tyIs64 f.ty) fun a => wrBits f.ty (2 ^ tyWidth f.ty - 1 - a))
/-- SHL (R249). -/
def execShl (f : Fields) (s : State) : Host.Outcome State Fault Refusal := issue s 0x10 f (shift f shlBits)
/-- SHR (R249). -/
def execShr (f : Fields) (s : State) : Host.Outcome State Fault Refusal := issue s 0x11 f (shift f shrBits)
/-- SAR (R249). -/
def execSar (f : Fields) (s : State) : Host.Outcome State Fault Refusal := issue s 0x12 f (shift f sarBits)
/-- ROT (R249). -/
def execRot (f : Fields) (s : State) : Host.Outcome State Fault Refusal := issue s 0x13 f (shift f rotBits)
/-- BFX (R250). -/
def execBfx (f : Fields) (s : State) : Host.Outcome State Fault Refusal :=
  issue s 0x14 f (aluOp (some (tyIs64 f.ty)) (some false) none .b32 (tyIs64 f.ty) fun _ a b _ =>
    (wrInt f.ty (extractField f.ty a b), 0))
/-- BFI (R250). -/
def execBfi (f : Fields) (s : State) : Host.Outcome State Fault Refusal :=
  issue s 0x15 f (aluOp (some (tyIs64 f.ty)) (some false) (some (tyIs64 f.ty)) .b32 (tyIs64 f.ty) fun _ a b c =>
    (wrBits f.ty (insertField f.ty a b c), 0))
/-- POPC (R249). -/
def execPopc (f : Fields) (s : State) : Host.Outcome State Fault Refusal :=
  issue s 0x16 f (logic1 f false fun a => BitVec.ofNat 64 (onesOf (tyWidth f.ty) a))
/-- CLZ (R249). -/
def execClz (f : Fields) (s : State) : Host.Outcome State Fault Refusal :=
  issue s 0x17 f (logic1 f false fun a => BitVec.ofNat 64 (leadingZeros (tyWidth f.ty) a))
/-- BREV (R249). -/
def execBrev (f : Fields) (s : State) : Host.Outcome State Fault Refusal :=
  issue s 0x18 f (logic1 f (tyIs64 f.ty) fun a => wrBits f.ty (reverseBits (tyWidth f.ty) a 0))
/-- ICMP (R251). -/
def execIcmp (f : Fields) (s : State) : Host.Outcome State Fault Refusal :=
  issue s 0x19 f (aluPred (tyIs64 f.ty) f.ty fun _ a b => (condOf f.fn.toNat f.ty a b, 0))

/-- SEL in every element (R252). -/
def selBody (f : Fields) (s : State) (v : Iss) : Except Stop State := do
  let w := tyIs64 f.ty
  let (s, xa, xb, _) ← readSources s v (some w) (some w) none f.ty
  let res := fun l => if readP v f.c.toNat l then xa.val l else moveB f (xb.val l)
  destReady s v f.d.toNat w false
  destCompare v f.d.toNat res
  .ok (finishAlu s v w (fun l => (res l, 0)) (xa.poison ||| xb.poison))

/-- SEL (R252). -/
def execSel (f : Fields) (s : State) : Host.Outcome State Fault Refusal := issue s 0x1A f (selBody f)

/-- MOV with .keep and .ovw (R101, R252), carrying poison from queues and mailboxes. -/
def movBody (f : Fields) (s : State) (v : Iss) : Except Stop State := do
  let w := tyIs64 f.ty
  let (s, xb) ← (if bIsImm f false then .ok (s, { val := fun _ => 0, poison := 0 })
    else readField s v f.b.toNat w f.eb (f.md.getLsbD 0))
  carryOrConsume v f.b.toNat xb (elemsOf v)
  let res := fun l => moveB f (xb.val l)
  destReady s v f.d.toNat w (f.md.getLsbD 1)
  destCompare v f.d.toNat res
  .ok (advance (writeD s v f.d.toNat w res xb.poison) v)

/-- MOV (R252). -/
def execMov (f : Fields) (s : State) : Host.Outcome State Fault Refusal := issue s 0x1B f (movBody f)

/-- LEA (R252). -/
def execLea (f : Fields) (s : State) : Host.Outcome State Fault Refusal :=
  issue s 0x1C f (aluOp (some true) (some false) none .b32 true fun _ a b _ =>
    (a + ((b.truncate 32 : Word).signExtend 64 <<< f.fn.toNat) + f.imm16.signExtend 64, 0))

/-- PLOP: the table in FN (R253). -/
def execPlop (f : Fields) (s : State) : Host.Outcome State Fault Refusal :=
  issue s 0x1D f fun s v =>
    .ok (advance (writeP s v f.d.toNat fun l =>
      f.fn.getLsbD (bit (readP v f.a.toNat l) + 2 * bit (readP v f.b.toNat l) + 4 * bit (readP v f.c.toNat l))) v)

/-- CVTI (R254). -/
def execCvti (f : Fields) (s : State) : Host.Outcome State Fault Refusal :=
  issue s 0x1E f (aluOp (some (tyIs64 (srcTy f))) none none f.ty (tyIs64 f.ty) fun v a _ _ =>
    (wrInt f.ty (satInt (satMod v) f.ty (rdInt (srcTy f) a)), 0))

/-- Byte k of a word under i8 or n8. -/
def byteOf (t : Ty) (x : DWord) (k : Nat) : Int := rdInt t (x >>> (8 * k))

/-- IDOT4 (R255). -/
def execIdot4 (f : Fields) (s : State) : Host.Outcome State Fault Refusal :=
  issue s 0x1F f (aluOp (some false) (some false) (some false) f.ty false fun v a b c =>
    let dot : Int := signedOf 32 c.toNat + (List.range 4).foldl (fun t k => t + byteOf f.ty a k * byteOf f.ty b k) 0
    (wrInt .i32 (satInt (satMod v) .i32 dot), 0))

end Sys2Proof.Machine
end

