-- ==== Sys2Proof/Machine/Lane.lean ====
section
/-! DEFINITION. Member masks, cross-lane instructions, moves between the sides, special registers (R104, R107, R169,
R256 to R262). -/
namespace Sys2Proof.Machine

/-! ### Member masks (R256) -/

/-- The member mask: the slices of the issuing split, or the AUX register; bits of shadow lanes are ignored (R107). -/
def memberMask (v : Iss) : Except Stop Word := do
  let m ← (if v.f.md.getLsbD 0 then .ok (lanesOfSlices v.sp.smask) else readAux v)
  .ok (if v.x.dmr then maskOf fun l => m.getLsbD l && l % 4 < 2 else m)

/-- The lanes that participate, or MEMBER with the lowest lane that is neither gone nor in the issuing split (R256). -/
def participants (v : Iss) (m : Word) : Except Stop Word :=
  let gone (l : Nat) : Bool := !(livingLanes v.x).getLsbD l
  match (lanesOf m).find? fun l => !gone l && !v.sp.smask.getLsbD (l / 4) with
  | some l => .error (.trap 0x08 (BitVec.ofNat 32 l))
  | none => .ok (m &&& v.on)

/-- The view in which only the participating lanes, with their shadows, act (R93, R107). -/
def asMembers (v : Iss) (part : Word) : Iss :=
  { v with on := if v.x.dmr then part ||| maskOf (fun l => v.act.getLsbD l && part.getLsbD (primaryOf true l)) else part }

/-! ### Trees (R169) -/

/-- One combination of R259: integer operations as w-bit patterns, floating ones under FPMODE.RM. -/
def redCombine (v : Iss) (t : Ty) (fn : Nat) (x y : Nat) : Nat × FpFlags :=
  if tyIsScalarFp t then
    match fn with
    | 0 => fAdd (fmtOf t) (rmOf v) x y
    | 1 => fMinMax (fmtOf t) false false x y
    | _ => fMinMax (fmtOf t) true false x y
  else
    let w := tyWidth t
    let rd (z : Nat) : Int := if tySigned t then signedOf w z else ((z % 2 ^ w : Nat) : Int)
    match fn with
    | 0 => ((x + y) % 2 ^ w, 0)
    | 1 => (if rd x ≤ rd y then x else y, 0)
    | 2 => (if rd x ≤ rd y then y else x, 0)
    | 3 => (x &&& y, 0)
    | 4 => (x ||| y, 0)
    | _ => (x ^^^ y, 0)

/-- The identities of R169. -/
def redIdentity (t : Ty) (fn : Nat) : Nat :=
  if tyIsScalarFp t then
    match fn with
    | 0 => signBit (fmtOf t) true
    | 1 => infBits (fmtOf t) false
    | _ => infBits (fmtOf t) true
  else
    match fn with
    | 1 => wrapOf (tyWidth t) (maxOfTy t)
    | 2 => wrapOf (tyWidth t) (minOfTy t)
    | 3 => 2 ^ tyWidth t - 1
    | _ => 0

/-- Combine two values with their flags. -/
def redJoin (op : Nat → Nat → Nat × FpFlags) (a b : Nat × FpFlags) : Nat × FpFlags :=
  let (r, fl) := op a.1 b.1
  (r, a.2 ||| b.2 ||| fl)

/-- Node `i` of a level of the tree, the lower lanes on the left (R169). -/
def treeNode (op : Nat → Nat → Nat × FpFlags) (leaf : Nat → Nat) : Nat → Nat → Nat × FpFlags
  | 0, i => (leaf i, 0)
  | n + 1, i => redJoin op (treeNode op leaf n (2 * i)) (treeNode op leaf n (2 * i + 1))

/-- The result over lanes 0 to n − 1: aligned blocks, largest first, combined from left to right (R169). -/
def scanNode (op : Nat → Nat → Nat × FpFlags) (leaf : Nat → Nat) (ident n : Nat) : Nat × FpFlags :=
  let blocks := ((List.range 6).reverse.foldl (fun (acc : List (Nat × Nat) × Nat) k =>
    if n.testBit k then (acc.1 ++ [(k, acc.2 / 2 ^ k)], acc.2 + 2 ^ k) else acc) ([], 0)).1
  match blocks with
  | [] => (ident, 0)
  | (k, i) :: r => r.foldl (fun acc b => redJoin op acc (treeNode op leaf b.1 b.2)) (treeNode op leaf k i)

/-- A result of LRED and LSCAN as it is written (R236, R246). -/
def redWrite (t : Ty) (x : Nat) : DWord := if tyIsScalarFp t then BitVec.ofNat 64 x else wrBits t x

/-! ### SHFL, VOTE, LRED, LSCAN -/

/-- The lane a SHFL reads (R257). -/
def shflLane (fn : Nat) (l : Nat) (b : Nat) : Option Nat :=
  match fn with
  | 0 => if b < 32 then some b else none
  | 1 => if b ≤ l then some (l - b) else none
  | 2 => if l + b < 32 then some (l + b) else none
  | _ => let j := l ^^^ b; if j < 32 then some j else none

/-- SHFL (R257). -/
def shflBody (f : Fields) (s : State) (v : Iss) : Except Stop State := do
  let w := tyIs64 f.ty
  let m ← memberMask v
  let part ← participants v m
  let u := asMembers v part
  let (s, xa) ← srcA s u w
  let (s, xb) ← srcB s u false .b32 false
  carryOrConsume u f.a.toNat xa u.on
  consume xb u.on
  let from_ := fun l =>
    let l := primaryOf v.x.dmr l
    match shflLane f.fn.toNat l (rdBits .b32 (xb.val l)) with
    | some j => let j := primaryOf v.x.dmr j; if part.getLsbD j then j else l
    | none => l
  let res := fun l => xa.val (from_ l)
  destReady s u f.d.toNat w false
  destCompare u f.d.toNat res
  .ok (advance (writeD s u f.d.toNat w res (maskOf fun l => xa.poison.getLsbD (from_ l))) v)

/-- SHFL (R257). -/
def execShfl (f : Fields) (s : State) : Host.Outcome State Fault Refusal := issue s 0x34 f (shflBody f)

/-- VOTE (R258). -/
def voteBody (f : Fields) (s : State) (v : Iss) : Except Stop State := do
  let m ← memberMask v
  let part ← participants v m
  let u := asMembers v part
  let yes := part &&& kmask v.x f.a.toNat
  let res : Word :=
    match f.fn.toNat with
    | 0 => yes
    | 1 => if yes = 0 then 0 else 1
    | 2 => if yes = part then 1 else 0
    | _ => if yes = part ∨ yes = 0 then 1 else 0
  if f.fn = 0 then do
    destReady s u f.d.toNat false false
    .ok (advance (writeD s u f.d.toNat false (fun _ => res.zeroExtend 64) 0) v)
  else .ok (advance (writeP s u f.d.toNat fun _ => res != 0) v)

/-- VOTE (R258). -/
def execVote (f : Fields) (s : State) : Host.Outcome State Fault Refusal := issue s 0x35 f (voteBody f)

/-- LRED and LSCAN share their sources and their write (R259). -/
def redBody (f : Fields) (result : (Nat → Nat → Nat × FpFlags) → (Nat → Nat) → Nat → Nat → Nat × FpFlags)
    (s : State) (v : Iss) : Except Stop State := do
  let w := tyIs64 f.ty
  let m ← memberMask v
  let part ← participants v m
  let u := asMembers v part
  let (s, xa) ← srcA s u w
  carryOrConsume u f.a.toNat xa u.on
  let ident := redIdentity f.ty f.fn.toNat
  let leaf := fun l => if part.getLsbD l then rdBits f.ty (xa.val l) else ident
  let op := redCombine v f.ty f.fn.toNat
  let res := fun l => result op leaf ident (primaryOf v.x.dmr l)
  destReady s u f.d.toNat w false
  let s := writeD s u f.d.toNat w (fun l => redWrite f.ty (res l).1) (if xa.poison &&& part = 0 then 0 else BitVec.allOnes 32)
  .ok (advance (raiseFlags s v (flagsOf part fun l => (res l).2)) v)

/-- LRED (R259). -/
def execLred (f : Fields) (s : State) : Host.Outcome State Fault Refusal :=
  issue s 0x36 f (redBody f fun op leaf _ _ => treeNode op leaf 5 0)

/-- LSCAN (R259). -/
def execLscan (f : Fields) (s : State) : Host.Outcome State Fault Refusal :=
  issue s 0x37 f (redBody f fun op leaf ident l =>
    scanNode op leaf ident (if f.md.getLsbD 1 then l else l + 1))

/-! ### XMOV (R260) -/

/-- XMOV: .bcast, .first, .pick (R260). -/
def xmovBody (f : Fields) (s : State) (v : Iss) : Except Stop State := do
  let w := tyIs64 f.ty
  if !f.strand then do
    if v.on = 0 then .ok (advance s v)
    else do
      let xa ← readS v.x f.a.toNat w f.ea
      consume xa 1
      destReady s v f.d.toNat w false
      .ok (advance (writeD s v f.d.toNat w xa.val 0) v)
  else do
    let l := if f.fn = 1 then lowLane v.act else f.imm16.toNat
    -- a shadow lane is read as its primary (R107)
    let p := primaryOf v.x.dmr l
    if f.fn = 2 && !((lanesThere v.x).getLsbD l && v.sp.smask.getLsbD (l / 4)) then
      .error (.trap 0x08 (BitVec.ofNat 32 l))
    else do
      let xa ← readV v.x (laneBit p) f.a.toNat w f.ea
      consume xa (laneBit p)
      destReady s v f.d.toNat w false
      .ok (advance (writeD s v f.d.toNat w (fun _ => xa.val p) 0) v)

/-- XMOV (R260). -/
def execXmov (f : Fields) (s : State) : Host.Outcome State Fault Refusal := issue s 0x38 f (xmovBody f)

/-! ### GETSR and SETSR (R104, R261, R262) -/

/-- Word n of the strand's most recently written trap record, zeros before the first (R261). -/
def trapRecWord (s : State) (c : Nat) (x : Strand) (n : Nat) : Word :=
  match x.lastRec with
  | none => 0
  | some r => BitVec.ofNat 32 (trapWord s.now (clockAt s.power c) r / 2 ^ (32 * n))

/-- The per-lane special registers (R104): LANE, SLICE, HZ, ISN, HZOUT. -/
def laneSpecial (s : State) (v : Iss) (idx l : Nat) : Option Word :=
  let ops := opsOf s v.c v.sl
  match idx with
  | 0x000 => some (BitVec.ofNat 32 (primaryOf v.x.dmr l))
  | 0x001 => some (BitVec.ofNat 32 (primaryOf v.x.dmr l / 4))
  | 0x020 => some ((hzOf ops v.x l).zeroExtend 32)
  | 0x021 => some ((nextIsn v.x (l / 4) - 1).zeroExtend 32)
  | 0x022 => some (BitVec.ofNat 32 (hzOut ops (l / 4)))
  | _ => none

/-- The special registers of a strand (R104); the B operand gives the word of TRAPREC. In a handler entered
from LINGER EXITED reads 1 for its lanes (log entry 58). -/
def strandSpecial (s : State) (v : Iss) (idx n : Nat) : Word :=
  match idx with
  | 0x002 => BitVec.ofNat 32 (gid v)
  | 0x003 => BitVec.ofNat 32 v.c
  | 0x004 => BitVec.ofNat 32 (clusterOf v.c % 6)
  | 0x005 => BitVec.ofNat 32 (dieOf v.c)
  | 0x006 => BitVec.ofNat 32 s.phys.deviceId
  | 0x007 => BitVec.ofNat 32 (levelCounter 4 s v.x.lcnt 0)
  | 0x008 => BitVec.ofNat 32 (levelCounter 4 s v.x.lcnt 1)
  | 0x009 => BitVec.ofNat 32 (levelCounter 4 s v.x.lcnt 2)
  | 0x00A => BitVec.ofNat 32 (levelCounter 4 s v.x.lcnt 3)
  | 0x00B => BitVec.ofNat 32 v.x.ctx
  | 0x010 => BitVec.ofNat 32 (cycleOf s v.c)
  | 0x011 => v.x.clatch.getD (BitVec.ofNat 32 (cycleOf s v.c / 2 ^ 32))
  | 0x040 => v.x.batch.zeroExtend 32
  | 0x041 => (bdoneOf s v.c v.sl v.x).zeroExtend 32
  | 0x050 => v.x.fpflags.zeroExtend 32
  | 0x051 => v.x.fpmode.zeroExtend 32
  | 0x060 => v.act
  | 0x061 => v.x.exited ||| v.x.hexit
  | 0x062 => BitVec.ofNat 32 (pack [(0, 8, v.sp.smask.toNat), (8, 4, (splitsOf s v.c v.sl).length),
      (12, 4, v.sp.jstk.length)])
  | 0x070 => match v.x.handling with | none => 0 | some r => BitVec.ofNat 32 r.cause
  | 0x071 => trapRecWord s v.c v.x n
  | 0x080 => if v.x.dmr then 1 else 0
  | _ => if 0x030 ≤ idx ∧ idx ≤ 0x03F then BitVec.ofNat 32 (alwOf (coreOf s v.c) (idx - 0x030)) else 0

/-- The value of a special register in an element: a lane, or the lowest active lane for the strand (R104). -/
def specialValue (s : State) (v : Iss) (idx l n : Nat) : Word :=
  match laneSpecial s v idx (if v.f.strand then lowLane v.act else l) with
  | some w => w
  | none => strandSpecial s v idx n

/-- Reading CYCLE latches and unlatches its high word (R104, R261); where every lane is guarded off nothing reads it (R93). -/
def latchCycle (s : State) (v : Iss) (idx : Nat) : State :=
  if elemsOf v = 0 then s
  else if idx = 0x010 then onStrand s v fun x => { x with clatch := some (BitVec.ofNat 32 (cycleOf s v.c / 2 ^ 32)) }
  else if idx = 0x011 then onStrand s v fun x => { x with clatch := none }
  else s

/-- GETSR (R261). -/
def getsrBody (f : Fields) (s : State) (v : Iss) : Except Stop State := do
  let idx := f.imm16.toNat
  let rec_ := idx == 0x071
  let (s, xb) ← (if rec_ then srcB s v false .b32 false else .ok (s, noSrc))
  consume xb (elemsOf v)
  if rec_ && (lanesOf (elemsOf v)).any fun l => 128 ≤ rdBits .b32 (xb.val l) then .error (stopIllegal v 5)
  else do
    let res := fun l => (specialValue s v idx l (rdBits .b32 (xb.val l))).zeroExtend 64
    destReady s v f.d.toNat false false
    destCompare v f.d.toNat res
    .ok (advance (latchCycle (writeD s v f.d.toNat false res 0) v idx) v)

/-- GETSR (R261). -/
def execGetsr (f : Fields) (s : State) : Host.Outcome State Fault Refusal := issue s 0x39 f (getsrBody f)

/-- SETSR (R262): the flags that engines have raised in this cycle are ORed in after the replacement. -/
def setsrBody (f : Fields) (s : State) (v : Iss) : Except Stop State := do
  let (s, xa) ← srcA s v false
  consume xa 1
  let w := xa.val 0
  .ok (advance (onStrand s v fun x =>
    if f.imm16 = 0x050 then { x with fpflags := w.truncate 6 ||| flagsNow s x } else { x with fpmode := w.truncate 3 }) v)

/-- SETSR (R262). -/
def execSetsr (f : Fields) (s : State) : Host.Outcome State Fault Refusal := issue s 0x3A f (setsrBody f)

end Sys2Proof.Machine
end

