-- ==== Sys2Proof/Machine/Floating.lean ====
section
/-! DEFINITION. Floating-point, conversion and block-format instructions (R263 to R277). -/
namespace Sys2Proof.Machine

/-! ### Elements (R236, R263) -/

/-- Element i of a value: a half of a packed one, the low bits of a scalar (R263). -/
def fpElem (t : Ty) (x : DWord) (i : Nat) : Nat :=
  if tyIsPacked t then bitsOf x.toNat (16 * i + 15) (16 * i) else x.toNat % 2 ^ tyWidth t

/-- Apply an operation to a scalar, or to both halves of a pair; flags are ORed (R152, R263). -/
def fpMap (t : Ty) (g : Nat → Nat × FpFlags) : DWord × FpFlags :=
  let (r, fl) := g 0
  if tyIsPacked t then
    let (r1, fl1) := g 1
    (BitVec.ofNat 64 (r + r1 * 2 ^ 16), fl ||| fl1)
  else (BitVec.ofNat 64 r, fl)

/-- Shape: D x, A x, B x·i (R265). -/
def fp2 (f : Fields) (g : Iss → Nat → Nat → Nat × FpFlags) : State → Iss → Except Stop State :=
  aluOp (some false) (some false) none f.ty false fun v a b _ =>
    fpMap f.ty fun i => g v (fpElem f.ty a i) (fpElem f.ty b i)

/-- Shape: D x, A x (R265). -/
def fp1 (f : Fields) (g : Iss → Nat → Nat × FpFlags) : State → Iss → Except Stop State :=
  aluOp (some false) none none f.ty false fun v a _ _ => fpMap f.ty fun i => g v (fpElem f.ty a i)

/-- Shape of the transcendentals: each element takes its own free values (R168, R269). -/
def fpTrans (f : Fields) (g : Nat → Nat → Nat × FpFlags) (s : State) (v : Iss) : Except Stop State := do
  let (s, xa, _, _) ← readSources s v (some false) none none f.ty
  let base := s.fresh
  let res := fun l => fpMap f.ty fun i => g (base + 4 * l + 2 * i) (fpElem f.ty (xa.val l) i)
  destReady s v f.d.toNat false false
  destCompare v f.d.toNat fun l => (res l).1
  .ok (finishAlu { s with fresh := s.fresh + 128 } v false res xa.poison)

/-! ### Arithmetic (R265 to R268) -/

/-- FADD (R265). -/
def execFadd (f : Fields) (s : State) : Host.Outcome State Fault Refusal :=
  issue s 0x20 f (fp2 f fun v a b => fAdd (fmtOf f.ty) (arithRound v) a b)
/-- FSUB (R265). -/
def execFsub (f : Fields) (s : State) : Host.Outcome State Fault Refusal :=
  issue s 0x21 f (fp2 f fun v a b => fSub (fmtOf f.ty) (arithRound v) a b)
/-- FMUL (R265). -/
def execFmul (f : Fields) (s : State) : Host.Outcome State Fault Refusal :=
  issue s 0x22 f (fp2 f fun v a b => fMul (fmtOf f.ty) (arithRound v) a b)
/-- FFMA (R265). -/
def execFfma (f : Fields) (s : State) : Host.Outcome State Fault Refusal :=
  issue s 0x23 f (aluOp (some false) (some false) (some false) f.ty false fun v a b c =>
    fpMap f.ty fun i => fFma (fmtOf f.ty) (arithRound v) (fpElem f.ty a i) (fpElem f.ty b i) (fpElem f.ty c i))
/-- FMIN (R267). -/
def execFmin (f : Fields) (s : State) : Host.Outcome State Fault Refusal :=
  issue s 0x24 f (fp2 f fun _ a b => fMinMax (fmtOf f.ty) false (f.fn == 1) a b)
/-- FMAX (R267). -/
def execFmax (f : Fields) (s : State) : Host.Outcome State Fault Refusal :=
  issue s 0x25 f (fp2 f fun _ a b => fMinMax (fmtOf f.ty) true (f.fn == 1) a b)
/-- FDIV (R265). -/
def execFdiv (f : Fields) (s : State) : Host.Outcome State Fault Refusal :=
  issue s 0x26 f (fp2 f fun v a b => fDiv (fmtOf f.ty) (arithRound v) a b)
/-- FSQRT (R265). -/
def execFsqrt (f : Fields) (s : State) : Host.Outcome State Fault Refusal :=
  issue s 0x27 f (fp1 f fun v a => fSqrt (fmtOf f.ty) (arithRound v) a)
/-- FRCP (R269). -/
def execFrcp (f : Fields) (s : State) : Host.Outcome State Fault Refusal :=
  issue s 0x28 f (fpTrans f fun n a => fRcp (fmtOf f.ty) n a)
/-- FRSQ (R269). -/
def execFrsq (f : Fields) (s : State) : Host.Outcome State Fault Refusal :=
  issue s 0x29 f (fpTrans f fun n a => fRsq (fmtOf f.ty) n a)
/-- FEXP2 (R269). -/
def execFexp2 (f : Fields) (s : State) : Host.Outcome State Fault Refusal :=
  issue s 0x2A f (fpTrans f fun n a => fExp2 (fmtOf f.ty) n a)
/-- FLOG2 (R269). -/
def execFlog2 (f : Fields) (s : State) : Host.Outcome State Fault Refusal :=
  issue s 0x2B f (fpTrans f fun n a => fLog2 (fmtOf f.ty) n a)
/-- FTRIG (R269). -/
def execFtrig (f : Fields) (s : State) : Host.Outcome State Fault Refusal :=
  issue s 0x2C f (fpTrans f fun n a => fTrig (fmtOf f.ty) (f.fn == 1) n a)

/-! ### Compare, classify, round (R270 to R272) -/

/-- FCMP (R270). -/
def execFcmp (f : Fields) (s : State) : Host.Outcome State Fault Refusal :=
  issue s 0x2D f (aluPred false f.ty fun _ a b => fCompare (fmtOf f.ty) f.fn.toNat (fpElem f.ty a 0) (fpElem f.ty b 0))
/-- FCLASS (R271). -/
def execFclass (f : Fields) (s : State) : Host.Outcome State Fault Refusal :=
  issue s 0x2E f (aluOp (some false) none none f.ty false fun _ a _ _ =>
    (BitVec.ofNat 64 (fClass (fmtOf f.ty) (fpElem f.ty a 0)), 0))
/-- The direction FRND selects (R272). -/
def frndRound (v : Iss) : Round :=
  match v.f.fn.toNat with
  | 0 => rmOf v | 1 => .ne | 2 => .tz | 3 => .dn | _ => .up
/-- FRND (R272). -/
def execFrnd (f : Fields) (s : State) : Host.Outcome State Fault Refusal :=
  issue s 0x30 f (fp1 f fun v a => fIntegral (fmtOf f.ty) (frndRound v) a)
/-- FDOT2 (R268). -/
def execFdot2 (f : Fields) (s : State) : Host.Outcome State Fault Refusal :=
  issue s 0x31 f (aluOp (some false) (some false) (some false) f.ty false fun v a b c =>
    let (r, fl) := fDot2 (fmtOf f.ty) (arithRound v) (bitsOf a.toNat 31 0) (bitsOf b.toNat 31 0) (bitsOf c.toNat 31 0)
    (BitVec.ofNat 64 r, fl))

/-! ### CVT (R273 to R275) -/

/-- Convert one scalar from the source type's element to the result type's element: pattern and flags. -/
def cvtElem (v : Iss) (src dst : Ty) (x : Nat) : DWord × FpFlags :=
  if tyIsInt dst then
    let (r, fl) := fToInt (fmtOf src) (staticRound v .tz) (tyWidth dst) (tySigned dst) x
    (wrInt dst r, fl)
  else if tyIsInt src then
    let (r, fl) := fFromInt (fmtOf dst) (arithRound v) (sat8Of v) (rdInt src (BitVec.ofNat 64 x))
    (BitVec.ofNat 64 r, fl)
  else
    let (r, fl) := fConvert (fmtOf src) (fmtOf dst) (arithRound v) (sat8Of v) x
    (BitVec.ofNat 64 r, fl)

/-- CVT's result from A and B (R273). -/
def cvtResult (v : Iss) (f : Fields) (a b : DWord) : DWord × FpFlags :=
  let src := srcTy f
  if tyIsPacked f.ty then
    let (r0, f0) := cvtElem v src f.ty (fpElem src a 0)
    let (r1, f1) := if tyIsPacked src then cvtElem v src f.ty (fpElem src a 1) else cvtElem v src f.ty (fpElem src b 0)
    (r0 + r1 <<< 16, f0 ||| f1)
  else cvtElem v src f.ty (fpElem src a (bit (f.fn.getLsbD 4)))

/-- CVT (R273). -/
def execCvt (f : Fields) (s : State) : Host.Outcome State Fault Refusal :=
  issue s 0x2F f (aluOp (some (tyIs64 (srcTy f))) (if cvtTwo f then some (tyIs64 (srcTy f)) else none) none (srcTy f)
    (tyIs64 f.ty) fun v a b _ => cvtResult v f a b)

/-! ### QENC and QDEC (R276, R277) -/

/-- combine of R276. -/
def qCombine (a b : Nat) : Nat := if a = 255 ∨ b = 255 then 255 else max a b

/-- QENC.exp (R276). -/
def qencExp (f : Fields) (s : State) (v : Iss) : Except Stop State := do
  let m ← memberMask v
  let part ← participants v m
  let u := asMembers v part
  let (s, xa) ← srcA s u false
  let (s, xb) ← srcB s u false .b32 false
  carryOrConsume u f.a.toNat xa u.on
  carryOrConsume u f.b.toNat xb u.on
  let val := fun l => fdec (fmtOf f.ty) (fpElem f.ty (xa.val l) 0)
  let e := (lanesOf part).foldl (fun e l => qCombine e (qCombine (blockExp (val l)) (bitsOf (xb.val l).toNat 7 0))) 0
  let fl : FpFlags := if (lanesOf part).any fun l => blockExp (val l) == 255 then flNV else 0
  destReady s u f.d.toNat false false
  let s := writeD s u f.d.toNat false (fun _ => BitVec.ofNat 64 e)
    (if (xa.poison ||| xb.poison) &&& part = 0 then 0 else BitVec.allOnes 32)
  .ok (advance (raiseFlags s v fl) v)

/-- QENC.bfpw in one lane (R276). -/
def qencCode (w : Nat) (x : FVal) (e : Nat) : DWord × FpFlags :=
  match x with
  | .fin neg m ex =>
      if e = 0 then (0, if m = 0 then 0 else flNX)
      else if e = 255 then (0, 0)
      else
        let (q, fl) := bfpCode w e (.fin neg m ex)
        (wrInt .i32 q, fl)
  | _ => (0, if e = 255 then 0 else flNV)

/-- QENC (R276). -/
def execQenc (f : Fields) (s : State) : Host.Outcome State Fault Refusal :=
  issue s 0x32 f fun s v =>
    if f.fn = 0 then qencExp f s v
    else aluOp (some false) (some false) none .b32 false (fun _ a b _ =>
      qencCode f.fn.toNat (fdec (fmtOf f.ty) (fpElem f.ty a 0)) (bitsOf b.toNat 7 0)) s v

/-- QDEC (R277). -/
def execQdec (f : Fields) (s : State) : Host.Outcome State Fault Refusal :=
  issue s 0x33 f (aluOp (some false) (some false) none .b32 false fun _ a b _ =>
    (BitVec.ofNat 64 (bfpDecode f.fn.toNat (bitsOf b.toNat 7 0) (signedOf f.fn.toNat a.toNat)), 0))

end Sys2Proof.Machine
end

