-- ==== Sys2Proof/Machine/Control.lean ====
section
/-! DEFINITION. Branches, splits, exit, waits on the horizon, allowance, barriers, and the simple stops (R278 to R295). -/
namespace Sys2Proof.Machine

/-! ### Targets (R234, R243) -/

/-- The target of a PC-relative instruction, as a 64-bit address (R234). -/
def targetOf (v : Iss) : DWord :=
  v.pc.zeroExtend 64 + (if v.f.hasLit then v.f.lit else v.f.imm16.signExtend 64 <<< 2)

/-- A target that cannot be fetched: ALIGN, or XLATE for bits [63:57] (R243). -/
def checkTarget (t : DWord) : Except Stop Unit :=
  if t.extractLsb' 0 2 != 0 then .error (.trap 0x03 4)
  else if t.extractLsb' 57 7 != 0 then .error (.trap 0x04 2)
  else .ok ()

/-- Jump when a condition holds; only a taken branch checks its target (R278). -/
def jumpIf (s : State) (v : Iss) (cond : Bool) (t : DWord) : Except Stop State :=
  if cond then do
    checkTarget t
    .ok (setPc s v (t.truncate 57))
  else .ok (advance s v)

/-! ### BRA, BRX, CALL, JMPR, REGANG (R280 to R283) -/

/-- Under redundancy each pair agrees on the reduced predicate of a branch (R107). -/
def branchCompare (v : Iss) (k : Word) : Except Stop Unit :=
  if v.x.dmr && (lanesOf v.act).any fun l =>
      v.act.getLsbD (primaryOf true l) && k.getLsbD l != k.getLsbD (primaryOf true l) then .error (.fatal 0x0B)
  else .ok ()

/-- BRA (R280). -/
def braBody (f : Fields) (s : State) (v : Iss) : Except Stop State := do
  let c ← (if f.fn = 0 then .ok (gget v.x f.a.toNat)
    else do
      let k := kmask v.x f.a.toNat
      branchCompare v k
      let ref := k.getLsbD (lowLane v.act)
      match (lanesOf v.act).find? fun l => k.getLsbD l != ref with
      | some l => .error (.trap 0x07 (BitVec.ofNat 32 (l / 4)))
      | none => .ok ref)
  jumpIf s v (c != f.md.getLsbD 0) (targetOf v)

/-- BRA (R280). -/
def execBra (f : Fields) (s : State) : Host.Outcome State Fault Refusal := issue s 0x3C f (braBody f)

/-- The outcome of each slice of a BRX: the slices that take the branch, or the slice that disagrees under .uni (R281). -/
def brxTaken (f : Fields) (v : Iss) : Except Stop (BitVec 8) :=
  let k := if f.md.getLsbD 2 then ~~~kmask v.x f.a.toNat else kmask v.x f.a.toNat
  let votes (i : Nat) : BitVec 4 := (k &&& v.act).extractLsb' (4 * i) 4
  let lanes (i : Nat) : BitVec 4 := v.act.extractLsb' (4 * i) 4
  let mode := (f.md.extractLsb' 0 2).toNat
  match (slicesOf v.act).find? fun i => mode == 2 && votes i != 0 && votes i != lanes i with
  | some i => .error (.trap 0x07 (BitVec.ofNat 32 i))
  | none =>
      .ok (BitVec.ofNat 8 (((slicesOf v.act).filter fun i =>
        if mode = 0 then votes i != 0 else votes i == lanes i).foldl (fun n i => n + 2 ^ i) 0))

/-- BRX (R281, R96). A slice without an active lane falls through; a fall-through half without a living lane is freed at
once; in a handler the living lanes are those of FLANES (log entry 16). -/
def brxBody (f : Fields) (s : State) (v : Iss) : Except Stop State := do
  branchCompare v (kmask v.x f.a.toNat)
  let taken ← brxTaken f v
  let fall := v.sp.smask &&& ~~~taken
  if taken = 0 then .ok (advance s v)
  else if fall = 0 then jumpIf s v true (targetOf v)
  else if 8 ≤ v.sp.jstk.length then .error (stopIllegal v 1)
  else do
    checkTarget (targetOf v)
    let e2 := freeEntry (coreOf s v.c) (schedOf v.sl)
    let s := divide s v taken ((targetOf v).truncate 57) f.fn
    .ok (if lanesOfSlices fall &&& livingLanes v.x = 0 then delSplit s v.c e2 else s)

/-- BRX (R281). -/
def execBrx (f : Fields) (s : State) : Host.Outcome State Fault Refusal := issue s 0x3D f (brxBody f)

/-- CALL (R283). -/
def callBody (f : Fields) (s : State) (v : Iss) : Except Stop State := do
  let (s, xa) ← (if f.fn = 1 then srcA s v true else .ok (s, noSrc))
  consume xa 1
  if (sget v.x 63).st = .pending then .error (.wait .register)
  else do
    let s ← jumpIf s v true (if f.fn = 1 then xa.val 0 else targetOf v)
    .ok (onStrand s v fun x => sset x 63 (fullCell (v.next.truncate 32)))

/-- CALL (R283). -/
def execCall (f : Fields) (s : State) : Host.Outcome State Fault Refusal := issue s 0x3E f (callBody f)

/-- JMPR (R283). -/
def jmprBody (f : Fields) (s : State) (v : Iss) : Except Stop State := do
  let (s, xa) ← srcA s v (f.fn == 0)
  consume xa 1
  let t : DWord :=
    if f.fn = 0 then xa.val 0
    else ((v.pc.extractLsb' 32 25).zeroExtend 32 ++ (xa.val 0).extractLsb' 0 32 : BitVec 64)
  jumpIf s v true t

/-- JMPR (R283). -/
def execJmpr (f : Fields) (s : State) : Host.Outcome State Fault Refusal := issue s 0x3F f (jmprBody f)

/-- REGANG (R282): it waits with RGW set, and merges when every sibling has arrived (R96). -/
def execRegang (f : Fields) (s : State) : Host.Outcome State Fault Refusal :=
  issue s 0x40 f fun s v =>
    if v.sp.jstk.getLast? == some (f.imm16.truncate 8) then
      .ok (tryMerge (modSplit s v.c v.e fun p => { p with rgw := true, cls := some .regang, held := v.sample }) v.c v.sl)
    else .ok (advance s v)

/-! ### EXIT (R284) -/

/-- Lanes of the issuing split exit (R97, R284). -/
def exitLanes (s : State) (v : Iss) (lanes : Word) : State :=
  let s := onStrand (advance s v) v fun x =>
    match x.handling with
    | none => { x with exited := x.exited ||| lanes }
    | some _ => { x with hexit := x.hexit ||| lanes }
  match strandAt s v.c v.sl with
  | none => s
  | some x =>
      let gone := splitLanes x v.sp == 0
      match x.handling with
      | some _ =>
          tryMerge (if gone && 1 < (splitsOf s v.c v.sl).length then delSplit s v.c v.e else s) v.c v.sl
      | none =>
          let s := if gone then delSplit s v.c v.e else s
          if livingLanes x = 0 then
            let s := modStrand s v.c v.sl fun x => if x.phase = .live then { x with phase := .linger } else x
            checkRetire (claspDeparts s v.c v.sl) v.c v.sl
          else tryMerge s v.c v.sl

/-- EXIT (R284). -/
def execExit (f : Fields) (s : State) : Host.Outcome State Fault Refusal :=
  issue s 0x41 f fun s v =>
    .ok (exitLanes s v (if f.fn = 1 then v.act &&& kmask v.x f.a.toNat else v.act))

/-! ### The horizon (R285) -/

/-- clear, or passed for an ISN (R285). -/
def hzPassed (s : State) (v : Iss) (past : Option (BitVec 16)) (l : Nat) : Bool :=
  let ops := opsOf s v.c v.sl
  hzClear ops l || match past with
    | none => false
    | some x => precedes x (hzOf ops v.x l)

/-- The B operand of .past (R285). -/
def pastOf (s : State) (v : Iss) (past : Bool) : Except Stop (State × (Nat → Option (BitVec 16))) := do
  if past then do
    let (s, xb) ← srcB s v false .b32 v.f.hasLit
    consume xb (elemsOf v)
    .ok (s, fun l => some ((xb.val l).truncate 16))
  else .ok (s, fun _ => none)

/-- HZWAIT (R285). -/
def hzwaitBody (f : Fields) (s : State) (v : Iss) : Except Stop State := do
  let (s, xb) ← (if f.fn = 1 then srcB s v false .b32 false else .ok (s, noSrc))
  consume xb 1
  let past : Option (BitVec 16) := if f.fn = 1 then some ((xb.val 0).truncate 16) else none
  if (lanesOf v.act).all (hzPassed s v past) then .ok (advance s v) else .error (.wait .horizon)

/-- HZWAIT (R285). -/
def execHzwait (f : Fields) (s : State) : Host.Outcome State Fault Refusal := issue s 0x42 f (hzwaitBody f)

/-- HZBR (R285). -/
def hzbrBody (f : Fields) (s : State) (v : Iss) : Except Stop State := do
  let (s, past) ← pastOf s v (f.fn == 2)
  let all := (lanesOf v.act).all (hzPassed s v (past 0))
  jumpIf s v (if f.fn = 1 then !all else all) (targetOf v)

/-- HZBR (R285). -/
def execHzbr (f : Fields) (s : State) : Host.Outcome State Fault Refusal := issue s 0x43 f (hzbrBody f)

/-- HZTEST (R285). -/
def hztestBody (f : Fields) (s : State) (v : Iss) : Except Stop State := do
  let (s, xb) ← (if f.fn = 1 then srcB s v false .b32 false else .ok (s, noSrc))
  consume xb v.on
  let past (l : Nat) : Option (BitVec 16) := if f.fn = 1 then some ((xb.val l).truncate 16) else none
  .ok (advance (writeP s v f.d.toNat fun l => hzPassed s v (past l) l) v)

/-- HZTEST (R285). -/
def execHztest (f : Fields) (s : State) : Host.Outcome State Fault Refusal := issue s 0x44 f (hztestBody f)

/-! ### Allowance (R286, R287) -/

/-- ALBR (R286). -/
def albrBody (f : Fields) (s : State) (v : Iss) : Except Stop State := do
  let (s, xb) ← srcB s v false .b32 f.hasLit
  consume xb 1
  let alw := alwOf (coreOf s v.c) f.fn.toNat
  let b := rdBits .b32 (xb.val 0)
  jumpIf s v (if f.md.getLsbD 0 then decide (b ≤ alw) else decide (alw < b)) (targetOf v)

/-- ALBR (R286). -/
def execAlbr (f : Fields) (s : State) : Host.Outcome State Fault Refusal := issue s 0x45 f (albrBody f)

/-- The destination a DSTBIND descriptor names; none when it is malformed (R287). -/
def destOf (a : Nat) : Option (Option Dest) :=
  let target := bitsOf a 7 0
  if bitsOf a 31 10 ≠ 0 then none
  else match bitsOf a 9 8 with
    | 0 => if 240 ≤ target then none else some (some (.fabric target))
    | 1 => some (some (.group target))
    | 2 => some none
    | _ => none

/-- DSTBIND (R287): of two in one cycle that of the highest strand remains. -/
def dstbindBody (_f : Fields) (s : State) (v : Iss) : Except Stop State := do
  let (s, xa) ← srcA s v false
  let (s, xb) ← srcB s v false .b32 false
  consume xa 1
  consume xb 1
  let n := rdBits .b32 (xb.val 0)
  match destOf (rdBits .b32 (xa.val 0)) with
  | none => .error (stopIllegal v 4)
  | some d =>
      if 16 ≤ n then .error (stopIllegal v 5)
      else
        let old := dstOf (coreOf s v.c) n
        let slot : DstSlot :=
          { bind := d, credit := 4095, ceiling := 4095, since := s.now, epoch := old.epoch + 1, boundAt := s.now + 1, boundBy := v.sl }
        if old.boundAt = s.now + 1 ∧ v.sl < old.boundBy then .ok (advance s v)
        else .ok (advance (onCore s v fun k => { k with dst := mput k.dst n slot }) v)

/-- DSTBIND (R287). -/
def execDstbind (f : Fields) (s : State) : Host.Outcome State Fault Refusal := issue s 0x46 f (dstbindBody f)

/-! ### BAR (R288 to R290) -/

/-- A D that is finished later can be written: a PENDING register waits, a mailbox is one of the launch's (R100, R101). -/
def laterDest (s : State) (v : Iss) (d : Nat) : Except Stop Unit :=
  if d < 64 then (if (sget v.x d).st = .pending then .error (.wait .register) else .ok ())
  else if ((myResv s v).map fun r => r.mbox.getLsbD (d - 64)).getD false then .ok ()
  else .error (.trap 0x05 1)

/-- The expected count of an instance that is open for a launch within the issuer's scope instance. -/
def openExpect (s : State) (c n lcnt : Nat) (sc : Scope) : Option Nat :=
  (barPlaces s).findSome? fun (_, c', k) =>
    let b := barOf k n
    if inInstance sc c c' && b.isOpen && b.lcnt == lcnt && b.scope == sc then some b.expect else none

/-- The entry after an arrival (R288, R289). -/
def barArrive (s : State) (v : Iss) (f : Fields) (n expect : Nat) : BarEntry :=
  let b := barOf (coreOf s v.c) n
  let b := if b.isOpen && b.lcnt == v.x.lcnt then b
    else { b with arr := 0, term := termsOf s v.x.lcnt v.c, abt := false, wait := 0, arrived := 0, late := 0, ord := f.ord }
  { b with
      isOpen := true, bound := true, scope := f.scope, lcnt := v.x.lcnt, expect := expect,
      arr := if b.arrived.getLsbD v.sl then b.arr else b.arr + 1
      wait := b.wait ||| laneBit v.sl, arrived := b.arrived ||| laneBit v.sl }

/-- BAR (R288). An arrival with another scope than the open instance of its entry waits for that instance to close (log
entry 15). -/
def barBody (f : Fields) (s : State) (v : Iss) : Except Stop State := do
  let (s, xa) ← srcA s v false
  let (s, xb) ← srcB s v false .b32 false
  consume xa 1
  consume xb 1
  let n := rdBits .b32 (xb.val 0)
  let a := rdBits .b32 (xa.val 0)
  let b := barOf (coreOf s v.c) n
  if 16 ≤ n then .error (stopIllegal v 5)
  else if b.bound && b.lcnt != v.x.lcnt && (resvOf (coreOf s v.c) b.lcnt).isSome then .error (.wait .barrier)
  else if b.isOpen && b.lcnt == v.x.lcnt && b.scope != f.scope then .error (.wait .barrier)
  else if a = 0 || 6144 < a || ((openExpect s v.c n v.x.lcnt f.scope).getD a) != a then .error (stopIllegal v 4)
  else if ordRel f.ord && !fenceReady s v.c v.sl v.sp.smask false true f.scope then
    .error (holdStop s f.scope .barrier)
  else do
    laterDest s v f.d.toNat
    let s := putBar s v.c n (barArrive s v f n a)
    .ok (modSplit s v.c v.e fun p =>
      { p with parked := some (.barrier n f.d.toNat v.next), cls := some .barrier, held := v.sample })

/-- BAR (R288). -/
def execBar (f : Fields) (s : State) : Host.Outcome State Fault Refusal := issue s 0x47 f (barBody f)

/-! ### TRAP, YIELD, MARK, BRK (R291 to R295) -/

/-- TRAP (R291). -/
def execTrap (f : Fields) (s : State) : Host.Outcome State Fault Refusal :=
  issue s 0x4B f fun _ _ => .error (.trap 0x0F (f.imm16.zeroExtend 32))

/-- YIELD (R293). -/
def yieldBody (_f : Fields) (s : State) (v : Iss) : Except Stop State := do
  let (s, xb) ← srcB s v false .b32 false
  consume xb 1
  .ok (advance (modSplit s v.c v.e fun p => { p with yieldTo := s.now + 1 + bitsOf (xb.val 0).toNat 11 0 }) v)

/-- YIELD (R293). -/
def execYield (f : Fields) (s : State) : Host.Outcome State Fault Refusal := issue s 0x4D f (yieldBody f)

/-- The marker record of a MARK (R196). -/
def markRecord (s : State) (v : Iss) : State :=
  match mget s.ctxs v.x.ctx with
  | none => s
  | some k =>
      if k.markRecs && v.act != 0 then
        tracePut s v.x.ctx v.c v.sl 4 (pack [(128, 57, v.pc.toNat), (192, 8, v.sp.smask.toNat),
          (200, 8, bit v.x.handling.isSome), (208, 16, v.f.imm16.toNat), (224, 32, v.on.toNat)])
      else s

/-- MARK (R294). -/
def execMark (f : Fields) (s : State) : Host.Outcome State Fault Refusal :=
  issue s 0x4E f fun s v => .ok (advance (markRecord s v) v)

/-- A debugger holds a grant for a context (R197). -/
def granted (s : State) (ctx : Nat) : Bool := s.svc.grants.any fun g => g.2 == ctx

/-- The keys that hold a grant for a context (R200). -/
def grantKeys (s : State) (ctx : Nat) : List (BitVec 384) := (s.svc.grants.filter fun g => g.2 == ctx).map (·.1)

/-- BRK (R295). -/
def execBrk (f : Fields) (s : State) : Host.Outcome State Fault Refusal :=
  issue s 0x4F f fun s v =>
    if granted s v.x.ctx then .ok (haltStrand (advance s v) v.c v.sl 2 0 v.pc v.sp.smask (grantKeys s v.x.ctx))
    else .error (.trap 0x10 0)

end Sys2Proof.Machine
end

