-- ==== Sys2Proof/Machine/Translate.lean ====
section
/-! DEFINITION. Page tables, TLBs, the private window, the window table and the checks of an access (R110, R111,
R121 to R127, R304, R306). -/
namespace Sys2Proof.Machine

/-! ### Page-table entries (R121 to R124) -/

/-- The levels below the top: the lowest index bit, which is log2 of the leaf page, and the index width (R121). -/
def walkLevels : List (Nat × Nat) := [(46, 11), (34, 12), (30, 4), (21, 9), (16, 5)]

/-- The least power of two not below n, at least 4 KiB: the frame alignment F (R124). -/
def frameAlign (n : Nat) : Nat := max 4096 (2 ^ (if n ≤ 1 then 0 else Nat.log2 (n - 1) + 1))

/-- What an on-chip offset names. -/
inductive ChipSpot where
  | spad (a : Nat) | acc (i : Nat) | mbox (n : Nat) | queue (n : Nat) | vreg (slot r l : Nat) | sreg (slot r : Nat)
  | reserved
  deriving DecidableEq, Repr

/-- Core and structure of an on-chip physical address (R113). -/
def chipSpot (pa : Nat) : Nat × ChipSpot :=
  let x := pa - 2 ^ 47
  let c := x / 2 ^ 24
  let o := x % 2 ^ 24
  (c,
    if 192 ≤ c then .reserved
    else if o < 0x80000 then .spad o
    else if o < 0xC0000 then .acc ((o - 0x80000) / 4)
    else if o < 0xC0080 then .mbox ((o - 0xC0000) / 4)
    else if 0xC1000 ≤ o ∧ o < 0xC1020 then .queue ((o - 0xC1000) / 4)
    else if 0x100000 ≤ o ∧ o < 0x200000 then
      let n := (o - 0x100000) / 0x8000
      let r := (o - 0x100000) % 0x8000
      if r < 120 * 128 then .vreg n (r / 128) (r % 128 / 4)
      else if 0x4000 ≤ r ∧ r < 0x4100 then .sreg n ((r - 0x4000) / 4)
      else .reserved
    else .reserved)

/-- ADDR of a leaf names physical space that exists and is not reserved (R112, R113, R123; log entry 24). -/
def leafSpaceOk (loc pa : Nat) : Bool :=
  if loc = 3 then decide (2 ^ 47 ≤ pa) && (chipSpot pa).2 != .reserved else decide (pa / 2 ^ 40 = 0)

/-- A malformed leaf of a page of 2^bits bytes or elements (R123). -/
def leafBad (bits w0 w1 : Nat) : Bool :=
  let loc := leafLoc w0
  let fmt := leafFmt w1
  let blk := bitsOf w1 6 4
  let sp := bitsOf w1 8 7
  let pa := entryAddr w0
  let st := codeStorage (2 ^ bits) fmt sp
  bitsOf w0 15 10 != 0 || bitsOf w0 63 56 != 0 || bitOf w1 63 ||
  (bitOf w0 7 && (loc == 0 || loc == 3)) || bitsOf w0 9 8 == 3 || decide (13 ≤ fmt) ||
  (decide (fmt < 6) && (blk != 0 || sp != 0 || bitsOf w1 35 9 != 0 || bitsOf w1 62 36 != 0)) ||
  (decide (6 ≤ fmt) && blk == 7) || sp == 3 ||
  (if loc = 1 ∨ loc = 2 then pa != 0 else pa % frameAlign st != 0 || !leafSpaceOk loc pa)

/-- A malformed non-leaf entry whose next table has 2^n entries (R121, R123). -/
def tableBad (n w0 w1 : Nat) : Bool :=
  bitsOf w0 15 10 != 0 || bitsOf w0 63 56 != 0 || w1 != 0 || bitsOf w0 9 8 == 3 ||
  (bitOf w0 7 && (leafLoc w0 == 0 || leafLoc w0 == 3)) ||
  entryAddr w0 % 2 ^ (n + 4) != 0 || entryAddr w0 / 2 ^ 40 != 0

/-- Walk the tables from a base: the leaf, or DETAIL 0 or 1 of the translation fault (R121, R123, R174). A poisoned entry
is malformed (R188); its address comes with the error. -/
def walkFrom (s : State) (va : Nat) : List (Nat × Nat) → Bool → Nat → Except (Nat × Option Nat) (Nat × Nat × Nat)
  | [], _, _ => .error (1, none)
  | (lo, n) :: rest, top, base =>
      let at_ := base + 16 * bitsOf va (lo + n - 1) lo
      let w0 := leNat (peeks s.mem at_ 8)
      let w1 := leNat (peeks s.mem (at_ + 8) 8)
      if poisonedIn s at_ 16 then .error (1, some at_)
      else if !bitOf w0 0 then .error (0, none)
      else if bitOf w0 1 then (if top || leafBad lo w0 w1 then .error (1, none) else .ok (lo, w0, w1))
      else match rest with
        | [] => .error (1, none)
        | (_, m) :: _ => if tableBad m w0 w1 then .error (1, none) else walkFrom s va rest false (entryAddr w0)

/-- The leaf a walk of a context finds (R121). -/
def walk (s : State) (ctx va : Nat) : Except (Nat × Option Nat) Leaf :=
  match mget s.ctxs ctx with
  | none => .error (0, none)
  | some x =>
      match walkFrom s va walkLevels true (x.ptroot.toNat * 4096) with
      | .error d => .error d
      | .ok (lo, w0, w1) =>
          .ok { ctx := ctx, base := va / 2 ^ lo * 2 ^ lo, bits := lo, w0 := BitVec.ofNat 64 w0, w1 := BitVec.ofNat 64 w1 }

/-- A walk that met a poisoned entry leaves a record of KIND 11 with the entry's address (R188, R189; log entry 88). -/
def logWalk (s : State) (ctx core : Nat) (e : Nat × Option Nat) : State :=
  match e.2 with
  | none => s
  | some at_ => logError s { kind := 11, sev := 1, ctx := ctx, core := core, strand := 0, loc := at_, cycle := cycleOf s core, synd := 0 }

/-- A TLB entry covers an address (R126). -/
def leafCovers (ctx va : Nat) (l : Leaf) : Bool := l.ctx == ctx && va / 2 ^ l.bits * 2 ^ l.bits == l.base

/-- Look an address up: the core's TLB, the cluster's, then a walk, which fills both (R126; log entry 25). -/
def lookup (s : State) (c ctx va : Nat) : Except Nat Leaf × State :=
  match (coreOf s c).tlb.find? (leafCovers ctx va) with
  | some l => (.ok l, s)
  | none =>
      match (clusterAt s (clusterOf c)).tlb.find? (leafCovers ctx va) with
      | some l => (.ok l, modCore s c fun k => { k with tlb := (l :: k.tlb).take 32 })
      | none =>
          match walk s ctx va with
          | .error e => (.error e.1, logWalk s ctx c e)
          | .ok l =>
              (.ok l, modCluster (modCore s c fun k => { k with tlb := (l :: k.tlb).take 32 }) (clusterOf c)
                fun k => { k with tlb := (l :: k.tlb).take 4096 })

/-! ### The private window (R111) -/

def windowBase : Nat := 0x1FE000000000000
def inPrivate (va : Nat) : Bool := windowBase ≤ va && va < windowBase + 2 ^ 48

/-- The ordinary virtual address behind an address: none beyond the lane's size. -/
def backing (s : State) (ctx g l va : Nat) : Option Nat :=
  if !inPrivate va then some va
  else
    let (psz, pbase) := match mget s.ctxs ctx with
      | some x => (x.psz, x.pbase.toNat)
      | none => (0, 0)
    let size := 4096 * 2 ^ psz
    let x := va - windowBase
    if x < size then some (pbase * 2 ^ 34 + (32 * g + l) * size + x) else none

/-- An address lies in the backing region of a context's private windows (R111). -/
def inBacking (s : State) (ctx va : Nat) : Bool :=
  match mget s.ctxs ctx with
  | some x => x.pbase.toNat * 2 ^ 34 ≤ va && va < x.pbase.toNat * 2 ^ 34 + 196608 * (4096 * 2 ^ x.psz)
  | none => false

/-! ### Checks of an access (R304, R125, R306) -/

/-- What an access needs of its leaf (R125). -/
structure Need where
  rd : Bool
  wr : Bool
  /-- A read-modify-write. -/
  rmw : Bool
  /-- A copy-engine access. -/
  cpy : Bool
  /-- A token request, which a read-only window lets through (R29, R318). -/
  tok : Bool
  deriving DecidableEq, Repr

/-- The outcome of translating and checking an access. -/
inductive Found where
  | place (l : Leaf) (eva : Nat) (p : Place)
  | fault (code : Nat) (detail : Word)
  /-- The translation fault goes to the service (R177). -/
  | service (detail : Nat) (eva : Nat)
  deriving DecidableEq, Repr

/-- DETAIL of REMOTE (R34). -/
def remoteDetail (code target : Nat) : Word := BitVec.ofNat 32 (code + 256 * target)

/-- Where a leaf places an address, through the window table when it is remote (R30). -/
def placeOf (s : State) (c : Nat) (l : Leaf) (eva : Nat) : Except (Nat × Word) (Place × Bool) :=
  let w0 := l.w0.toNat
  match leafLoc w0 with
  | 0 => .ok (.dev (entryAddr w0 + (eva - l.base)) (bitsOf w0 9 8), false)
  | 3 => .ok (.chip (entryAddr w0 + (eva - l.base)), false)
  | _ =>
      match windowHit s c eva with
      | none => .error (0x0E, remoteDetail 0x12 0xFF)
      | some (_, w) =>
          let t := bitsOf w 15 8
          if !targetPresent s t then .error (0x0E, remoteDetail 0x12 t)
          else .ok (.fab (windowAddr w eva) (bitOf w0 7), bitOf w 91)

/-- Permissions of R125; the RO bit of a window is for writes alone (R29). -/
def permError (n : Need) (l : Leaf) (ro : Bool) : Option (Nat × Word) :=
  let w0 := l.w0.toNat
  if (n.rd && !bitOf w0 2) || (n.wr && !bitOf w0 3) then some (0x05, 3)
  else if n.wr && ro && !n.tok then some (0x05, 4)
  else if leafLoc w0 == 3 && !n.cpy then some (0x05, 3)
  else none

/-- Translate an address of a lane and check it up to the permissions (R304, points 1 to 4). -/
def findPlace (s : State) (c sl ctx l : Nat) (va : DWord) (n : Need) : Found × State :=
  if va.extractLsb' 57 7 != 0 then (.fault 0x04 2, s)
  else
    match backing s ctx (gidOf c sl) l va.toNat with
    | none => (.fault 0x05 7, s)
    | some eva =>
        let (r, s) := lookup s c ctx eva
        match r with
        | .error d => (.service d eva, s)
        | .ok lf =>
            match placeOf s c lf eva with
            | .error (code, d) => (.fault code d, s)
            | .ok (p, ro) =>
                match permError n lf ro with
                | some (code, d) => (.fault code d, s)
                | none => (.place lf eva p, s)

/-- Whether a load or store is .raw, .rawexp (R303). -/
def isRaw (f : Fields) : Bool := f.md.getLsbD 0
def isRawExp (f : Fields) : Bool := f.md.getLsbD 1

/-- FORMAT conditions of an access to a formatted page, and of .raw and .rawexp on a plain one (R306). -/
def formatBad (o : Op) (l : Leaf) (eva : Nat) : Bool :=
  let fmt := leafFmt l.w1.toNat
  let plain := o.kind == .load || o.kind == .store
  let raw := plain && isRaw o.fields
  let rawexp := plain && isRawExp o.fields
  if fmt = 0 then raw || rawexp
  else if leafLoc l.w0.toNat = 1 ∨ leafLoc l.w0.toNat = 2 then true
  else if o.kind == .tkacq || o.kind == .tkrel then false
  else if !plain then true
  else if rawexp then decide (fmt < 6)
  else if raw then
    decide (6 ≤ fmt) && spKept (bitsOf l.w1.toNat 8 7) != 0 &&
      decide (2 ^ l.bits * spKept (bitsOf l.w1.toNat 8 7) / 8 ≤ eva - l.base)
  else o.fields.ty != .f32

/-- What the accesses of an operation need (R125, R318, R319). -/
def needOf (o : Op) : Need :=
  match o.kind with
  | .load => { rd := true, wr := false, rmw := false, cpy := false, tok := false }
  | .store => { rd := false, wr := true, rmw := false, cpy := false, tok := false }
  | .atom | .cas | .cell => { rd := true, wr := true, rmw := true, cpy := false, tok := false }
  | .tkacq => { rd := true, wr := o.fields.fn == 1, rmw := false, cpy := false, tok := true }
  | _ => { rd := true, wr := false, rmw := false, cpy := false, tok := false }

/-- Translate and check one access of an operation (R304, R306): it becomes ready after a free latency, faulted, or waits
at the service. -/
def translateAcc (s : State) (o : Op) (a : Access) : Access × State :=
  let l := primaryOf (((strandAt s o.core o.slot).map (·.dmr)).getD false) (lowLane a.lanes)
  let walked := a.walked || match backing s o.ctx (gidOf o.core o.slot) l a.va.toNat with
    | some eva => !(coreOf s o.core).tlb.any (leafCovers o.ctx eva)
    | none => false
  let a := { a with walked := walked }
  let (r, s) := findPlace s o.core o.slot o.ctx l a.va (needOf o)
  match r with
  | .fault code d => ({ a with st := .faulted code d a.va s.now }, s)
  | .service d eva => ({ a with eva := eva, st := .atService s.now d, svc := true }, s)
  | .place lf eva p =>
      let fmt := leafFmt lf.w1.toNat
      let size := accBytes o
      if formatBad o lf eva then ({ a with eva := eva, st := .faulted 0x06 (BitVec.ofNat 32 (eva - lf.base)) a.va s.now }, s)
      else if fmt = 0 && a.va.toNat % size != 0 then
        ({ a with eva := eva, st := .faulted 0x03 (BitVec.ofNat 32 size) a.va s.now }, s)
      else
        let (due, s) := takeDue s
        ({ a with eva := eva, place := some p, leaf := if fmt = 0 then none else some lf, st := .ready due }, s)

/-- Translate every access of an operation that is not yet translated or is to be repeated. -/
def translateAll (s : State) (o : Op) (again : Access → Bool) : List Access × State :=
  o.accs.foldl (fun (acc : List Access × State) a =>
    if again a then
      let (a', s) := translateAcc acc.2 o a
      (acc.1 ++ [a'], s)
    else (acc.1 ++ [a], acc.2)) ([], s)

end Sys2Proof.Machine
end

