-- ==== Sys2Proof/Machine/Formatted.lean ====
section
/-! DEFINITION. Formatted storage: element codes, exponents and metadata of R124, read and written under R155 to R157. -/
namespace Sys2Proof.Machine

/-- Where formatted elements lie: format, block and sparsity codes, frame and planes as byte addresses (R122, R124). -/
structure Geo where
  fmt : Nat
  blk : Nat
  sp : Nat
  frame : Nat
  expo : Nat
  meta_ : Nat
  /-- Elements of the page. -/
  size : Nat
  deriving DecidableEq, Repr

/-- The geometry of a leaf (R122). -/
def leafGeo (l : Leaf) : Geo :=
  let w1 := l.w1.toNat
  { fmt := leafFmt w1, blk := bitsOf w1 6 4, sp := bitsOf w1 8 7, frame := entryAddr l.w0.toNat,
    expo := bitsOf w1 35 9 * 8192, meta_ := bitsOf w1 62 36 * 8192, size := 2 ^ l.bits }

/-- The scalar format of a code (R122). -/
def geoFmt (fmt : Nat) : Fmt :=
  match fmt with
  | 2 => fmtF16 | 3 => fmtBf16 | 4 => fmtE4m3 | 5 => fmtE5m2 | _ => fmtF32

/-- Width of a BFP code (R122). -/
def geoW (g : Geo) : Nat := g.fmt - 4
/-- Block length. -/
def geoL (g : Geo) : Nat := blkLen g.blk
/-- Kept elements of a group, 0 for dense. -/
def geoN (g : Geo) : Nat := spKept g.sp
/-- Bytes of a scalar code (R124). -/
def geoBytes (g : Geo) : Nat := fmtBytes g.fmt

/-- w bits of a plane, bit k being bit k mod 8 of byte k / 8 (R124). -/
def planeBits (rd : Nat → Byte) (base k w : Nat) : Nat :=
  (((rd (base + k / 8)).toNat + 256 * (rd (base + k / 8 + 1)).toNat) / 2 ^ (k % 8)) % 2 ^ w

/-- One write of w bits into a plane. -/
structure PlaneWrite where
  base : Nat
  k : Nat
  w : Nat
  val : Nat
  deriving DecidableEq, Repr

/-- Replace bits of one byte. -/
def setBits (b : Byte) (lo w v : Nat) : Byte :=
  let old := b.toNat
  BitVec.ofNat 8 (old - old / 2 ^ lo % 2 ^ w * 2 ^ lo + v % 2 ^ w * 2 ^ lo)

/-- Write bits of a plane that lie within two bytes. -/
def pokeBits (m : List Host.Cell) (p : PlaneWrite) : List Host.Cell :=
  let at_ := p.base + p.k / 8
  let lo := p.k % 8
  let first := min p.w (8 - lo)
  let m := poke m at_ (setBits (peek m at_) lo first p.val)
  if p.w ≤ first then m
  else poke m (at_ + 1) (setBits (peek m (at_ + 1)) 0 (p.w - first) (p.val / 2 ^ first))

def pokePlanes (m : List Host.Cell) (ps : List PlaneWrite) : List Host.Cell := ps.foldl pokeBits m

/-- The positions of a sparse group (R124). -/
def groupPos (rd : Nat → Byte) (g : Geo) (grp : Nat) : List Nat :=
  (List.range (geoN g)).map fun i => planeBits rd g.meta_ (3 * (geoN g * grp + i)) 3

/-- Strictly ascending. -/
def ascends : List Nat → Bool
  | a :: b :: r => a < b && ascends (b :: r)
  | _ => true

/-- The code of an element and its exponent byte (R124, R157): a position no slot names has code 0; none for a group whose
positions are not ascending. -/
def elemCode (rd : Nat → Byte) (g : Geo) (e : Nat) : Option (Nat × Nat) :=
  let ex := (rd (g.expo + e / geoL g)).toNat
  if geoN g = 0 then some (planeBits rd g.frame (e * geoW g) (geoW g), ex)
  else
    let pos := groupPos rd g (e / 8)
    if !ascends pos then none
    else match pos.zipIdx.find? fun p => p.1 == e % 8 with
      | some (_, i) => some (planeBits rd g.frame ((geoN g * (e / 8) + i) * geoW g) (geoW g), ex)
      | none => some (0, ex)

/-- An element decoded to FP32 (R155, R306). -/
def elemDecode (rd : Nat → Byte) (g : Geo) (e : Nat) : Option Nat :=
  if g.fmt < 6 then
    let code := leNat ((List.range (geoBytes g)).map fun i => rd (g.frame + e * geoBytes g + i))
    some (if g.fmt = 1 then code else (fConvert (geoFmt g.fmt) fmtF32 .ne false code).1)
  else (elemCode rd g e).map fun p => bfpDecode (geoW g) p.2 (signedOf (geoW g) p.1)

/-- An FP32 value encoded into a scalar format, with the flags of a conversion: a NaN becomes the canonical one (R274, R306). -/
def scalarCode (fmt : Nat) (rm : Round) (sat8 : Bool) (x : Nat) : Nat × FpFlags := fConvert fmtF32 (geoFmt fmt) rm sat8 x

/-- A value that takes a slot of a sparse group: not ±0 (R157). -/
def takesSlot (x : Nat) : Bool := x % 2 ^ 31 != 0

/-- The ascending positions a group keeps (R157). -/
def keptPositions (n : Nat) (xs : List Nat) : List Nat :=
  let full := (xs.zipIdx.filter fun p => takesSlot p.1).map (·.2)
  let free := (xs.zipIdx.filter fun p => !takesSlot p.1).map (·.2)
  sortBy id (full ++ free.take (n - full.length))

/-- The plane writes of one whole block and its flags (R156, R157). -/
def blockWrites (g : Geo) (blk : Nat) (xs : List Nat) : List PlaneWrite × FpFlags :=
  let w := geoW g
  let n := geoN g
  let (ex, codes, fl) := encodeBlock w (xs.map (fdec fmtF32))
  let expW : PlaneWrite := { base := g.expo + blk, k := 0, w := 8, val := ex }
  let code (i : Nat) : Nat := wrapOf w ((codes[i]?).getD 0)
  let first := blk * geoL g
  if n = 0 then
    (expW :: (List.range xs.length).map fun i => { base := g.frame, k := (first + i) * w, w := w, val := code i }, fl)
  else
    let groups := (List.range (xs.length / 8)).flatMap fun q =>
      let kept := keptPositions n ((xs.drop (8 * q)).take 8)
      let j0 := n * (first / 8 + q)
      kept.zipIdx.flatMap fun (p, i) =>
        ([{ base := g.frame, k := (j0 + i) * w, w := w, val := code (8 * q + p) },
          { base := g.meta_, k := 3 * (j0 + i), w := 3, val := p }] : List PlaneWrite)
    (expW :: groups, fl)

/-- The first element of a set of whole blocks that is uncovered, named twice, or in an over-full group (R307). -/
def blockFault (g : Geo) (items : List (Nat × Nat)) : Option Nat :=
  let blocks := (items.map fun p => p.1 / geoL g).eraseDups
  let bad := blocks.flatMap fun b =>
    let es := (List.range (geoL g)).map (· + b * geoL g)
    let count := (es.filter fun e => (items.filter fun p => p.1 == e).length != 1)
    let tooMany := if geoN g = 0 then [] else
      ((List.range (geoL g / 8)).map fun q => b * geoL g + 8 * q).filter fun e0 =>
        geoN g < (items.filter fun p => e0 ≤ p.1 && p.1 < e0 + 8 && takesSlot p.2).length
    count ++ tooMany
  leastBy id bad

end Sys2Proof.Machine
end

