-- ==== Sys2Proof/Machine/Atomic.lean ====
section
/-! DEFINITION. The read-modify-writes of R310 to R314 on the bytes of a location. -/
namespace Sys2Proof.Machine

/-- The new value of an ATOM (R310). -/
def atomNew (fn : Nat) (t : Ty) (old b : Nat) : Nat :=
  let w := tyWidth t
  let rd (x : Nat) : Int := if tySigned t then signedOf w x else ((x % 2 ^ w : Nat) : Int)
  match fn with
  | 0 => (old + b) % 2 ^ w
  | 1 => if rd old ≤ rd b then old else b % 2 ^ w
  | 2 => if rd old ≤ rd b then b % 2 ^ w else old
  | 3 => old &&& (b % 2 ^ w)
  | 4 => old ||| (b % 2 ^ w)
  | 5 => old ^^^ (b % 2 ^ w)
  | _ => b % 2 ^ w

/-- What a read-modify-write does: the bytes it writes, if any, the value it returns, the flags it raises. -/
structure RmwResult where
  write : Option (List Byte)
  value : DWord
  flags : FpFlags
  deriving DecidableEq, Repr

/-- ATOM on the bytes of its location (R310). -/
def rmwAtom (fn : Nat) (t : Ty) (b : DWord) (bs : List Byte) : RmwResult :=
  let old := leNat bs
  { write := some (leBytes bs.length (atomNew fn t old b.toNat)), value := BitVec.ofNat 64 old, flags := 0 }

/-- CAS (R311). -/
def rmwCas (t : Ty) (expected new : DWord) (bs : List Byte) : RmwResult :=
  let old := leNat bs
  { write := if old = expected.toNat % 2 ^ tyWidth t then some (leBytes bs.length new.toNat) else none,
    value := BitVec.ofNat 64 old, flags := 0 }

/-- CELLADD of an FP32 value (R313). -/
def rmwCellAdd (x : Nat) (bs : List Byte) : RmwResult :=
  let (c, fl) := cellAddX (cellOf (leNat bs)) (fdec fmtF32 x)
  { write := some (leBytes 16 (cellBits c)), value := 0, flags := fl }

/-- CELLOP.init (R314). -/
def rmwCellInit (e : Nat) : RmwResult :=
  { write := some (leBytes 16 (cellBits { body := 0, ovf := false, inv := false, e := e })), value := 0, flags := 0 }

/-- CELLOP.read and .readz (R314). -/
def rmwCellRead (zero : Bool) (bs : List Byte) : RmwResult :=
  let c := cellOf (leNat bs)
  let (r, fl) := cellReadX c
  { write := if zero then some (leBytes 16 (cellBits { body := 0, ovf := false, inv := false, e := c.e })) else none,
    value := BitVec.ofNat 64 r, flags := fl }

/-- The request an access of a read-modify-write makes at a remote home (R308, R313). -/
def rmwKind (o : Op) (a : Access) : FabKind :=
  match o.kind with
  | .atom => .atom o.fields.fn.toNat o.fields.ty a.data
  | .cas => .cas o.fields.ty a.data a.data2
  | _ =>
      if o.fields.fn = 1 then .cellRead false
      else if o.fields.fn = 2 then .cellRead true
      else if a.data2 = 1 then .cellAdd (a.data.truncate 32)
      else .cellInit (a.data.truncate 8)

/-- What a request kind does to the bytes of its location. -/
def rmwOf (k : FabKind) (bs : List Byte) : RmwResult :=
  match k with
  | .atom fn t b => rmwAtom fn t b bs
  | .cas t x y => rmwCas t x y bs
  | .cellAdd x => rmwCellAdd x.toNat bs
  | .cellInit e => rmwCellInit e.toNat
  | .cellRead z => rmwCellRead z bs
  | _ => { write := none, value := 0, flags := 0 }

/-- Bytes of the location of a request kind. -/
def rmwBytes (k : FabKind) : Nat :=
  match k with
  | .atom _ t _ | .cas t _ _ => tyWidth t / 8
  | .cellAdd _ | .cellInit _ | .cellRead _ => 16
  | .read n => n
  | .write bs => bs.length
  | _ => 0

end Sys2Proof.Machine
end

