-- ==== Sys2Proof/Machine/Perform.lean ====
section
/-! DEFINITION. Performing the accesses of an operation: at the caches and the home, under a token, on formatted pages, and
as fabric requests; and what their replies do (R118, R132, R133, R305 to R308, R361). -/
namespace Sys2Proof.Machine

/-! ### Values -/

/-- The value a load of bytes gives D (R305). -/
def loadValue (t : Ty) (bs : List Byte) : DWord :=
  if tyIsInt t then wrBits t (leNat bs) else BitVec.ofNat 64 (leNat bs)

/-- A value arrives in the destination of a long-latency producer: FULL, or FULL and poisoned (R100, R188). -/
def putValue (s : State) (o : Op) (lanes : Word) (val : DWord) (poison : Bool) : State :=
  modStrandAny s o.ctx o.core o.slot fun x => (destRegs o).zipIdx.foldl (fun x (r, i) =>
    let c : RegCell := { val := val.extractLsb' (32 * i) 32, st := .full, poison := poison }
    if o.fields.strand then sset x r c else (lanesOf lanes).foldl (fun x l => vset x r l c) x) x

/-- The same for an access whose value is the newest: an acquire orders what the strand reads later (R135; log entry 57). -/
def giveValue (s : State) (o : Op) (lanes : Word) (val : DWord) (poison : Bool) : State :=
  let s := putValue s o lanes val poison
  if o.acq then raiseView s o.core o.slot else s

/-- Change one access. -/
def modAcc (s : State) (id i : Nat) (g : Access → Access) : State :=
  modOp s id fun o => { o with accs := o.accs.zipIdx.map fun (a, j) => if j = i then g a else a }

/-- An access has settled. -/
def settleAcc (s : State) (id i : Nat) : State := modAcc s id i fun a => { a with st := .settled }

/-- An access faults by itself. -/
def faultAcc (s : State) (id i code : Nat) (detail : Word) : State :=
  modAcc s id i fun a => { a with st := .faulted code detail a.va s.now }

/-! ### Which way an access goes -/

/-- Where an access is performed: at the caches and the home of this device, in the cache under a token, after fetching its
line there, or at its remote home. -/
inductive Way where
  | home (pa cattr : Nat)
  | cache (addr : Nat)
  | fill (addr : Nat)
  | remote (addr : Nat)
  | nowhere
  deriving DecidableEq, Repr

/-- The way of a translated access (R308). -/
def wayOf (s : State) (o : Op) (a : Access) : Way :=
  match a.place with
  | some (.dev pa k) => .home pa k
  | some (.fab addr tkc) =>
      if tkc && tokenServes s (addr / 2 ^ 21) (o.kind != .load) then
        (if o.kind == .store || cachedAll s addr (accBytes o) then .cache addr else .fill addr)
      else .remote addr
  | _ => .nowhere

/-! ### Plain accesses of this device -/

/-- Bytes of a location as a load of the strand sees them at a point of the past writes: the cluster's then, with the strand's own
older stores that are not yet performed (R132, R134, R137). -/
def seenBytes (s : State) (o : Op) (t pa : Nat) : List Byte :=
  let n := accBytes o
  (orderedOps s o).foldl (fun bs p => p.accs.foldl (fun bs b =>
    if forwardable o p b then
      let at_ := (devPlace b).getD 0
      bs.zipIdx.map fun (x, i) =>
        if at_ ≤ pa + i && pa + i < at_ + accBytes p then ((leBytes (accBytes p) b.data.toNat)[pa + i - at_]?).getD x else x
    else bs) bs) ((List.range n).map fun i => viewByte s (clusterOf o.core) t (pa + i))

/-- The strand has read or written the 8-byte words of some bytes at a point of the past writes (R132). -/
def noteSeen (s : State) (o : Op) (pa n t : Nat) : State :=
  modView s (gidOf o.core o.slot) fun w =>
    { w with seen := (List.range (ceilDiv (pa % 8 + n) 8)).foldl (fun m i => mput m (pa / 8 + i) t) w.seen }

/-- The oldest point that a read of the strand may return (R132, R137). -/
def oldestView (s : State) (o : Op) (pa : Nat) : Nat :=
  let w := viewAt s (gidOf o.core o.slot)
  max w.floor (mgetD w.seen (pa / 8) 0)

/-- The point at which a load reads: the newest for .sc, any of those allowed for the others (R137, R138; log entry 57). -/
def loadPoint (s : State) (o : Op) (i pa : Nat) : Nat :=
  let last := s.past.length
  if o.sc || last ≤ oldestView s o pa then last
  else oldestView s o pa + Config.rank (s.fresh - 1) i % (last - oldestView s o pa + 1)

/-- An acquire that has read a write which synchronises orders what the strand reads later after that point (R135). -/
def acquireAt (s : State) (o : Op) (t pa : Nat) : State :=
  if o.acq && !plainThen s (clusterOf o.core) t pa then
    modView s (gidOf o.core o.slot) fun w => { w with floor := max w.floor t }
  else s

/-- A load of plain memory. -/
def performLoad (s : State) (o : Op) (i : Nat) (a : Access) (pa : Nat) : State :=
  let t := loadPoint s o i pa
  let s := putValue s o a.lanes (loadValue o.fields.ty (seenBytes s o t pa)) (poisonedIn s pa (accBytes o))
  settleAcc (acquireAt (noteSeen s o pa (accBytes o) t) o t pa) o.id i

/-- A relaxed store that no release fence of its strand precedes (R135, R139). -/
def plainStore (s : State) (o : Op) : Bool := o.gate != .release && !(viewAt s (gidOf o.core o.slot)).fenced

/-- The cache of a cluster accepts a store (R118, R133). -/
def clusterStore (s : State) (o : Op) (pa : Nat) (bs : List Byte) : State :=
  let cl := clusterOf o.core
  let (due, s) := takeDue s
  let w : PastWrite :=
    { cluster := some cl, apart := [], pa := pa, old := localBytes s cl pa bs.length, plain := plainStore s o }
  let e : ClStore := { pa := pa, bytes := bs, gid := gidOf o.core o.slot, due := due, plain := plainStore s o, passed := false }
  modCluster { s with past := s.past ++ [w] } cl fun k => { k with stores := k.stores ++ [e] }

/-- A store to plain memory (R118, R133): the cluster accepts it, or, with CATTR 1 or 2, the home. -/
def performStore (s : State) (o : Op) (i : Nat) (a : Access) (pa cattr : Nat) : State :=
  let bs := leBytes (accBytes o) a.data.toNat
  let s := if cattr = 0 then clusterStore s o pa bs else homeStore s pa bs (plainStore s o)
  settleAcc (noteSeen s o pa bs.length s.past.length) o.id i

/-- A read-modify-write at the home die cache (R118, R310 to R314). Reading a poisoned line consumes it (R188; log entry
26). -/
def performRmw (s : State) (o : Op) (i : Nat) (a : Access) (pa : Nat) : State :=
  let n := accBytes o
  if poisonedIn s pa n then faultAcc (terminate s o.core o.slot 0x80) o.id i 0x80 0
  else
    let s := flushLines s pa n
    let r := rmwOf (rmwKind o a) (peeks s.mem pa n)
    let s := match r.write with
      | some bs => homeWrite s pa bs
      | none => s
    let s := noteSeen s o pa n s.past.length
    settleAcc (orFlags (giveValue s o a.lanes r.value false) o.ctx o.core o.slot r.flags) o.id i

/-! ### Accesses under a token (R40, R147, R308) -/

/-- An access that the token serves; a poisoned line is carried or consumed as one of this device is (R188). -/
def performCached (s : State) (o : Op) (i : Nat) (a : Access) (addr : Nat) : State :=
  let n := accBytes o
  let poison := s.fab.cachedPoison.contains (addr / 128)
  if poison && o.kind != .load && o.kind != .store then faultAcc (terminate s o.core o.slot 0x80) o.id i 0x80 0
  else
  let s := match o.kind with
    | .load => giveValue s o a.lanes (loadValue o.fields.ty (cachedBytes s addr n)) poison
    | .store => cacheWrite s addr (leBytes n a.data.toNat)
    | _ =>
        let r := rmwOf (rmwKind o a) (cachedBytes s addr n)
        let s := match r.write with
          | some bs => cacheWrite s addr bs
          | none => s
        orFlags (giveValue s o a.lanes r.value false) o.ctx o.core o.slot r.flags
  settleAcc s o.id i

/-! ### Formatted pages (R306, R307) -/

/-- Byte addresses that hold what an element access reads: codes, exponent, positions. -/
def elemSpots (g : Geo) (raw rawexp : Bool) (e : Nat) : List Nat :=
  if rawexp then [g.expo + e / geoL g]
  else if g.fmt < 6 then (List.range (geoBytes g)).map (g.frame + e * geoBytes g + ·)
  else
    let k := if geoN g = 0 then e * geoW g else if raw then e * geoW g else geoN g * (e / 8) * geoW g
    let m := if raw then 3 * e else 3 * geoN g * (e / 8)
    [g.frame + k / 8, g.frame + k / 8 + 1] ++ (if geoN g = 0 then [] else [g.meta_ + m / 8, g.meta_ + m / 8 + 1]) ++
      (if raw then [] else [g.expo + e / geoL g])

/-- A load of a formatted page (R306); a group whose positions do not ascend faults FORMAT (R157). -/
def loadFormatted (s : State) (o : Op) (i : Nat) (a : Access) (l : Leaf) : State :=
  let g := leafGeo l
  let e := a.eva - l.base
  let rd (pa : Nat) : Byte := localByte s (clusterOf o.core) pa
  let raw := isRaw o.fields
  let rawexp := isRawExp o.fields
  let poison := (elemSpots g raw rawexp e).any fun pa => linePoisoned s (pa / 128)
  let val : Option Nat :=
    if rawexp then some (rd (g.expo + e / geoL g)).toNat
    else if raw then
      (if g.fmt < 6 then some (leNat ((List.range (geoBytes g)).map fun j => rd (g.frame + e * geoBytes g + j)))
       else if geoN g = 0 then some (planeBits rd g.frame (e * geoW g) (geoW g))
       else some (planeBits rd g.frame (e * geoW g) (geoW g) + planeBits rd g.meta_ (3 * e) 3 * 2 ^ 16))
    else elemDecode rd g e
  match val with
  | none => faultAcc s o.id i 0x06 (BitVec.ofNat 32 e)
  | some x => settleAcc (raiseView (giveValue s o a.lanes (BitVec.ofNat 64 x) poison) o.core o.slot) o.id i

/-- The lines of some plane writes are written at the home die cache. -/
def planesWrite (s : State) (ps : List PlaneWrite) : State :=
  let s := ps.foldl (fun s p => flushLines s (p.base + p.k / 8) 2) s
  { s with mem := pokePlanes s.mem ps }

/-- A store to a formatted page other than a whole block (R306). -/
def storeFormatted (s : State) (o : Op) (i : Nat) (a : Access) (l : Leaf) : State :=
  let g := leafGeo l
  let e := a.eva - l.base
  let x := a.data.toNat
  let byteAt (pa v : Nat) : PlaneWrite := { base := pa, k := 0, w := 8, val := v }
  let bytesAt (v : Nat) : List PlaneWrite :=
    (leBytes (geoBytes g) v).zipIdx.map fun (b, j) => byteAt (g.frame + e * geoBytes g + j) b.toNat
  let (ps, fl) : List PlaneWrite × FpFlags :=
    if isRawExp o.fields then ([byteAt (g.expo + e / geoL g) x], 0)
    else if isRaw o.fields then
      (if g.fmt < 6 then (bytesAt x, 0)
       else if geoN g = 0 then ([{ base := g.frame, k := e * geoW g, w := geoW g, val := x }], 0)
       else ([{ base := g.frame, k := e * geoW g, w := geoW g, val := x },
              { base := g.meta_, k := 3 * e, w := 3, val := x / 2 ^ 16 }], 0))
    else
      let (c, fl) := scalarCode g.fmt (roundOf (o.fpmode.extractLsb' 0 2).toNat) (o.fpmode.getLsbD 2) (x % 2 ^ 32)
      (bytesAt c, fl)
  settleAcc (orFlags (planesWrite s ps) o.ctx o.core o.slot fl) o.id i

/-- An access that is part of a whole-block store (R307). -/
def isBlockStore (o : Op) (a : Access) : Bool :=
  o.kind == .store && !isRaw o.fields && !isRawExp o.fields &&
  (match a.leaf with | some l => decide (6 ≤ leafFmt l.w1.toNat) | none => false)

/-- The block of an access to a BFP page. -/
def blockOf (a : Access) : Option (Leaf × Nat) :=
  a.leaf.map fun l => (l, (a.eva - l.base) / geoL (leafGeo l))

/-- The whole blocks among some accesses are encoded and written, each at once (R156, R157, R307). -/
def storeBlocks (s : State) (o : Op) (accs : List (Access × Nat)) : State :=
  ((accs.filterMap fun p => blockOf p.1).eraseDups).foldl (fun s (l, b) =>
    let g := leafGeo l
    let mine := accs.filter fun p => blockOf p.1 == some (l, b)
    let xs := (List.range (geoL g)).map fun j =>
      ((mine.find? fun p => p.1.eva - l.base == b * geoL g + j).map fun p => p.1.data.toNat % 2 ^ 32).getD 0
    let (ps, fl) := blockWrites g b xs
    let s := orFlags (planesWrite s ps) o.ctx o.core o.slot fl
    mine.foldl (fun s p => settleAcc s o.id p.2) s) s

/-- The blocks that a store names are whole; otherwise every access of it that has not faulted faults FORMAT (R307).
It is checked once every lane is translated. -/
def checkBlocks (s : State) (id : Nat) : State :=
  match opById s id with
  | none => s
  | some o =>
      if awaitsBlocks o || o.discarded then s
      else
        let accs := (o.accs.zipIdx.filter fun p => accReady p.1 && isBlockStore o p.1)
        let leaves := (accs.filterMap fun p => p.1.leaf).eraseDups
        let bad := leaves.filterMap fun l => blockFault (leafGeo l) ((accs.filter fun p => p.1.leaf == some l).map fun p =>
          (p.1.eva - l.base, p.1.data.toNat % 2 ^ 32))
        match leastBy (fun n => n) bad with
        | none => s
        | some e => faultAccs s id ((o.accs.zipIdx.filter fun p => accReady p.1).map (·.2)) 0x06 (BitVec.ofNat 32 e)

/-! ### Requests to remote homes (R32, R33, R361) -/

/-- What a remote access asks for. -/
def reqKind (o : Op) (a : Access) : FabKind :=
  match o.kind with
  | .load => .read (accBytes o)
  | .store => .write (leBytes (accBytes o) a.data.toNat)
  | _ => rmwKind o a

/-- Send accesses to their remote home: those of one line in one request (R361); a fetch under a token asks for the line. -/
def sendRemote (s : State) (o : Op) (accs : List (Access × Nat)) (fill : Bool) : State :=
  let addr (p : Access × Nat) : Nat := match p.1.place with
    | some (.fab x _) => x
    | _ => 0
  ((accs.map fun p => (addr p / 128, channelOf o p.1)).eraseDups).foldl (fun s (line, ch) =>
    let mine := accs.filter fun p => addr p / 128 == line && channelOf o p.1 == ch
    let parts := if fill then [(line * 128, FabKind.read 128)] else mine.map fun p => (addr p, reqKind o p.1)
    let (r, s) := newReq s o.core parts (.accesses o.id (mine.map (·.2))) ch
    mine.foldl (fun s p => modAcc s o.id p.2 fun a => { a with st := .sent r }) s) s

/-! ### One step of an operation -/

/-- Its latency has passed. -/
def accDue (s : State) (a : Access) : Bool :=
  match a.st with
  | .ready due => decide (due ≤ s.now)
  | _ => false

/-- The remote line of an access, with its channel (R361). -/
def farLine (o : Op) (a : Access) : Option (Nat × Option Nat) :=
  match a.place with
  | some (.fab x _) => some (x / 128, channelOf o a)
  | _ => none

/-- Two accesses of an operation are performed at once: those of one whole block (R307), those of one remote line (R361). -/
def together (o : Op) (a b : Access) : Bool :=
  (isBlockStore o a && isBlockStore o b && blockOf a == blockOf b) ||
  (accHeld b && (farLine o a).isSome && farLine o a == farLine o b)

/-- The accesses of an operation that are performed now. -/
def readyAccs (s : State) (o : Op) : List (Access × Nat) :=
  let go := o.accs.zipIdx.filter fun p => accDue s p.1 && performable s o p.1
  go.filter fun p => o.accs.zipIdx.all fun q => !together o p.1 q.1 || go.any fun r => r.2 == q.2

/-- Perform one access that needs no request. -/
def performOne (s : State) (id : Nat) (p : Access × Nat) : State :=
  match opById s id with
  | none => s
  | some o =>
      let (a, i) := p
      match wayOf s o a with
      | .home pa k =>
          (match a.leaf with
           | some l => if o.kind == .load then loadFormatted s o i a l else storeFormatted s o i a l
           | none => match o.kind with
               | .load => performLoad s o i a pa
               | .store => performStore s o i a pa k
               | _ => performRmw s o i a pa)
      | .cache addr => performCached s o i a addr
      | _ => s

/-- Lanes of an operation whose accesses have settled. -/
def settledLanes (o : Op) : Word :=
  o.accs.foldl (fun m a => if a.st == .settled then m ||| a.lanes else m) 0

/-- Accesses of an operation that have faulted. -/
def faultCount (s : State) (id : Nat) : Nat :=
  match opById s id with
  | none => 0
  | some o => (o.accs.filter fun a => (accFault a).isSome).length

/-- Accesses of an operation are performed, in an order the spec leaves open (R128, R312; log entry 11). -/
def performOp (s : State) (id : Nat) : State :=
  match opById s id with
  | none => s
  | some o =>
      let go := sortBy (fun p => Config.rank s.fresh p.2) (readyAccs s o)
      let faults := faultCount s id
      let s := { s with fresh := s.fresh + 2 }
      let is (f : Way → Bool) := go.filter fun p => f (wayOf s o p.1)
      let far := is fun w => match w with | .remote _ => true | _ => false
      let fills := is fun w => match w with | .fill _ => true | _ => false
      let s := storeBlocks s o (go.filter fun p => isBlockStore o p.1)
      let s := (go.filter fun p => !isBlockStore o p.1).foldl (fun s p => performOne s id p) s
      let s := sendRemote (sendRemote s o far false) o fills true
      let s := match opById s id with
        | none => s
        | some o' => settleLanes s id (settledLanes o' &&& ~~~o.settled)
      pump (if faultCount s id = faults then s else afterFault s id)

/-! ### Replies (R34, R308) -/

/-- Bytes that the reply to one part carries: the value, and for a wide-cell operation one byte of flags (log entry 27). -/
def replySize (k : FabKind) : Nat :=
  match k with
  | .read n => n
  | .atom _ t _ | .cas t _ _ => tyWidth t / 8
  | .cellAdd _ | .cellInit _ => 1
  | .cellRead _ => 5
  | _ => 0

/-- The value and the flags in the reply to one part. -/
def replyValue (o : Op) (k : FabKind) (bs : List Byte) : DWord × FpFlags :=
  match k with
  | .read _ => (loadValue o.fields.ty bs, 0)
  | .cellAdd _ | .cellInit _ => (0, BitVec.ofNat 6 (leNat bs))
  | .cellRead _ => (BitVec.ofNat 64 (leNat (bs.take 4)), BitVec.ofNat 6 (leNat (bs.drop 4)))
  | _ => (BitVec.ofNat 64 (leNat bs), 0)

/-- The parts of a reply beside the accesses they answer. -/
def replyParts : List (Nat × FabKind) → List Nat → List Byte → List (FabKind × Nat × List Byte)
  | (_, k) :: ps, i :: is, bs => (k, i, bs.take (replySize k)) :: replyParts ps is (bs.drop (replySize k))
  | _, _, _ => []

/-- Lanes of an operation settle as their accesses have. -/
def settleDone (s : State) (o : Op) : State :=
  match opById s o.id with
  | none => s
  | some p => settleLanes s o.id (settledLanes p &&& ~~~o.settled)

/-- The line that a fetch under a token brings fills the cache, and its accesses are performed there (R40): the token stays
until they are. -/
def fillLine (s : State) (o : Op) (idx : List Nat) (line : Nat) (bs : List Byte) : State :=
  let s := { s with fab := { s.fab with cached := bs.zipIdx.foldl (fun m (b, i) =>
    if (mget m (line + i)).isSome then m else mput m (line + i) (b, false)) s.fab.cached } }
  settleDone (idx.foldl (fun s i => match o.accs[i]? with
    | some a => (match a.place with
        | some (.fab addr _) => performCached s o i a addr
        | _ => s)
    | none => s) s) o

/-- OK, or POISON, for the accesses of an operation (R34). -/
def replyAccesses (s : State) (r : FabReq) (op : Nat) (idx : List Nat) (data : List Byte) (poison : Bool) : State :=
  match opById s op with
  | none => s
  | some o =>
      match r.parts with
      | [(addr, .read 128)] =>
          if poison then
            settleDone (idx.foldl (fun s i => match o.accs[i]? with
              | some a => settleAcc (giveValue s o a.lanes 0 true) op i
              | none => s) s) o
          else fillLine s o idx addr data
      | parts =>
          settleDone ((replyParts parts idx data).foldl (fun s (k, i, bs) =>
            match o.accs[i]? with
            | none => s
            | some a =>
                let (x, fl) := replyValue o k bs
                settleAcc (orFlags (giveValue s o a.lanes x poison) o.ctx o.core o.slot fl) op i) s) o

end Sys2Proof.Machine
end

