-- ==== Sys2Proof/Machine/Issue.lean ====
section
/-! DEFINITION. Issuing operations: send allowance (R41, R87), the window of 512 (R106), and the operation an instruction
leaves in flight. -/
namespace Sys2Proof.Machine

/-! ### Send allowance -/

/-- Units of some bytes (R41). -/
def unitsOf (bytes : Nat) : Nat := max 1 (ceilDiv bytes 64)

/-- Charges of accesses of `bytes` each by the windows they hit at issue (R87): slot, units, lanes; the bytes of one line of a
target count together (R361). -/
def windowCharges (s : State) (c : Nat) (accs : List Access) (bytes : Nat) : List (Nat × Nat × Word) :=
  let hits := accs.filterMap fun a =>
    if a.va.extractLsb' 57 7 != 0 then none
    else (windowHit s c a.va.toNat).map fun (_, w) => ((bitsOf w 15 8, windowAddr w a.va.toNat / 128), a.lanes)
  ((hits.map (·.1)).eraseDups).map fun k =>
    let here := hits.filter fun h => h.1 == k
    (slotFor (coreOf s c) (.fabric k.1), unitsOf (here.length * bytes), here.foldl (fun m h => m ||| h.2) 0)

/-- Every slot charged has allowance, and no split with an older deschedule stamp waits on one of them; stamps are compared by
age (R85, R87). -/
def allowanceOk (s : State) (v : Iss) (charges : List (Nat × Nat × Word)) : Except Stop Unit :=
  let slots := (charges.map (·.1)).eraseDups
  let k := coreOf s v.c
  let older (p : Split) : Bool := match p.desched, v.sp.desched with
    | some (t, ss), some (mine, _) => ss.any slots.contains && decide (ageOf s.now mine < ageOf s.now t)
    | some (_, ss), none => ss.any slots.contains
    | none, _ => false
  if slots.all (fun n => 0 < alwOf k n) && !(k.splits.any fun p => p.1 != v.e && older p.2) then .ok ()
  else .error (.allow slots)

/-- Subtract the charges; the operation keeps them until its outcome (R41). -/
def takeCharges (s : State) (c : Nat) (charges : List (Nat × Nat × Word)) : List Charge × State :=
  let k := coreOf s c
  (charges.map fun (n, u, m) => { slot := n, epoch := (dstOf k n).epoch, units := u, lanes := m, owed := true },
    putCore s c (charges.foldl (fun k (n, u, _) => spend k n u) k))

/-! ### Operations -/

/-- Fewer than 512 fallible operations are outstanding in every slice that takes part (R106). -/
def windowOpen (s : State) (v : Iss) (lanes : Word) : Except Stop Unit :=
  let ops := opsOf s v.c v.sl
  if (slicesOf lanes).all fun i => decide (hzOut ops i < 512) then .ok () else .error (.wait .horizon)

/-- No acquire of the split still waits for its value (R140). -/
def acquirePassed (s : State) (v : Iss) : Except Stop Unit :=
  if acquireClear (splitOps s v.c v.sl) v.sp.smask then .ok () else .error (.wait .pipe)

/-- The gate of an access by its order and HZ (R140, R237). -/
def gateOf (f : Fields) (o : MemOrd) : Gate := if ordRel o then .release else if f.hz then .hz else .none

/-- An operation of the issuing split; `fallible` takes the ISN of each slice with a lane that takes part (R106). -/
def startOp (s : State) (v : Iss) (kind : OpKind) (fallible : Bool) (lanes : Word) (accs : List Access) (gate : Gate)
    (acq sc : Bool) (work : Work) (charges : List (Nat × Nat × Word)) (batch : Option (BitVec 16)) : Nat × State :=
  let (id, s) := takeId s
  let (charge, s) := takeCharges s v.c charges
  let slices := slicesOf lanes
  let o : Op :=
    { id := id, core := v.c, slot := v.sl, ctx := v.x.ctx, kind := kind, pc := v.pc, npc := v.next,
      opc := v.opc, fields := v.f,
      smask := v.sp.smask, isns := if fallible then slices.map fun i => (i, nextIsn v.x i) else [],
      lanes := lanes, active := v.act, settled := 0, accs := accs, gate := gate, acq := acq, sc := sc,
      scope := v.f.scope, fpmode := v.x.fpmode, work := work, complete := false, discarded := false, batch := batch,
      replay := v.sp.replay, charge := charge, sample := v.sample, got := [], waits := [], tok := none, merges := [] }
  let s := { s with ops := s.ops ++ [o] }
  (id, if fallible then onStrand s v fun x =>
      { x with nisn := slices.foldl (fun m i => mset m i (mgetD m i 0 + 1) 0) x.nisn }
    else s)

/-- The destinations of a long-latency producer are PENDING (R100). -/
def markPending (s : State) (v : Iss) (regs : List Nat) : State :=
  onStrand s v fun x => regs.foldl (fun x r =>
    if v.f.strand then smark x r .pending else vmark x r (lanesOf v.on) .pending) x

/-- A destination register of a long-latency producer is not PENDING (R100). -/
def producerReady (v : Iss) (regs : List Nat) : Except Stop Unit :=
  if regs.any fun r => if v.f.strand then (sget v.x r).st == .pending
      else (lanesOf v.on).any fun l => (vget v.x r l).st == .pending
  then .error (.wait .register) else .ok ()

/-- An access not yet translated. -/
def newAcc (lanes : Word) (va data data2 : DWord) : Access :=
  { lanes := lanes, va := va, eva := 0, place := none, leaf := none, data := data, data2 := data2, st := .dropped,
    svc := false, walked := false }

/-- Translate accesses of an operation and check its blocks (R304, R307). -/
def translateOp (s : State) (id : Nat) (again : Access → Bool) : State :=
  match opById s id with
  | none => s
  | some o =>
      let (accs, s) := translateAll s o again
      afterFault (checkBlocks (modOp s id fun p => { p with accs := accs }) id) id

/-! ### Memory instructions (R304) -/

/-- The lanes that take part: the active, unguarded ones, or all active ones of a strand-side form (R304). -/
def partOf (v : Iss) : Word := if v.f.strand then v.act else v.on

/-- The accesses of an instruction: one for the strand, or one a lane; under redundancy one a pair (R107, R304). -/
def accessesOf (v : Iss) (va data data2 : Nat → DWord) : List Access :=
  if v.f.strand then [newAcc v.act (va 0) (data 0) (data2 0)]
  else (unitLanes v.x.dmr v.on).map fun p =>
    let lanes := maskOf fun l => v.on.getLsbD l && primaryOf v.x.dmr l == p
    let l := lowLane lanes
    newAcc lanes (va l) (data l) (data2 l)

/-- A memory instruction issues (R87, R100, R106, R140, R304): its destinations are PENDING and its accesses are
translated. With no lane that takes part it does nothing. -/
def memIssue (s : State) (v : Iss) (kind : OpKind) (bytes : Nat) (regs : List Nat) (gate : Gate) (acq : Bool)
    (va data data2 : Nat → DWord) : Except Stop State := do
  let lanes := partOf v
  if lanes = 0 then .ok (advance s v)
  else do
    windowOpen s v lanes
    producerReady v regs
    let accs := accessesOf v va data data2
    let charges := windowCharges s v.c accs bytes
    allowanceOk s v charges
    acquirePassed s v
    let s := markPending s v regs
    let (id, s) := startOp s v kind true lanes accs gate acq (v.f.ord == .sc) .mem charges none
    .ok (translateOp (advance s v) id fun _ => true)

/-- va of each element: the pair named by A plus the offset (R304). -/
def memAddr (v : Iss) (xa : Src) (l : Nat) : DWord := xa.val l + v.f.imm16.signExtend 64

end Sys2Proof.Machine
end

