-- ==== Sys2Proof/Machine/Memory.lean ====
section
/-! DEFINITION. Loads, stores, scratchpad accesses, atomics, wide cells, fences, prefetch and queue control (R302 to
R317). -/
namespace Sys2Proof.Machine

/-! ### LD, ST, LDS, STS (R305) -/

/-- The registers of D: one, or a pair. -/
def pairRegs (f : Fields) : List Nat :=
  if tyIs64 f.ty then [f.d.toNat, f.d.toNat + 1] else [f.d.toNat]

/-- Width of T in bytes (R304). -/
def tyBytes (f : Fields) : Nat := tyWidth f.ty / 8

/-- LD and LDS (R305). -/
def loadBody (f : Fields) (s : State) (v : Iss) : Except Stop State := do
  let (s, xa) ← srcA s v true
  consume xa (elemsOf v)
  memIssue s v .load (tyBytes f) (pairRegs f) .none (ordAcq f.ord) (memAddr v xa) (fun _ => 0) (fun _ => 0)

/-- LD (R305). -/
def execLd (f : Fields) (s : State) : Host.Outcome State Fault Refusal := issue s 0x51 f (loadBody f)
/-- LDS (R305). -/
def execLds (f : Fields) (s : State) : Host.Outcome State Fault Refusal := issue s 0x53 f (loadBody f)

/-- Redundant execution compares address and data (R107). -/
def compareAccess (v : Iss) (va data data2 : Nat → DWord) : Except Stop Unit :=
  if v.f.strand then .ok ()
  else do
    comparePairs v va
    comparePairs v data
    comparePairs v data2

/-- ST and STS (R305). -/
def storeBody (f : Fields) (s : State) (v : Iss) : Except Stop State := do
  let (s, xa) ← srcA s v true
  let (s, xb) ← srcB s v (tyIs64 f.ty) f.ty false
  consume xa (elemsOf v)
  consume xb (elemsOf v)
  compareAccess v (memAddr v xa) xb.val fun _ => 0
  memIssue s v .store (tyBytes f) [] (gateOf f f.ord) false (memAddr v xa) xb.val (fun _ => 0)

/-- ST (R305). -/
def execSt (f : Fields) (s : State) : Host.Outcome State Fault Refusal := issue s 0x52 f (storeBody f)
/-- STS (R305). -/
def execSts (f : Fields) (s : State) : Host.Outcome State Fault Refusal := issue s 0x54 f (storeBody f)

/-! ### LDSP, STSP (R309) -/

/-- The launch-relative address of each lane (R309). -/
def spadAddr (v : Iss) (xa : Src) (l : Nat) : Nat := ((xa.val l).truncate 32 + v.f.imm16.signExtend 32 : Word).toNat

/-- The first failure of the range and alignment checks, lowest lane first (R309; log entry 28). -/
def spadCheck (r : Option Resv) (size : Nat) (addrs : List Nat) : Except Stop Nat :=
  let room := (r.map fun q => q.spad * 4096).getD 0
  match addrs.find? fun a => room ≤ a || a % size != 0 with
  | some a => .error (if room ≤ a then .trap 0x05 0 else .trap 0x03 (BitVec.ofNat 32 size))
  | none => .ok ((r.map fun q => q.base * 4096).getD 0)

/-- An sc access waits for the split's earlier sc accesses (R138). -/
def scPassed (s : State) (v : Iss) (o : MemOrd) : Except Stop Unit :=
  if o == .sc && (splitOps s v.c v.sl).any fun p => p.sc && opOpen p && sameSplit p v.sp.smask then .error (.wait .pipe)
  else .ok ()

/-- LDSP (R309). -/
def ldspBody (f : Fields) (s : State) (v : Iss) : Except Stop State := do
  let (s, xa) ← srcA s v false
  consume xa (elemsOf v)
  let size := tyBytes f
  let lane (l : Nat) : Nat := if v.on.getLsbD (primaryOf v.x.dmr l) then primaryOf v.x.dmr l else l
  let base ← spadCheck (myResv s v) size ((lanesOf v.on).map fun l => spadAddr v xa (lane l))
  destReady s v f.d.toNat (tyIs64 f.ty) false
  accessPassed s v
  scPassed s v f.ord
  let k := coreOf s v.c
  let at_ (l : Nat) : Nat := base + spadAddr v xa (lane l)
  let res (l : Nat) : DWord := loadValue f.ty (peeks k.spad (at_ l) size)
  let poison := maskOf fun l => v.on.getLsbD l && (k.spadPoison.contains (at_ l / 4) ||
    (8 ≤ size && k.spadPoison.contains (at_ l / 4 + 1)))
  destCompare v f.d.toNat res
  let s := if ordAcq f.ord then raiseView s v.c v.sl else s
  .ok (advance (writeD s v f.d.toNat (tyIs64 f.ty) res poison) v)

/-- LDSP (R309). -/
def execLdsp (f : Fields) (s : State) : Host.Outcome State Fault Refusal := issue s 0x55 f (ldspBody f)

/-- Write bytes of the scratchpad; a word written whole is no longer poisoned. -/
def spadStore (k : Core) (a : Nat) (bs : List Byte) : Core :=
  { k with
      spad := pokes k.spad a bs
      spadPoison := k.spadPoison.filter fun w => !(a ≤ w * 4 && w * 4 + 4 ≤ a + bs.length) }

/-- The words of a core that some bytes lie in, for engines that may still read them old (R142). -/
def noteStale (s : State) (v : Iss) (at_ : List Nat) (size : Nat) : State :=
  let words := (at_.flatMap fun a => (List.range (ceilDiv size 4)).map fun j => a / 4 + j).eraseDups
  let k := coreOf s v.c
  { s with stale := s.stale ++ words.map fun w =>
      { core := v.c, slot := v.sl, smask := v.sp.smask, word := w, old := spadWord k (4 * w), till := none } }

/-- STSP (R309). The lanes write in an order the spec leaves open (R128; log entry 11). -/
def stspBody (f : Fields) (s : State) (v : Iss) : Except Stop State := do
  let (s, xa) ← srcA s v false
  let (s, xb) ← srcB s v (tyIs64 f.ty) f.ty false
  consume xa (elemsOf v)
  consume xb (elemsOf v)
  compareAccess v (fun l => BitVec.ofNat 64 (spadAddr v xa l)) xb.val fun _ => 0
  let size := tyBytes f
  let units := unitLanes v.x.dmr v.on
  let base ← spadCheck (myResv s v) size ((lanesOf v.on).map (spadAddr v xa))
  accessPassed s v
  scPassed s v f.ord
  if ordRel f.ord && !fenceReady s v.c v.sl v.sp.smask false true f.scope then .error (holdStop s f.scope .pipe)
  else
    let order := sortBy (Config.rank s.fresh) units
    let s := noteStale s v (units.map fun l => base + spadAddr v xa l) size
    let s := onCore { s with fresh := s.fresh + 1 } v fun k => order.foldl (fun k l =>
      spadStore k (base + spadAddr v xa l) (leBytes size (xb.val l).toNat)) k
    .ok (advance s v)

/-- STSP (R309). -/
def execStsp (f : Fields) (s : State) : Host.Outcome State Fault Refusal := issue s 0x56 f (stspBody f)

/-! ### ATOM, CAS (R310, R311) -/

/-- ATOM (R310). -/
def atomBody (f : Fields) (s : State) (v : Iss) : Except Stop State := do
  let (s, xa) ← srcA s v true
  let (s, xb) ← srcB s v (tyIs64 f.ty) f.ty false
  consume xa (elemsOf v)
  consume xb (elemsOf v)
  compareAccess v (memAddr v xa) xb.val fun _ => 0
  memIssue s v .atom (tyBytes f) (if f.md.getLsbD 0 then [] else pairRegs f) (gateOf f f.ord) (ordAcq f.ord)
    (memAddr v xa) xb.val (fun _ => 0)

/-- ATOM (R310). -/
def execAtom (f : Fields) (s : State) : Host.Outcome State Fault Refusal := issue s 0x57 f (atomBody f)

/-- CAS (R311). -/
def casBody (f : Fields) (s : State) (v : Iss) : Except Stop State := do
  let (s, xa) ← srcA s v true
  let (s, xb) ← srcB s v (tyIs64 f.ty) f.ty false
  let (s, xc) ← srcC s v (tyIs64 f.ty)
  consume xa (elemsOf v)
  consume xb (elemsOf v)
  consume xc (elemsOf v)
  compareAccess v (memAddr v xa) xb.val xc.val
  memIssue s v .cas (tyBytes f) (pairRegs f) (gateOf f f.ord) (ordAcq f.ord) (memAddr v xa) xb.val xc.val

/-- CAS (R311). -/
def execCas (f : Fields) (s : State) : Host.Outcome State Fault Refusal := issue s 0x58 f (casBody f)

/-! ### Wide cells (R313, R314) -/

/-- An addend as FP32 (R313). -/
def widen (t : Ty) (x : DWord) : DWord :=
  match t with
  | .f16 => BitVec.ofNat 64 (fConvert fmtF16 fmtF32 .ne false (x.toNat % 2 ^ 16)).1
  | .bf16 => BitVec.ofNat 64 (fConvert fmtBf16 fmtF32 .ne false (x.toNat % 2 ^ 16)).1
  | _ => BitVec.ofNat 64 (x.toNat % 2 ^ 32)

/-- CELLADD (R313); `data2` is 1 in its accesses, which tells it from CELLOP.init. -/
def cellAddBody (f : Fields) (s : State) (v : Iss) : Except Stop State := do
  let (s, xa) ← srcA s v true
  let (s, xb) ← srcB s v false f.ty false
  consume xa (elemsOf v)
  consume xb (elemsOf v)
  compareAccess v (memAddr v xa) xb.val fun _ => 0
  memIssue s v .cell 4 [] (gateOf f f.ord) (ordAcq f.ord) (memAddr v xa) (fun l => widen f.ty (xb.val l)) (fun _ => 1)

/-- CELLADD (R313). -/
def execCellAdd (f : Fields) (s : State) : Host.Outcome State Fault Refusal := issue s 0x59 f (cellAddBody f)

/-- CELLOP.init (R314). -/
def cellInitBody (f : Fields) (s : State) (v : Iss) : Except Stop State := do
  let (s, xa) ← srcA s v true
  let (s, xb) ← srcB s v false .b32 false
  consume xa (elemsOf v)
  consume xb (elemsOf v)
  compareAccess v (memAddr v xa) xb.val fun _ => 0
  memIssue s v .cell 4 [] (gateOf f f.ord) (ordAcq f.ord) (memAddr v xa) (fun l => xb.val l &&& 0xFF) (fun _ => 0)

/-- CELLOP.init (R314). -/
def execCellInit (f : Fields) (s : State) : Host.Outcome State Fault Refusal := issue s 0x5A f (cellInitBody f)

/-- CELLOP.read and .readz (R314). -/
def cellReadBody (f : Fields) (s : State) (v : Iss) : Except Stop State := do
  let (s, xa) ← srcA s v true
  consume xa (elemsOf v)
  compareAccess v (memAddr v xa) (fun _ => 0) fun _ => 0
  memIssue s v .cell 4 [f.d.toNat] (gateOf f f.ord) (ordAcq f.ord) (memAddr v xa) (fun _ => 0) (fun _ => 0)

/-- CELLOP.read (R314). -/
def execCellRead (f : Fields) (s : State) : Host.Outcome State Fault Refusal := issue s 0x5A f (cellReadBody f)
/-- CELLOP.readz (R314). -/
def execCellReadz (f : Fields) (s : State) : Host.Outcome State Fault Refusal := issue s 0x5A f (cellReadBody f)

/-! ### FENCE, PREF (R315) -/

/-- What a fence orders for the plain reads of its strand, and for acquires of others (R139; log entry 57). -/
def fenceView (s : State) (v : Iss) (o : MemOrd) : State :=
  let s := if ordAcq o then raiseView s v.c v.sl else s
  if ordRel o then modView s (gid v) fun w => { w with fenced := true } else s

/-- FENCE (R315); at system scope it also waits for the replies of the split's older remote writes (R38, R139, R146). -/
def fenceBody (f : Fields) (s : State) (v : Iss) : Except Stop State := do
  scPassed s v f.ord
  if fenceReady s v.c v.sl v.sp.smask (ordAcq f.ord) (ordRel f.ord) f.scope &&
      (f.scope != .sys || remoteClear (splitOps s v.c v.sl) v.sp.smask) then .ok (advance (fenceView s v f.ord) v)
  else .error (if ordRel f.ord then holdStop s f.scope .pipe else .wait .pipe)

/-- FENCE (R315). -/
def execFence (f : Fields) (s : State) : Host.Outcome State Fault Refusal := issue s 0x5B f (fenceBody f)

/-- PREF (R315): a hint that performs no access. -/
def prefBody (_f : Fields) (s : State) (v : Iss) : Except Stop State := do
  let (s, xa) ← srcA s v true
  consume xa (elemsOf v)
  .ok (advance s v)

/-- PREF (R315). -/
def execPref (f : Fields) (s : State) : Host.Outcome State Fault Refusal := issue s 0x5C f (prefBody f)

/-! ### Queues (R316, R317) -/

/-- QCFG (R316). -/
def qcfgBody (f : Fields) (s : State) (v : Iss) : Except Stop State := do
  let (s, xa) ← srcA s v false
  let (s, xb) ← srcB s v false .n32 false
  consume xa 1
  consume xb 1
  let n := f.imm16.toNat
  let q := mgetD (coreOf s v.c).queues n emptyQueue
  let size := (xb.val 0).toNat % 2 ^ 32
  let base := (xa.val 0).toNat % 2 ^ 32
  match myResv s v with
  | none => .error (.trap 0x05 2)
  | some r =>
      if !r.queues.getLsbD n then .error (.trap 0x05 2)
      else if (coreOf s v.c).stopReq.isSome then .error (.wait .preempt)
      else if q.en then .error (.trap 0x0D (BitVec.ofNat 32 n))
      else if size = 0 ∨ 131072 < size then .error (.trap 0x0D (BitVec.ofNat 32 n))
      else if r.spad * 1024 < base + size then .error (.trap 0x05 0)
      else
        let q' : QueueDesc :=
          { q with en := true, base := base, size := size, head := 0, tail := 0, snapAt := 0, snapHead := 0, snapTail := 0 }
        .ok (advance (onCore s v fun k => { k with queues := mput k.queues n q' }) v)

/-- QCFG (R316). -/
def execQcfg (f : Fields) (s : State) : Host.Outcome State Fault Refusal := issue s 0x5D f (qcfgBody f)

/-- Each split blocked on a queue that is switched off raises QUEUE at its own instruction (R317). -/
def queueOff (s : State) (c n : Nat) : State :=
  ((coreOf s c).splits.filter fun p => blockedOnQueue n p.2).foldl (fun s (e, p) =>
    match strandAt s c p.slot with
    | none => s
    | some x =>
        raiseCause (modSplit s c e unblock) c p.slot (splitCause x p 0x0D (BitVec.ofNat 32 n))) s

/-- D of QCTL (R317). -/
def qctlValue (fn : Nat) (q : QueueDesc) : Word :=
  let held := q.tail - q.head
  if !q.en then 0
  else match fn with
    | 1 => BitVec.ofNat 32 q.size - held
    | 2 => q.head
    | 3 => q.tail
    | _ => held

/-- QCTL (R317). -/
def qctlBody (f : Fields) (s : State) (v : Iss) : Except Stop State := do
  let n := f.imm16.toNat
  match myResv s v with
  | none => .error (.trap 0x05 2)
  | some r =>
      if !r.queues.getLsbD n then .error (.trap 0x05 2)
      else if (coreOf s v.c).stopReq.isSome then .error (.wait .preempt)
      else do
        destReady s v f.d.toNat false false
        let q := mgetD (coreOf s v.c).queues n emptyQueue
        let s := writeD s v f.d.toNat false (fun _ => (qctlValue f.fn.toNat q).zeroExtend 64) 0
        if !q.en || f.fn.toNat < 4 then .ok (advance s v)
        else
          let q' : QueueDesc := { snapQueue q s.now with head := q.tail, en := f.fn != 5 }
          let s := onCore s v fun k => { k with queues := mput k.queues n q' }
          .ok (advance (if f.fn = 5 then queueOff s v.c n else s) v)

/-- QCTL (R317). -/
def execQctl (f : Fields) (s : State) : Host.Outcome State Fault Refusal := issue s 0x5E f (qctlBody f)

end Sys2Proof.Machine
end

