-- ==== Sys2Proof/Machine/Work.lean ====
section
/-! DEFINITION. Work creation and the service call: EMIT, SPAWN, CANCEL, WCNT, SYS (R79 to R83, R296 to R301). -/
namespace Sys2Proof.Machine

/-! ### New strands (R79, R82, R83) -/

/-- Write a register of a lane of a strand that is not yet placed. -/
def initV (x : Strand) (r l : Nat) (w : Word) : Strand := vset x r l (fullCell w)

/-- A strand of a launch with its s0 and s1: v0, PARAM, stack pointers (R79). -/
def launchStrand (s : State) (r : Resv) (s0 s1 : Word) : Strand :=
  let x := freshStrand s r.ctx r.lcnt r.slices r.dmr
  let x := (List.range (4 * r.slices)).foldl (fun x i =>
    initV x 0 i (BitVec.ofNat 32 (s0.toNat * (4 * r.slices) + primaryOf r.dmr i))) x
  let x := sset (sset x 0 (fullCell s0)) 1 (fullCell s1)
  (List.range 14).foldl (fun x i => sset x (2 + i) (fullCell (r.params.extractLsb' (32 * i) 32))) x

/-! ### EMIT (R297) -/

/-- A record enters a bin (R81): an empty bin starts its timer. -/
def binEnter (b : Bin) (recs : List (List RegCell)) : Bin :=
  if recs.isEmpty then b
  else if b.recs.isEmpty then { b with recs := recs, ton := true, expired := false, left := b.tmr + 1 }
  else { b with recs := b.recs ++ recs }

/-- The launch of a bin is cancelled: its records are discarded (R72). -/
def binCancelled (s : State) (b : Bin) : Bool := ((mget s.counters b.tlc).map (·.cancel)).getD false

/-- The four registers of a record. -/
def readPayload (x : Strand) (lanes : Word) (r : Nat) (e : Bool) : Except Stop (List Src) :=
  (List.range 4).foldlM (fun acc i => do
    let y ← readV x lanes (r + i) false e
    consume y lanes
    .ok (acc ++ [y])) []

/-- EMIT (R81, R297). -/
def emitBody (f : Fields) (s : State) (v : Iss) : Except Stop State := do
  let pay ← readPayload v.x v.on f.a.toNat f.ea
  let (s, xb) ← srcB s v false .b32 false
  consume xb v.on
  pay.foldlM (fun _ y => comparePairs v y.val) ()
  let units := unitLanes v.x.dmr v.on
  let binOf (l : Nat) : Nat := (xb.val l).toNat % 16
  let k := coreOf s v.c
  let at_ (n : Nat) : Bin := mgetD k.bins n emptyBin
  let bins := (units.map binOf).eraseDups
  let recsFor (n : Nat) : List (List RegCell) := (units.filter fun l => binOf l == n).map fun l =>
    pay.map fun y => fullCell ((y.val l).truncate 32)
  if bins.any fun n => !(at_ n).en then .error (.trap 0x05 6)
  else if k.stopReq.isSome then .error (.wait .preempt)
  else if bins.any fun n => !binCancelled s (at_ n) && 64 < (at_ n).recs.length + (recsFor n).length then
    .error (.wait .slot)
  else do
    releaseFirst s v
    .ok (advance (bins.foldl (fun s n =>
      let b := at_ n
      if binCancelled s b then s
      else counterAdd (onCore s v fun k => { k with bins := mput k.bins n (binEnter b (recsFor n)) }) b.tlc
        (recsFor n).length) s) v)

/-- EMIT (R297). -/
def execEmit (f : Fields) (s : State) : Host.Outcome State Fault Refusal := issue s 0x67 f (emitBody f)

/-! ### SPAWN (R83, R298) -/

/-- A split waits at a SPAWN and could take a slot: its strand is not halted, stopped or at a trap. -/
def spawnReady (s : State) (c : Nat) (p : Split) : Bool :=
  p.spawnWait && match strandAt s c p.slot with
    | some x => x.phase != .ending && x.halted.isNone && x.arisen.isNone &&
        (x.handling.isSome || ((coreOf s c).stopReq.isNone && !(opsOf s c p.slot).any opFaulted))
    | none => false

/-- Every free slot of the core goes to a split that has waited longer at a SPAWN (R83). The oldest is the one that issued
longest ago, ties to the lower split-table entry (DESIGN CHOICE, log entry 79). -/
def spawnAhead (s : State) (v : Iss) : Bool :=
  let k := coreOf s v.c
  decide (32 ≤ k.slots.length + (k.splits.filter fun p => p.1 != v.e && spawnReady s v.c p.2 &&
    (!v.sp.spawnWait || p.2.stamp < v.sp.stamp || (p.2.stamp == v.sp.stamp && p.1 < v.e))).length)

/-- The child of a SPAWN (R83): v0 to v7 of the active lanes, the other lanes exited. -/
def childStrand (s : State) (v : Iss) (r : Resv) : Strand :=
  let x := launchStrand s r (BitVec.ofNat 32 (gid v)) (sget v.x 1).val
  let x := (lanesOf v.act).foldl (fun x l => (List.range 8).foldl (fun x i => initV x i l (vget v.x i l).val) x) x
  { x with exited := ~~~v.act &&& lanesThere x }

/-- SPAWN (R298). -/
def spawnBody (f : Fields) (s : State) (v : Iss) : Except Stop State := do
  let try_ := f.fn == 1
  (List.range 8).foldlM (fun _ i => do
    let y ← readV v.x v.act i false false
    consume y v.act) ()
  let y ← readS v.x 1 false false
  consume y 1
  checkTarget (targetOf v)
  match myResv s v, (if spawnAhead s v then none else pickSlot (coreOf s v.c)) with
  | some r, some sl => do
      releaseFirst s v
      let s := placeStrand s v.c sl (childStrand s v r) ((targetOf v).truncate 57)
      let s := counterAdd s v.x.lcnt 1
      .ok (advance (if try_ then writeP s v f.d.toNat fun _ => true else s) v)
  | _, _ =>
      if try_ then .ok (advance (writeP s v f.d.toNat fun _ => false) v) else .error .spawn

/-- SPAWN (R298). -/
def execSpawn (f : Fields) (s : State) : Host.Outcome State Fault Refusal := issue s 0x68 f (spawnBody f)

/-! ### CANCEL, WCNT (R299, R300) -/

/-- A counter that the issuing context may name: allocated to it (R299, R300). -/
def myCounter (s : State) (v : Iss) (i : Nat) : Option Counter :=
  match mget s.counters i with
  | some c => if c.ctx = v.x.ctx then some c else none
  | none => none

/-- CANCEL (R299). -/
def cancelBody (f : Fields) (s : State) (v : Iss) : Except Stop State := do
  let (s, xa) ← srcA s v false
  consume xa 1
  destReady s v f.d.toNat false false
  let i := (xa.val 0).toNat % 2 ^ 32
  let put (n : Nat) : State := writeD s v f.d.toNat false (fun _ => BitVec.ofNat 64 n) 0
  .ok (match myCounter s v i with
    | none => advance (put 2) v
    | some c => if c.done then advance (put 1) v else cancelCounter (advance (put 0) v) i)

/-- CANCEL (R299). -/
def execCancel (f : Fields) (s : State) : Host.Outcome State Fault Refusal := issue s 0x69 f (cancelBody f)

/-- WCNT (R300). -/
def wcntBody (f : Fields) (s : State) (v : Iss) : Except Stop State := do
  let (s, xa) ← srcA s v false
  consume xa 1
  destReady s v f.d.toNat false false
  let w := match myCounter s v ((xa.val 0).toNat % 2 ^ 32) with
    | none => 0
    | some c => if f.fn = 0 then c.count else counterWord c / 2 ^ 32
  .ok (advance (writeD (raiseView s v.c v.sl) v f.d.toNat false (fun _ => BitVec.ofNat 64 (w % 2 ^ 32)) 0) v)

/-- WCNT (R300). -/
def execWcnt (f : Fields) (s : State) : Host.Outcome State Fault Refusal := issue s 0x6A f (wcntBody f)

/-! ### SYS (R296) -/

/-- SYS.req (R296): the request waits for the service, one a strand. -/
def sysBody (f : Fields) (s : State) (v : Iss) : Except Stop State := do
  let (s, xa) ← srcA s v true
  consume xa 1
  laterDest s v f.d.toNat
  if v.x.sys.isSome then .error (.wait .pipe)
  else
    let (due, s) := takeDue s
    let r : SysReq :=
      { code := f.imm16, va := xa.val 0, d := f.d.toNat, entry := v.e, seq := v.x.sysSeq, taken := false, due := due,
        len := 0, reply := none, far := [], asked := [], lost := false, written := false }
    let s := onStrand s v fun x => { x with sysSeq := x.sysSeq + 1, sys := some r }
    .ok (modSplit s v.c v.e fun p => { p with parked := some (.sys f.d.toNat v.next), cls := some .pipe, held := v.sample })

/-- SYS (R296). -/
def execSys (f : Fields) (s : State) : Host.Outcome State Fault Refusal := issue s 0x50 f (sysBody f)

end Sys2Proof.Machine
end

