-- ==== Sys2Proof/Machine/Batch.lean ====
section
/-! DEFINITION. Batches and clasps: WAITB, FBATCH, OPFENCE, CLASPSET and the gathering of joint operations (R98, R321 to
R326). -/
namespace Sys2Proof.Machine

/-! ### Batches (R321 to R324) -/

/-- WAITB (R323). -/
def waitbBody (_f : Fields) (s : State) (v : Iss) : Except Stop State := do
  let (s, xb) ← srcB s v false .b32 false
  consume xb 1
  let n : BitVec 16 := (xb.val 0).truncate 16
  if (bdoneOf s v.c v.sl v.x - n).toNat ≤ 32767 then .ok (advance (raiseView s v.c v.sl) v) else .error (.wait .batch)

/-- WAITB (R323). -/
def execWaitb (f : Fields) (s : State) : Host.Outcome State Fault Refusal := issue s 0x48 f (waitbBody f)

/-- An engine operation (R321). -/
def isEngine (o : Op) : Bool := engineKind o.kind || o.kind == .fil

/-- FBATCH (R322); an operation that a message has started is in no batch (R342). -/
def fbatchBody (f : Fields) (s : State) (v : Iss) : Except Stop State := do
  destReady s v f.d.toNat false false
  if 1024 ≤ openBatches s v.c v.sl then .error (.wait .batch)
  else
    let s := writeD s v f.d.toNat false (fun _ => v.x.batch.zeroExtend 64) 0
    let s := { s with ops := s.ops.map fun o =>
      if o.core == v.c && o.slot == v.sl && isEngine o && o.batch.isNone && !triggered s o then { o with batch := some v.x.batch } else o }
    .ok (advance (onStrand s v fun x => { x with batch := x.batch + 1 }) v)

/-- FBATCH (R322). -/
def execFbatch (f : Fields) (s : State) : Host.Outcome State Fault Refusal := issue s 0x49 f (fbatchBody f)

/-- OPFENCE (R324): the split's earlier writes have settled and are performed at device scope. -/
def opfenceBody (_f : Fields) (s : State) (v : Iss) : Except Stop State :=
  let waits := (splitOps s v.c v.sl).any fun o => opOpen o && sameSplit o v.sp.smask &&
    (o.kind == .store || o.kind == .atom || o.kind == .cas || o.kind == .cell)
  let held := (clusterAt s (clusterOf v.c)).stores.any fun e => e.gid == gid v
  if waits || held then .error (.wait .pipe)
  else .ok (advance (settleStale s v.c v.sl fun m => m &&& v.sp.smask != 0) v)

/-- OPFENCE (R324). -/
def execOpfence (f : Fields) (s : State) : Host.Outcome State Fault Refusal := issue s 0x4A f (opfenceBody f)

/-! ### Clasps (R98, R326) -/

/-- The check of a clasp value at issue (R98): 2 to 6 members, the issuer among them, each a live strand of the launch. -/
def claspCheck (s : State) (v : Iss) (value : Word) : Except Stop Unit :=
  let members := lanesOf value
  let dead := members.find? fun sl => match strandAt s v.c sl with
    | some x => x.phase != .live || x.lcnt != v.x.lcnt
    | none => true
  if members.length < 2 || 6 < members.length || !value.getLsbD v.sl then
    .error (.trap 0x0C (BitVec.ofNat 32 v.sl))
  else match dead with
    | some sl => .error (.trap 0x0C (BitVec.ofNat 32 sl))
    | none => .ok ()

/-- What is compared at the gathering (R326). -/
def sameJoint (a b : ClaspArrival) : Bool :=
  a.opc == b.opc && a.fields.md == b.fields.md && a.fields.imm16 == b.fields.imm16 && a.fields.fn == b.fields.fn &&
  a.vals == b.vals

/-- The first-listed member of a clasp: the one in the lowest slot. -/
def firstSlot (value : Word) : Nat := lowLane value

/-- A member that arrived and differs from the first-listed one raises CLASP with its own slot (R326). -/
def dropDiffering (s : State) (c : Nat) (g : Clasp) : State × Clasp :=
  match g.arrived.find? fun a => a.slot == firstSlot g.value with
  | none => (s, g)
  | some a =>
      let bad := g.arrived.filter fun b => !sameJoint a b
      (bad.foldl (fun s b => claspBreak s c b.slot { g with arrived := [b] }) s,
       { g with arrived := g.arrived.filter (sameJoint a) })

/-- Every member of the clasp has arrived, and none is at a trap or in a handler. -/
def claspFull (s : State) (c : Nat) (g : Clasp) : Bool :=
  (lanesOf g.value).all fun sl => g.arrived.any (fun a => a.slot == sl) &&
    match strandAt s c sl with
    | some x => x.handling.isNone && x.arisen.isNone
    | none => false

/-- An arrival at a joint operation: the split is parked, and waiters of other clasps of this member fault (R98). -/
def claspArrive (s : State) (v : Iss) (value : Word) (d : Nat) (vals : List Word) : Except Stop State :=
  let k := coreOf s v.c
  let mine : ClaspArrival := { slot := v.sl, entry := v.e, opc := v.opc, fields := v.f, vals := vals }
  let g := (k.clasps.find? fun g => g.value == value).getD { value := value, arrived := [] }
  if g.arrived.any fun a => a.slot == v.sl then .error (.wait .clasp)
  else match g.arrived.find? fun a => a.slot == firstSlot value && !sameJoint a mine with
    | some _ => .error (.trap 0x0C (BitVec.ofNat 32 v.sl))
    | none =>
        let s := claspsBreak s v.c v.sl fun w => w != value && w.getLsbD v.sl
        let s := modSplit s v.c v.e fun p => { p with parked := some (.joint d v.next), cls := some .clasp, held := v.sample }
        let (s, g) := dropDiffering s v.c { g with arrived := g.arrived ++ [mine] }
        .ok (modCore s v.c fun k => { k with clasps := (k.clasps.filter fun h => h.value != value) ++ [g] })

/-- A member goes on after its joint operation; `d` is written when the operation has a result. -/
def claspRelease (s : State) (c : Nat) (a : ClaspArrival) (res : Option Word) : State :=
  match strandAt s c a.slot, splitAt s c a.entry with
  | some x, some p =>
      (match p.parked with
       | some (.joint d next) =>
           (match res with
            | some w => deliver s x.ctx c a.slot (fun q => q.smask == p.smask && parkedJoint q) d w next
            | none => putSplit s c a.entry
                { p with parked := none, pc := next, cls := none, tried := s.now + 1, held := none })
       | _ => s)
  | _, _ => s

/-- CLASPSET (R325): the ranks are written when every member has arrived. -/
def claspsetDone (s : State) (c : Nat) (g : Clasp) : State :=
  (lanesOf g.value).zipIdx.foldl (fun s (sl, rank) =>
    match g.arrived.find? fun a => a.slot == sl with
    | some a => claspRelease s c a (some (BitVec.ofNat 32 rank))
    | none => s) s

end Sys2Proof.Machine
end

