-- ==== Sys2Proof/Machine/Filigree.lean ====
section
/-! DEFINITION. The Filigree array: operand fetch, counting, drains, merges, accumulator transfers, recheck (R158 to R165,
R170, R171, R326 to R333). -/
namespace Sys2Proof.Machine

/-! ### Operands (R328, R329) -/

/-- An FMMA operand: core-absolute granule and its tag, requested width, label, origin, strides, gathered rows. -/
structure Opnd where
  gran : Nat
  tag : Tag
  wreq : Nat
  label : Nat
  origin : Nat
  ks : Nat
  rs : Nat
  rows : List Nat
  isB : Bool
  deriving DecidableEq, Repr

/-- A word of a list of register values. -/
def wordAt (q : List Word) (i : Nat) : Nat := ((q[i]?).getD 0).toNat

/-- The fields of an operand quad are legal (R328). -/
def quadOk (q : List Word) (isB : Bool) : Bool :=
  let a := wordAt q 0
  !bitOf a 7 && bitsOf a 15 12 == 0 && bitsOf a 11 8 != 1 && bitsOf a 11 8 ≤ 8 &&
  bitsOf (wordAt q 3) 31 20 == 0 && !(isB && bitOf (wordAt q 3) 0)

/-- The tag of a granule (R116). -/
def tagOf (k : Core) (g : Nat) : Tag := mgetD k.tags g emptyTag

/-- Decode an operand quad (R328). -/
def opndOf (k : Core) (base : Nat) (q : List Word) (rows : List Nat) (isB : Bool) : Opnd :=
  let g := base + bitsOf (wordAt q 0) 6 0
  { gran := g, tag := tagOf k g, wreq := bitsOf (wordAt q 0) 11 8, label := bitsOf (wordAt q 0) 31 16,
    origin := wordAt q 1, ks := bitsOf (wordAt q 2) 15 0, rs := bitsOf (wordAt q 2) 31 16, rows := rows, isB := isB }

/-- The index list of a gathered operand: its launch-relative byte address, if any. -/
def gatherAddr (q : List Word) : Option Nat :=
  if bitOf (wordAt q 3) 0 then some (bitsOf (wordAt q 3) 19 1 * 2) else none

/-- The entries of the index list (R328). -/
def gatherList (spad : SMap Byte) (base : Nat) (q : List Word) (m : Nat) : List Nat :=
  match gatherAddr q with
  | none => []
  | some a => (List.range m).map fun r => leNat (peeks spad (base * 4096 + a + 2 * r) 2)

/-- Stored index of element (r, k) (R328). -/
def opIndex (o : Opnd) (r k : Nat) : Nat :=
  o.origin + k * o.ks + (if o.rows.isEmpty then r else (o.rows[r]?).getD 0) * o.rs

/-- Where the elements of an operand lie in the scratchpad (R329). -/
def opGeo (o : Opnd) : Geo :=
  { fmt := o.tag.fmt, blk := o.tag.blk, sp := o.tag.sp, frame := o.gran * 4096, expo := o.tag.comp * 4096,
    meta_ := o.tag.comp * 4096 + 2048, size := 0 }

/-- The width of an operand (R330). -/
def opWidth (o : Opnd) : Nat := if 6 ≤ o.tag.fmt then o.tag.fmt - 4 else o.wreq

/-- A tag that R158 refuses, a scalar tag without a requested width, a sparse B (R329). -/
def tagRefused (o : Opnd) : Bool :=
  o.tag.fmt == 0 || (6 ≤ o.tag.fmt && o.wreq != 0 && o.wreq != o.tag.fmt - 4) || (o.tag.fmt < 6 && o.wreq == 0) ||
  (o.isB && o.tag.sp != 0)

/-- First and last byte of the code of an element, from the operand's first byte (R329); a plain granule holds bytes (log
entry 53). -/
def codeSpan (o : Opnd) (e : Nat) : Nat × Nat :=
  let g := opGeo o
  if g.fmt = 0 then (e, e)
  else if g.fmt < 6 then (e * geoBytes g, e * geoBytes g + geoBytes g - 1)
  else if geoN g = 0 then (e * geoW g / 8, (e * geoW g + geoW g - 1) / 8)
  else (geoN g * (e / 8) * geoW g / 8, ((geoN g * (e / 8) + geoN g) * geoW g - 1) / 8)

/-- Every byte an operand can reach lies in the reservation (R329). -/
def reachOk (o : Opnd) (base spad n kk : Nat) : Bool :=
  let far := if o.rows.isEmpty then n - 1 else o.rows.foldl max 0
  let e := o.origin + (kk - 1) * o.ks + far * o.rs
  let g := opGeo o
  let room := (base + spad) * 4096
  decide (o.gran * 4096 + (codeSpan o e).2 < room) &&
  (o.tag.fmt < 6 || (decide (base ≤ o.tag.comp) && decide (g.expo + e / geoL g < room) &&
    (geoN g = 0 || decide (g.meta_ + (3 * (geoN g * (e / 8) + geoN g) - 1) / 8 < room))))

/-- A fetch of an element fails (R329). -/
def elemFails (k : Core) (o : Opnd) (e : Nat) : Bool :=
  let g := opGeo o
  tagRefused o || (6 ≤ g.fmt && 2048 ≤ e / geoL g) ||
  (let (lo, hi) := codeSpan o e
   [lo, hi].any fun b => tagOf k (o.gran + b / 4096) != o.tag) ||
  (6 ≤ g.fmt && (elemCode (fun a => peek k.spad a) g e).isNone)

/-- The bytes a fetch of an element reads: the code or the codes of its sparse group, the exponent, the group's metadata (R329). -/
def elemReads (o : Opnd) (e : Nat) : List Nat :=
  let g := opGeo o
  let (lo, hi) := codeSpan o e
  let meta_ (i : Nat) : Nat := g.meta_ + 3 * geoN g * (e / 8 + i) / 8
  (List.range (hi + 1 - lo)).map (g.frame + lo + ·) ++ (if 6 ≤ g.fmt then [g.expo + e / geoL g] else []) ++
  (if geoN g = 0 then [] else [meta_ 0, g.meta_ + (3 * geoN g * (e / 8 + 1) - 1) / 8])

/-- A word that a fetch reads is poisoned. -/
def elemPoisoned (k : Core) (o : Opnd) (e : Nat) : Bool := (elemReads o e).any fun a => k.spadPoison.contains (a / 4)

/-- The block or quantisation run of an element (R330). -/
def blockKey (o : Opnd) (r k : Nat) : Nat := if 6 ≤ o.tag.fmt then opIndex o r k / geoL (opGeo o) else k / 32

/-- Exclusive end of the K-block that holds k (R330). -/
def kBlockEnd (a b : Opnd) (m n kk : Nat) : Nat → Nat → Nat
  | 0, k => k + 1
  | fuel + 1, k =>
      if kk ≤ k + 1 then kk
      else if ((List.range m).any fun r => blockKey a r (k + 1) != blockKey a r k) ||
          ((List.range n).any fun r => blockKey b r (k + 1) != blockKey b r k) then k + 1
      else kBlockEnd a b m n kk fuel (k + 1)

/-- A stored element decoded to FP32. -/
def sourceValue (k : Core) (o : Opnd) (e : Nat) : Nat := (elemDecode (fun a => peek k.spad a) (opGeo o) e).getD 0

/-- Exponent, codes and flags of a row or column over a K-block (R158, R329). -/
def rowBlock (k : Core) (o : Opnd) (r k0 k1 kk : Nat) : Nat × List Int × FpFlags :=
  let w := opWidth o
  let rd (a : Nat) : Byte := peek k.spad a
  if 6 ≤ o.tag.fmt then
    let at_ (i : Nat) : Nat × Nat := (elemCode rd (opGeo o) (opIndex o r (k0 + i))).getD (0, 0)
    ((at_ 0).2, (List.range (k1 - k0)).map fun i => signedOf w (at_ i).1, 0)
  else
    let kr := 32 * (k0 / 32)
    let xs := (List.range (min 32 (kk - kr))).map fun i => fdec fmtF32 (sourceValue k o (opIndex o r (kr + i)))
    let (ex, cs, fl) := encodeBlock w xs
    (ex, (cs.drop (k0 - kr)).take (k1 - k0), fl)

/-! ### Banks (R159 to R163) -/

/-- The magnitudes that a counting bank counts (R159). -/
def magList : List Nat :=
  [1, 2, 3, 4, 5, 6, 7, 8, 9, 10, 12, 14, 15, 16, 18, 20, 21, 24, 25, 28, 30, 32, 35, 36, 40, 42, 48, 49, 56, 64]

def bankOf (k : Core) (b : Bool) : Bank := if b then k.bankB else k.bankA
def setBank (k : Core) (b : Bool) (x : Bank) : Core := if b then { k with bankB := x } else { k with bankA := x }
/-- The depth limit of a mode (R162). -/
def depthLimit (integer : Bool) : Nat := if integer then 256 else 2047

/-- Count one product in a cell (R160, R164). -/
def countCell (integer : Bool) (m : SMap Int) (c : Nat) (p : Int) : SMap Int :=
  if p = 0 then m
  else if integer then mset m (30 * c) (mgetD m (30 * c) 0 + p) 0
  else
    let n := 30 * c + magList.idxOf p.natAbs
    mset m n (mgetD m n 0 + (if 0 < p then 1 else -1)) 0

/-- The exact sum of a cell (R161, R164). -/
def cellSum (b : Bank) (c : Nat) : Int :=
  if b.integer then mgetD b.counts (30 * c) 0
  else magList.zipIdx.foldl (fun (t : Int) (p : Nat × Nat) =>
    t + mgetD b.counts (30 * c + p.2) 0 * ((p.1 : Nat) : Int)) 0

/-- An accumulator element (R117). -/
def accWord (k : Core) (t c : Nat) : Word := mgetD k.acc (t * 4096 + c) 0
def accPut (k : Core) (t c : Nat) (w : Word) : Core := { k with acc := mset k.acc (t * 4096 + c) w 0 }

/-- The outcome of array work on a core: the core, the flags raised, whether a poisoned word was consumed (R188). -/
structure ArrayRes where
  core : Core
  flags : FpFlags
  eaten : Bool

/-- Add an exact value to an accumulator element, rounding once (R161). -/
def accAdd (k : Core) (t c : Nat) (x : FVal) : ArrayRes :=
  let (w, fl) := finishF fmtF32 .ne false (faddX .ne (fdec fmtF32 (accWord k t c).toNat) x)
  { core := accPut k t c (BitVec.ofNat 32 w), flags := fl, eaten := k.accPoison.contains (t * 4096 + c) }

/-- A bank holds no count any more: each recheck whose FMMA is over takes the accumulators it is to compare (R170). -/
def takeAccs (k : Core) (b : Bool) : Core :=
  { k with rechecks := k.rechecks.map fun r =>
      if r.bankB == b && r.taken.isNone && !(k.fil.any fun o => o.id == r.fil) then
        { r with taken := some (r.ref.map fun p => (p.1, accWord k r.tile p.1)) }
      else r }

/-- Drain a bank into its tile (R161); a cell with a parity error poisons its element (R188). -/
def drainBank (k : Core) (b : Bool) : ArrayRes :=
  let x := bankOf k b
  let cells : List Nat := (x.counts.map (fun (q : Nat × Int) => q.1 / 30) ++ x.bad).eraseDups
  let r := cells.foldl (fun (r : ArrayRes) (c : Nat) =>
    if x.bad.contains c then { r with core := { r.core with accPoison := (x.tile * 4096 + c) :: r.core.accPoison } }
    else
      let t := cellSum x c
      if t = 0 then r
      else
        let q := accAdd r.core x.tile c (ofInt false t x.scale)
        { core := q.core, flags := r.flags ||| q.flags, eaten := r.eaten || q.eaten })
    ({ core := k, flags := 0, eaten := false } : ArrayRes)
  { r with core := takeAccs (setBank r.core b { x with live := false, steps := 0, counts := [], bad := [], klog := [] }) b }

/-- Go on from a result with more array work. -/
def ArrayRes.andThen (r : ArrayRes) (g : Core → ArrayRes) : ArrayRes :=
  let q := g r.core
  { core := q.core, flags := r.flags ||| q.flags, eaten := r.eaten || q.eaten }

def arrayOk (k : Core) : ArrayRes := { core := k, flags := 0, eaten := false }

/-- FMERGE (R163). -/
def mergeBanks (k : Core) : ArrayRes :=
  let a := k.bankA
  let b := k.bankB
  if a.live && b.live && a.integer == b.integer && a.tile == b.tile && a.scale == b.scale &&
      decide (a.steps + b.steps ≤ depthLimit a.integer) then
    let counts := b.counts.foldl (fun m (n, x) => mset m n (mgetD m n 0 + x) 0) a.counts
    arrayOk { k with
      bankA := { a with
        counts := counts, steps := a.steps + b.steps, bad := (a.bad ++ b.bad).eraseDups
        klog := a.klog ++ b.klog }
      bankB := { b with live := false, steps := 0, counts := [], bad := [], klog := [] } }
  else
    let r := if a.live then drainBank k false else arrayOk k
    r.andThen fun k => if b.live then drainBank k true else arrayOk k

/-- FZERO.bank: every counter and the descriptor (R331). -/
def zeroBank (k : Core) (b : Bool) : Core :=
  { setBank k b emptyBank with rechecks := k.rechecks.filter fun r => r.bankB != b }

/-- FZERO.tile (R331). -/
def zeroTile (k : Core) (t : Nat) : Core :=
  { k with
      acc := k.acc.filter fun p => p.1 / 4096 != t
      accPoison := k.accPoison.filter fun p => p / 4096 != t }

/-! ### FMMA (R330) -/

/-- The operands and the shape of a queued FMMA. -/
def filOpnds (k : Core) (o : FilOp) : Opnd × Opnd :=
  (opndOf k o.base (o.vals.take 4) o.gather false, opndOf k o.base ((o.vals.drop 4).take 4) [] true)
def filM (o : FilOp) : Nat := wordAt o.vals 8
def filN (o : FilOp) : Nat := wordAt o.vals 9
def filK (o : FilOp) : Nat := wordAt o.vals 10
def filBankB (o : FilOp) : Bool := o.fields.md.getLsbD 0
def filHold (o : FilOp) : Bool := o.fields.md.getLsbD 1
def filTile (o : FilOp) : Nat := o.fields.imm16.toNat
/-- The mode of two operands: integer unless both widths are 4 or less (R330). -/
def filMode (a b : Opnd) : Bool := !(opWidth a ≤ 4 && opWidth b ≤ 4)

/-- The first element of a K-block that its fetch refuses: ascending K, A before B (R329). -/
def fetchFault (k : Core) (a b : Opnd) (m n k0 k1 : Nat) : Option Nat :=
  (List.range (k1 - k0)).findSome? fun i =>
    (((List.range m).map fun r => opIndex a r (k0 + i)).find? (elemFails k a)).orElse fun _ =>
      ((List.range n).map fun r => opIndex b r (k0 + i)).find? (elemFails k b)

/-- Elements of a K-block that are poisoned. -/
def fetchPoison (k : Core) (a b : Opnd) (m n k0 k1 : Nat) : Bool :=
  (List.range (k1 - k0)).any fun i =>
    ((List.range m).any fun r => elemPoisoned k a (opIndex a r (k0 + i))) ||
    (List.range n).any fun r => elemPoisoned k b (opIndex b r (k0 + i))

/-- A K index of an FMMA with its decoded source values, for some cells (R170). -/
def kStepOf (k : Core) (id : Nat) (a b : Opnd) (m n q : Nat) (cells : List Nat) : KStep :=
  let word (o : Opnd) (r : Nat) : Word := BitVec.ofNat 32 (sourceValue k o (opIndex o r q))
  { fil := id, k := q, cells := cells, rows := (List.range m).map (word a), cols := (List.range n).map (word b) }

/-- The reference of a sampled FMMA follows every K index of the FMMA itself, whatever the bank does with them (R170). -/
def followOwn (k : Core) (steps : List KStep) : Core :=
  { k with rechecks := k.rechecks.map fun r => { r with log := r.log ++ steps.filter fun e => e.fil == r.fil } }

/-- A bank has taken a K index: it is in the bank's log, and the rechecks that the bank holds over follow it (R170). -/
def logStep (k : Core) (bank : Bool) (e : KStep) : Core :=
  let k := setBank k bank { bankOf k bank with klog := (bankOf k bank).klog ++ [e] }
  { k with rechecks := k.rechecks.map fun r =>
      if r.bankB == bank && r.taken.isNone && r.fil != e.fil then { r with log := r.log ++ [e] } else r }

/-- Elements of NaN rows and columns become the canonical NaN (R162). -/
def nanCells (k : Core) (t : Nat) (rows cols : List (Nat × List Int × FpFlags)) : Core :=
  (List.range rows.length).foldl (fun k i => (List.range cols.length).foldl (fun k j =>
    if ((rows[i]?).map (·.1)) == some 255 || ((cols[j]?).map (·.1)) == some 255 then
      { accPut k t (64 * i + j) (BitVec.ofNat 32 (nanBits fmtF32)) with
          accPoison := k.accPoison.filter (· != t * 4096 + 64 * i + j) }
    else k) k) k

/-- The combined scale of a cell over a K-block: none for a zero block (R330). -/
def cellScale (a b : Opnd) (ea eb : Nat) : Option Int :=
  if ea = 0 ∨ eb = 0 then none
  else some ((ea : Int) - 127 - ((opWidth a : Int) - 1) + ((eb : Int) - 127 - ((opWidth b : Int) - 1)))

/-- Count one K index into the cells of one scale; a bank at its depth limit drains first (R160, R162). -/
def countK (bank : Bool) (cells : List (Nat × (Nat → Int))) (step : Nat → KStep) (k : Core) (q : Nat) : ArrayRes :=
  let x := bankOf k bank
  let r := if x.steps = depthLimit x.integer then drainBank k bank else arrayOk k
  r.andThen fun k =>
    let x := bankOf k bank
    let counts := cells.foldl (fun m p => countCell x.integer m p.1 (p.2 q)) x.counts
    arrayOk (logStep (setBank k bank { x with counts := counts, steps := x.steps + 1, live := true }) bank (step q))

/-- One pass of a K-block: the cells of one combined scale (R330). -/
def countScale (bank : Bool) (sg : Int) (cells : List (Nat × (Nat → Int))) (step : Nat → KStep) (len : Nat) (k : Core) : ArrayRes :=
  let x := bankOf k bank
  let r := if x.live && x.scale != sg then drainBank k bank else arrayOk k
  let r := { r with core := setBank r.core bank { bankOf r.core bank with scale := sg } }
  (List.range len).foldl (fun r q => r.andThen fun k => countK bank cells step k q) r

/-- A K-block of an FMMA: the core after it, or DETAIL of the FORMAT fault (R330). -/
def fmmaBlock (k : Core) (o : FilOp) (a b : Opnd) (k0 k1 : Nat) : Except Nat ArrayRes :=
  let m := filM o
  let n := filN o
  let bank := filBankB o
  match fetchFault k a b m n k0 k1 with
  | some e => .error e
  | none =>
      let rows := (List.range m).map fun r => rowBlock k a r k0 k1 (filK o)
      let cols := (List.range n).map fun r => rowBlock k b r k0 k1 (filK o)
      let fl := (rows ++ cols).foldl (fun fl r => fl ||| r.2.2) 0
      let nan := (rows ++ cols).any fun r => r.1 == 255
      let cells : List (Int × Nat × (Nat → Int)) := rows.zipIdx.flatMap fun (ra, i) => cols.zipIdx.filterMap fun (cb, j) =>
        (cellScale a b ra.1 cb.1).map fun sg =>
          (sg, 64 * i + j, fun q => (ra.2.1[q]?).getD 0 * (cb.2.1[q]?).getD 0)
      let scales := sortBy (fun x : Int => (x + 1024).toNat) (cells.map (·.1)).eraseDups
      let all := (List.range m).flatMap fun i => (List.range n).map fun j => 64 * i + j
      let step (cs : List Nat) (q : Nat) : KStep := kStepOf k o.id a b m n (k0 + q) cs
      let inPass (sg : Int) : List Nat := all.filter fun c =>
        (cells.find? fun p => p.2.1 == c).all fun p => p.1 == sg
      let x := bankOf k bank
      if filHold o && (nan || 2 ≤ scales.length || scales.any fun sg => x.live && sg != x.scale) then
        .error (opIndex a 0 k0)
      else
        let start : ArrayRes := { core := followOwn k ((List.range (k1 - k0)).map (step all)), flags := fl, eaten := fetchPoison k a b m n k0 k1 }
        let r := if nan then
            (start.andThen fun k => drainBank k bank).andThen fun k =>
              { core := nanCells k (filTile o) rows cols, flags := flNV, eaten := false }
          else scales.foldl (fun r sg => r.andThen
            (countScale bank sg ((cells.filter fun p => p.1 == sg).map (·.2)) (step (inPass sg)) (k1 - k0))) start
        .ok r

/-- What the array does when it reaches an FMMA: the second test of .hold, the drain of a bank with another tile or mode,
and the descriptor (R330). -/
def fmmaStart (k : Core) (o : FilOp) : Except Nat ArrayRes :=
  let (a, b) := filOpnds k o
  let bank := filBankB o
  let x := bankOf k bank
  let other := x.live && (x.tile != filTile o || x.integer != filMode a b)
  if filHold o && other then .error 0
  else
    let r := if other then drainBank k bank else arrayOk k
    .ok { r with core := setBank r.core bank { bankOf r.core bank with tile := filTile o, integer := filMode a b } }

/-! ### Recheck (R170, R171) -/

/-- The recheck of a sampled FMMA starts with the tile's values. -/
def startRecheck (k : Core) (c : Nat) (o : FilOp) (members : List Nat) : Core :=
  if !o.sampled then k
  else
    let t := filTile o
    let r : Recheck :=
      { fil := o.id, ctx := o.ctx, bankB := filBankB o, m := filM o, n := filN o, tile := t,
        row0 := bitsOf (wordAt o.vals 0) 31 16, col0 := bitsOf (wordAt o.vals 4) 31 16, lcnt := o.lcnt,
        strand := gidOf c o.slot, pc := o.pc, batch := o.batch,
        ref := (List.range (filM o)).flatMap fun i => (List.range (filN o)).map fun j =>
          (64 * i + j, accWord k t (64 * i + j))
        members := members, log := [], taken := none }
    { k with rechecks := k.rechecks ++ [r] }

/-- The reference of an element (R170): the tile value, then each K index it follows, in issue order and ascending K, one fused
multiply-add each. -/
def refOf (r : Recheck) (c : Nat) (w : Word) : Word :=
  let steps := sortBy (fun e : KStep => e.fil * 2 ^ 24 + e.k) (r.log.filter fun e => e.cells.contains c)
  steps.foldl (fun w e => match e.rows[c / 64]?, e.cols[c % 64]? with
    | some x, some y => BitVec.ofNat 32 (fFma fmtF32 .ne x.toNat y.toNat w.toNat).1
    | _, _ => w) w

/-- The deviation of an element, as a rank: NaN above infinity above the finite ones (R170). -/
def deviation (acc ref : Word) : Nat := (fSub fmtF32 .ne acc.toNat ref.toNat).1 % 2 ^ 31

/-- The record of a finished recheck (R171). -/
def recheckRecord (s : State) (k : Core) (r : Recheck) : State :=
  let acc (c : Nat) : Word := match r.taken with
    | some accs => mgetD accs c 0
    | none => accWord k r.tile c
  let devs := r.ref.map fun (c, w) => let q := refOf r c w; (c, deviation (acc c) q, q)
  match leastBy (fun d => 2 ^ 31 - d.2.1) devs, (mget s.ctxs r.ctx).bind (·.tring) with
  | some (c, d, w), some ring =>
      ringPut s ring (leBytes 32 (pack [(0, 16, r.row0), (16, 16, r.col0), (32, 12, r.lcnt), (44, 13, r.strand),
        (64, 57, r.pc.toNat), (128, 16, r.batch.toNat), (144, 12, c), (156, 4, r.tile), (160, 32, d),
        (192, 32, w.toNat), (224, 32, cycleOf s (r.strand / 32))]))
  | _, _ => s

/-- Rechecks of a core whose FMMA is over and whose bank holds no count, or has been drained since, are compared (R170). -/
def finishRechecks (s : State) (c : Nat) : State :=
  let k := coreOf s c
  let isOver (r : Recheck) : Bool := r.taken.isSome || (!(k.fil.any fun o => o.id == r.fil) && !(bankOf k r.bankB).live)
  let done := k.rechecks.filter isOver
  if done.isEmpty then s
  else
    done.foldl (fun s r => recheckRecord s k r) (putCore s c { k with rechecks := k.rechecks.filter fun r => !isOver r })

/-- After a merge each recheck goes on in bank A, and follows the K indices that the other bank has brought (R170; log entry 31). -/
def mergeRechecks (k before : Core) : Core :=
  if k.bankB.live || !before.bankB.live || !k.bankA.live then k
  else { k with rechecks := k.rechecks.map fun r =>
    { r with bankB := false, log := r.log ++ (bankOf before !r.bankB).klog } }

/-! ### FACC (R332) -/

/-- One element of a rectangle: tile element and scratchpad byte. -/
def faccItems (o : FilOp) : List (Nat × Nat) :=
  let b := wordAt o.vals 1
  (List.range (bitsOf b 18 12)).flatMap fun r => (List.range (bitsOf b 25 19)).map fun c =>
    (64 * (bitsOf b 5 0 + r) + bitsOf b 11 6 + c, o.base * 4096 + wordAt o.vals 0 + r * wordAt o.vals 2 + 4 * c)

/-- FACC at its turn (R332). -/
def faccPerform (k : Core) (o : FilOp) : ArrayRes :=
  let t := filTile o
  (faccItems o).foldl (fun r (c, a) => r.andThen fun k =>
    match o.fields.fn.toNat with
    | 0 => { core := spadPut k a (accWord k t c) false, flags := 0, eaten := k.accPoison.contains (t * 4096 + c) }
    | 1 =>
        { core := { accPut k t c (spadWord k a) with accPoison := k.accPoison.filter (· != t * 4096 + c) },
          flags := 0, eaten := k.spadPoison.contains (a / 4) }
    | _ =>
        let q := accAdd k t c (fdec fmtF32 (spadWord k a).toNat)
        { q with eaten := q.eaten || k.spadPoison.contains (a / 4) }) (arrayOk k)

/-! ### The queue of the array (R327) -/

/-- Take an operation off the queue. -/
def filPop (s : State) (c id : Nat) : State := modCore s c fun k => { k with fil := k.fil.filter fun o => o.id != id }
/-- Forget the recheck of an operation that faults or ends (R170). -/
def dropRecheck (s : State) (c id : Nat) : State :=
  modCore s c fun k => { k with rechecks := k.rechecks.filter fun r => r.fil != id }
/-- Flags of an operation reach each member (R326). -/
def filFlags (s : State) (o : FilOp) (fl : FpFlags) : State :=
  o.ops.foldl (fun s id => match opById s id with
    | some p => orFlags s p.ctx p.core p.slot fl
    | none => s) s
/-- The operation is complete in each member (R321, R330). -/
def filDone (s : State) (c : Nat) (o : FilOp) : State :=
  o.ops.foldl (fun s id => settleLanes (modOp s id fun p => { p with complete := true }) id (BitVec.allOnes 32))
    (filPop s c o.id)
/-- A horizon fault of an FMMA reaches every member (R326, R330). -/
def filFault (s : State) (c : Nat) (o : FilOp) (detail : Nat) : State :=
  o.ops.foldl (fun s id => faultOp s id 0x06 (BitVec.ofNat 32 detail) 0)
    (modCore (dropRecheck (filPop s c o.id) c o.id) c fun k =>
      { k with filFaulted := k.filFaulted ++ [{ o with sampled := false }] })
/-- A poisoned word was consumed: every member ends with UNCORR (R188). -/
def filEaten (s : State) (c : Nat) (o : FilOp) : State :=
  o.ops.foldl (fun s id => match opById s id with
    | some p =>
        let s := terminate s p.core p.slot 0x80
        checkRetire (sweepOps (modOp s id fun q => { q with discarded := true, complete := true }) p.core p.slot) p.core p.slot
    | none => s) (dropRecheck (filPop s c o.id) c o.id)

/-- The operation still stands: an FMMA that was discarded does nothing more (R180, R181). -/
def filStands (s : State) (o : FilOp) : Bool :=
  o.opc != 0x6B || o.ops.any fun id => match opById s id with
    | some p => !p.discarded
    | none => false

/-- Put the result of array work back. -/
def filPut (s : State) (c : Nat) (o : FilOp) (r : ArrayRes) : State := filFlags (putCore s c r.core) o r.flags

/-- The slots of the members of an array operation. -/
def memberSlots (s : State) (o : FilOp) : List Nat := o.ops.filterMap fun id => (opById s id).map (·.slot)

/-- The array begins an FMMA and, when it has begun, performs its next K-block (R327, R330). -/
def fmmaPerform (s : State) (c : Nat) (o : FilOp) : State :=
  match (if o.started then .ok (arrayOk (coreOf s c)) else fmmaStart (coreOf s c) o) with
  | .error e => filFault s c o e
  | .ok r =>
      let s := finishRechecks (filPut s c o r) c
      let s := if o.started then s else modCore s c fun k => startRecheck k c o (memberSlots s o)
      let real := coreOf s c
      let k := { real with spad := engineSpad s c o.id }
      let s := { s with fresh := s.fresh + 1 }
      let (a, b) := filOpnds k o
      let k1 := kBlockEnd a b (filM o) (filN o) (filK o) (filK o) o.nextK
      if r.eaten then filEaten s c o
      else match fmmaBlock k o a b o.nextK k1 with
        | .error e => filFault s c o e
        | .ok q =>
            let q := { q with core := { q.core with spad := real.spad } }
            let last := decide (filK o ≤ k1)
            let q := if last && !filHold o then q.andThen fun k => drainBank k (filBankB o) else q
            let s := filPut s c o q
            if q.eaten then filEaten s c o
            else if last then finishRechecks (filDone s c o) c
            else
              let (due, s) := takeDue s
              modCore s c fun k => { k with fil := k.fil.map fun p =>
                if p.id = o.id then { p with started := true, nextK := k1, due := due } else p }

/-- The operation at the head of the array's queue is performed (R327). -/
def filPerform (s : State) (c : Nat) : State :=
  match (coreOf s c).fil with
  | [] => s
  | o :: _ =>
      if !filStands s o then dropRecheck (filPop s c o.id) c o.id
      else if o.opc = 0x6B then fmmaPerform s c o
      else
        let k := coreOf s c
        let r := match o.opc.toNat with
          | 0x6C => if (bankOf k (filBankB o)).live then drainBank k (filBankB o) else arrayOk k
          | 0x6D =>
              let q := mergeBanks k
              { q with core := mergeRechecks q.core k }
          | 0x6E => arrayOk (if o.fields.fn = 0 then zeroBank k (filBankB o) else zeroTile k (filTile o))
          | _ =>
              if o.fields.fn = 0 then faccPerform k o
              else
                let q := faccPerform { k with spad := engineSpad s c o.id } o
                { q with core := { q.core with spad := k.spad } }
        let s := if o.opc = 0x6F then { s with fresh := s.fresh + 1 } else s
        let s := filPut s c o r
        if r.eaten then filEaten s c o else finishRechecks (filDone s c o) c

/-! ### Issue (R320, R326) -/

/-- Count an FMMA of a context on a core; whether it is sampled (R170). -/
def countFmma (s : State) (c ctx : Nat) : Bool × State :=
  let (set, n) := mgetD (coreOf s c).recheck ctx (0, 0)
  (set != 0 && (n + 1) % 2 ^ set == 0,
   modCore s c fun k => { k with recheck := mput k.recheck ctx (set, n + 1) })

/-- A Filigree operation enters the array's queue, for one strand or for the members of a clasp. -/
def filStart (s : State) (views : List Iss) (vals : List Word) (gather : List Nat) : State :=
  match views with
  | [] => s
  | v :: _ =>
      let fmma := v.opc == 0x6B
      let (id, s) := takeId s
      let (ops, s) := views.foldl (fun (acc : List Nat × State) w =>
        let (o, s) := startOp acc.2 w (if fmma then .fmma else .fil) fmma w.act [] .none false false (.fil id) [] none
        (acc.1 ++ [o], s)) ([], s)
      let (sampled, s) := if fmma then countFmma s v.c v.x.ctx else (false, s)
      let (due, s) := takeDue s
      let r := (myResv s v).map fun r => (r.base, r.spad)
      let o : FilOp :=
        { id := id, ctx := v.x.ctx, lcnt := v.x.lcnt, slot := v.sl, ops := ops, opc := v.opc, fields := v.f,
          vals := vals, gather := gather, base := (r.map (·.1)).getD 0, spad := (r.map (·.2)).getD 0, nextK := 0,
          started := false, due := due, sampled := sampled, batch := v.x.batch, pc := v.pc, marked := [] }
      modCore s v.c fun k => { k with fil := k.fil ++ [o] }

/-- The index list that the operands of an operation name, as the gather unit reads it at issue: a word stored without an OPFENCE is
old or new (R142, R324, R328). -/
def gatherOf (s : State) (v : Iss) (vals : List Word) : List Nat :=
  if v.opc = 0x6B then
    gatherList (engineSpad s v.c s.nextId) (((myResv s v).map (·.base)).getD 0) (vals.take 4) (wordAt vals 8)
  else []

/-- The index list holds a poisoned word, which reading it consumes (R188). -/
def gatherPoisoned (s : State) (v : Iss) (vals : List Word) : Bool :=
  match gatherAddr (vals.take 4) with
  | some a =>
      v.opc == 0x6B && (List.range (wordAt vals 8)).any fun r =>
        (coreOf s v.c).spadPoison.contains ((((myResv s v).map (·.base)).getD 0 * 4096 + a + 2 * r) / 4)
  | none => false

/-- A joint operation is performed once for all members (R326). -/
def jointDone (s : State) (c : Nat) (g : Clasp) : State :=
  let arr := sortBy (fun a : ClaspArrival => a.slot) g.arrived
  let views := arr.filterMap fun a => (viewOf { s with cur := some (c, a.entry) } a.opc a.fields).map fun v =>
    { v with sample := v.sp.held }
  let vals := ((arr.head?).map (·.vals)).getD []
  let gather := match views with
    | v :: _ => gatherOf s v vals
    | [] => []
  let eaten := (views.head?.map fun v => gatherPoisoned s v vals).getD false
  let s := arr.foldl (fun s a => claspRelease s c a none) (filStart s views vals gather)
  match (coreOf s c).fil.getLast? with
  | some o => if eaten then filEaten s c o else s
  | none => s

/-- Joint operations of a core whose members have all arrived go on (R98). -/
def gatherDone (s : State) (c : Nat) : State :=
  let full := (coreOf s c).clasps.filter (claspFull s c)
  full.foldl (fun s g =>
    let s := modCore s c fun k => { k with clasps := k.clasps.filter fun h => h.value != g.value }
    if g.arrived.all fun a => a.opc == 0x71 then claspsetDone s c g else jointDone s c g) s

/-- A Filigree instruction with its operands, alone or as a joint operation (R326). -/
def filIssue (s : State) (v : Iss) (vals : List Word) : Except Stop State := do
  (if v.opc = 0x6B then windowOpen s v v.act else .ok ())
  (if v.opc = 0x6B || v.opc = 0x6F then acquirePassed s v else .ok ())
  if v.f.md.getLsbD 2 then do
    let value ← readAux v
    claspCheck s v value
    let s ← claspArrive s v value 0 vals
    .ok (gatherDone s v.c)
  else .ok (advance (filStart s [v] vals (gatherOf s v vals)) v)

/-- FMMA (R328 to R330). -/
def fmmaBody (f : Fields) (s : State) (v : Iss) : Except Stop State := do
  let qa ← readQuad v f.a.toNat 4 f.ea
  let qb ← readQuad v f.b.toNat 4 f.eb
  let qc ← readQuad v f.c.toNat 3 f.ec
  let vals := qa ++ qb ++ qc
  let m := wordAt qc 0
  let n := wordAt qc 1
  let kk := wordAt qc 2
  if !quadOk qa false then .error (stopIllegal v 4)
  else if !quadOk qb true then .error (stopIllegal v 5)
  else if m = 0 ∨ 64 < m ∨ n = 0 ∨ 64 < n ∨ kk = 0 ∨ 2 ^ 24 < kk then .error (stopIllegal v 8)
  else match myResv s v with
    | none => .error (.trap 0x05 0)
    | some r =>
        let k := coreOf s v.c
        let list := match gatherAddr qa with
          | none => true
          | some a => decide (a + 2 * m ≤ r.spad * 4096)
        let a := opndOf k r.base qa (gatherOf s v vals) false
        let b := opndOf k r.base qb [] true
        let x := bankOf k (f.md.getLsbD 0)
        if !list || !reachOk a r.base r.spad m kk || !reachOk b r.base r.spad n kk then .error (.trap 0x05 0)
        else if f.md.getLsbD 1 && x.live && (x.tile != f.imm16.toNat || x.integer != filMode a b) then
          .error (.trap 0x06 0)
        else if !f.md.getLsbD 2 && gatherPoisoned s v vals then .error (.fatal 0x80)
        else filIssue s v vals

/-- FMMA (R330). -/
def execFmma (f : Fields) (s : State) : Host.Outcome State Fault Refusal := issue s 0x6B f (fmmaBody f)
/-- FDRAIN (R331). -/
def execFdrain (f : Fields) (s : State) : Host.Outcome State Fault Refusal := issue s 0x6C f fun s v => filIssue s v []
/-- FMERGE (R331). -/
def execFmerge (f : Fields) (s : State) : Host.Outcome State Fault Refusal := issue s 0x6D f fun s v => filIssue s v []
/-- FZERO.bank (R331). -/
def execFzeroBank (f : Fields) (s : State) : Host.Outcome State Fault Refusal := issue s 0x6E f fun s v => filIssue s v []
/-- FZERO.tile (R331). -/
def execFzeroTile (f : Fields) (s : State) : Host.Outcome State Fault Refusal := issue s 0x6E f fun s v => filIssue s v []

/-- FACC (R332). -/
def faccBody (_f : Fields) (s : State) (v : Iss) : Except Stop State := do
  let (s, xa) ← srcA s v false
  let (s, xb) ← srcB s v false .b32 false
  let (s, xc) ← srcC s v false
  consume xa 1
  consume xb 1
  consume xc 1
  let a := (xa.val 0).toNat % 2 ^ 32
  let b := (xb.val 0).toNat % 2 ^ 32
  let p := (xc.val 0).toNat % 2 ^ 32
  let rows := bitsOf b 18 12
  let cols := bitsOf b 25 19
  let room := ((myResv s v).map fun r => r.spad * 4096).getD 0
  if rows = 0 ∨ 64 < rows ∨ cols = 0 ∨ 64 < cols ∨ bitsOf b 31 26 ≠ 0 ∨ 64 < bitsOf b 5 0 + rows ∨
      64 < bitsOf b 11 6 + cols then .error (stopIllegal v 5)
  else if p % 4 ≠ 0 ∨ p < 4 * cols then .error (stopIllegal v 8)
  else if a % 4 ≠ 0 then .error (.trap 0x03 4)
  else if room < a + (rows - 1) * p + 4 * cols then .error (.trap 0x05 0)
  else filIssue s v [BitVec.ofNat 32 a, BitVec.ofNat 32 b, BitVec.ofNat 32 p]

/-- FACC (R332). -/
def execFacc (f : Fields) (s : State) : Host.Outcome State Fault Refusal := issue s 0x6F f (faccBody f)

/-- FCFG (R333). -/
def fcfgBody (_f : Fields) (s : State) (v : Iss) : Except Stop State := do
  let (s, xa) ← srcA s v false
  consume xa 1
  let w := (xa.val 0).toNat % 2 ^ 32
  if w ≠ 0 ∧ (w < 4 ∨ 16 < w) then .error (stopIllegal v 4)
  else .ok (advance (onCore s v fun k =>
    { k with recheck := mput k.recheck v.x.ctx (w, (mgetD k.recheck v.x.ctx (0, 0)).2) }) v)

/-- FCFG (R333). -/
def execFcfg (f : Fields) (s : State) : Host.Outcome State Fault Refusal := issue s 0x70 f (fcfgBody f)

/-- CLASPSET (R325). -/
def claspsetBody (f : Fields) (s : State) (v : Iss) : Except Stop State := do
  let value ← readAux v
  laterDest s v f.d.toNat
  claspCheck s v value
  releaseFirst s v
  let s ← claspArrive s v value f.d.toNat []
  .ok (gatherDone s v.c)

/-- CLASPSET (R325). -/
def execClaspset (f : Fields) (s : State) : Host.Outcome State Fault Refusal := issue s 0x71 f (claspsetBody f)

/-- FILIGREE_PERFORM: the array of a core performs the next piece of its oldest operation, when its latency has passed
and no stop is requested (R184, R327). -/
def execFiligreePerform (core : Nat) (s : State) : Host.Outcome State Fault Refusal :=
  match (coreOf s core).fil with
  | o :: _ => if o.due ≤ s.now && (coreOf s core).stopReq.isNone then .next (filPerform s core) else .next s
  | [] => .next s

end Sys2Proof.Machine
end

