-- ==== Sys2Proof/Machine/Copy.lean ====
section
/-! DEFINITION. The copy engine (R113, R114, R145, R334 to R336) and what it shares with the other engines: translation of
buffers, replies. -/
namespace Sys2Proof.Machine

/-! ### Engine translation (R127, R177, R304) -/

/-- An access that waits at the service for an engine operation. -/
def serviceAcc (va : DWord) (eva now d : Nat) : Access :=
  { newAcc 0 va 0 0 with eva := eva, st := .atService now d, svc := true }

/-- Translate an address of an engine operation; a translation fault goes to the service, and the operation waits. -/
def engineFind (s : State) (o : Op) (va : DWord) (n : Need) :
    Except (Nat × Word) (Option (Leaf × Nat × Place)) × State :=
  let (r, s) := findPlace s o.core o.slot o.ctx (lowLane o.lanes) va n
  match r with
  | .fault c d => (.error (c, d), s)
  | .service d eva =>
      (.ok none, modOp s o.id fun p => { p with accs := p.accs ++ [serviceAcc va eva s.now d] })
  | .place l eva p => (.ok (some (l, eva, p)), s)

/-- Some address of the operation is at the service. -/
def atService (o : Op) : Bool := o.accs.any fun a => match a.st with
  | .atService _ _ => true
  | _ => false

def readNeed : Need := { rd := true, wr := false, rmw := false, cpy := true, tok := false }
def writeNeed : Need := { rd := false, wr := true, rmw := false, cpy := true, tok := false }

/-- A place moved by some bytes. -/
def placeAdd (p : Place) (n : Nat) : Place :=
  match p with
  | .dev pa k => .dev (pa + n) k
  | .fab a t => .fab (a + n) t
  | .chip pa => .chip (pa + n)
/-- A place moved back to the start of its page. -/
def placeSub (p : Place) (n : Nat) : Place :=
  match p with
  | .dev pa k => .dev (pa - n) k
  | .fab a t => .fab (a - n) t
  | .chip pa => .chip (pa - n)

/-! ### The core state of a context on a core, live or saved (R114) -/

/-- A cluster holds the state of a context. -/
def ctxLiveAt (s : State) (ctx c : Nat) : Bool := (clusterAt s (clusterOf c)).resident == some ctx

/-- The context has a saved image of a core. -/
def imageThere (s : State) (ctx c : Nat) : Bool := s.images.any fun im => im.ctx == ctx && im.core == c

/-- The core state of a context on a core: live, saved, or, where it has neither run nor been written, empty. -/
def ctxCore (s : State) (ctx c : Nat) : Core :=
  if ctxLiveAt s ctx c then coreOf s c
  else ((s.images.find? fun im => im.ctx == ctx && im.core == c).map (·.data)).getD emptyCore

/-- Change it; a write to a core image that does not exist yet makes it. -/
def modCtxCore (s : State) (ctx c : Nat) (g : Core → Core) : State :=
  if ctxLiveAt s ctx c then modCore s c g
  else if imageThere s ctx c then
    { s with images := s.images.map fun im => if im.ctx = ctx ∧ im.core = c then { im with data := g im.data } else im }
  else { s with images := s.images ++ [{ ctx := ctx, core := c, data := g emptyCore, ops := [] }] }

/-! ### The on-chip physical map (R113, R114) -/

/-- A scratchpad byte lies in a granule of a launch of the context (R114). -/
def spadOfCtx (k : Core) (ctx a : Nat) : Bool :=
  k.resvs.any fun r => r.ctx == ctx && decide (r.base * 4096 ≤ a) && decide (a < (r.base + r.spad) * 4096)

/-- Read a word of the on-chip map, with its poison mark; a write-only area is PERM, a reserved one REMOTE (log entry
34). -/
def chipRead (s : State) (ctx pa : Nat) : Except (Nat × Word) (Word × Bool) :=
  let (c, spot) := chipSpot pa
  let k := ctxCore s ctx c
  match spot with
  | .reserved => .error (0x0E, remoteDetail 0x12 0xFF)
  | .spad a =>
      if spadOfCtx k ctx a then .ok (spadWord k (a / 4 * 4), k.spadPoison.contains (a / 4)) else .error (0x05, 3)
  | .acc i => .ok (mgetD k.acc i 0, k.accPoison.contains i)
  | _ => .error (0x05, 3)

/-- The outcome of an on-chip write: done, held by a blocking order or a PENDING register, or a fault. -/
inductive ChipWrite where
  | done (s : State)
  | blocked (o : WaitObj)
  | held
  | fault (code : Nat) (detail : Word)

/-- Another operation stands before this one in a blocking order (R101, R103, R187). -/
def queueAhead (s : State) (ctx c : Nat) (k : Core) (o : WaitObj) (op : Nat) (mine : Option (Nat × WaitObj × Nat)) : Bool :=
  waitsBefore s ctx c k o (mine.bind fun (c', o', m) => if c' = c ∧ o' = o then some m else none) none (some op)

/-- A word of the on-chip map that a context may not write (R113, R114; log entry 34): code and DETAIL. -/
def chipDenied (s : State) (ctx pa : Nat) : Option (Nat × Word) :=
  let (c, spot) := chipSpot pa
  let k := ctxCore s ctx c
  let own (sl : Nat) : Option (Nat × Word) := if ((mget k.slots sl).map (·.ctx)) = some ctx then none else some (0x05, 3)
  match spot with
  | .reserved => some (0x0E, remoteDetail 0x12 0xFF)
  | .spad a => if spadOfCtx k ctx a then none else some (0x05, 3)
  | .acc _ => none
  | .mbox n => if k.resvs.any fun r => r.ctx == ctx && r.mbox.getLsbD n then none else some (0x05, 3)
  | .queue n =>
      if !(k.resvs.any fun r => r.ctx == ctx && r.queues.getLsbD n) then some (0x05, 3)
      else if (mgetD k.queues n emptyQueue).en then none else some (0x0D, BitVec.ofNat 32 n)
  | .vreg sl _ _ | .sreg sl _ => own sl

/-- Write a word of the on-chip map (R100, R101, R103, R113, R114; log entry 34). -/
def chipPut (s : State) (o : Op) (pa : Nat) (w : Word) (poison : Bool) (mine : Option (Nat × WaitObj × Nat)) :
    ChipWrite :=
  let (c, spot) := chipSpot pa
  let k := ctxCore s o.ctx c
  match chipDenied s o.ctx pa with
  | some (code, d) => .fault code d
  | none => match spot with
      | .reserved => .held
      | .spad a => .done (modCtxCore s o.ctx c fun k => spadPut k (a / 4 * 4) w poison)
      | .acc i => .done (modCtxCore s o.ctx c fun k =>
          { k with acc := mset k.acc i w 0, accPoison := (if poison then [i] else []) ++ k.accPoison.filter (· != i) })
      | .mbox n =>
          if (mgetD k.mbox n emptyMailbox).full || queueAhead s o.ctx c k (.mwrite n) o.id mine then .blocked (.mwrite n)
          else .done (modCtxCore s o.ctx c fun k =>
            let m := mgetD k.mbox n emptyMailbox
            { k with mbox := mput k.mbox n { m with val := w, full := true, poison := poison } })
      | .queue n =>
          let q := mgetD k.queues n emptyQueue
          (match k.resvs.find? fun r => r.ctx == o.ctx && r.queues.getLsbD n with
           | none => .held
           | some r =>
               if k.stopReq.isSome then .held
               else if queueAhead s o.ctx c k (.qpush n) o.id mine || spaceFor q s.now mine.isSome 0 < 1 then .blocked (.qpush n)
               else .done (modCtxCore s o.ctx c fun k =>
                 { spadPut k (queueByte r q q.tail.toNat) w poison with
                     queues := mput k.queues n { snapQueue q s.now with tail := q.tail + 1 } }))
      | .vreg sl r l => chipReg s o.ctx c sl (fun x => (vget x r l).st) fun x => vset x r l { val := w, st := .full, poison := poison }
      | .sreg sl r => chipReg s o.ctx c sl (fun x => (sget x r).st) fun x => sset x r { val := w, st := .full, poison := poison }
where
  /-- A register of a strand becomes FULL; one that is PENDING holds the write. The reader's register read is an acquire (R145). -/
  chipReg (s : State) (ctx c sl : Nat) (st : Strand → RegState) (put : Strand → Strand) : ChipWrite :=
    match mget (ctxCore s ctx c).slots sl with
    | none => .held
    | some x =>
        if st x = .pending then .held
        else .done (raiseView (modCtxCore s ctx c fun k => { k with slots := mput k.slots sl (put x) }) c sl)

/-! ### The moves of a chunk (R335) -/

/-- Codes, exponents and metadata of a formatted side, and the index of its first element. -/
structure Planes where
  geo : Geo
  code : Spot
  expo : Spot
  meta_ : Spot
  first : Nat
  deriving DecidableEq, Repr

/-- The start of a page's codes: a local place is given by the frame, which does not move with the element (R124). -/
def codePlace (l : Leaf) (eva : Nat) (p : Place) : Place :=
  match p with
  | .dev _ k => .dev (entryAddr l.w0.toNat) k
  | q => placeSub q (eva - l.base)

/-- The planes of a page (R124): the codes at its frame, or at its window for a remote page. -/
def pagePlanes (l : Leaf) (eva : Nat) (p : Place) : Planes :=
  let g := leafGeo l
  { geo := g, code := .mem (codePlace l eva p), expo := .mem (.dev g.expo 0), meta_ := .mem (.dev g.meta_ 0),
    first := eva - l.base }

/-- The moves of some elements of one format (R124, R329, R335). -/
def planeMoves (a b : Planes) (len : Nat) (va : DWord) : List Move :=
  let g := a.geo
  let bits (e : Nat) : Nat :=
    if g.fmt < 6 then e * 8 * geoBytes g else if geoN g = 0 then e * geoW g else geoN g * (e / 8) * geoW g
  let codes : Move := { src := a.code, sbit := bits a.first, dst := b.code, dbit := bits b.first, n := bits len, va := va }
  if g.fmt < 6 then [codes]
  else
    [codes, { src := a.expo, sbit := 8 * (a.first / geoL g), dst := b.expo, dbit := 8 * (b.first / geoL g),
              n := 8 * (len / geoL g), va := va }] ++
    (if geoN g = 0 then [] else
      [{ src := a.meta_, sbit := 3 * geoN g * (a.first / 8), dst := b.meta_, dbit := 3 * geoN g * (b.first / 8),
         n := 3 * geoN g * len / 8, va := va }])

/-- The outcome of planning a chunk: its moves and the tags it writes, a fault with its address, or a wait. -/
inductive Plan where
  | go (moves : List Move) (tags : List (Nat × Tag))
  | fault (code : Nat) (detail : Word) (addr : DWord)
  | wait

/-- Split a range at the 4 KiB boundaries of an address. -/
def kiloParts : Nat → Nat → Nat → Nat → List (Nat × Nat)
  | 0, _, _, _ => []
  | fuel + 1, addr, off, len =>
      if len = 0 then []
      else
        let n := min len (4096 - addr % 4096)
        (off, n) :: kiloParts fuel (addr + n) (off + n) (len - n)

/-- The offset and length of each part of a chunk, which crosses no 4 KiB boundary of either memory side. -/
def chunkParts (a b : Option Nat) (off len : Nat) : List (Nat × Nat) :=
  let first := match a with
    | none => [(off, len)]
    | some x => kiloParts (len + 1) (x + off) off len
  match b with
  | none => first
  | some y => first.flatMap fun (o, n) => kiloParts (n + 1) (y + o) o n

/-- Index of the first element of a side within its page (R335). -/
def firstElem (l : Leaf) (va : DWord) : Word :=
  if leafFmt l.w1.toNat = 0 then 0 else BitVec.ofNat 32 (va.toNat % 2 ^ l.bits)

/-- The same format, block and sparsity. -/
def sameFormat (a b : Geo) : Bool := a.fmt == b.fmt && a.blk == b.blk && a.sp == b.sp

/-- The bits that some elements of a format take, and the elements of a block (R124, R336). -/
def geoShape (g : Geo) (start : Nat) : CpyShape :=
  if g.fmt = 0 then { start := start, bits := 8, elems := 1, block := 1 }
  else if g.fmt < 6 then { start := start, bits := 8 * geoBytes g, elems := 1, block := 1 }
  else if geoN g = 0 then { start := start, bits := geoW g, elems := 1, block := geoL g }
  else { start := start, bits := geoN g * geoW g, elems := 8, block := geoL g }

/-- A place in the on-chip map. -/
def isChip (p : Place) : Bool :=
  match p with
  | .chip _ => true
  | _ => false

/-- The on-chip side of formatted moves is read and written by whole words: ALIGN otherwise (R114, R335; log entry 87). -/
def chipPlan (moves : List Move) (tags : List (Nat × Tag)) (va : DWord) : Plan :=
  let whole (p : Spot) (bit n : Nat) : Bool := match p with
    | .mem (.chip _) => bit % 32 == 0 && n % 32 == 0
    | _ => true
  if moves.all fun m => whole m.src m.sbit m.n && whole m.dst m.dbit m.n then .go moves tags else .fault 0x03 4 va

/-- A part of a .mm copy (R335). -/
def planMm (w : CpyWork) (off len : Nat) (a b : Leaf × Nat × Place) : Plan :=
  let fa := leafFmt a.1.w1.toNat
  let fb := leafFmt b.1.w1.toNat
  let va := w.src + BitVec.ofNat 64 off
  let g := leafGeo a.1
  if fa = 0 ∧ fb = 0 then
    if (isChip a.2.2 || isChip b.2.2) && (w.src.toNat % 4 != 0 || w.dst.toNat % 4 != 0 || w.count % 4 != 0) then
      .fault 0x03 4 va
    else .go [{ src := .mem a.2.2, sbit := 0, dst := .mem b.2.2, dbit := 0, n := 8 * len, va := va }] []
  else if !sameFormat g (leafGeo b.1) then .fault 0x06 (firstElem a.1 w.src) va
  else if 6 ≤ fa && (w.src.toNat % geoL g != 0 || w.dst.toNat % geoL g != 0 || w.count % geoL g != 0) then
    .fault 0x06 (firstElem a.1 w.src) va
  else
    chipPlan (planeMoves (pagePlanes a.1 a.2.1 a.2.2) (pagePlanes b.1 b.2.1 b.2.2) len va) [] va

/-- The scratchpad side of a formatted copy: codes from a byte on, exponents and metadata in a companion granule (R335). -/
def spadPlanes (g : Geo) (a comp first : Nat) : Planes :=
  { geo := g, code := .spad a, expo := .spad (comp * 4096), meta_ := .spad (comp * 4096 + 2048), first := first }

/-- Bytes that some elements' codes take in the scratchpad. -/
def codeBytesOf (g : Geo) (n : Nat) : Nat :=
  if g.fmt < 6 then n * geoBytes g else if geoN g = 0 then ceilDiv (n * geoW g) 8 else ceilDiv (geoN g * (n / 8) * geoW g) 8

/-- A part of a .ms copy (R335): `r` is the reservation. -/
def planMs (w : CpyWork) (r : Resv) (off len : Nat) (a : Leaf × Nat × Place) : Plan :=
  let g := leafGeo a.1
  let va := w.src + BitVec.ofNat 64 off
  let d := w.dst.toNat
  let bad : Plan := .fault 0x06 (firstElem a.1 w.src) va
  if some (geoShape g (8 * d)) != w.shape then bad
  else if g.fmt = 0 then
    if isChip a.2.2 && (w.src.toNat % 4 != 0 || d % 4 != 0 || w.count % 4 != 0) then .fault 0x03 4 va
    else .go [{ src := .mem a.2.2, sbit := 0, dst := .spad (r.base * 4096 + d + off), dbit := 0, n := 8 * len, va := va }] []
  else
    let page := (pagePlanes a.1 a.2.1 a.2.2)
    let bfp := decide (6 ≤ g.fmt)
    let n := codeBytesOf g w.count
    let last := (d + n - 1) / 4096
    if bfp && (w.src.toNat % geoL g != 0 || w.count % geoL g != 0 || d % 4096 != 0 ||
        (d / 4096 ≤ w.comp && w.comp ≤ last) || 2048 < w.count / geoL g ||
        2048 < ceilDiv (3 * geoN g * w.count) 64) then bad
    else
      let comp := w.comp + r.base
      let tag : Tag := if bfp then { fmt := g.fmt, blk := g.blk, sp := g.sp, comp := comp }
        else { fmt := g.fmt, blk := 0, sp := 0, comp := 0 }
      let lo := (d + codeBytesOf g off) / 4096
      let hi := (d + codeBytesOf g (off + len) - 1) / 4096
      chipPlan (planeMoves page (spadPlanes g (r.base * 4096 + d) comp off) len va)
        (((List.range (hi + 1 - lo)).map fun i => (r.base + lo + i, tag)) ++ (if bfp then [(comp, emptyTag)] else [])) va

/-- A part of a .sm copy (R335); a BFP source starts at a granule (log entry 33). -/
def planSm (k : Core) (w : CpyWork) (r : Resv) (off len : Nat) (b : Leaf × Nat × Place) : Plan :=
  let g := leafGeo b.1
  let va := w.dst + BitVec.ofNat 64 off
  let d := w.src.toNat
  let bad : Plan := .fault 0x06 (firstElem b.1 w.dst) va
  let tags (lo hi : Nat) : List Tag := (List.range (hi / 4096 + 1 - lo / 4096)).map fun i => tagOf k (r.base + lo / 4096 + i)
  if (w.shape.map fun q => { q with start := 0 }) != some (geoShape g 0) then bad
  else if g.fmt = 0 then
    if isChip b.2.2 && (w.dst.toNat % 4 != 0 || d % 4 != 0 || w.count % 4 != 0) then .fault 0x03 4 va
    else if (tags (d + off) (d + off + len - 1)).any fun t => t.fmt != 0 then bad
    else .go [{ src := .spad (r.base * 4096 + d + off), sbit := 0, dst := .mem b.2.2, dbit := 0, n := 8 * len, va := va }] []
  else
    let page := (pagePlanes b.1 b.2.1 b.2.2)
    let bfp := decide (6 ≤ g.fmt)
    let t0 := tagOf k (r.base + d / 4096)
    if (tags (d + codeBytesOf g off) (d + codeBytesOf g (off + len) - 1)).any fun t =>
        t.fmt != g.fmt || t.blk != g.blk || t.sp != g.sp || t.comp != t0.comp then bad
    else if bfp && (w.dst.toNat % geoL g != 0 || w.count % geoL g != 0 || d % 4096 != 0 || 2048 < w.count / geoL g ||
        2048 < ceilDiv (3 * geoN g * w.count) 64) then bad
    else chipPlan (planeMoves (spadPlanes g (r.base * 4096 + d) t0.comp off) page len va) [] va

/-- A part of a .ss copy. -/
def planSs (w : CpyWork) (r : Resv) (off len : Nat) : Plan :=
  .go [{ src := .spad (r.base * 4096 + w.src.toNat + off), sbit := 0,
         dst := .spad (r.base * 4096 + w.dst.toNat + off), dbit := 0, n := 8 * len, va := 0 }] []

/-- One plan after another. -/
def Plan.append : Plan → Plan → Plan
  | .go a t, .go b u => .go (a ++ b) (t ++ u)
  | .go _ _, p => p
  | p, _ => p

/-- The first unit of chunk i: chunks start at the 4 KiB boundaries of the destination, and a block lies in the chunk in which its
codes begin (R336). -/
def chunkStart (w : CpyWork) (q : CpyShape) (i : Nat) : Nat :=
  if i = 0 then 0
  else min w.count (ceilDiv (((q.start / 32768 + i) * 32768 - q.start) * q.elems) (q.bits * q.block) * q.block)

/-- The range of chunk i in units of the copy (R336). -/
def chunkRange (w : CpyWork) (q : CpyShape) (i : Nat) : Nat × Nat := (chunkStart w q i, chunkStart w q (i + 1))

/-- Chunks of a copy. -/
def chunkCount (w : CpyWork) (q : CpyShape) : Nat :=
  ceilDiv (q.start + ceilDiv (w.count * q.bits) q.elems) 32768 - q.start / 32768

/-- The reservation of an operation's strand. -/
def opResv (s : State) (o : Op) : Option Resv :=
  (strandAt s o.core o.slot).bind fun x => resvOf (coreOf s o.core) x.lcnt

/-- Plan one part of a chunk. -/
def planPart (s : State) (o : Op) (w : CpyWork) (off len : Nat) : Plan × State :=
  let at_ (x : DWord) : DWord := x + BitVec.ofNat 64 off
  let find (s : State) (x : DWord) (n : Need) (k : State → Leaf × Nat × Place → Plan × State) : Plan × State :=
    match engineFind s o (at_ x) n with
    | (.error (c, d), s) => (.fault c d (at_ x), s)
    | (.ok none, s) => (.wait, s)
    | (.ok (some p), s) => k s p
  match opResv s o with
  | none => (.fault 0x05 0 w.src, s)
  | some r =>
      match w.fn with
      | 0 => find s w.src readNeed fun s a => find s w.dst writeNeed fun s b => (planMm w off len a b, s)
      | 1 => find s w.src readNeed fun s a => (planMs w r off len a, s)
      | 2 => find s w.dst writeNeed fun s b => (planSm (coreOf s o.core) w r off len b, s)
      | _ => (planSs w r off len, s)

/-- Plan a chunk: every part is translated and checked before any byte moves. -/
def planChunk (s : State) (o : Op) (w : CpyWork) (q : CpyShape) (i : Nat) : Plan × State :=
  let (lo, hi) := chunkRange w q i
  let parts := chunkParts (if w.fn < 2 then some w.src.toNat else none) (if w.fn = 0 ∨ w.fn = 2 then some w.dst.toNat else none)
    lo (hi - lo)
  parts.foldl (fun (acc : Plan × State) (off, len) =>
    match acc.1 with
    | .go _ _ =>
        let (p, s) := planPart acc.2 o w off len
        (acc.1.append p, s)
    | _ => acc) (.go [] [], s)

/-! ### Reading and writing the moves -/

/-- Offset of a move's bytes in the buffer; its poison marks lie 2^40 above. -/
def moveOff (i : Nat) : Nat := i * 2 ^ 16
def poisonOff : Nat := 2 ^ 40
/-- Bytes that hold a run of bits. -/
def moveBytes (bit n : Nat) : Nat := if n = 0 then 0 else (bit % 8 + n + 7) / 8
/-- Bytes already at a remote destination, kept beside a move's own bytes when the run does not fill them. -/
def edgeOff (i : Nat) : Nat := moveOff i + 2 ^ 15

/-- Put bytes into an operation's buffer. -/
def putGot (s : State) (id off : Nat) (bs : List (Byte × Bool)) : State :=
  modOp s id fun o => { o with got := bs.zipIdx.foldl (fun m (b, j) =>
    let m := mput m (off + j) b.1
    if b.2 then mput m (poisonOff + off + j) 1 else m) o.got }

/-- Read remote bytes into the buffer: from the cache under a token, else by requests (R32, R40, R132, R142). -/
def readRemote (s : State) (o : Op) (addr : Nat) (tkc : Bool) (off len : Nat) (va : DWord) : State :=
  (lineParts (len + 1) addr off len).foldl (fun s (a, f, n) =>
    if tkc && tokenServes s (a / 2 ^ 21) false && cachedAll s a n then putGot s o.id f (cachedRead s a n)
    else
    let (id, s) := newReq s o.core [(a, .read n)] (.chunk o.id f va) none
    modOp s o.id fun o => { o with waits := o.waits ++ [id] }) s

/-- Read a list of on-chip words as bytes. -/
def chipBytes (s : State) (ctx pa : Nat) : Nat → Except (Nat × Word) (List (Byte × Bool))
  | 0 => .ok []
  | n + 1 => do
      let (w, p) ← chipRead s ctx pa
      let rest ← chipBytes s ctx (pa + 4) n
      .ok ((bytesOfWord w).map (fun b => (b, p)) ++ rest)

/-- Read the source of a move into the buffer; DETAIL of a fault otherwise. -/
def readMove (s : State) (o : Op) (m : Move) (i : Nat) : Except (Nat × Word) State :=
  let len := moveBytes m.sbit m.n
  let s' : Except (Nat × Word) State := match m.src with
    | .spad a =>
        let k := coreOf s o.core
        let sp := engineSpad s o.core o.id
        .ok (putGot s o.id (moveOff i) ((List.range len).map fun j =>
          (peek sp (a + m.sbit / 8 + j), k.spadPoison.contains ((a + m.sbit / 8 + j) / 4))))
    | .mem (.dev pa _) =>
        .ok (putGot s o.id (moveOff i) ((List.range len).map fun j =>
          (localByte s (clusterOf o.core) (pa + m.sbit / 8 + j), linePoisoned s ((pa + m.sbit / 8 + j) / 128))))
    | .mem (.chip pa) => (chipBytes s o.ctx (pa + m.sbit / 8) (len / 4)).map fun bs => putGot s o.id (moveOff i) bs
    | .mem (.fab a tkc) => .ok (readRemote s o (a + m.sbit / 8) tkc (moveOff i) len m.va)
  s'.map fun s => match m.dst with
    | .mem (.fab a tkc) =>
        if m.dbit % 8 = 0 ∧ m.n % 8 = 0 then s
        else readRemote s o (a + m.dbit / 8) tkc (edgeOff i) (moveBytes m.dbit m.n) m.va
    | _ => s

/-- The destination bytes of a move over the bytes that are there. -/
def movedBytes (o : Op) (m : Move) (i : Nat) (old : List Byte) : List Byte :=
  let src (j : Nat) : Nat := (mgetD o.got (moveOff i + j) 0).toNat
  let sh := m.sbit % 8
  let writes := (List.range ((m.n + 7) / 8)).map fun j =>
    ({ base := 0, k := m.dbit % 8 + 8 * j, w := min 8 (m.n - 8 * j),
       val := (src j + 256 * src (j + 1)) / 2 ^ sh % 256 } : PlaneWrite)
  peeks (pokePlanes (pokes [] 0 old) writes) 0 old.length

/-- Poison of the destination bytes of a move (R188). -/
def movedPoison (o : Op) (i len : Nat) : List Bool :=
  (List.range len).map fun j => (mget o.got (poisonOff + moveOff i + j)).isSome

/-- Write bytes to device memory with their poison. -/
def devWrite (s : State) (pa : Nat) (bs : List Byte) (ps : List Bool) : State :=
  let s := homeWrite s pa bs
  let bad := (ps.zipIdx.filterMap fun (p, j) => if p then some ((pa + j) / 128) else none).eraseDups
  { s with poison := bad ++ s.poison.filter fun l => !bad.contains l }

/-- Write the destination of a move that is not on chip. -/
def writeMove (s : State) (o : Op) (m : Move) (i : Nat) : State :=
  let len := moveBytes m.dbit m.n
  let ps := movedPoison o i len
  match m.dst with
  | .spad a =>
      let at_ := a + m.dbit / 8
      modCore s o.core fun k =>
        let bs := movedBytes o m i (peeks k.spad at_ len)
        let k := spadStore k at_ bs
        { k with spadPoison := (ps.zipIdx.filterMap fun (p, j) => if p then some ((at_ + j) / 4) else none).eraseDups ++
            k.spadPoison }
  | .mem (.dev pa _) =>
      let at_ := pa + m.dbit / 8
      let s := flushLines s at_ len
      devWrite s at_ (movedBytes o m i (peeks s.mem at_ len)) ps
  | .mem (.fab a tkc) =>
      writeFar s o (a + m.dbit / 8) tkc (moveOff i) m.va
        (movedBytes o m i ((List.range len).map fun j => mgetD o.got (edgeOff i + j) 0))
  | .mem (.chip _) => s

/-- A word of a move into the on-chip map, with its poison. -/
def chipWord (o : Op) (m : Move) (i j : Nat) : Word × Bool :=
  let sh := m.sbit % 8
  let src := (List.range (if sh = 0 then 4 else 5)).map fun q => moveOff i + 4 * j + q
  (BitVec.ofNat 32 (leNat (src.map fun a => mgetD o.got a 0) / 2 ^ sh), src.any fun a => (mget o.got (poisonOff + a)).isSome)

/-- Words of a move into the on-chip map that are not yet written: those whose bytes are still in the buffer. -/
def chipWords (o : Op) (m : Move) (i : Nat) : List Nat :=
  (List.range (m.n / 32)).filter fun j => (mget o.got (moveOff i + 4 * j)).isSome

/-- Change the copy work of an operation. -/
def modCpy (s : State) (id : Nat) (g : CpyWork → CpyWork) : State :=
  modOp s id fun o => match o.work with
    | .cpy w => { o with work := .cpy (g w) }
    | _ => o

/-- Write the words of a move into the on-chip map, in turn, until one waits or faults: none, or the fault. -/
def writeChip (s : State) (id : Nat) (m : Move) (i : Nat) (pa : Nat) : List Nat → State × Option (Nat × Word)
  | [] => (modCpy s id fun w => { w with blocked := none }, none)
  | j :: rest =>
      match opById s id with
      | none => (s, none)
      | some o =>
          let mine := match o.work with
            | .cpy w => w.blocked
            | _ => none
          let (w, bad) := chipWord o m i j
          match chipPut s o (pa + 4 * j) w bad mine with
          | .fault c d =>
              -- a .hz copy that has passed its checks faults no more (R140): what can no longer be written is dropped
              if o.gate == .hz then writeChip (modOp s id fun p => { p with got := taken i j p.got }) id m i pa rest
              else (s, some (c, d))
          | .held => (s, none)
          | .blocked b =>
              (match mine with
               | some _ => (s, none)
               | none =>
                   let c := (chipSpot (pa + 4 * j)).1
                   let q := (nextSeq (ctxCore s o.ctx c) b).1
                   let s := modCtxCore s o.ctx c fun k => (nextSeq k b).2
                   (modCpy s id fun w => { w with blocked := some (c, b, q) }, none))
          | .done s' =>
              let s' := modOp s' id fun p => { p with got := taken i j p.got }
              writeChip (modCpy s' id fun w => { w with blocked := none }) id m i pa rest
where
  /-- The bytes of word j of move i leave the buffer. -/
  taken (i j : Nat) (g : SMap Byte) : SMap Byte := (List.range 4).foldl (fun g q => mdel g (moveOff i + 4 * j + q)) g

/-! ### The event (R336) -/

/-- A .hz copy may become visible, and a copy into the on-chip map is a release at device scope (R140, R145). -/
def cpyMayWrite (s : State) (o : Op) (moves : List Move) : Bool :=
  let older := olderOps s o
  (o.gate == .none || !(older.any fun p => openLanes p &&& o.lanes != 0)) &&
  (!(moves.any fun m => match m.dst with | .mem (.chip _) => true | _ => false) ||
    (!((orderedOps s o).any fun p => opOpen p && orderedBefore p o) && scopeClean s o.core .dev))

/-- The copy is over: the token holds COUNT (R336). -/
def cpyFinish (s : State) (id : Nat) (w : CpyWork) : State := finishToken s id (BitVec.ofNat 32 w.count)

/-- No chunk is left: a copy that runs out of its reservation faults (R334), one that has only checked its chunks performs them
(R140), another one is over. -/
def cpyEnd (s : State) (id : Nat) (w : CpyWork) : State :=
  match w.past, w.shape with
  | some va, _ => faultOp s id 0x05 0 va
  | none, some _ => if w.dry && !w.kept.isEmpty then modCpy s id fun w => { w with dry := false, todo := w.kept.map (·.chunk) } else cpyFinish s id w
  | none, none => cpyFinish s id w

/-- The chunk in progress is written: the next one, or the end. -/
def cpyNext (s : State) (id : Nat) (w : CpyWork) : State :=
  let (due, s) := takeDue s
  let w := { w with cur := none, writing := false, due := due, blocked := none }
  let s := modCpy (modOp s id fun p => { p with got := [], waits := [] }) id fun _ => w
  if w.todo.isEmpty then cpyEnd s id w else s

/-- The chunk in progress of a .hz copy is ready: translated, checked and read. -/
def keepChunk (o : Op) (w : CpyWork) : CpyWork :=
  { w with kept := w.kept ++ [{ chunk := w.cur.getD 0, moves := w.moves, tags := w.tags, got := o.got }] }

/-- The first word of some moves that may not be written into the on-chip map: code, DETAIL, address. -/
def movesDenied (s : State) (ctx : Nat) (moves : List Move) : Option (Nat × Word × DWord) :=
  moves.findSome? fun m => match m.dst with
    | .mem (.chip pa) => (List.range (m.n / 32)).findSome? fun j =>
        (chipDenied s ctx (pa + m.dbit / 8 + 4 * j)).map fun (c, d) => (c, d, m.va)
    | _ => none

/-- The first element of a copy whose scratchpad bytes lie outside the reservation, if any (R334): its codes, or its exponent in a
companion granule that is not of the launch. -/
def cpyOver (w : CpyWork) (g : Geo) (q : CpyShape) (room : Nat) : Option Nat :=
  let a := if w.fn = 1 then w.dst.toNat else w.src.toNat
  if w.fn = 1 && 6 ≤ g.fmt && room ≤ w.comp * 4096 then some 0
  else if room < a + codeBytesOf g w.count then some (8 * (room - a) / q.bits * q.elems)
  else none

/-- The memory side that fixes the format of a copy: the source of .ms, the destination of the others (R334, R335). -/
def formatSide (s : State) (o : Op) (w : CpyWork) : Except (Nat × Word × DWord) (Option (Leaf × Nat × Place)) × State :=
  let find (s : State) (va : DWord) (n : Need) := match engineFind s o va n with
    | (.error (c, d), s) => (Except.error (c, d, va), s)
    | (.ok p, s) => (.ok p, s)
  if w.fn = 1 then find s w.src readNeed
  else if w.fn = 0 then
    match find s w.src readNeed with
    | (.ok (some _), s) => find s w.dst writeNeed
    | r => r
  else find s w.dst writeNeed

/-- A copy with its shape: its chunks, or those before the first element outside the reservation (R334, R336). -/
def withShape (w : CpyWork) (g : Geo) (q : CpyShape) (room : Nat) : CpyWork :=
  match (if w.fn = 1 ∨ w.fn = 2 then cpyOver w g q room else none) with
  | none => { w with shape := some q, todo := List.range (chunkCount w q) }
  | some e =>
      let va := (if w.fn = 1 then w.src else w.dst) + BitVec.ofNat 64 e
      { w with shape := some q, past := some va, todo := (List.range (chunkCount w q)).filter fun i => (chunkRange w q i).2 ≤ e }

/-- The first step of a copy: its format is found, and with it its chunks (R334, R335). -/
def cpyBegin (s : State) (o : Op) (w : CpyWork) : State :=
  let room := ((opResv s o).map fun r => r.spad * 4096).getD 0
  let go (s : State) (w : CpyWork) : State :=
    let s := modCpy s o.id fun _ => w
    if w.todo.isEmpty then cpyEnd s o.id w else s
  if w.fn = 3 then
    go s { w with shape := some { start := 8 * (w.dst.toNat % 4096), bits := 8, elems := 1, block := 1 }
                  todo := List.range (ceilDiv (w.dst.toNat % 4096 + w.count) 4096) }
  else match formatSide s o w with
    | (.error (c, d, va), s) => faultOp s o.id c d va
    | (.ok none, s) => s
    | (.ok (some (l, eva, _)), s) =>
        let g := leafGeo l
        let first := eva - l.base
        let shape := geoShape g 0
        let start := if w.fn = 1 then 8 * w.dst.toNat
          else if g.fmt = 0 then 8 * (w.dst.toNat % 4096) else first * shape.bits / shape.elems
        go s (withShape w g { shape with start := start } room)

/-- Plan chunk i and read its source; a .hz copy also checks its on-chip words (R140). -/
def planAndRead (s : State) (o : Op) (w : CpyWork) (q : CpyShape) (i : Nat) : State :=
      match planChunk s o w q i with
      | (.wait, s) => s
      | (.fault c d va, s) => faultOp s o.id c d va
      | (.go moves tags, s) =>
          let denied := if w.dry then movesDenied s o.ctx moves else none
          let start : Except (Nat × Word × DWord) State := match denied with
            | some e => .error e
            | none => .ok s
          let r := moves.zipIdx.foldl (fun (acc : Except (Nat × Word × DWord) State) (m, j) =>
            match acc with
            | .error e => .error e
            | .ok s => match readMove s o m j with
                | .ok s => .ok s
                | .error (c, d) => .error (c, d, m.va)) start
          match r with
          | .error (c, d, va) => faultOp s o.id c d va
          | .ok s =>
              let (due, s) := takeDue s
              pump (modCpy s o.id fun w =>
                { w with cur := some i, todo := w.todo.filter (· != i), moves := moves, tags := tags, writing := false, due := due
                         reach := (w.reach ++ moves.flatMap (moveReach o.core)).eraseDups })

/-- Start the next chunk: it is planned, and its source is read; a .hz copy performs what it has ready. -/
def cpyChunk (s : State) (o : Op) (w : CpyWork) (q : CpyShape) : State :=
  match leastBy (Config.rank s.fresh) w.todo with
  | none => cpyEnd s o.id w
  | some i =>
      let s := { s with fresh := s.fresh + 1 }
      match (if w.dry then none else w.kept.find? fun p => p.chunk == i) with
      | none => planAndRead s o w q i
      | some p => modCpy (modOp s o.id fun o => { o with got := p.got }) o.id fun w =>
          { w with cur := some i, todo := w.todo.filter (· != i), moves := p.moves, tags := p.tags, writing := false, due := s.now }

/-- A copy that has no chunk in progress. -/
def cpyRead (s : State) (o : Op) (w : CpyWork) : State :=
  match w.shape with
  | none => cpyBegin s o w
  | some q => cpyChunk s o w q

/-- Write the chunk in progress. -/
def cpyWrite (s : State) (o : Op) (w : CpyWork) : State :=
  let moves := w.moves
  if w.dry then cpyNext s o.id (keepChunk o w)
  else if !cpyMayWrite s o moves then modCpy s o.id fun w => { w with due := s.now + 1 }
  else
    let s := if w.writing then s else
      let s := modCore s o.core fun k => { k with tags := w.tags.foldl (fun t (g, x) => mset t g x emptyTag) k.tags }
      moves.zipIdx.foldl (fun s (m, j) => writeMove s o m j) s
    let chips := moves.zipIdx.filterMap fun (m, j) => match m.dst with
      | .mem (.chip pa) => some (m, j, pa + m.dbit / 8)
      | _ => none
    let (s, bad) := chips.foldl (fun (acc : State × Option (Nat × Word × DWord)) (m, j, pa) =>
      match acc.2, opById acc.1 o.id with
      | none, some p =>
          let (s, e) := writeChip acc.1 o.id m j pa (chipWords p m j)
          (s, e.map fun (c, d) => (c, d, m.va))
      | _, _ => acc) (s, none)
    match bad with
    | some (c, d, va) => faultOp s o.id c d va
    | none =>
        let s := pump (modCpy s o.id fun w => { w with writing := true, due := s.now + 1 })
        match opById s o.id with
        | none => s
        | some p =>
            if p.waits.isEmpty && chips.all fun (m, j, _) => (chipWords p m j).isEmpty then cpyNext s o.id w else s

/-- A copy may take its next step; after a stop request no chunk is begun (R184). -/
def cpyReady (s : State) (o : Op) : Bool :=
  match o.work with
  | .cpy w => !o.complete && !o.discarded && !opFaulted o && o.waits.isEmpty && !atService o && decide (w.due ≤ s.now) &&
        (w.cur.isSome || (coreOf s o.core).stopReq.isNone)
  | _ => false

/-- One step of a copy. -/
def cpyStep (s : State) (id : Nat) : State :=
  match opById s id with
  | none => s
  | some o =>
      if !cpyReady s o then s
      else match o.work with
        | .cpy w =>
            (match w.cur with
             | none => cpyRead s o w
             | some _ => cpyWrite s o w)
        | _ => s

/-- CPY_CHUNK_COMPLETE: the copy engine performs its next step (R336). -/
def execCpyChunkComplete (op : Nat) (s : State) : Host.Outcome State Fault Refusal := .next (cpyStep s op)

/-- OK or POISON for a request of an engine operation (R34). -/
def chunkReply (s : State) (r : FabReq) (op off : Nat) (data : List Byte) (poison : Bool) : State :=
  match opById s op with
  | none => s
  | some o =>
      let s := match r.parts with
        | [(a, .read n)] => putGot s op off ((overCached s a (data.take n)).map fun b => (b, poison))
        | _ => s
      let s := modOp s op fun o => { o with waits := o.waits.filter (· != r.id) }
      if o.waits.all (· == r.id) then
        match o.tok with
        | some w => finishToken (modOp s op fun o => { o with tok := none }) op w
        | none => modCpy s op fun w => { w with due := s.now }
      else s

/-! ### CPY (R334) -/

/-- Charges of the remote sides of a copy (R41, R87). -/
def cpyCharges (s : State) (v : Iss) (w : CpyWork) : List (Nat × Nat × Word) :=
  ((if w.fn < 2 then [w.src] else []) ++ (if w.fn = 0 ∨ w.fn = 2 then [w.dst] else [])).filterMap fun va =>
    if va.extractLsb' 57 7 != 0 then none
    else (windowHit s v.c va.toNat).map fun h => (slotFor (coreOf s v.c) (.fabric (bitsOf h.2 15 8)), unitsOf w.count, v.act)

/-- The scratchpad sides of a copy lie in the reservation, as far as that is known at issue (R334). -/
def cpySpadOk (w : CpyWork) (room : Nat) : Bool :=
  let n := if w.fn = 3 then w.count else min 1 w.count
  (w.fn < 2 || decide (w.src.toNat + n ≤ room)) && (w.fn == 0 || w.fn == 2 || decide (w.dst.toNat + n ≤ room))

/-- CPY (R334). -/
def cpyBody (f : Fields) (s : State) (v : Iss) : Except Stop State := do
  let q ← readQuad v f.a.toNat 4 f.ea
  let (s, xb) ← srcB s v false .b32 false
  consume xb 1
  let b := (xb.val 0).toNat % 2 ^ 32
  let w : CpyWork :=
    { fn := f.fn.toNat, src := BitVec.ofNat 64 (wordAt q 0 + wordAt q 1 * 2 ^ 32),
      dst := BitVec.ofNat 64 (wordAt q 2 + wordAt q 3 * 2 ^ 32), count := bitsOf b 23 0, comp := bitsOf b 30 24,
      shape := none, past := none, dry := f.hz, reach := [], todo := [], kept := [], cur := none, moves := [], tags := [], writing := false, due := 0,
      blocked := none }
  let spadSrc := f.fn = 2 ∨ f.fn = 3
  let spadDst := f.fn = 1 ∨ f.fn = 3
  if (spadSrc ∧ wordAt q 1 ≠ 0) ∨ (spadDst ∧ wordAt q 3 ≠ 0) then .error (stopIllegal v 4)
  else if bitOf b 31 then .error (stopIllegal v 5)
  else
    let r := myResv s v
    let k := coreOf s v.c
    let comp := tagOf k (((r.map (·.base)).getD 0) + w.src.toNat / 4096)
    if !cpySpadOk w ((r.map fun r => r.spad * 4096).getD 0) then .error (.trap 0x05 0)
    else if f.fn = 2 && 6 ≤ comp.fmt &&
        !((r.map fun r => r.base ≤ comp.comp && comp.comp < r.base + r.spad).getD false) then .error (.trap 0x05 0)
    else do
      windowOpen s v v.act
      producerReady v [f.d.toNat]
      let charges := cpyCharges s v w
      allowanceOk s v charges
      acquirePassed s v
      let s := markPending s v [f.d.toNat]
      let (due, s) := takeDue s
      let w := { w with due := due }
      let (id, s) := startOp s v .cpy true v.act [] (if f.hz then .hz else .none) false false (.cpy w) charges none
      .ok (if w.count = 0 then finishToken (advance s v) id 0 else advance s v)

/-- CPY (R334). -/
def execCpy (f : Fields) (s : State) : Host.Outcome State Fault Refusal := issue s 0x65 f (cpyBody f)

end Sys2Proof.Machine
end

