-- ==== Sys2Proof/Machine/Token.lean ====
section
/-! DEFINITION. Ownership tokens: TKACQ, TKREL, the holder's and the home's side (R40, R318, R319). -/
namespace Sys2Proof.Machine

/-! ### TKACQ and TKREL (R318, R319) -/

/-- TKACQ (R318). -/
def tkacqBody (f : Fields) (s : State) (v : Iss) : Except Stop State := do
  let (s, xa) ← srcA s v true
  consume xa 1
  memIssue s v .tkacq 0 [f.d.toNat] .none false (memAddr v xa) (fun _ => 0) (fun _ => 0)

/-- TKACQ (R318). -/
def execTkacq (f : Fields) (s : State) : Host.Outcome State Fault Refusal := issue s 0x5F f (tkacqBody f)

/-- TKREL (R319). -/
def tkrelBody (_f : Fields) (s : State) (v : Iss) : Except Stop State := do
  let (s, xa) ← srcA s v true
  consume xa 1
  memIssue s v .tkrel 0 [] .none false (memAddr v xa) (fun _ => 0) (fun _ => 0)

/-- TKREL (R319). -/
def execTkrel (f : Fields) (s : State) : Host.Outcome State Fault Refusal := issue s 0x60 f (tkrelBody f)

/-- The token value of TKACQ (R318): STATUS, and the kind held afterwards. -/
def tkToken (s : State) (region status : Nat) : Word :=
  BitVec.ofNat 32 (status + 4 * bit ((mget s.fab.tokens region).getD false))

/-- An acquisition or release is over: its access settles and, for TKACQ, the token is written. -/
def tkSettle (s : State) (o : Op) (w : Option Word) : State :=
  let s := modOp s o.id fun p => { p with accs := p.accs.map fun a => if accOpen a then { a with st := .settled } else a }
  match w with
  | some w => finishToken s o.id w
  | none => settleLanes (modOp s o.id fun p => { p with complete := true }) o.id o.lanes

/-- The region of a fabric address. -/
def regionOf (addr : Nat) : Nat := addr / 2 ^ 21
/-- Requests of a region that still run under its token: line fetches, write-backs, and accesses that have left (R40). -/
def regionBusy (s : State) (region : Nat) : Bool :=
  s.fab.reqs.any fun r => r.addr / 2 ^ 21 == region && (isFill r || isWriteBack r || (isUncached r && r.sent))

/-- The token of a region is on its way home. -/
def returning (s : State) (region : Nat) : Bool := s.fab.reqs.any fun r => isReturn r && r.addr / 2 ^ 21 == region

/-- The token of a region can go home: it is held, nothing runs under it, and it is not on its way already (R40, R319). -/
def canReturn (s : State) (region : Nat) : Bool :=
  (mget s.fab.tokens region).isSome && !(s.fab.revoking.contains region || returning s region || regionBusy s region)

/-- Dirty bytes of a region, by fabric address. -/
def dirtyOf (s : State) (region : Nat) : List (Nat × Byte) :=
  (s.fab.cached.filter fun p => regionOf p.1 == region && p.2.2).map fun p => (p.1, p.2.1)

/-- The token of a region and what it cached are gone from this device. -/
def dropToken (s : State) (region : Nat) : State :=
  { s with fab := { s.fab with
    tokens := mdel s.fab.tokens region
    cached := s.fab.cached.filter fun p => regionOf p.1 != region
    cachedPoison := s.fab.cachedPoison.filter fun l => l / 2 ^ 14 != region } }

/-- One access of an operation waits a cycle. -/
def tkRetry (s : State) (o : Op) : State := modAcc s o.id 0 fun a => { a with st := .ready (s.now + 1) }

/-- TKACQ at its turn (R318). -/
def acquireStep (s : State) (o : Op) (p : Place) : State :=
  let excl := o.fields.fn == 1
  match p with
  | .fab addr true =>
      let region := regionOf addr
      if useStopped s region then tkRetry s o
      else match mget s.fab.tokens region with
        | some ex =>
            if ex || !excl then tkSettle s o (some (tkToken s region 0)) else send region
        | none =>
            if 4096 ≤ s.fab.tokens.length && !(s.fab.acquiring.any fun a => a.1 == region) then
              tkSettle s o (some (tkToken s region 1))
            else send region
  | .fab addr false => tkSettle s o (some (tkToken s (regionOf addr) 2))
  | _ => tkSettle s o (some 2)
where
  send (region : Nat) : State :=
    let excl := o.fields.fn == 1
    match s.fab.acquiring.find? fun a => a.1 == region with
    | some a =>
        let s := { s with fab := { s.fab with acquiring := s.fab.acquiring.map fun b =>
          if b.1 = region then (b.1, b.2.1, b.2.2 ++ [o.id]) else b } }
        modAcc s o.id 0 fun x => { x with st := .sent (a.2.2.headD 0) }
    | none =>
        let (r, s) := newReq s o.core [(region * 2 ^ 21, .tokenAcq excl)] (.token o.id) none
        let s := { s with fab := { s.fab with acquiring := s.fab.acquiring ++ [(region, excl, [o.id])] } }
        pump (modAcc s o.id 0 fun x => { x with st := .sent r })

/-- TKREL at its turn (R319): cached use stops, what runs under the token settles, the dirty lines go home with the token, and
this device holds both until the home acknowledges. -/
def releaseStep (s : State) (o : Op) (p : Place) : State :=
  match p with
  | .fab addr _ =>
      let region := regionOf addr
      let s := { s with fab := { s.fab with
        releasing := (s.fab.releasing.filter fun r => r.2 != o.id && opReleases s r.2) ++ [(region, o.id)] } }
      if (mget s.fab.tokens region).isNone then tkSettle s o none
      else if !canReturn s region then tkRetry s o
      else
        let dirty := dirtyOf s region
        let (r, s) := newReq s o.core [(region * 2 ^ 21, .tokenRel dirty)] (.token o.id) none
        pump (modAcc s o.id 0 fun x => { x with st := .sent r })
  | _ => tkSettle s o none

/-- The device gives back the token of a region with what it holds dirty, and keeps both until the home acknowledges (R31, R40). -/
def returnToken (s : State) (region : Nat) : State :=
  pump (newReq s 0 [(region * 2 ^ 21, .tokenRel (dirtyOf s region))] (.writeBack none) none).2

/-- TKACQ or TKREL takes its step once its access is translated. -/
def tokenStep (s : State) (id : Nat) : State :=
  match opById s id with
  | none => s
  | some o =>
      match o.accs.head? with
      | none => s
      | some a =>
          match a.place with
          | none => s
          | some p =>
              if accDue s a && performable s o a then
                (if o.kind == .tkacq then acquireStep s o p else releaseStep s o p)
              else s

/-- LOCAL_ACCESS_COMPLETE: accesses of an operation whose latency has passed are performed (R106, R133, R308). -/
def execLocalAccessComplete (op : Nat) (s : State) : Host.Outcome State Fault Refusal :=
  .next (match opById s op with
    | none => s
    | some o => if o.kind == .tkacq || o.kind == .tkrel then tokenStep s op
        else if (readyAccs s o).isEmpty then s else performOp s op)

/-! ### The holder's side (R40) -/

/-- TOKEN_GRANT: the home's answer to an acquisition (R40, R318). A .ex that joined a .sh goes on now that the .sh is
complete. -/
def tokenGranted (s : State) (id : Nat) (st : TokenStatus) : State :=
  match s.fab.reqs.find? fun r => r.id == id && r.sent with
  | none => s
  | some r =>
      match r.parts with
      | [(addr, .tokenAcq excl)] =>
          let region := regionOf addr
          let s := match r.port with
            | some n => modPort s n fun p => { p with credits := p.credits + 1 }
            | none => s
          let s := dropReq s id
          let joined := (s.fab.acquiring.filter fun a => a.1 == region).flatMap fun a => a.2.2
          let s := { s with fab := { s.fab with acquiring := s.fab.acquiring.filter fun a => a.1 != region } }
          let full := 4096 ≤ s.fab.tokens.length && (mget s.fab.tokens region).isNone
          let granted := st == .granted && !full
          let s := if granted then
              { s with fab := { s.fab with
                tokens := mput s.fab.tokens region (excl || (mget s.fab.tokens region).getD false) } }
            else s
          let status := if granted then 0 else if st == .failed then 2 else 1
          pump (joined.foldl (fun s op => match opById s op with
            | none => s
            | some o =>
                if o.fields.fn == 1 && !excl then
                  modAcc s op 0 fun a => { a with st := .ready s.now }
                else tkSettle s o (some (tkToken s region status))) s)
      | _ => s

/-- TOKEN_GRANT. -/
def execTokenGrant (id : Nat) (st : TokenStatus) (s : State) : Host.Outcome State Fault Refusal :=
  .next (tokenGranted s id st)

/-- A revocation is acknowledged once nothing runs under the token and no release of it is on its way (R40). -/
def revokeFinish (s : State) (region : Nat) : State :=
  if regionBusy s region || returning s region then s
  else
    let ack : Wire := .revokeAck (region / 2 ^ 27) (region % 2 ^ 27) (dirtyOf s region)
    let s := dropToken s region
    pump { s with fab := { s.fab with wire := s.fab.wire ++ [ack], revoking := s.fab.revoking.filter (· != region) } }

/-- TOKEN_REVOCATION: the holder stops cached use (R40). -/
def execTokenRevocation (home region : Nat) (s : State) : Host.Outcome State Fault Refusal :=
  let key := home * 2 ^ 27 + region
  let marked := if s.fab.revoking.contains key then s.fab.revoking else s.fab.revoking ++ [key]
  .next (if (mget s.fab.tokens key).isSome || returning s key then revokeFinish { s with fab := { s.fab with revoking := marked } } key
    else { s with fab := { s.fab with wire := s.fab.wire ++ [.revokeAck home region []] } })

/-! ### The home's side (R39, R40) -/

/-- The export entry that serves a request of a device at an offset: the lowest-numbered (R39). -/
def exportFor (s : State) (src offset : Nat) : Option Nat :=
  (s.fab.exports.find? fun (_, w) =>
    let x := w.toNat
    bitOf x 0 && decide (bitsOf x 95 64 * 2 ^ 16 ≤ offset) && decide (offset < bitsOf x 95 64 * 2 ^ 16 + 2 ^ bitsOf x 13 8) &&
      bitOf x (128 + src)).map fun p => p.2.toNat

/-- The physical address of an exported offset (R39). -/
def exportPa (x offset : Nat) : Nat := bitsOf x 127 96 * 2 ^ 16 + (offset - bitsOf x 95 64 * 2 ^ 16)

/-- The 2 MiB region lies inside one entry that serves the device, with TKC (R39). -/
def tokenExport (s : State) (src region : Nat) : Option Nat :=
  match exportFor s src (region * 2 ^ 21) with
  | none => none
  | some x =>
      if bitOf x 2 && decide ((region + 1) * 2 ^ 21 ≤ bitsOf x 95 64 * 2 ^ 16 + 2 ^ bitsOf x 13 8) then some x else none

def dirOf (s : State) (region : Nat) : DirEntry := mgetD s.fab.dir region emptyDir
def putDir (s : State) (region : Nat) (d : DirEntry) : State :=
  { s with fab := { s.fab with dir := mput s.fab.dir region d } }
def sendWire (s : State) (w : Wire) : State := { s with fab := { s.fab with wire := s.fab.wire ++ [w] } }

/-- A region touches the range of a valid export entry. -/
def exportCovers (x region : Nat) : Bool :=
  bitOf x 0 && decide (region * 2 ^ 21 < bitsOf x 95 64 * 2 ^ 16 + 2 ^ bitsOf x 13 8) &&
  decide (bitsOf x 95 64 * 2 ^ 16 < (region + 1) * 2 ^ 21)

/-- A change of an export entry waits for the tokens of the region: no token is granted there (R39). -/
def exportHeld (s : State) (region : Nat) : Bool :=
  s.fab.exportWaits.any fun w => exportCovers (mgetD s.fab.exports w.entry 0).toNat region

/-- Serve the acquisitions of a region in order: revoke what stands in the way once its tenure is over, else grant
(R40). -/
def dirServe : Nat → State → Nat → State
  | 0, s, _ => s
  | fuel + 1, s, region =>
      let d := dirOf s region
      match d.queue with
      | [] => s
      | (src, excl) :: rest =>
          if exportHeld s region then s
          else
          let against := d.holders.filter fun h => h.1 != src && (excl || h.2.1)
          if against.isEmpty then
            let holders := (d.holders.filter fun h => h.1 != src) ++
              [(src, excl || (d.holders.any fun h => h.1 == src && h.2.1), s.now)]
            let s := putDir s region { d with holders := holders, queue := rest }
            dirServe fuel (sendWire s (.grant src region .granted excl)) region
          else
            let due := against.filter fun h => h.2.2 + 4096 ≤ s.now && !d.revoking.contains h.1
            due.foldl (fun s h => sendWire s (.revoke h.1 region))
              (putDir s region { d with revoking := d.revoking ++ due.map (·.1) })

/-- TOKEN_ACQUIRE_REQUEST: an acquisition reaches its home (R39, R40). -/
def execTokenAcquireRequest (src region : Nat) (excl : Bool) (s : State) : Host.Outcome State Fault Refusal :=
  .next (match tokenExport s src region with
    | none => sendWire s (.grant src region .failed excl)
    | some x =>
        if excl && bitOf x 1 then sendWire s (.reply src 2 [])
        else
          let d := dirOf s region
          dirServe (d.queue.length + 1) (putDir s region { d with queue := d.queue ++ [(src, excl)] }) region)

/-- Dirty bytes that come home are written (R40, R147). -/
def writeHome (s : State) (src : Nat) (dirty : List (Nat × Byte)) : State :=
  dirty.foldl (fun s (a, b) => match exportFor s src (a % 2 ^ 48) with
    | some x => homeWrite s (exportPa x (a % 2 ^ 48)) [b]
    | none => s) s

/-- A holder gives its token back. -/
def holderGone (s : State) (src region : Nat) : State :=
  let d := dirOf s region
  putDir s region
    { d with holders := d.holders.filter fun h => h.1 != src, revoking := d.revoking.filter (· != src) }

/-- TOKEN_REVOKE_ACK. -/
def execTokenRevokeAck (src region : Nat) (dirty : List (Nat × Byte)) (s : State) : Host.Outcome State Fault Refusal :=
  let s := holderGone (writeHome s src dirty) src region
  .next (dirServe ((dirOf s region).queue.length + 1) s region)

/-- TOKEN_RELEASE_RECEIVED: the home acknowledges (R40, R319). -/
def execTokenReleaseReceived (src region : Nat) (dirty : List (Nat × Byte)) (s : State) :
    Host.Outcome State Fault Refusal :=
  let s := sendWire (holderGone (writeHome s src dirty) src region) (.reply src 0 [])
  .next (dirServe ((dirOf s region).queue.length + 1) s region)

/-- TOKEN_TENURE_EXPIRY: the home may revoke a token 4,096 cycles after its grant (R40). -/
def execTokenTenureExpiry (region _src : Nat) (s : State) : Host.Outcome State Fault Refusal :=
  .next (dirServe ((dirOf s region).queue.length + 1) s region)

end Sys2Proof.Machine
end

