-- ==== Sys2Proof/Machine/Engines.lean ====
section
/-! DEFINITION. The collective and network instructions and the steps of their operations (R42 to R51, R337 to R342). -/
namespace Sys2Proof.Machine

/-! ### Buffers of engine operations -/

/-- Translate and check a whole buffer (R125, R338, R340): its segments, a fault with its address, or none while the
service has an address. -/
def translateBuf (s : State) (o : Op) (va : DWord) (len size : Nat) (n : Need) :
    Except (Nat × Word × DWord) (Option (List Access)) × State :=
  (kiloParts (len + 1) va.toNat 0 len).foldl
    (fun (acc : Except (Nat × Word × DWord) (Option (List Access)) × State) (off, m) =>
      match acc with
      | (.ok (some as), s) =>
          let a := va + BitVec.ofNat 64 off
          (match engineFind s o a n with
           | (.error (c, d), s) => (.error (c, d, a), s)
           | (.ok none, s) => (.ok none, s)
           | (.ok (some (l, eva, p)), s) =>
               if leafFmt l.w1.toNat != 0 then (.error (0x06, BitVec.ofNat 32 (eva - l.base), a), s)
               else if va.toNat % size != 0 then (.error (0x03, BitVec.ofNat 32 size, va), s)
               else (.ok (some (as ++ [{ newAcc 0 a (BitVec.ofNat 64 m) 0 with eva := eva, place := some p, st := .settled }])), s))
      | _ => acc) (.ok (some []), s)

/-- The first n bytes of some segments. -/
def takeSegs : List (Place × Nat × DWord × Nat) → Nat → List (Place × Nat × DWord × Nat)
  | [], _ => []
  | (p, off, va, len) :: r, n => if n = 0 then [] else (p, off, va, min len n) :: takeSegs r (n - min len n)

/-- Keep the segments of a checked buffer in the operation. -/
def keepBuf (s : State) (id : Nat) (as : List Access) : State := modOp s id fun o => { o with accs := as }

/-- Read the first n bytes of an operation's buffer, noting poison (R188). -/
def readBuf (s : State) (id n : Nat) : State :=
  match opById s id with
  | none => s
  | some o =>
      (takeSegs (bufSegs o) n).foldl (fun s (pl, off, va, len) =>
        match pl with
        | .dev pa _ => putGot s id off ((List.range len).map fun j => (localByte s (clusterOf o.core) (pa + j), linePoisoned s ((pa + j) / 128)))
        | .fab a tkc => (match opById s id with
            | some o => readRemote s o a tkc off len va
            | none => s)
        | .chip _ => s) s

/-- The first n bytes read. -/
def gotBytes (o : Op) (n : Nat) : List Byte := (List.range n).map fun i => mgetD o.got i 0
/-- A poisoned byte was read. -/
def gotPoison (o : Op) : Bool := o.got.any fun p => decide (poisonOff ≤ p.1) && decide (p.1 < 2 * poisonOff)

/-- A poisoned input is consumed: the strand ends with UNCORR (R188). -/
def eatPoison (s : State) (o : Op) : State := faultOp (terminate s o.core o.slot 0x80) o.id 0x80 0 0

/-! ### COLL (R337, R338) -/

/-- The fields of a COLL quad. -/
structure CollParams where
  desc : Nat
  att : BitVec 16
  op : Nat
  dtype : Nat
  count : Nat
  root : Nat
  buf : DWord
  deriving DecidableEq, Repr

def collParams (q : List Word) : CollParams :=
  let a := wordAt q 0
  let b := wordAt q 1
  { desc := bitsOf a 7 0, att := BitVec.ofNat 16 (bitsOf a 23 8), op := bitsOf a 26 24, dtype := bitsOf a 28 27,
    count := bitsOf b 15 0, root := bitsOf b 25 16, buf := BitVec.ofNat 64 (wordAt q 2 + wordAt q 3 * 2 ^ 32) }

/-- The quad of a COLL is legal for its function (R337). -/
def collLegal (fn : Nat) (q : List Word) : Bool :=
  let a := wordAt q 0
  let b := wordAt q 1
  let p := collParams q
  let data := fn == 1 || fn == 2 || fn == 3
  bitsOf a 31 29 == 0 && bitsOf b 31 26 == 0 &&
  (!data || (decide (1 ≤ p.count) && decide (p.count ≤ 4096))) &&
  (fn != 1 || (match p.dtype with
    | 0 | 1 => decide (p.op ≤ 4)
    | 2 => p.op == 1 || p.op == 2
    | _ => p.op == 0))

/-- Bytes of one member's part. -/
def collBytes (p : CollParams) : Nat := p.count * collElem p.dtype

/-- What the unit answers at once, before the buffer is looked at (R338). A retry at the attempt that an abort under way leads to is
answered ABORTED again (R45, R368; log entry 55). WDR is 0 where no attempt stands behind the answer (log entry 59). -/
def collAnswer (s : State) (o : Op) (p : CollParams) : Option Word :=
  let c := collOf s p.desc
  if c.ctx ≠ o.ctx ∨ (rankOf s c (gidOf o.core o.slot)).isNone then some (collToken 3 0 c.att)
  else if c.state = .aborting ∧ (p.att = c.att ∨ p.att = c.att + 1) then some (collToken 1 c.wdr (c.att + 1))
  else if p.att ≠ c.att then some (collToken 2 0 c.att)
  else if o.fields.fn = 4 ∧ c.state = .idle then some (collToken 0 0 c.att)
  else none

/-- What a member's buffer needs: bytes checked, bytes read, rights (R338). -/
def collNeed (c : CollDesc) (p : CollParams) (fn rank : Nat) : Nat × Nat × Need :=
  let n := collBytes p
  match fn with
  | 1 => (n, n, { rd := true, wr := true, rmw := false, cpy := false, tok := false })
  | 2 => (n, if rank = p.root then n else 0, { rd := rank == p.root, wr := true, rmw := false, cpy := false, tok := false })
  | 3 => (if rank = p.root then c.members.length * n else n, n, { rd := true, wr := rank == p.root, rmw := false, cpy := false, tok := false })
  | _ => (0, 0, { rd := false, wr := false, rmw := false, cpy := false, tok := false })

/-- Marks in an operation's buffer that its input has been asked for. -/
def askedKey : Nat := 2 ^ 41

/-- The member arrives at this device's copy, or is turned away there (R338); a request to every other device carries the arrival of
one that the copy takes (R44, R370). -/
def collEnter (s : State) (o : Op) (p : CollParams) (q : List Word) (rank : Nat) : State :=
  let c := collOf s p.desc
  let fn := o.fields.fn.toNat
  let input := gotBytes o (collNeed c p fn rank).2.1
  let packet : FabKind :=
    .coll p.desc p.att.toNat rank (BitVec.ofNat 32 (wordAt q 0)) (BitVec.ofNat 32 (wordAt q 1)) fn input
  let taken := match c.state, c.attempt with
    | .running, some a => collTakes a rank fn p.dtype p.op p.count p.root
    | _, _ => true
  let s := (if taken then otherDevices s c else []).foldl (fun s v => (newReq s o.core [(v * 2 ^ 48, packet)] (.coll o.id p.desc) none).2) s
  collArrive s p.desc rank fn p.dtype p.op p.count p.root input (some o.id)

/-- A COLL may take a step (R338). -/
def collReady (s : State) (o : Op) : Bool :=
  match o.work with
  | .coll q =>
      let p := collParams q
      let c := collOf s p.desc
      !(o.complete || o.discarded || opFaulted o || atService o || !o.waits.isEmpty || o.tok.isSome || collHas s p.desc o.id) &&
        ((collAnswer s o p).isSome || ((rankOf s c (gidOf o.core o.slot)).isSome && (o.fields.fn != 4 || c.state == .running)))
  | _ => false

/-- A COLL takes its next step: it is answered, its buffer is checked and its input read, or it arrives (R338). -/
def collStep (s : State) (id : Nat) : State :=
  match opById s id with
  | none => s
  | some o =>
      match o.work with
      | .coll q =>
          let p := collParams q
          let c := collOf s p.desc
          let fn := o.fields.fn.toNat
          if !collReady s o then s
          else match collAnswer s o p, rankOf s c (gidOf o.core o.slot) with
            | some w, _ => finishToken s id w
            | none, none => s
            | none, some rank =>
                if fn = 4 then
                  collAbort (putColl s p.desc { c with waiting := c.waiting ++ [id] }) p.desc
                else if (mget o.got askedKey).isSome ∨ fn = 0 then
                  (if gotPoison o then eatPoison s o else pump (collEnter s o p q rank))
                else
                  let (len, rd, n) := collNeed c p fn rank
                  match translateBuf s o p.buf len (collElem p.dtype) n with
                  | (.error (e, d, a), s) => faultOp s id e d a
                  | (.ok none, s) => s
                  | (.ok (some as), s) =>
                      let s := readBuf (keepBuf s id as) id rd
                      let s := modOp s id fun o => { o with got := mput o.got askedKey 1 }
                      (match opById s id with
                       | none => s
                       | some o =>
                           if !o.waits.isEmpty then pump s
                           else if gotPoison o then eatPoison s o
                           else pump (collEnter s o p q rank))
      | _ => s

/-- COLL (R337). -/
def collBody (f : Fields) (s : State) (v : Iss) : Except Stop State := do
  let q ← readQuad v f.a.toNat 4 f.ea
  let p := collParams q
  let fn := f.fn.toNat
  if !collLegal fn q then .error (stopIllegal v 4)
  else if fn = 0 && ordRel f.ord && !fenceReady s v.c v.sl v.sp.smask false true f.scope then
    .error (holdStop s f.scope .pipe)
  else do
    windowOpen s v v.act
    producerReady v [f.d.toNat]
    let bytes := if fn = 1 ∨ fn = 2 ∨ fn = 3 then collBytes p else 0
    let charges := [(slotFor (coreOf s v.c) (.group p.desc), unitsOf bytes, v.act)]
    allowanceOk s v charges
    acquirePassed s v
    let s := markPending s v [f.d.toNat]
    let (id, s) := startOp s v .coll true v.act [] .none (fn == 0 && ordAcq f.ord) false (.coll q) charges none
    .ok (collStep (advance s v) id)

/-- COLL.bar. -/
def execCollBar (f : Fields) (s : State) : Host.Outcome State Fault Refusal := issue s 0x66 f (collBody f)
/-- COLL.red. -/
def execCollRed (f : Fields) (s : State) : Host.Outcome State Fault Refusal := issue s 0x66 f (collBody f)
/-- COLL.bcast. -/
def execCollBcast (f : Fields) (s : State) : Host.Outcome State Fault Refusal := issue s 0x66 f (collBody f)
/-- COLL.gather. -/
def execCollGather (f : Fields) (s : State) : Host.Outcome State Fault Refusal := issue s 0x66 f (collBody f)
/-- COLL.abort. -/
def execCollAbort (f : Fields) (s : State) : Host.Outcome State Fault Refusal := issue s 0x66 f (collBody f)

/-- A collective packet at ingress: one of another attempt is dropped and counted (R43). -/
def collIngress (s : State) (desc att : Nat) (take : State → State) : State :=
  let c := collOf s desc
  if BitVec.ofNat 16 att ≠ c.att then putColl s desc { c with drop := min 8191 (c.drop + 1) } else take s

/-- COLL_ARRIVAL_PACKET: an arrival of another device (R43, R370), a request that is answered OK once it is here (R34; log
entry 55). One that comes during ABORTING belongs to an attempt that is over. -/
def execCollArrivalPacket (src desc att rank : Nat) (quad0 quad1 : Word) (fn : Nat) (input : List Byte) (s : State) :
    Host.Outcome State Fault Refusal :=
  let p := collParams [quad0, quad1]
  .next (collIngress (sendWire s (.reply src 0 [])) desc att fun s =>
    if (collOf s desc).state = .aborting then s else collArrive s desc rank fn p.dtype p.op p.count p.root input none)

/-- COLL_ABORT_NOTICE: an abort of another device; every copy enters ABORTING (R45, R339, R370). -/
def execCollAbortNotice (desc att : Nat) (s : State) : Host.Outcome State Fault Refusal :=
  .next (collIngress s desc att fun s => abortComes s desc false [])

/-- A member device acknowledges an abort (R44). One that overtakes the notice, or comes in its cycle, makes the copy enter ABORTING
as the notice does (log entry 55). -/
def ackAbort (s : State) (desc src : Nat) : State :=
  let c := collOf s desc
  match c.state, c.attempt with
  | .aborting, some a =>
      let acks := a.acks.filter (· != src)
      let s := putColl s desc { c with attempt := some { a with acks := acks } }
      if acks.isEmpty then collAbortEnd s desc else s
  | _, _ => abortComes s desc false [src]

/-- COLL_ABORT_ACK (R43, R44, R370). -/
def execCollAbortAck (desc att src : Nat) (s : State) : Host.Outcome State Fault Refusal :=
  .next (collIngress s desc att fun s => ackAbort s desc src)

/-- COLL_TIMEOUT (R45). -/
def execCollTimeout (desc : Nat) (s : State) : Host.Outcome State Fault Refusal :=
  let c := collOf s desc
  .next (match c.state, c.attempt with
    | .running, some a => if a.since + 2 ^ 20 ≤ s.now then collAbort s desc else s
    | _, _ => s)

/-- WITHDRAWAL_NOTICE (R43, R46, R370). -/
def execWithdrawalNotice (desc att rank : Nat) (s : State) : Host.Outcome State Fault Refusal :=
  .next (collIngress s desc att fun s => collWithdrawRank s desc rank)

/-! ### Network operations (R340 to R342) -/

/-- The network token (R342). -/
def netToken (status count : Nat) : Word := BitVec.ofNat 32 (pack [(0, 4, status), (8, 24, count)])

/-- Requests whose triggered operation is over leave the table. -/
def cleanPosts (s : State) : State :=
  { s with net := { s.net with posts := s.net.posts.filter fun p => match p.fired with
    | none => true
    | some id => match opById s id with
        | some o => !o.complete
        | none => false } }

/-- A network operation fails: a fault, or FAILED for a triggered one (R50, R341). -/
def netFail (s : State) (o : Op) (code : Nat) (detail : Word) (addr : DWord) : State :=
  if triggered s o then cleanPosts (finishToken s o.id (netToken 2 0)) else faultOp s o.id code detail addr

def modNet (s : State) (id : Nat) (g : NetWork → NetWork) : State :=
  modOp s id fun o => match o.work with
    | .net w => { o with work := .net (g w) }
    | _ => o

/-- What a network operation needs of its buffer (R341). -/
def netNeed (o : Op) (w : NetWork) : Need :=
  let wr := w.what == 1 || w.what == 3 || (w.what == 4 && o.fields.fn == 0)
  { rd := !wr, wr := wr, rmw := false, cpy := false, tok := false }

/-- An ROD connection (R48, R49). -/
def isRod (s : State) (conn : Nat) : Bool := match mget s.fab.conns conn with
  | some x => !x.getLsbD 1
  | none => false

/-- An operation may be sent: its .hz condition holds, and on an ROD connection the older ones have been sent (R49,
R341). -/
def netMaySend (s : State) (o : Op) (w : NetWork) : Bool :=
  (o.gate == .none || !((olderOps s o).any fun p => openLanes p &&& o.lanes != 0)) &&
  (!isRod s w.conn || !((s.ops ++ s.images.flatMap (·.ops)).any fun p => decide (p.id < o.id) && !p.complete && !p.discarded && !opFaulted p &&
    match p.work with
    | .net x => x.conn == w.conn && (x.what == 0 || x.what == 2) && x.sent.isNone
    | _ => false))

/-- A NETPOST is entered, or refused with FULL (R51, R341). -/
def netEnter (s : State) (o : Op) (w : NetWork) : State :=
  if 4096 ≤ (s.net.posts.filter fun p => p.fired.isNone).length then finishToken s o.id (netToken 1 0)
  else
    let p : Post :=
      { conn := w.conn, tag := w.tag, kind := o.fields.fn.toNat, len := w.len, buf := w.buf, peer := w.peer,
        core := o.core, slot := o.slot, ctx := o.ctx, d := o.fields.d.toNat, fired := none }
    let s := { s with net := { s.net with posts := s.net.posts ++ [p] } }
    settleLanes (modOp s o.id fun p => { p with complete := true }) o.id o.lanes

/-- The buffer of a network operation is checked and, where it is sent, read. -/
def netBuffer (s : State) (o : Op) (w : NetWork) : State :=
  match translateBuf s o w.buf w.len 1 (netNeed o w) with
  | (.error (e, d, a), s) => netFail s o e d a
  | (.ok none, s) => s
  | (.ok (some as), s) =>
      let s := keepBuf s o.id as
      let s := if w.what = 0 ∨ w.what = 2 then readBuf s o.id w.len else s
      pump (modOp s o.id fun o => { o with got := mput o.got askedKey 1 })

/-- A network operation whose buffer is ready acts (R341). -/
def netAct (s : State) (o : Op) (w : NetWork) : State :=
  match w.what with
  | 4 => netEnter s o w
  | 3 =>
      let s := writeSegs s o.id (bufSegs o) o.got
      let n := w.peer.toNat
      pump (tokenWhenDone (modNet s o.id fun w => { w with sent := some s.now }) o.id
        (netToken (if w.len < n then 4 else 0) w.len))
  | k =>
      if gotPoison o then (if triggered s o then netFail s o 0 0 0 else eatPoison s o)
      else if !netMaySend s o w then s
      else
        let payload := if k = 1 then [] else gotBytes o w.len
        modNet (sendWire s (.net k w.conn w.tag w.peer payload w.len)) o.id fun w => { w with sent := some s.now }

/-- A network operation may take a step; after a stop request no message is begun (R184). -/
def netReady (s : State) (o : Op) : Bool :=
  match o.work with
  | .net w =>
      !o.complete && !o.discarded && !opFaulted o && !atService o && o.waits.isEmpty && w.sent.isNone && o.tok.isNone &&
        ((mget o.got askedKey).isSome || triggered s o || (coreOf s o.core).stopReq.isNone) &&
        ((mget o.got askedKey).isNone || w.what == 4 || w.what == 3 || gotPoison o || netMaySend s o w)
  | _ => false

/-- A network operation takes its next step. -/
def netStep (s : State) (id : Nat) : State :=
  match opById s id with
  | none => s
  | some o =>
      if !netReady s o then s
      else match o.work with
        | .net w => cleanPosts (if (mget o.got askedKey).isNone then netBuffer s o w else netAct s o w)
        | _ => s

/-- A connection that a network instruction may name (R48, R340). -/
def connOk (s : State) (ctx conn : Nat) (send : Bool) : Bool :=
  (send && conn == 0) || match mget s.fab.conns conn with
    | none => false
    | some x => x.getLsbD 0 && bitsOf x.toNat 15 8 == ctx

/-- The network instructions (R340). -/
def netBody (what : Nat) (f : Fields) (s : State) (v : Iss) : Except Stop State := do
  let q ← readQuad v f.a.toNat 4 f.ea
  let remote := what = 0 ∨ what = 1 ∨ (what = 4 ∧ f.fn = 1)
  let (s, xb) ← (if remote then srcB s v true .b32 false else .ok (s, noSrc))
  consume xb 1
  let len := wordAt q 1
  let conn := bitsOf (wordAt q 0) 15 0
  if len = 0 ∨ 2 ^ 20 < len then .error (stopIllegal v 4)
  else if !connOk s v.x.ctx conn (what == 2) then .error (.trap 0x05 5)
  else do
    windowOpen s v v.act
    producerReady v [f.d.toNat]
    let charges := [(15, unitsOf len, v.act)]
    allowanceOk s v charges
    acquirePassed s v
    let s := markPending s v [f.d.toNat]
    let w : NetWork :=
      { what := what, conn := conn, tag := bitsOf (wordAt q 0) 31 16, len := len,
        buf := BitVec.ofNat 64 (wordAt q 2 + wordAt q 3 * 2 ^ 32), peer := xb.val 0, sent := none }
    let (id, s) := startOp s v .net true v.act [] (if f.hz then .hz else .none) false false (.net w) charges none
    .ok (netStep (advance s v) id)

/-- NETWR (R341). -/
def execNetwr (f : Fields) (s : State) : Host.Outcome State Fault Refusal := issue s 0x61 f (netBody 0 f)
/-- NETRD (R341). -/
def execNetrd (f : Fields) (s : State) : Host.Outcome State Fault Refusal := issue s 0x62 f (netBody 1 f)
/-- NETSEND (R341). -/
def execNetsend (f : Fields) (s : State) : Host.Outcome State Fault Refusal := issue s 0x63 f (netBody 2 f)
/-- NETPOST (R341). -/
def execNetpost (f : Fields) (s : State) : Host.Outcome State Fault Refusal := issue s 0x64 f (netBody 4 f)

/-! ### The outside of the network (R49 to R51) -/

/-- Fields of a triggered operation: only D is read. -/
def postFields (d : Nat) : Fields :=
  { long := true, hasLit := false, strand := true, d := BitVec.ofNat 7 d, a := 0, b := 0, imm := false, g := 0, c := 0,
    ea := false, eb := false, ec := false, fn := 0, ty := .i32, md := 0, imm16 := 0, scope := .core, ord := .rlx,
    cache := 0, hz := false, aux := 0, lit := 0 }

/-- A message starts a posted request (R51, R341). -/
def firePost (s : State) (p : Post) (i : Nat) (payload : List Byte) : State :=
  let (id, s) := takeId s
  let n := if p.kind = 0 then min p.len payload.length else p.len
  let w : NetWork :=
    { what := if p.kind = 0 then 3 else if p.kind = 1 then 0 else 2, conn := p.conn, tag := p.tag, len := n, buf := p.buf,
      peer := if p.kind = 0 then BitVec.ofNat 64 payload.length else p.peer, sent := none }
  let o : Op :=
    { id := id, core := p.core, slot := p.slot, ctx := p.ctx, kind := .net, pc := 0, npc := 0, opc := 0,
      fields := postFields p.d,
      smask := 0, isns := [], lanes := 0, active := 0, settled := 0, accs := [], gate := .none, acq := false, sc := false,
      scope := .core, fpmode := 0, work := .net w, complete := false, discarded := false, batch := none, replay := false,
      charge := [], sample := none, got := if p.kind = 0 then byteMap (payload.take n) else [], waits := [], tok := none,
      merges := [] }
  let s := { s with
    ops := s.ops ++ [o]
    net := { s.net with posts := s.net.posts.zipIdx.map fun (q, j) => if j = i then { q with fired := some id } else q } }
  netStep s id

/-- A message of a connection starts the oldest request posted on its tag, or is delivered to the receive path (R51). -/
def netMessage (s : State) (conn tag : Nat) (payload : List Byte) : State :=
  match s.net.posts.zipIdx.find? fun p => p.1.conn == conn && p.1.tag == tag && p.1.fired.isNone with
  | some (p, i) => firePost s p i payload
  | none => { s with net := { s.net with received := s.net.received ++ [(conn, tag, payload)] } }

/-- NET_DELIVERY_CONFIRM (R50, R341). -/
def execNetDeliveryConfirm (op : Nat) (s : State) : Host.Outcome State Fault Refusal :=
  .next (match opById s op with
    | none => s
    | some o => match o.work with
        | .net w =>
            if w.sent.isSome && (w.what == 0 || w.what == 2) && !o.complete && !opFaulted o then
              cleanPosts (finishToken s op (netToken 0 w.len))
            else s
        | _ => s)

/-- NET_RETRY_EXHAUSTED (R50). -/
def execNetRetryExhausted (op : Nat) (s : State) : Host.Outcome State Fault Refusal :=
  .next (match opById s op with
    | none => s
    | some o => match o.work with
        | .net w =>
            if w.sent.isSome && w.what < 3 && !o.complete && !opFaulted o then netFail s o 0x0E (remoteDetail 0x13 0xFF) w.buf
            else s
        | _ => s)

/-- The buffer of a network operation that meets the fabric timeout (R37, R50). -/
def netLate (s : State) (o : Op) : Option DWord :=
  match o.work with
  | .net w =>
      (match w.sent with
       | some t => if w.what < 3 && t + 2 ^ 20 ≤ s.now && !o.complete && !o.discarded && !opFaulted o then some w.buf else none
       | none => none)
  | _ => none

/-- A network operation meets the fabric timeout (R37, R50). -/
def netTimeout (s : State) (o : Op) : State :=
  match netLate s o with
  | some buf => netFail s o 0x0E (remoteDetail 0x14 0xFF) buf
  | none => s

/-- NETRD_DATA_RETURN: the data of a NETRD is written into LOCAL (R341). -/
def execNetrdDataReturn (op : Nat) (data : List Byte) (s : State) : Host.Outcome State Fault Refusal :=
  .next (match opById s op with
    | none => s
    | some o => match o.work with
        | .net w =>
            if w.sent.isSome && w.what == 1 && !o.complete && !opFaulted o && o.tok.isNone then
              let s := writeSegs s op (bufSegs o) (byteMap (data.take w.len))
              pump (tokenWhenDone s op (netToken 0 w.len))
            else s
        | _ => s)

/-- The service invalidates a connection: the tokens of its posted requests become CLOSED (R342). -/
def closeConn (s : State) (conn : Nat) : State :=
  let hit := s.net.posts.filter fun p => p.conn == conn && p.fired.isNone
  let s := { s with net := { s.net with posts := s.net.posts.filter fun p => !(p.conn == conn && p.fired.isNone) } }
  hit.foldl (fun s p => modStrandAny s p.ctx p.core p.slot fun x => sset x p.d (fullCell (netToken 3 0))) s

end Sys2Proof.Machine
end

