-- ==== Sys2Proof/Machine/Fabric.lean ====
section
/-! DEFINITION. Replies, lost paths, serving other devices, congestion, remaps and invalidations (R31 to R41, R127, R369). -/
namespace Sys2Proof.Machine

/-! ### Replies (R32, R34, R35, R41) -/

/-- A request that has left the device. -/
def reqSent (s : State) (id : Nat) : Option FabReq := s.fab.reqs.find? fun r => r.id == id && r.sent

/-- A request ends with OK or POISON: its port's credit returns, and its owner takes the data (R34). -/
def reqDone (s : State) (r : FabReq) (data : List Byte) (poison : Bool) : State :=
  let s := match r.port with
    | some n => modPort s n fun p => { p with credits := p.credits + 1 }
    | none => s
  let s := markClean (dropWritten (dropReq s r.id) r) r
  pump (match r.owner with
    | .accesses op idx => replyAccesses s r op idx data poison
    | .chunk op off _ => chunkReply s r op off data poison
    | .token op =>
        let s := dropToken s (regionOf r.addr)
        (match opById s op with
        | some o => tkSettle s o none
        | none => s)
    | .writeBack _ => if isReturn r then dropToken s (regionOf r.addr) else s
    | .coll _ _ => s
    | .fetch c e off => fetchGot s c e r.id off (overCached s r.addr data) poison
    | .block ctx g => blockGot s ctx g r.id r.addr (overCached s r.addr data) poison)

/-- A token acquisition is answered by a grant, not by OK (R32, R40). -/
def isAcquire (r : FabReq) : Bool :=
  match r.parts with
  | [(_, .tokenAcq _)] => true
  | _ => false

/-- REPLY_OK (R34). -/
def execReplyOk (id : Nat) (data : List Byte) (s : State) : Host.Outcome State Fault Refusal :=
  .next (match reqSent s id with
    | some r => if isAcquire r then s else reqDone s r data false
    | none => s)

/-- REPLY_POISON: the destination is poisoned (R34, R188). -/
def execReplyPoison (id : Nat) (s : State) : Host.Outcome State Fault Refusal :=
  .next (match reqSent s id with
    | some r => if isAcquire r then s else reqDone s r [] true
    | none => s)

/-- REPLY_RETRY: the age rises by 1 and a reissue is set for 64 × age cycles later (R35). -/
def execReplyRetry (id : Nat) (s : State) : Host.Outcome State Fault Refusal :=
  .next (match reqSent s id with
    | some r =>
        let s := match r.port with
          | some n => modPort s n fun p => { p with credits := p.credits + 1 }
          | none => s
        let age := min 7 (r.age + 1)
        pump (modReq s id fun q => { q with age := age, sent := false, port := none, reissue := some (s.now + 64 * age) })
    | none => s)

/-- RETRY_REISSUE: the back-off is over, and the request goes out on a port chosen under R27 (R35). -/
def execRetryReissue (_id : Nat) (s : State) : Host.Outcome State Fault Refusal := .next (pump s)

/-- REPLY_REJECT (R34). -/
def execReplyReject (id : Nat) (s : State) : Host.Outcome State Fault Refusal :=
  .next (match reqSent s id with
    | some r => pump (failReq s r 0x02 (fabTarget r.addr))
    | none => s)

/-- Some requests fail with a code and their own targets, those not sent yet among them (log entry 82). -/
def failWhere (s : State) (code : Nat) (hit : FabReq → Bool) : State :=
  pump ((s.fab.reqs.filter hit).foldl (fun s r =>
    if s.fab.reqs.any fun q => q.id == r.id then failReq s r code (fabTarget r.addr) else s) s)

/-- REPLY_DOWN: every outstanding request to the target fails (R34, R37). -/
def execReplyDown (id : Nat) (s : State) : Host.Outcome State Fault Refusal :=
  .next (match reqSent s id with
    | some r => failWhere s 0x04 fun q => fabTarget q.addr == fabTarget r.addr
    | none => s)

/-- TARGET_DOWN_NOTICE (R37). -/
def execTargetDownNotice (target : Nat) (s : State) : Host.Outcome State Fault Refusal :=
  .next (failWhere s 0x11 fun q => fabTarget q.addr == target)

/-- A request was issued 2^20 cycles ago and has no final reply (R37). -/
def reqLate (s : State) (r : FabReq) : Bool := (r.sent || decide (0 < r.age)) && decide (r.first + 2 ^ 20 ≤ s.now)

/-- FABRIC_TIMEOUT: 2^20 cycles after its first issue a request without OK, REJECT or POISON fails (R37); a network operation
meets the same limit (R50). -/
def execFabricTimeout (id : Nat) (s : State) : Host.Outcome State Fault Refusal :=
  .next (match s.fab.reqs.find? fun r => r.id == id with
    | some r => if reqLate s r then pump (failReq s r 0x10 (fabTarget r.addr)) else s
    | none => match opById s id with
        | none => s
        | some o => netTimeout s o)

/-! ### Lost links and pinned paths (R33, R369) -/

/-- A port goes down: every request outstanding through it fails (R67, R369). -/
def portDown (s : State) (n : Nat) : State :=
  match mget s.phys.ports n with
  | none => s
  | some _ =>
      let s := modPort s n fun p => { p with up := false, retraining := false }
      failWhere s 0x15 fun q => q.sent && q.port == some n

/-- A pinned store of a channel is outstanding: sent, and not answered. -/
def chanBusy (s : State) (e : Nat) : Bool :=
  s.fab.reqs.any fun r => r.sent && r.chan == some (e % 8) && fabTarget r.addr == e / 8

/-- PINNED_PATH_SWITCH: the old path has drained, and the channel takes the service's replacement (R33). -/
def execPinnedPathSwitch (chanEntry : Nat) (s : State) : Host.Outcome State Fault Refusal :=
  .next (match mget s.fab.switching chanEntry with
    | none => s
    | some w =>
        if chanBusy s chanEntry then s
        else
          let paths := mset s.fab.paths chanEntry w 0
          pump { s with fab := { s.fab with paths := paths, switching := mdel s.fab.switching chanEntry } })

/-- The service writes a path: at once when nothing is outstanding on the channel, else when it has drained (R33). -/
def writePath (s : State) (e : Nat) (w : BitVec 128) : State :=
  if chanBusy s e && mgetD s.fab.paths e 0 != w then
    { s with fab := { s.fab with switching := mput s.fab.switching e w } }
  else
    let paths := mset s.fab.paths e w 0
    pump { s with fab := { s.fab with paths := paths, switching := mdel s.fab.switching e } }

/-! ### Serving other devices (R34, R38, R39) -/

/-- A remote request as the request kinds of this device. -/
def remoteKind (k : RemoteKind) : FabKind :=
  match k with
  | .read n => .read n
  | .write bs => .write bs
  | .atom fn t x => .atom fn.toNat t x
  | .cas t x y => .cas t x y
  | .cellAdd x => .cellAdd x
  | .cellInit e => .cellInit e
  | .cellRead => .cellRead false
  | .cellReadz => .cellRead true

/-- A request that may write. -/
def kindWrites (k : FabKind) : Bool :=
  match k with
  | .read _ => false
  | _ => true

/-- The bytes of the reply to a read-modify-write (log entry 27). -/
def rmwReply (k : FabKind) (r : RmwResult) : List Byte :=
  match k with
  | .cellAdd _ | .cellInit _ => [r.flags.zeroExtend 8]
  | .cellRead _ => leBytes 4 r.value.toNat ++ [r.flags.zeroExtend 8]
  | _ => leBytes (replySize k) r.value.toNat

/-- Serve a request at a physical address: status, data, state (R34, R38). -/
def serveAt (s : State) (pa : Nat) (k : FabKind) : Nat × List Byte × State :=
  match k with
  | .read n =>
      let s := flushLines s pa n
      if poisonedIn s pa n then (3, [], s) else (0, peeks s.mem pa n, s)
  | .write bs => (0, [], homeWrite s pa bs)
  | k =>
      let n := rmwBytes k
      let s := flushLines s pa n
      if poisonedIn s pa n then (3, [], s)
      else
        let r := rmwOf k (peeks s.mem pa n)
        (0, rmwReply k r, match r.write with
          | some bs => homeWrite s pa bs
          | none => s)

/-- REMOTE_REQUEST_SERVE (R39). -/
def execRemoteRequestServe (r : RemoteReq) (s : State) : Host.Outcome State Fault Refusal :=
  let k := remoteKind r.kind
  .next (match exportFor s r.src r.offset with
    | none => sendWire s (.reply r.src 2 [])
    | some x =>
        if bitOf x 1 && kindWrites k then sendWire s (.reply r.src 2 [])
        else
          let (st, data, s) := serveAt s (exportPa x r.offset) k
          sendWire s (.reply r.src st data))

/-! ### Send allowance (R41) -/

def modDst (s : State) (core slot : Nat) (g : DstSlot → DstSlot) : State :=
  modCore s core fun k => { k with dst := mput k.dst slot (g (dstOf k slot)) }

/-- CONGESTION_MARK (R41, R47). -/
def execCongestionMark (core slot : Nat) (s : State) : Host.Outcome State Fault Refusal :=
  .next (modDst s core slot fun d => { d with ceiling := max 16 (d.ceiling / 2), since := s.now })

/-- CEILING_GROWTH (R41). -/
def execCeilingGrowth (core slot : Nat) (s : State) : Host.Outcome State Fault Refusal :=
  let d := dstOf (coreOf s core) slot
  .next (if d.ceiling < 4095 && d.since + 256 ≤ s.now then
      modDst s core slot fun d => { d with ceiling := d.ceiling + 1, since := d.since + 256 }
    else s)

/-! ### Remaps (R31) -/

/-- The service changes a window: every core keeps the old contents until its remap point, and the change of a live one advances GEN
(R29, R31). -/
def startRemap (s : State) (n : Nat) (w : BitVec 128) (q : Option Req) : State :=
  let old := mgetD s.fab.windows n 0
  let gen := (bitsOf old.toNat 111 96 + bit (bitOf old.toNat 0)) % 2 ^ 16
  let new : BitVec 128 := BitVec.ofNat 128 (w.toNat % 2 ^ 96 + gen * 2 ^ 96)
  let cores := (List.range 192).foldl (fun m c =>
    let k := mgetD m c emptyCore
    if (mget k.oldWin n).isSome then m else mput m c { k with oldWin := mput k.oldWin n old }) s.cores
  let r : Remap := { window := n, gen := gen, old := old, req := q, marks := [] }
  { s with
      cores := cores
      fab := { s.fab with windows := mput s.fab.windows n new, remaps := s.fab.remaps ++ [r] } }

/-- REMAP_POINT: a core takes the remap notices that have reached it; what it issues from here on is of the new generation
(R31). -/
def execRemapPoint (core : Nat) (s : State) : Host.Outcome State Fault Refusal :=
  let taken := coreOf s core
  .next (if taken.oldWin.isEmpty then s
    else
      let remaps := s.fab.remaps.map fun r =>
        if (mget taken.oldWin r.window).isSome && (mget r.marks core).isNone then
          { r with marks := mput r.marks core s.nextId } else r
      modCore { s with fab := { s.fab with remaps := remaps } } core fun k => { k with oldWin := [] })

/-- A fabric address lies in the range that a window gave (R29, R30). -/
def inWindow (w addr : Nat) : Bool :=
  let lo := bitsOf w 15 8 * 2 ^ 48 + bitsOf w 90 64 * 2 ^ 21
  bitOf w 0 && decide (lo ≤ addr) && decide (addr < lo + 2 ^ bitsOf w 6 1)

/-- A place in the range that a window gave. -/
def placeIn (w : Nat) (p : Option Place) : Bool :=
  match p with
  | some (.fab addr _) => inWindow w addr
  | _ => false

/-- A side of a move in that range. -/
def spotIn (w : Nat) (p : Spot) : Bool :=
  match p with
  | .mem q => placeIn w (some q)
  | .spad _ => false

/-- An operation that its core issued before the point of a remap still uses the window's old contents: an access of it is
open, or its engine keeps the address (R31). -/
def usesWindow (r : Remap) (o : Op) : Bool :=
  let w := r.old.toNat
  !o.discarded && decide (o.id < mgetD r.marks o.core 0) &&
  ((o.accs.any fun a => (accOpen a || (!memWork o && !o.complete && !opFaulted o)) && placeIn w a.place) ||
   match o.work with
   | .cpy c => c.cur.isSome && c.moves.any fun m => spotIn w m.src || spotIn w m.dst
   | _ => false)

/-- A request of the old generation is outstanding: a fetch, or the block of a SYS, of a core from before its point, or the return of a token in the
window's old range. -/
def asksWindow (r : Remap) (q : FabReq) : Bool :=
  match q.owner with
  | .fetch c _ _ => decide (q.id < mgetD r.marks c 0) && inWindow r.old.toNat q.addr
  | .block _ g => decide (q.id < mgetD r.marks (g / 32) 0) && inWindow r.old.toNat q.addr
  | .writeBack _ => inWindow r.old.toNat q.addr
  | _ => false

/-- Every core has passed the point of a remap, and nothing of the old generation is open (R31). -/
def remapDone (s : State) (r : Remap) : Bool :=
  !(s.cores.any (fun p => (mget p.2.oldWin r.window).isSome) || s.ops.any (usesWindow r) ||
    (s.images.any fun im => im.ops.any (usesWindow r)) || s.fab.reqs.any (asksWindow r))

/-- REMAP_COMPLETE: the first remap of the window that is complete is reported (R31). -/
def execRemapComplete (window : Nat) (s : State) : Host.Outcome State Fault Refusal :=
  .next (match s.fab.remaps.find? fun r => r.window == window && remapDone s r with
    | none => s
    | some r =>
        let rest := s.fab.remaps.filter (· != r)
        answerIf { s with fab := { s.fab with remaps := rest } } r.req 0 (leBytes 8 r.gen))

/-! ### Invalidations (R127) -/

/-- The service invalidates a range of a context; the frames are given back once it is complete (R127). -/
def startInval (s : State) (ctx lo hi : Nat) (q : Option Req) (frames : List (Nat × Nat)) : State :=
  let (id, s) := takeId s
  let v : Inval := { id := id, ctx := ctx, lo := lo, hi := hi, req := q, frames := frames, marks := [] }
  let cores := (List.range 192).foldl (fun m c =>
    let k := mgetD m c emptyCore
    mput m c { k with invs := k.invs ++ [id] }) s.cores
  { s with cores := cores, svc := { s.svc with invals := s.svc.invals ++ [v] } }

/-- A leaf lies in the range of an invalidation. -/
def invalHits (v : Inval) (l : Leaf) : Bool := l.ctx == v.ctx && decide (l.base < v.hi) && decide (v.lo < l.base + 2 ^ l.bits)

/-- TLB_INVALIDATE_POINT: a core takes the invalidations that have reached it (R127). -/
def execTlbInvalidatePoint (core : Nat) (s : State) : Host.Outcome State Fault Refusal :=
  let ids := (coreOf s core).invs
  .next (if ids.isEmpty then s
    else
      let vs := s.svc.invals.filter fun v => ids.contains v.id
      let keep (t : List Leaf) : List Leaf := t.filter fun l => !vs.any fun v => invalHits v l
      let s := modCore s core fun k => { k with tlb := keep k.tlb, invs := [] }
      let s := modCluster s (clusterOf core) fun k => { k with tlb := keep k.tlb }
      let marks := s.svc.invals.map fun v => if ids.contains v.id then { v with marks := mput v.marks core s.nextId } else v
      { s with svc := { s.svc with invals := marks } })

/-- An access of an operation may still use a translation in a range (R127): it is open, or its engine keeps it and has not faulted. -/
def usesRange (v : Inval) (o : Op) : Bool :=
  o.ctx == v.ctx && !o.discarded &&
  decide (o.id < mgetD v.marks o.core 0) &&
  ((o.accs.any fun a => (accOpen a || (!memWork o && !o.complete && !opFaulted o)) && decide (a.eva < v.hi) && decide (v.lo ≤ a.eva + 4096)) ||
   match o.work with
   | .cpy w => w.cur.isSome && !opFaulted o
   | _ => false)

/-- A remote instruction fetch, or a part of a block, that a core asked for before its point, or what is still under way for an
operation that has been discarded or has faulted (R127, R243, R296). -/
def fetchUses (s : State) (v : Inval) (r : FabReq) : Bool :=
  match r.owner with
  | .accesses op _ | .chunk op _ _ => decide (op < mgetD v.marks r.core 0) && (match opById s op with
      | some o => o.ctx == v.ctx && (o.discarded || opFaulted o)
      | none => true)
  | .fetch c e _ => decide (r.id < mgetD v.marks c 0) && (match splitAt s c e with
      | some p => match strandAt s c p.slot with
          | some x => x.ctx == v.ctx
          | none => true
      | none => true)
  | .block ctx g => decide (r.id < mgetD v.marks (g / 32) 0) && ctx == v.ctx
  | _ => false

/-- Every core has passed the point of an invalidation, and every access with an old translation, a fetch among them, has
ended (R127). -/
def invalDone (s : State) (v : Inval) : Bool :=
  !(s.cores.any (fun p => p.2.invs.contains v.id) || s.ops.any (usesRange v) ||
    (s.images.any fun im => im.ops.any (usesRange v)) || s.fab.reqs.any (fetchUses s v))

end Sys2Proof.Machine
end

