-- ==== Sys2Proof/Machine/Fetch.lean ====
section
/-! DEFINITION. Fetching an instruction from virtual memory (R125, R225, R229, R243). -/
namespace Sys2Proof.Machine

/-- What a fetch gives: bytes, parts of remote memory to ask for with their offsets, a wait at the service, or a cause. -/
inductive Fetched where
  | bytes (bs : List Byte)
  | ask (parts : List (Nat × Nat))
  | service (va : DWord) (detail : Nat)
  | cause (code : Nat) (detail : Word) (va : DWord)
  deriving DecidableEq, Repr

/-- The place of one word of an instruction (R125, R243). Pages of the private window have no EX (R111). -/
def fetchPlace (s : State) (c ctx va : Nat) : Except Fetched Place × State :=
  let a : DWord := BitVec.ofNat 64 va
  if inPrivate va then (.error (.cause 0x05 3 a), s)
  else
    let (r, s) := lookup s c ctx va
    match r with
    | .error d => (.error (.service a d), s)
    | .ok l =>
        if !bitOf l.w0.toNat 4 || leafLoc l.w0.toNat == 3 then (.error (.cause 0x05 3 a), s)
        else if leafFmt l.w1.toNat != 0 then (.error (.cause 0x06 (BitVec.ofNat 32 (va - l.base)) a), s)
        else match placeOf s c l va with
          | .error (code, d) => (.error (.cause code d a), s)
          | .ok (p, _) => (.ok p, s)

/-- Fetch the word at an offset of an instruction; `have_` holds remote bytes that have come. -/
def fetchWord (s : State) (c ctx : Nat) (pc : Pc) (have_ : SMap Byte) (off : Nat) : Fetched × State :=
  let va := (pc + BitVec.ofNat 57 off).toNat
  let (r, s) := fetchPlace s c ctx va
  match r with
  | .error e => (e, s)
  | .ok (.dev pa _) =>
      if poisonedIn s pa 4 then (.cause 0x80 0 (BitVec.ofNat 64 va), s) else (.bytes (peeks s.mem pa 4), s)
  | .ok (.fab addr tkc) =>
      if tkc && tokenServes s (addr / 2 ^ 21) false && cachedAll s addr 4 then
        (if s.fab.cachedPoison.contains (addr / 128) then .cause 0x80 0 (BitVec.ofNat 64 va) else .bytes (cachedBytes s addr 4), s)
      else
      let bs := (List.range 4).filterMap fun i => mget have_ (off + i)
      (if bs.length = 4 then .bytes bs else .ask [(addr, off)], s)
  | .ok (.chip _) => (.cause 0x05 3 (BitVec.ofNat 64 va), s)

/-- Fetch words at several offsets, in order. -/
def fetchWords (c ctx : Nat) (pc : Pc) (have_ : SMap Byte) : List Nat → State → Fetched × State
  | [], s => (.bytes [], s)
  | off :: rest, s =>
      let (r, s) := fetchWord s c ctx pc have_ off
      match r with
      | .bytes bs =>
          let (q, s) := fetchWords c ctx pc have_ rest s
          (match q with
           | .bytes cs => .bytes (bs ++ cs)
           | q => q, s)
      | .ask ps =>
          let (q, s) := fetchWords c ctx pc have_ rest s
          (match q with
           | .bytes _ => .ask ps
           | .ask qs => .ask (ps ++ qs)
           | q => q, s)
      | r => (r, s)

/-- Fetch the whole instruction: its first word gives its length (R224, R229). -/
def fetchInstr (s : State) (c ctx : Nat) (pc : Pc) (have_ : SMap Byte) : Fetched × State :=
  let (r, s) := fetchWords c ctx pc have_ [0] s
  match r with
  | .bytes bs =>
      let n := wordCount (BitVec.ofNat 32 (leNat bs))
      let (q, s) := fetchWords c ctx pc have_ ((List.range (n - 1)).map fun i => 4 * (i + 1)) s
      (match q with
       | .bytes cs => .bytes (bs ++ cs)
       | q => q, s)
  | r => (r, s)

/-- Remote bytes of a fetch that have come for this PC. -/
def fetchedBytes (p : Split) : SMap Byte :=
  match p.fetch with
  | some (pc, .asked [] bs) => if pc = p.pc then bs else []
  | _ => []

/-- The fetch of the split's next instruction still runs. -/
def fetchRuns (p : Split) : Bool :=
  match p.fetch with
  | some (pc, .atService _ _ _) => pc == p.pc
  | some (pc, .asked (_ :: _) _) => pc == p.pc
  | _ => false

/-- A fetch of this PC that has failed. -/
def fetchFailed (p : Split) : Option (Nat × Word × DWord) :=
  match p.fetch with
  | some (pc, .failed code d va) => if pc = p.pc then some (code, d, va) else none
  | _ => none

/-- A split waits in class FETCH. -/
def holdFetch (s : State) (c e : Nat) (f : Option (Pc × FetchSt)) : State :=
  modSplit s c e fun p => { p with cls := some .fetch, tried := s.now + 1, fetch := f }

/-- Ask for the remote words of an instruction. -/
def askFetch (s : State) (c e : Nat) (p : Split) (parts : List (Nat × Nat)) : State :=
  let (ids, s) := parts.foldl (fun (acc : List Nat × State) q =>
    let (id, s) := newReq acc.2 c [(q.1, .read 4)] (.fetch c e q.2) none
    (acc.1 ++ [id], s)) ([], s)
  pump (holdFetch s c e (some (p.pc, .asked ids (fetchedBytes p))))

/-- The outcome of the fetch for a split: the instruction, or the state in which it waits, or the one in which it has raised a
cause. -/
inductive FetchRes where
  | run (i : Instr) (s : State)
  | waits (s : State)
  | raised (s : State)

/-- A precise cause at a split whose instruction could not be fetched or decoded (R241 to R243); poison is fatal. -/
def fetchCause (s : State) (c e : Nat) (p : Split) (x : Strand) (code : Nat) (detail : Word) (va : DWord) (svc : Bool) :
    State :=
  if code = 0x80 then terminate s c p.slot 0x80
  else raiseCause (modSplit s c e fun p => { p with fetch := none, tried := s.now + 1, blocked := none, desched := none }) c p.slot
    { splitCause x p code detail with faddr := va, svc := svc, rpl := p.replay }

/-- Fetch and decode for a split (R229). -/
def fetchFor (s : State) (c e : Nat) (p : Split) (x : Strand) : FetchRes :=
  match fetchFailed p with
  | some (code, d, va) => .raised (fetchCause s c e p x code d va (code == 0x04))
  | none =>
      if fetchRuns p then .waits (holdFetch s c e p.fetch)
      else
        let (r, s) := fetchInstr s c x.ctx p.pc (fetchedBytes p)
        match r with
        | .bytes bs =>
            (match decode bs with
             | .ok i => .run i s
             | .error (.illegal d) => .raised (fetchCause s c e p x 0x01 d 0 false)
             | .error (.priv d) => .raised (fetchCause s c e p x 0x02 d 0 false)
             | .error .truncated => .waits (holdFetch s c e none))
        | .ask parts => .waits (askFetch s c e p parts)
        | .service va d => .waits (holdFetch s c e (some (p.pc, .atService va s.now d)))
        | .cause code d va => .raised (fetchCause s c e p x code d va false)

end Sys2Proof.Machine
end

