-- ==== Sys2Proof/Machine/Paging.lean ====
section
/-! DEFINITION. Frames and page tables as the service writes them (R61, R64, R111, R112, R121 to R124). -/
namespace Sys2Proof.Machine

/-! ### Frames (R112) -/

/-- Bytes in service in a stack. -/
def stackSize : Nat := 2 ^ 36

/-- Frames of a stack that are not yet given out start at this 4 KiB frame; frame 0 stays unused (log entry 38). -/
def nextFrameOf (s : State) (st : Nat) : Nat := mgetD s.svc.nextFrame st 1

/-- The first aligned place for some bytes in a run. -/
def fitsRun (n align : Nat) (r : Nat × Nat) : Bool := decide (ceilDiv r.1 align * align + n ≤ r.1 + r.2)

/-- What is left of a run when bytes of it are taken. -/
def cutRun (lo n : Nat) (r : Nat × Nat) : List (Nat × Nat) :=
  [(r.1, lo - r.1), (lo + n, r.1 + r.2 - (lo + n))].filter fun p => p.2 != 0

/-- Take aligned bytes from what a stack has got back. -/
def takeFree (s : State) (st n align : Nat) : Option (Nat × State) :=
  match s.svc.freeFrames.find? fun r => r.1 / stackSize == st && fitsRun n align r with
  | none => none
  | some r =>
      let lo := ceilDiv r.1 align * align
      let rest := (s.svc.freeFrames.filter (· != r)) ++ cutRun lo n r
      some (lo, { s with svc := { s.svc with freeFrames := rest, rotation := (st + 1) % 16 } })

/-- Take aligned bytes from one stack: from what it has got back, or from what it has not given out yet. -/
def allocIn (s : State) (st n align : Nat) : Option (Nat × State) :=
  if s.phys.retired.contains st then none
  else match takeFree s st n align with
    | some r => some r
    | none =>
        let lo := ceilDiv (nextFrameOf s st * 4096) align * align
        if stackSize < lo + n then none
        else some (st * stackSize + lo,
          { s with svc := { s.svc with nextFrame := mput s.svc.nextFrame st (ceilDiv (lo + n) 4096), rotation := (st + 1) % 16 } })

/-- Take aligned bytes for a context from the next stack in rotation that has them (R112; log entry 38). -/
def alloc (s : State) (owner n align : Nat) : Option (Nat × State) :=
  let n := ceilDiv n 4096 * 4096
  (((List.range 16).map fun i => (s.svc.rotation + i) % 16).findSome? fun st => allocIn s st n align).map fun (pa, s) =>
    (pa, { s with svc := { s.svc with owned := s.svc.owned ++ [(owner, pa, n)] } })

/-- Give runs of bytes back (R61, R62, R127). -/
def giveFrames (s : State) (rs : List (Nat × Nat)) : State :=
  { s with svc := { s.svc with
      owned := s.svc.owned.filter fun o => !rs.contains o.2
      freeFrames := s.svc.freeFrames ++ rs } }

/-- The runs that the service has allocated to a context. -/
def framesOf (s : State) (ctx : Nat) : List (Nat × Nat) := (s.svc.owned.filter fun o => o.1 == ctx).map (·.2)

/-- What a range held before is gone: no plain read returns it any more (R137; log entry 57). -/
def forgetPast (s : State) (pa n : Nat) : State :=
  { s with past := s.past.map fun w => if meet w.pa w.old.length pa n then { w with old := [] } else w }

/-- Fill a range with zeros. -/
def zeroRange (s : State) (pa n : Nat) : State :=
  let s := forgetPast s pa n
  let s := s.clusters.foldl (fun s (k, _) =>
    modCluster s k fun c => { c with stores := c.stores.filter fun e => !(pa ≤ e.pa && e.pa + e.bytes.length ≤ pa + n) }) s
  { s with mem := clearRange s.mem pa (pa + n), poison := s.poison.filter fun l => !(pa ≤ l * 128 && l * 128 + 128 ≤ pa + n) }

/-! ### Writing the tables (R121 to R124) -/

/-- Write an entry. -/
def putEntry (s : State) (at_ w0 w1 : Nat) : State := homeWrite s at_ (leBytes 8 w0 ++ leBytes 8 w1)

/-- A non-leaf entry. -/
def tableEntry (pa : Nat) : Nat := 1 + pa / 256 * 2 ^ 16

/-- Write a leaf at the level whose pages have 2^target bytes, making the tables on the way; none when a larger page stands
in the way or the memory does not suffice. -/
def mapAt (s : State) (owner va target w0 w1 : Nat) : List (Nat × Nat) → Nat → Option State
  | [], _ => none
  | (lo, n) :: rest, base =>
      let at_ := base + 16 * bitsOf va (lo + n - 1) lo
      if lo = target then some (putEntry s at_ w0 w1)
      else match rest with
        | [] => none
        | (_, m) :: _ =>
            let e := leNat (peeks s.mem at_ 8)
            if bitOf e 0 && bitOf e 1 then none
            else if bitOf e 0 then mapAt s owner va target w0 w1 rest (entryAddr e)
            else match alloc s owner (max 4096 (2 ^ (m + 4))) (max 4096 (2 ^ (m + 4))) with
              | none => none
              | some (pa, s) =>
                mapAt (putEntry (zeroRange s pa (2 ^ (m + 4))) at_ (tableEntry pa) 0) owner va target w0 w1 rest pa

/-- Map one page of a context. -/
def mapPage (s : State) (x : Ctx) (owner va target w0 w1 : Nat) : Option State :=
  mapAt s owner va target w0 w1 walkLevels (x.ptroot.toNat * 4096)

/-- The entries of a table that memory lists bytes of: every other entry is zero, and so not valid (R121, log entry 1). -/
def listedEntries (s : State) (base n : Nat) : List Nat :=
  ((cellsIn s.mem base (base + 16 * 2 ^ n)).map fun c => (c.1 - base) / 16).eraseDups

/-- Clear the leaves that overlap a range in one table and the tables below it. -/
def clearLeaves (lo hi : Nat) : List (Nat × Nat) → State → Nat → Nat → State
  | [], s, _, _ => s
  | (bits, n) :: rest, s, base, vbase =>
      (listedEntries s base n).foldl (fun s i =>
        let v := vbase + i * 2 ^ bits
        let at_ := base + 16 * i
        let e := leNat (peeks s.mem at_ 8)
        if hi ≤ v || v + 2 ^ bits ≤ lo || !bitOf e 0 then s
        else if bitOf e 1 then putEntry s at_ 0 0
        else clearLeaves lo hi rest s (entryAddr e) v) s

/-- The leaves of a context: virtual base, log2 of the size, the two words. -/
def leavesOf (s : State) : List (Nat × Nat) → Nat → Nat → List (Nat × Nat × Nat × Nat)
  | [], _, _ => []
  | (bits, n) :: rest, base, vbase =>
      (listedEntries s base n).flatMap fun i =>
        let at_ := base + 16 * i
        let e := leNat (peeks s.mem at_ 8)
        if !bitOf e 0 then []
        else if bitOf e 1 then [(vbase + i * 2 ^ bits, bits, e, leNat (peeks s.mem (at_ + 8) 8))]
        else leavesOf s rest (entryAddr e) (vbase + i * 2 ^ bits)

/-! ### Pages the service makes by itself -/

/-- The log2 of a leaf page of R60's PAGE code. -/
def pageBits (page : Nat) : Nat :=
  match page with
  | 0 => 16 | 1 => 21 | 2 => 30 | _ => 34

/-- Word 0 of a local leaf with rights. -/
def localLeaf (pa : Nat) (rd wr ex : Bool) : Nat := 3 + 4 * bit rd + 8 * bit wr + 16 * bit ex + pa / 256 * 2 ^ 16

/-- Map a 64 KiB zero page of a private-window backing region (R111, R177). -/
def mapPrivate (s : State) (ctx eva : Nat) : State :=
  match mget s.ctxs ctx with
  | none => s
  | some x =>
      match walk s ctx eva with
      | .ok _ => s
      | .error _ =>
          match alloc s ctx 65536 65536 with
          | none => s
          | some (pa, s') =>
              match mapPage (zeroRange s' pa 65536) x ctx eva 16 (localLeaf pa true true false) 0 with
              | none => s
              | some t => t

/-- The address of the capability list (R64). -/
def capabilityVa : Nat := 0x1FFFFFFFFFF0000

/-- A capability entry: ID, VER 1, LEN, NEXT, and its 64-bit data words (R64; log entry 39). -/
def capEntry (id off : Nat) (last : Bool) (data : List Nat) : List Byte :=
  let len := 8 + 8 * data.length
  leBytes 8 (pack [(0, 16, id), (16, 8, 1), (32, 16, len), (48, 16, if last then 0 else off + len)]) ++ data.flatMap (leBytes 8)

/-- The capability list of a context (R64, R65; the data of the entries is log entry 39). -/
def capabilityBytes (s : State) (ring : Option Nat) : List Byte :=
  let usable := 192 - s.phys.lostCores.length
  let memory := (16 - s.phys.retired.length) * stackSize
  let up := (s.phys.ports.filter fun p => p.2.up).length
  leBytes 16 (pack [(0, 32, 0x50414351), (32, 16, 16)]) ++
  capEntry 1 16 false [s.phys.deviceId + usable * 2 ^ 32, memory] ++
  capEntry 2 40 false [1] ++
  capEntry 3 56 false [up] ++
  capEntry 4 72 false [8] ++
  capEntry 5 88 false [256] ++
  capEntry 6 104 false [ring.getD 0] ++
  capEntry 7 120 true [min s.power.clockPower s.power.clockTherm + s.power.limit * 2 ^ 32]

end Sys2Proof.Machine
end

