-- ==== Sys2Proof/Machine/Traps.lean ====
section
/-! DEFINITION. Entering and leaving traps, replays, translation faults at the service, breakpoints, checkers and ECC (R174 to
R189, R198, R292). -/
namespace Sys2Proof.Machine

/-! ### Trap entry (R175, R181) -/

/-- A fault that a strand in its handler takes as a double fault: one of an operation the handler issued, or one that has
newly arisen on an operation that is no engine's (R175, R181). -/
def doubleFault (x : Strand) (ops : List Op) : Bool :=
  x.handling.isSome && ops.any fun o => opFaulted o && !x.trapOps.contains o.id &&
    !(decide (o.id < x.trapMark) && (engineKind o.kind || o.kind == .fil))

/-- The strand may enter its trap: a cause has arisen, and no memory operation is still on its way (R175). -/
def trapReady (s : State) (c sl : Nat) (x : Strand) : Bool :=
  x.phase != .ending && x.handling.isNone &&
  (x.arisen.isSome || (opsOf s c sl).any opFaulted) && (opsOf s c sl).all (opResolved s)

/-- TRAP_ENTRY (R175, R176, R181). -/
def execTrapEntry (core slot : Nat) (s : State) : Host.Outcome State Fault Refusal :=
  .next (match strandAt s core slot with
    | none => s
    | some x =>
        if x.phase == .ending then s
        else if doubleFault x (opsOf s core slot) then terminate s core slot 0x81
        else if trapReady s core slot x then takeTrap s core slot
        else s)

/-! ### Replays (R180) -/

/-- The charges of the lanes in which an operation is re-issued are taken again (R41). -/
def recharge (s : State) (id : Nat) (lanes : Word) : State :=
  match opById s id with
  | none => s
  | some o =>
      let k := coreOf s o.core
      let again (c : Charge) : Bool := !c.owed && c.lanes &&& lanes != 0
      modOp (putCore s o.core ((o.charge.filter again).foldl (fun k c => spend k c.slot c.units) k)) id fun p =>
        { p with charge := p.charge.map fun c =>
            if again c then { c with epoch := (dstOf k c.slot).epoch, owed := true } else c }

/-- A replayed operation is a new instruction for sampling, issued by the split of the TRET in the lanes that are repeated (R192, R193;
log entry 13). -/
def recount (v : Iss) (lanes : Word) (s : State) (id : Nat) : State :=
  match opById s id with
  | none => s
  | some o =>
      let n := mgetD (coreOf s o.core).samples o.ctx 0 + 1
      let s := modCore s o.core fun k => { k with samples := mput k.samples o.ctx n }
      let every := ((mget s.ctxs o.ctx).map (·.interval)).getD 0
      if every = 0 ∨ n % every ≠ 0 then s
      else modOp s id fun p =>
        { p with sample := some { pc := p.pc, opc := p.opc, strandSide := p.fields.strand, tclass := v.sp.reported
                                  active := lanes, isn := ((p.isns.head?).map fun q => q.2.toNat).getD 0
                                  wait := s.now - v.sp.stamp, issued := s.now } }

/-- Destinations of a re-issued producer are PENDING again (R100). -/
def repend (s : State) (o : Op) (lanes : Word) : State :=
  modStrandAny s o.ctx o.core o.slot fun x => (destRegs o).foldl (fun x r =>
    if o.fields.strand then smark x r .pending else vmark x r (lanesOf lanes) .pending) x

/-- The work of an engine operation from its start: a copy repeats all its chunks (R336). -/
def workAgain (now : Nat) (hz : Bool) (w : Work) : Work :=
  match w with
  | .cpy w => .cpy { w with shape := none, past := none, dry := hz, reach := [], todo := [], kept := [], cur := none, moves := [], writing := false,
                            due := now + 1, blocked := none }
  | .net w => .net { w with sent := none }
  | w => w

/-- Re-issue a faulted operation under its ISN (R180, R185): a memory access in every lane that has not settled, an engine
operation from its start. -/
def replayOp (v : Iss) (s : State) (id : Nat) : State :=
  match opById s id with
  | none => s
  | some o =>
      let pipe := match faultOf o with
        | some (0x0A, _, _, _) => true
        | _ => false
      let lanes := o.accs.foldl (fun m a => if (accFault a).isSome then m ||| a.lanes else m) 0
      let s := repend (recount v (lanes &&& o.lanes) (recharge s id lanes) id) o lanes
      let s := modOp s id fun p => { p with replay := p.replay || pipe }
      match o.work with
      | .mem => translateOp s id fun a => (accFault a).isSome
      | _ => modOp s id fun p =>
          { p with accs := [], got := [], waits := [], tok := none, complete := false, work := workAgain s.now (p.gate == .hz) p.work }

/-! ### Faulted operations of the array (R180, R326, R331) -/

/-- Clear the poison that a checker mismatch of an operation has left: the array repeats it from its inputs. -/
def unmark (k : Core) (o : FilOp) : Core :=
  { k with
      accPoison := k.accPoison.filter fun i => !o.marked.contains i
      spadPoison := k.spadPoison.filter fun i => !o.marked.contains (2 ^ 20 + i) }

/-- What becomes of a faulted array operation: it waits while a member has neither replayed nor discarded it, goes when none
is left, and is performed again otherwise (log entry 37). -/
def filMembers (s : State) (o : FilOp) : List Op := o.ops.filterMap fun id => match opById s id with
  | some p => if p.discarded then none else some p
  | none => none

/-- A faulted array operation may leave its place. -/
def filDecided (s : State) (o : FilOp) : Bool := !((filMembers s o).any opFaulted)

/-- Faulted array operations of a core that are decided go on. -/
def filRejoin (s : State) (c : Nat) : State :=
  ((coreOf s c).filFaulted.filter (filDecided s)).foldl (fun s o =>
    let live := filMembers s o
    let (due, s) := takeDue s
    modCore s c fun k =>
      let k := { k with filFaulted := k.filFaulted.filter fun p => p.id != o.id }
      if live.isEmpty then k
      else
        let again := { o with ops := live.map (·.id), marked := [], due := due }
        { (unmark k o) with fil := k.fil ++ [again] }) s

/-! ### TRET (R180, R284, R292) -/

/-- Leave the handler with a form: what happens to the recorded faults and the blocked operations is done first. -/
def tretLeave (s : State) (v : Iss) (r : TrapRec) : State :=
  let s := leaveHandler s v.c v.sl r
  gatherDone (filRejoin s v.c) v.c

/-- The plain form: recorded faults and blocked operations are discarded (R180). -/
def tretPlain (s : State) (v : Iss) (r : TrapRec) : State :=
  let ids := recordedFaults s v.c v.sl v.x ++ blockedOps s v.c v.sl v.x
  tretLeave (ids.foldl discardOp s) v r

/-- The PIPE of a Filigree operation that takes no ISN, among the recorded faults. -/
def recordedFil (s : State) (v : Iss) : List Nat :=
  (recordedFaults s v.c v.sl v.x).filter fun id => match opById s id with
    | some o => o.kind == .fil
    | none => false

/-- The replay form (R180, R185, R292): for a precise cause it acts as the plain form, apart from the repeat of PIPE. -/
def tretReplayDo (s : State) (v : Iss) (r : TrapRec) : State :=
  if r.hzf then tretLeave ((recordedFaults s v.c v.sl v.x).foldl (replayOp v) s) v r
  else if r.cause != 0x0A then tretPlain s v r
  else
    let fil := recordedFil s v
    let rest := (recordedFaults s v.c v.sl v.x).filter fun id => !fil.contains id
    let s := (rest ++ blockedOps s v.c v.sl v.x).foldl discardOp s
    let s := fil.foldl (replayOp v) s
    let r := if fil.isEmpty then
        { r with splits := mmap r.splits fun e p => if some e = r.fentry then { p with replay := true } else p }
      else r
    tretLeave s v r

/-- TRET at depth 0 raises ILLEGAL with FIELD 1 (R292). -/
def tretBody (go : State → Iss → TrapRec → State) (s : State) (v : Iss) : Except Stop State :=
  match v.x.handling with
  | none => .error (stopIllegal v 1)
  | some r => .ok (go s v r)

/-- The forms that resume at SPC check it as a branch checks its target (R243). -/
def tretResume (go : State → Iss → TrapRec → State) (s : State) (v : Iss) : Except Stop State := do
  checkTarget (match v.x.handling with | some r => r.spc.zeroExtend 64 | none => 0)
  tretBody go s v

/-- TRET (R292). -/
def execTret (f : Fields) (s : State) : Host.Outcome State Fault Refusal := issue s 0x4C f (tretResume tretPlain)
/-- TRET.replay (R292). -/
def execTretReplay (f : Fields) (s : State) : Host.Outcome State Fault Refusal := issue s 0x4C f (tretResume tretReplayDo)
/-- TRET.term (R180): the strand ends with the cause it was handling. -/
def execTretTerm (f : Fields) (s : State) : Host.Outcome State Fault Refusal :=
  issue s 0x4C f (tretBody fun s v r => gatherDone (filRejoin (terminateWith s v.c v.sl r.cause true) v.c) v.c)

/-! ### Translation faults at the service (R177, R243) -/

/-- Since when an access waits at the service, with its address. -/
def atServiceSince (a : Access) : Option (Nat × Nat) :=
  match a.st with
  | .atService since _ => some (since, a.eva)
  | _ => none

/-- The service has mapped the page of an access: the accesses to it are translated again (R177). -/
def accResolved (s : State) (o : Op) (eva : Nat) : State :=
  let s := if inBacking s o.ctx eva then mapPrivate s o.ctx eva else s
  let mine (a : Access) : Bool := match atServiceSince a with
    | some (_, e) => e / 2 ^ 16 == eva / 2 ^ 16
    | none => false
  if memWork o then translateOp s o.id mine
  else modOp s o.id fun p => { p with accs := p.accs.map fun a => if mine a then { a with st := .settled } else a }

/-- The service refuses: XLATE with DETAIL 3 and SVC (R174, R177; log entry 18). The lanes of a whole-block store that are left
are checked again (R307). -/
def accRefused (s : State) (o : Op) (i : Nat) : State :=
  let s := if memWork o then s else modAcc s o.id i fun a => { a with lanes := o.lanes }
  checkBlocks (faultAccs s o.id [i] 0x04 3) o.id

/-- The service answers an access. -/
def answerAcc (s : State) (op acc : Nat) (resolved : Bool) : State :=
  match opById s op with
  | none => s
  | some o => match (o.accs[acc]?).bind atServiceSince with
      | none => s
      | some (_, eva) => if resolved then accResolved s o eva else accRefused s o acc

/-- The service answers a fetch. -/
def answerFetch (s : State) (core entry : Nat) (resolved : Bool) : State :=
  match splitAt s core entry with
  | none => s
  | some p => match p.fetch with
      | some (pc, .atService va _ _) =>
          let s := match strandAt s core p.slot with
            | some x => if resolved && inBacking s x.ctx va.toNat then mapPrivate s x.ctx va.toNat else s
            | none => s
          putSplit s core entry { p with fetch := if resolved then none else some (pc, .failed 0x04 3 va) }
      | _ => s

/-- TRANSLATION_FAULT_ANSWER (R177). -/
def execTranslationFaultAnswer (r : FaultRef) (resolved : Bool) (s : State) : Host.Outcome State Fault Refusal :=
  .next (match r with
    | .access op acc => answerAcc s op acc resolved
    | .fetch core entry => answerFetch s core entry resolved)

/-- Since when a fault waits at the service. -/
def faultSince (s : State) (r : FaultRef) : Option Nat :=
  match r with
  | .access op acc => match opById s op with
      | some o => ((o.accs[acc]?).bind atServiceSince).map (·.1)
      | none => none
  | .fetch core entry => match splitAt s core entry with
      | some p => (match p.fetch with
          | some (_, .atService _ since _) => some since
          | _ => none)
      | none => none

/-- TRANSLATION_FAULT_TIMEOUT: a fault unresolved 2^20 cycles after receipt is refused (R177). -/
def execTranslationFaultTimeout (r : FaultRef) (s : State) : Host.Outcome State Fault Refusal :=
  .next (match faultSince s r with
    | none => s
    | some since =>
        if since + 2 ^ 20 ≤ s.now then
          (match r with
           | .access op acc => answerAcc s op acc false
           | .fetch core entry => answerFetch s core entry false)
        else s)

/-! ### Breakpoints and YIELD (R198, R293) -/

/-- The enabled breakpoint of the context that stops a split at its PC (R198). -/
def bpHit (s : State) (c : Nat) (p : Split) (x : Strand) : Option (Nat × Breakpoint) :=
  if p.bpSkip then none
  else match mget s.ctxs x.ctx with
    | none => none
    | some k => (k.bps.find? fun b => b.2.en && b.2.pc == p.pc &&
        (match b.2.filter with | none => true | some g => g == gidOf c p.slot))

/-- BREAKPOINT_HALT (R198). -/
def execBreakpointHalt (core entry : Nat) (s : State) : Host.Outcome State Fault Refusal :=
  .next (match splitAt s core entry with
    | none => s
    | some p => match strandAt s core p.slot with
        | none => s
        | some x => match bpHit s core p x with
            | none => s
            | some b =>
                haltStrand (modSplit s core entry fun q => { q with bpSkip := true }) core p.slot 1 b.1 p.pc p.smask [b.2.setter])

/-- YIELD_EXPIRY (R293). -/
def execYieldExpiry (core entry : Nat) (s : State) : Host.Outcome State Fault Refusal :=
  .next (match splitAt s core entry with
    | none => s
    | some p => if p.yieldTo ≤ s.now then putSplit s core entry { p with yieldTo := 0 } else s)

/-! ### Checkers (R185) -/

/-- Scratchpad words that an instruction writes: those of STSP, and those that a push at queue port D fills (R103, R309). -/
def destWords (s : State) (v : Iss) (i : Instr) : List Nat :=
  match i with
  | .stsp _ =>
      (match srcA s v false with
       | .error _ => []
       | .ok (_, xa) => match spadCheck (myResv s v) (tyBytes v.f) ((lanesOf v.on).map (spadAddr v xa)) with
           | .error _ => []
           | .ok base => (lanesOf v.on).flatMap fun l =>
               (List.range (ceilDiv (tyBytes v.f) 4)).map fun j => (base + spadAddr v xa l) / 4 + j)
  | _ =>
      if v.f.strand || v.f.d.toNat < 120 then []
      else match (fieldSpec i).d, queueAllowed s v (v.f.d.toNat - 120) with
        | .reg _, .ok (r, q) | .plain _, .ok (r, q) => (List.range (unitLanes v.x.dmr v.on).length).map fun j =>
            queueByte r q (q.tail + BitVec.ofNat 32 j).toNat / 4
        | _, _ => []

/-- Poison the words that an instruction writes (R185). -/
def poisonDest (s : State) (v : Iss) (i : Instr) : State :=
  let d := v.f.d.toNat
  let words := destWords s v i
  let s := if words.isEmpty then s else onCore s v fun k =>
    { k with spadPoison := words.eraseDups ++ k.spadPoison.filter fun w => !words.contains w }
  let onS (x : Strand) (w : Bool) : Strand := (if w then [d, d + 1] else [d]).foldl (fun x r => sset x r { sget x r with poison := true }) x
  let onV (x : Strand) (w : Bool) : Strand := (if w then [d, d + 1] else [d]).foldl (fun x r =>
    (lanesOf v.on).foldl (fun x l => vset x r l { vget x r l with poison := true }) x) x
  match (fieldSpec i).d with
  | .reg w | .plain w =>
      if v.f.strand then
        (if d < 64 then onStrand s v fun x => onS x w
         else onCore s v fun k => { k with mbox := mput k.mbox (d - 64) { mgetD k.mbox (d - 64) emptyMailbox with poison := true } })
      else if d < 120 then onStrand s v fun x => onV x w else s
  | .crossS w => onStrand s v fun x => onS x w
  | .crossV w => onStrand s v fun x => onV x w
  | _ => s

/-- The log record of a checker mismatch (R189; log entry 41). -/
def checkerLog (s : State) (ctx c gid unit : Nat) (fatal : Bool) : State :=
  logError s { kind := 7, sev := if fatal then 2 else 0, ctx := ctx, core := c, strand := gid, loc := 0, cycle := cycleOf s c,
               synd := BitVec.ofNat 32 unit }

/-- A mismatch at the instruction a split would issue: it counts as issued, its destinations are poisoned and PIPE is raised precisely;
a repeat that raises it again is fatal (R185, R192). -/
def checkSplit (s : State) (c e unit : Nat) : State :=
  match splitAt s c e with
  | none => s
  | some p => match strandAt s c p.slot with
      | none => s
      | some x =>
          let s := checkerLog s x.ctx c (gidOf c p.slot) unit p.replay
          let (r, s) := fetchInstr s c x.ctx p.pc (fetchedBytes p)
          let at_ : Option (Iss × Instr) := match r with
            | .bytes bs => (match decode bs with
                | .ok i => (instrParts i).bind fun (op, f) => (viewOf { s with cur := some (c, e) } op f).map fun v => (v, i)
                | .error _ => none)
            | _ => none
          match at_ with
          | none =>
              if p.replay then terminate s c p.slot 0x0A
              else raiseCause s c p.slot (splitCause x p 0x0A (BitVec.ofNat 32 unit))
          | some (v, i) =>
              if p.replay then terminate (plainRecord (countIssue s v) v.x.ctx c v.sl v.sample 1) c p.slot 0x0A
              else stopped (poisonDest s v i) v (.trap 0x0A (BitVec.ofNat 32 unit))

/-- The elements that an array operation writes: accumulator indexes, and 2^20 + scratchpad word for FACC.read. -/
def filWrites (k : Core) (o : FilOp) : List Nat :=
  let tile (t : Nat) : List Nat := (List.range 4096).map (t * 4096 + ·)
  match o.opc.toNat with
  | 0x6B => (List.range (filM o)).flatMap fun i => (List.range (filN o)).map fun j => filTile o * 4096 + 64 * i + j
  | 0x6C => tile (bankOf k (filBankB o)).tile
  | 0x6D => tile k.bankA.tile ++ tile k.bankB.tile
  | 0x6E => if o.fields.fn = 0 then [] else tile (filTile o)
  | _ => (faccItems o).map fun p => if o.fields.fn = 0 then 2 ^ 20 + p.2 / 4 else filTile o * 4096 + p.1

/-- Poison the elements of an array operation that are not yet poisoned, and keep which they are. -/
def markWrites (k : Core) (o : FilOp) : Core × FilOp :=
  let new := (filWrites k o).filter fun i => if i < 2 ^ 20 then !k.accPoison.contains i else !k.spadPoison.contains (i - 2 ^ 20)
  ({ k with
      accPoison := new.filter (· < 2 ^ 20) ++ k.accPoison
      spadPoison := (new.filter (2 ^ 20 ≤ ·)).map (· - 2 ^ 20) ++ k.spadPoison },
   { o with marked := new })

/-- A mismatch in the array before it performs an operation: its elements are poisoned, it leaves the queue and keeps its
inputs, and every member takes PIPE (R185, R326, R331). -/
def checkFil (s : State) (c : Nat) (o : FilOp) (unit : Nat) : State :=
  let (k, o') := markWrites (coreOf s c) o
  let s := modCore (putCore s c k) c fun k =>
    { k with fil := k.fil.filter fun p => p.id != o.id, filFaulted := k.filFaulted ++ [{ o' with sampled := false }] }
  o.ops.foldl (fun s id => match opById s id with
    | none => s
    | some p =>
        let s := checkerLog s p.ctx p.core (gidOf p.core p.slot) unit p.replay
        if p.replay then terminate (modOp s id fun q => { q with discarded := true, complete := true }) p.core p.slot 0x0A
        else faultOp s id 0x0A (BitVec.ofNat 32 unit) 0)
    (dropRecheck s c o.id)

/-- A mismatch in an engine operation (R185). -/
def checkEngine (s : State) (op unit : Nat) : State :=
  match opById s op with
  | none => s
  | some o =>
      if o.complete || o.discarded || opFaulted o then s
      else match (coreOf s o.core).fil.find? fun q => q.ops.contains op with
        | some q => checkFil s o.core q unit
        | none =>
            let s := checkerLog s o.ctx o.core (gidOf o.core o.slot) unit o.replay
            if memWork o then s
            else if o.replay then terminate (modOp s op fun q => { q with discarded := true, complete := true }) o.core o.slot 0x0A
            else
              let s := match o.work with
                | .coll q => leaveAttempt s (collParams q).desc op
                | _ => s
              faultOp (modOp s op fun q => { q with waits := [] }) op 0x0A (BitVec.ofNat 32 unit) 0

/-- CHECKER_MISMATCH (R185). -/
def execCheckerMismatch (loc : CheckerLoc) (s : State) : Host.Outcome State Fault Refusal :=
  .next (match loc with
    | .split c e unit => checkSplit s c e unit
    | .engine op unit => checkEngine s op unit)

/-! ### ECC (R188, R189) -/

/-- Poison the word, cell or line at a location. -/
def poisonAt (s : State) (l : EccLoc) : State :=
  let line (n : Nat) : State := { s with poison := if s.poison.contains n then s.poison else n :: s.poison }
  match l with
  | .vreg c sl lane r => modStrand s c sl fun x => vset x r lane { vget x r lane with poison := true }
  | .sreg c sl r => modStrand s c sl fun x => sset x r { sget x r with poison := true }
  | .spad c w => modCore s c fun k => { k with spadPoison := if k.spadPoison.contains w then k.spadPoison else w :: k.spadPoison }
  | .acc c w => modCore s c fun k => { k with accPoison := if k.accPoison.contains w then k.accPoison else w :: k.accPoison }
  | .mbox c n => modCore s c fun k => { k with mbox := mput k.mbox n { mgetD k.mbox n emptyMailbox with poison := true } }
  | .bank c b cell => modCore s c fun k => setBank k b { bankOf k b with bad := cell :: (bankOf k b).bad }
  | .cacheLine _ n => line n
  | .stackLine n => line n
  | .tokenLine n => if s.fab.cachedPoison.contains n || !(s.fab.cached.any fun p => p.1 / 128 == n) then s
      else { s with fab := { s.fab with cachedPoison := n :: s.fab.cachedPoison } }

/-- KIND, CTX, CORE, STRAND and LOC of the record of a location (R189; log entry 41). -/
def eccRecord (s : State) (l : EccLoc) : Nat × Nat × Nat × Nat × Nat :=
  let res (c : Nat) : Nat := ((clusterAt s (clusterOf c)).resident).getD 0
  let ctxAt (c sl : Nat) : Nat := ((strandAt s c sl).map (·.ctx)).getD 0
  match l with
  | .vreg c sl lane r => (0, ctxAt c sl, c, gidOf c sl, 32 * r + lane)
  | .sreg c sl r => (0, ctxAt c sl, c, gidOf c sl, r)
  | .spad c w => (1, res c, c, 0, w)
  | .acc c w => (2, res c, c, 0, w)
  | .mbox c n => (0, res c, c, 0, n)
  | .bank c b cell => (3, res c, c, 0, 4096 * bit b + cell)
  | .cacheLine d n => (if d then 5 else 4, 0, 255, 0, n * 128)
  | .stackLine n => (6, 0, 255, 0, n * 128)
  | .tokenLine n => (4, 0, 255, 0, n * 128)

/-- The corrected-error rate of a core, as the log shows it since the core runs its logical number, passes the threshold of the
service's policy, which the spec does not give (R66, R189; log entry 80). -/
def coreWorn (s : State) (c : Nat) : Bool :=
  let since := mgetD s.phys.spareSince c 0
  Config.coreWornOut ((s.svc.log.filter fun r => r.core == c && r.sev == 0 && decide (since ≤ r.cycle)).map (·.cycle))

/-- ECC_ERROR_DETECTED: a correctable error is corrected, an uncorrectable one poisons its word or line; both are logged,
the error of a masked-off or guarded-off lane as latent (R188, R189). -/
def execEccErrorDetected (loc : EccLoc) (fatal guarded : Bool) (synd : Word) (s : State) :
    Host.Outcome State Fault Refusal :=
  let (kind, ctx, core, strand, at_) := eccRecord s loc
  let sev := if guarded then 1 else if fatal then 2 else 0
  let s := if fatal || guarded then poisonAt s loc else s
  let s := logError s { kind := kind, sev := sev, ctx := ctx, core := core, strand := strand, loc := at_, cycle := cycleOf s core,
                        synd := synd }
  .next (if core < 192 && coreWorn s core then suspectCore s core else s)

end Sys2Proof.Machine
end

