-- ==== Sys2Proof/Machine/Images.lean ====
section
/-! DEFINITION. The save images as bytes (R186, R187) and where a strand is held. -/
namespace Sys2Proof.Machine

/-! ### Slot image (R186) -/

/-- Bytes filled up with zeros to a length. -/
def padTo (n : Nat) (bs : List Byte) : List Byte := bs ++ List.replicate (n - bs.length) 0

/-- A register as a read of the image gives it: an empty one reads 0 (R200). -/
def imageWord (c : RegCell) : Nat := if c.st = .full then c.val.toNat else 0

/-- A mask of the registers of a file that are FULL. -/
def fullMask (n : Nat) (g : Nat → RegCell) : Nat :=
  (List.range n).foldl (fun m i => m + (if (g i).st = .full then 2 ^ i else 0)) 0

/-- The split of a strand that waits in a blocking order, if any: WOBJ and WSEQ (R186, R187). -/
def waitOf (splits : List (Nat × Split)) : Option (Nat × Nat) :=
  splits.findSome? fun p => p.2.blocked.map fun (o, q) =>
    (match o with | .qpop n | .qpush n => n | .mread n | .mwrite n => 32 + n, q)

/-- The code of a phase (R186). -/
def phaseCode : SlotPhase → Nat
  | .live => 0 | .linger => 1 | .ending => 2

/-- The split waits at a barrier. -/
def atBarrier (p : Split) : Bool := match p.parked with
  | some (.barrier _ _ _) => true
  | _ => false

/-- The stall class of a strand at its save (R86, R290): halted, in ENDING, waiting at a barrier, or stopped by the collector. -/
def saveClass (x : Strand) (splits : List (Nat × Split)) : Nat :=
  if x.halted.isSome then 1 else if x.phase = .ending then 2 else if splits.any fun p => atBarrier p.2 then 4 else 3

/-- The strand-state block (R186). -/
def strandWord (x : Strand) (splits : List (Nat × Split)) (bdone : BitVec 16) : Nat :=
  let w := waitOf splits
  pack [(0, 2, phaseCode x.phase), (2, 1, bit x.handling.isSome), (3, 1, bit x.halted.isSome), (4, 1, bit x.dmr),
    (8, 8, x.slices), (16, 16, x.batch.toNat), (32, 16, bdone.toNat)] +
  pack ((List.range 8).map fun i => (64 + 16 * i, 16, (nextIsn x i).toNat)) +
  pack [(192, 32, x.fpflags.toNat), (224, 32, x.fpmode.toNat), (256, 32, (x.clatch.getD 0).toNat),
    (288, 1, bit x.clatch.isSome), (320, 32, x.exited.toNat), (352, 8, saveClass x splits), (360, 12, x.lcnt),
    (372, 1, bit w.isSome), (376, 7, (w.map (·.1)).getD 0), (384, 32, (w.map (·.2)).getD 0)]

/-- The 24 KiB slot image of a strand (R186). -/
def slotImage (now : Nat) (clk : Nat → Nat) (x : Strand) (splits : List (Nat × Split)) (ops : List Op) (bdone : BitVec 16) : List Byte :=
  let v := (List.range 120).flatMap fun i => (List.range 32).flatMap fun l => leBytes 4 (imageWord (vget x i l))
  let sr := (List.range 64).flatMap fun i => leBytes 4 (imageWord (sget x i))
  let vf := (List.range 120).flatMap fun i => leBytes 4 (fullMask 32 (vget x i))
  let sf := leBytes 8 (fullMask 64 (sget x))
  let k := (List.range 8).flatMap fun i => leBytes 4 (kmask x i).toNat
  let g := leBytes 1 ((x.g ||| 1).toNat)
  let tbl := (splits.take 8).flatMap fun p => leBytes 32 (splitWord now clk p.2)
  let st := leBytes 64 (strandWord x splits bdone)
  let hz := (List.range 32).flatMap fun l => leBytes 2 (hzOf ops x l).toNat
  let trap := match x.lastRec with
    | some r => leBytes 512 (trapWord now clk r)
    | none => List.replicate 512 0
  padTo 0x6000 (padTo 0x5E00 (padTo 0x4040 (padTo 0x3F40 (padTo 0x3F00 (v ++ sr ++ vf ++ sf) ++ k ++ g) ++ tbl) ++ st ++ hz) ++ trap)

/-! ### Core image (R187) -/

/-- A cell of a bank as the image holds it. -/
def bankCellBytes (b : Bank) (cell : Nat) : List Byte :=
  leBytes 45 (if b.integer then wrapOf 32 (mgetD b.counts (30 * cell) 0)
    else (List.range 30).foldl (fun n i => n + wrapOf 12 (mgetD b.counts (30 * cell + i) 0) * 2 ^ (12 * i)) 0)

/-- The sequence number served next in a blocking order of a core: splits and copy-engine writes wait in it (R187). -/
def hseqOf (c : Nat) (k : Core) (ops : List Op) (is : WaitObj → Bool) (tseq : Nat) : Nat :=
  let qs := (k.splits.filterMap fun p => match p.2.blocked with
    | some (o, q) => if is o then some q else none
    | none => none) ++ ops.filterMap fun o => match o.work with
    | .cpy w => (match w.blocked with
        | some (c', o', q) => if c' = c ∧ is o' then some q else none
        | none => none)
    | _ => none
  let far := qs.foldl (fun m q => max m ((tseq + 2 ^ 32 - q) % 2 ^ 32)) 0
  (tseq + 2 ^ 32 - far) % 2 ^ 32

/-- The bytes of an area whose layout the spec does not give: free, where the area holds something (log entry 43). -/
def freeArea (fresh at_ len : Nat) (any : Bool) : List (Nat × List Byte) :=
  if any then [(at_, (List.range len).map fun i => Config.imageByte fresh (at_ + i))] else []

/-- The recheck setting and the FMMA count of the context in the first 8 bytes of the continuation area (R333; log entry 43). -/
def recheckBytes (k : Core) (ctx : Nat) : List Byte :=
  let (set, n) := mgetD k.recheck ctx (0, 0)
  leBytes 4 set ++ leBytes 4 n

/-- The bytes of the image of core c by offset from its start (R187); offsets that are not listed hold zero. The layouts of
destination slots, reservations, gathering clasps and continuations are not given (log entry 43): `ops` are the operations of
the context, `kept` those of them that continue. -/
def coreImage (c ctx fresh : Nat) (k : Core) (ops kept : List Op) : List (Nat × List Byte) :=
  (k.spad.map fun c => (c.1, [c.2])) ++
  (k.acc.map fun c => (0x80000 + 4 * c.1, leBytes 4 c.2.toNat)) ++
  (((k.bankA.counts.map fun c => c.1 / 30).eraseDups).map fun c => (0xC0000 + 45 * c, bankCellBytes k.bankA c)) ++
  (((k.bankB.counts.map fun c => c.1 / 30).eraseDups).map fun c => (0xC0000 + 45 * (4096 + c), bankCellBytes k.bankB c)) ++
  [(0x11A000, leBytes 4 (bankWord k.bankA)), (0x11A004, leBytes 4 (bankWord k.bankB))] ++
  (k.tags.map fun t => (0x11A100 + 2 * t.1, leBytes 2 (tagWord t.2))) ++
  (k.queues.map fun q => (0x11A200 + 16 * q.1, leBytes 16 (queueWord q.2))) ++
  (k.mbox.map fun m => (0x11A280 + 4 * m.1, leBytes 4 m.2.val.toNat)) ++
  [(0x11A300, leBytes 4 (k.mbox.foldl (fun n m => n + (if m.2.full then 2 ^ m.1 else 0)) 0))] ++
  (k.bins.map fun b => (0x11A400 + 8 * b.1, leBytes 8 (binWord b.2))) ++
  (k.bins.map fun b => (0x11B000 + 1024 * b.1, b.2.recs.flatMap fun r => r.flatMap fun c => leBytes 4 c.val.toNat)) ++
  (k.barriers.map fun b => (0x11F000 + 16 * b.1, leBytes 16 (barWord b.2))) ++
  (k.queues.map fun q => (0x130000 + 8 * q.1,
    leBytes 4 (hseqOf c k ops (fun o => o == .qpop q.1 || o == .qpush q.1) q.2.tseq) ++ leBytes 4 q.2.tseq)) ++
  (k.mbox.map fun m => (0x130040 + 8 * m.1,
    leBytes 4 (hseqOf c k ops (fun o => o == .mread m.1 || o == .mwrite m.1) m.2.tseq) ++ leBytes 4 m.2.tseq)) ++
  freeArea fresh 0x11F100 256 (!k.dst.isEmpty || k.splits.any fun p => p.2.desched.isSome) ++
  freeArea fresh 0x11F200 256 (!k.resvs.isEmpty) ++ freeArea fresh 0x11F300 256 (!k.clasps.isEmpty) ++
  [(0x120000, recheckBytes k ctx)] ++ freeArea fresh 0x120008 (64 * kept.length) (!kept.isEmpty)

/-- The physical base of the image of a core (R61, R184). -/
def imageBase (x : Ctx) (c : Nat) : Nat := x.imgbase.toNat * 2 ^ 21 + c * 2 ^ 21

/-- The collector writes the slot images and the core image of a core to memory (R184). -/
def writeImage (s : State) (ctx c : Nat) : State :=
  match mget s.ctxs ctx with
  | none => s
  | some x =>
      let base := imageBase x c
      let k := coreOf s c
      let slots := k.slots.map fun (sl, y) =>
        (sl * 0x6000, slotImage s.now (clockAt s.power c) y (splitsOf s c sl) (opsOf s c sl) (bdoneOf s c sl y))
      let ops := (s.ops ++ s.images.flatMap (·.ops)).filter fun o => o.ctx == ctx
      let kept := s.ops.filter fun o => o.ctx == ctx && o.core == c && (engineKind o.kind || o.kind == .fil) && !o.complete && !o.discarded
      let parts : List (Nat × List Byte) := (coreImage c ctx s.fresh k ops kept).map fun p => (0xC0000 + p.1, p.2)
      let s := { zeroRange s base (2 ^ 21) with fresh := s.fresh + 1 }
      (slots ++ parts).foldl (fun s (p : Nat × List Byte) => homeWrite s (base + p.1) p.2) s

/-! ### Where a strand is held -/

/-- The core state that holds a strand of a context: live, or in an image (R114, R184). -/
def holderOf (s : State) (ctx gid : Nat) : Option (Core × Strand) :=
  match strandAt s (gid / 32) (gid % 32) with
  | some x => if x.ctx = ctx then some (coreOf s (gid / 32), x) else saved
  | none => saved
where
  saved : Option (Core × Strand) :=
    s.images.findSome? fun im => if im.ctx = ctx ∧ im.core = gid / 32 then
      (mget im.data.slots (gid % 32)).map fun x => (im.data, x) else none

/-- The slot image of a strand wherever it is held. -/
def slotImageOf (s : State) (ctx gid : Nat) : Option (List Byte) :=
  (holderOf s ctx gid).map fun (k, x) =>
    let ops := (s.ops ++ s.images.flatMap (·.ops)).filter fun o => o.ctx == ctx && o.core == gid / 32 && o.slot == gid % 32
    slotImage s.now (clockAt s.power (gid / 32)) x (k.splits.filter fun p => p.2.slot == gid % 32) ops (bdoneOf s (gid / 32) (gid % 32) x)

end Sys2Proof.Machine
end

