-- ==== Sys2Proof/Machine/Service.lean ====
section
/-! DEFINITION. Requests to the Linzel service: identity, ownership, contexts, counters, memory, power, firmware and status
(R52 to R61, R92, R111, R122 to R127). -/
namespace Sys2Proof.Machine

/-! ### Senders and answers (R56, R58) -/

/-- A request reaches the service only while it runs (R20). -/
def served (s t : State) : Host.Outcome State Fault Refusal := .next (if s.svc.running then t else s)

/-- Answer without arguments. -/
def answer (s : State) (q : Req) (status : Nat) : State := replyTo s q status []

/-- The sender is the owner; a strand never is (R56, R58). -/
def isOwner (s : State) (q : Req) : Bool :=
  match q.sender with
  | .host key => s.svc.owner == some key
  | .strand _ _ => false

/-- The sender is the owner, or a strand of the context that the request names (R58). -/
def ownerOrCtx (s : State) (q : Req) (ctx : Nat) : Bool :=
  match q.sender with
  | .host _ => isOwner s q
  | .strand _ c => c == ctx

/-- Serve a request of the owner. -/
def asOwner (s : State) (q : Req) (t : State) : Host.Outcome State Fault Refusal :=
  served s (if isOwner s q then t else answer s q 1)

/-- Serve a request of the owner, or of a context for itself. -/
def asCtx (s : State) (q : Req) (ctx : Nat) (t : State) : Host.Outcome State Fault Refusal :=
  served s (if ownerOrCtx s q ctx then t else answer s q 1)

/-- Pad bytes to a multiple of 8 (R59). -/
def padEight (bs : List Byte) : List Byte := bs ++ List.replicate ((8 - bs.length % 8) % 8) 0

/-! ### Measurement and identity (R53, R54) -/

/-- The signed part of the report of R54. -/
def reportBody (s : State) (nonce : BitVec 384) : List Byte :=
  let fixed : List (Nat × Nat × Nat) :=
    [(0, 32, 1), (32, 8, s.phys.deviceId), (64, 384, nonce.toNat), (6592, 64, s.svc.term.toNat),
     (6656, 384, (s.svc.owner.getD 0).toNat)]
  let meas : List (Nat × Nat × Nat) := (List.range 16).map fun n => (448 + 384 * n, 384, (measOf s n).toNat)
  leBytes 880 (pack (fixed ++ meas))

/-- ATTEST (R54, R60). -/
def execAttest (q : Req) (nonce : BitVec 384) (s : State) : Host.Outcome State Fault Refusal :=
  let body := reportBody s nonce
  let sig := Config.identitySign (Config.sha384 body)
  let chain := Config.certChain
  served s (replyTo s q 0 (body ++ leBytes 96 sig.toNat ++ leBytes 8 chain.length ++ padEight chain))

/-! ### Ownership (R55, R57) -/

/-- The signed bytes of a claim (R60). -/
def claimBytes (term : DWord) (key : BitVec 768) (cert : List Byte) : List Byte :=
  leBytes 8 term.toNat ++ leBytes 96 key.toNat ++ leBytes 8 cert.length ++ padEight cert

/-- The claim meets the conditions of R55. -/
def claimGood (s : State) (term : DWord) (key : BitVec 768) (cert : List Byte) (sig : BitVec 768) : Bool :=
  Config.certVerify cert key && Config.ecdsaVerify key (Config.sha384 (claimBytes term key cert)) sig &&
  decide (s.svc.term.toNat < term.toNat)

/-- CLAIM (R55; log entry 42). -/
def execClaim (q : Req) (term : DWord) (key : BitVec 768) (cert : List Byte) (sig : BitVec 768) (s : State) :
    Host.Outcome State Fault Refusal :=
  let c : Claim := { req := q, term := term, key := key, keyHash := Config.sha384 (leBytes 96 key.toNat),
                     digest := Config.sha384 (claimBytes term key cert) }
  served s (if s.svc.owner.isSome then answer s q 3
    else if claimGood s term key cert sig then { s with svc := { s.svc with claims := s.svc.claims ++ [c] } }
    else answer s q 1)

/-- The better of two claims: the higher term, then the lower key hash (R55). -/
def claimBefore (a b : Claim) : Bool :=
  decide (b.term.toNat < a.term.toNat) || (a.term == b.term && decide (a.keyHash.toNat ≤ b.keyHash.toNat))

/-- The winner of an election window (R55). -/
def claimWinner : List Claim → Option Claim
  | [] => none
  | c :: rest => match claimWinner rest with
      | none => some c
      | some d => if claimBefore c d then some c else some d

/-- The claim lost to the winner. -/
def claimLost (w c : Claim) : Bool := c.req != w.req

/-- ELECTION_WINDOW_CLOSE: the winner's claim is the accepted one, and the digest of its signed bytes extends MEAS5 (R53, R55;
which digest, and that the losers' are not accepted, log entry 42). -/
def execElectionWindowClose (s : State) : Host.Outcome State Fault Refusal :=
  served s (match claimWinner s.svc.claims with
    | none => s
    | some w =>
        let all := s.svc.claims
        let svc := { s.svc with owner := some w.keyHash, ownerKey := w.key, term := w.term, claims := [] }
        let s := extendMeas { s with svc := svc } 5 w.digest
        all.foldl (fun s c => answer s c.req (if claimLost w c then 2 else 0)) s)

/-- RELEASE (R57; log entry 42). -/
def execRelease (q : Req) (term signer : DWord) (sig : BitVec 768) (s : State) : Host.Outcome State Fault Refusal :=
  let digest := Config.sha384 (leBytes 8 term.toNat ++ leBytes 8 signer.toNat)
  let key := if signer = 0 then s.svc.ownerKey else Config.podKey
  served s (if 1 < signer.toNat then answer s q 4
    else if s.svc.owner.isNone || s.svc.term != term || !Config.ecdsaVerify key digest sig then answer s q 1
    else answer (extendMeas { s with svc := { s.svc with owner := none, ownerKey := 0 } } 5 digest) q 0)

/-! ### Contexts (R61, R92) -/

/-- The context an argument names. -/
def ctxArg (s : State) (ctx : DWord) : Option Ctx := mget s.ctxs ctx.toNat

/-- The lowest free context id (R61; log entry 94). -/
def freeCtx (s : State) : Option Nat := ((List.range 255).map (· + 1)).find? fun i => (mget s.ctxs i).isNone

/-- Bytes of a save image: 2 MiB for each of 192 cores (R61). -/
def imageBytes : Nat := 384 * 2 ^ 20

/-- Memory for a save image: bits [47:21] of its base (R61). -/
def takeImage (s : State) : Option (Nat × State) :=
  (alloc s 0 imageBytes (2 ^ 21)).map fun p => (p.1 / 2 ^ 21, p.2)

/-- Give a save image back. -/
def giveImage (s : State) (b : Nat) : State := giveFrames s [(b * 2 ^ 21, imageBytes)]

/-- Virtual addresses that the service chooses: the private-window backing, the telemetry ring, the trace ring (log entry
43). -/
def backingPbase : Nat := 0x7F0000
def tringVa : Nat := 0x1FD000000000000
def traceVa : Nat := 0x1FD800000000000

/-- Map consecutive 64 KiB pages onto consecutive frames. -/
def mapRun : Nat → State → Ctx → Nat → Nat → Nat → (Nat → Nat) → Option State
  | 0, s, _, _, _, _, _ => some s
  | n + 1, s, x, id, va, pa, leaf => match mapPage s x id va 16 (leaf pa) 0 with
      | none => none
      | some s => mapRun n s x id (va + 65536) (pa + 65536) leaf

/-- Make a ring of records of some bytes at a virtual address: zeros, with SIZE in its header (R172, R191). -/
def makeRing (s : State) (x : Ctx) (id va size bytes : Nat) : Option (Ring × State) :=
  let pages := ceilDiv (64 + bytes * size) 65536
  match alloc s id (pages * 65536) 65536 with
  | none => none
  | some (pa, s) =>
      let s := homeWrite (zeroRange s pa (pages * 65536)) (pa + 12) (leBytes 4 size)
      (mapRun pages s x id va pa fun p => localLeaf p true true false).map fun s => ({ pa := pa, size := size }, s)

/-- Map the capability page (R64). -/
def mapCaps (s : State) (x : Ctx) (id : Nat) (ring : Option Nat) : Option State :=
  match alloc s id 65536 65536 with
  | none => none
  | some (pa, s) =>
      mapPage (homeWrite (zeroRange s pa 65536) pa (capabilityBytes s ring)) x id capabilityVa 16 (localLeaf pa true false false) 0

/-- The service rewrites the capability list of every context; GEN passes through an odd value and ends even (R64, R65). -/
def refreshCaps (s : State) : State :=
  s.ctxs.foldl (fun s p => match walk s p.1 capabilityVa with
    | .ok l =>
        let pa := entryAddr l.w0.toNat
        let gen := leNat (peeks s.mem (pa + 8) 4)
        let ring := p.2.tring.map fun _ => tringVa
        homeWrite (homeWrite s pa (capabilityBytes s ring)) (pa + 8) (leBytes 4 (gen + 2))
    | .error _ => s) s

/-- A new context descriptor (R61). -/
def newCtx (s : State) (cfg jobid cores img root : Nat) : Ctx :=
  { res := true, sigreq := bitOf cfg 10, moving := false, weight := bitsOf cfg 7 0, priomax := bitsOf cfg 9 8,
    jobid := BitVec.ofNat 32 jobid,
    cores := s.phys.lostCores.foldl (fun m c => m &&& ~~~BitVec.ofNat 192 (2 ^ c)) (BitVec.ofNat 192 cores),
    ptroot := BitVec.ofNat 36 (root / 4096), imgbase := BitVec.ofNat 27 img, handler := 0, psz := bitsOf cfg 15 12, doomed := false,
    pbase := BitVec.ofNat 23 backingPbase, destroying := none, failed := false, idleSince := s.now, flash := none,
    tring := none, trace := none, interval := 0, stallRecs := false, markRecs := false, bps := [] }

/-- Build a context's memory: image, root table, telemetry ring, capability page (R61, R64, R172). -/
def buildCtx (s : State) (id cfg jobid cores tring : Nat) : Option (Ctx × State) :=
  match takeImage s with
  | none => none
  | some (img, s) => match alloc s id 32768 32768 with
      | none => none
      | some (root, s) =>
          let x := newCtx s cfg jobid cores img root
          let s := zeroRange s root 32768
          let ring : Option (Option Ring × State) :=
            if tring = 0 then some (none, s) else (makeRing s x id tringVa tring 32).map fun p => (some p.1, p.2)
          match ring with
          | none => none
          | some (r, s) =>
              let x := { x with tring := r }
              (mapCaps s x id (r.map fun _ => tringVa)).map fun s => (x, { s with ctxs := mput s.ctxs id x })

/-- The arguments of CTXCREATE are refused (R60, R61). -/
def ctxArgsBad (cfg jobid cores tring : Nat) : Bool :=
  bitOf cfg 11 || bitsOf cfg 63 16 != 0 || bitsOf cfg 7 0 == 0 || decide (12 < bitsOf cfg 15 12) ||
  decide (2 ^ 32 ≤ jobid) || decide (2 ^ 192 ≤ cores) ||
  (tring != 0 && (decide (tring < 16) || decide (2 ^ 20 < tring) || 2 ^ Nat.log2 tring != tring))

/-- CTXCREATE (R60, R61). -/
def execCtxCreate (q : Req) (cfg jobid : DWord) (cores : BitVec 256) (tring : DWord) (s : State) :
    Host.Outcome State Fault Refusal :=
  asOwner s q (if ctxArgsBad cfg.toNat jobid.toNat cores.toNat tring.toNat then answer s q 4
    else match freeCtx s with
      | none => answer s q 5
      | some id => match buildCtx s id cfg.toNat jobid.toNat cores.toNat tring.toNat with
          | none => answer s q 5
          | some (x, t) => replyTo t q 0 (leBytes 8 id ++ leBytes 8 x.pbase.toNat ++ leBytes 8 x.imgbase.toNat))

/-- CTXDESTROY begins (R61, R63): the rest follows in `destroyStep`. -/
def execCtxDestroy (q : Req) (ctx : DWord) (s : State) : Host.Outcome State Fault Refusal :=
  asOwner s q (match ctxArg s ctx with
    | none => answer s q 4
    | some x => if x.destroying.isSome then answer s q 6
        else modCtx s ctx.toNat fun x => { x with destroying := some q })

/-- Counters of a context without a parent that are not done, whether cancelled before or not: a child or a launch may have
come under them since (R61, R72). -/
def liveRoots (s : State) (id : Nat) : List Nat :=
  (s.counters.filter fun p => p.2.ctx == id && p.2.parent.isNone && !p.2.done).map (·.1)

/-- A context that is being destroyed has work left on the device. -/
def ctxBusy (s : State) (id : Nat) : Bool := ctxHasStrands s id || ctxHasLaunches s id

/-- The destruction of a context can go on: no image of it is being paged (R63), and once it is doomed nothing of it runs and no
invalidation of its space is outstanding (R61, R127). -/
def destroyDue (s : State) (id : Nat) (x : Ctx) : Bool :=
  x.destroying.isSome && !x.moving && (!x.doomed || !(ctxBusy s id || s.svc.invals.any fun v => v.ctx == id))

/-- A core without the state of a resident; what belongs to the core itself stays. -/
def vacateCore (k : Core) : Core :=
  { emptyCore with tlb := k.tlb, oldWin := k.oldWin, invs := k.invs, issued := k.issued, issuedSlots := k.issuedSlots,
                   recheck := k.recheck, samples := k.samples }

/-- Everything a context has on the device goes (R61, R92). -/
def eraseCtx (s : State) (id : Nat) : State :=
  let mine (k : Nat) : Bool := (clusterAt s k).resident == some id
  let keep (t : List Leaf) : List Leaf := t.filter fun l => l.ctx != id
  let cores := mmap s.cores fun c k =>
    let k := if mine (clusterOf c) then vacateCore k else k
    { k with tlb := keep k.tlb, recheck := mdel k.recheck id, samples := mdel k.samples id }
  let clusters := mmap s.clusters fun _ k =>
    { k with run := if k.run = some id then none else k.run, resident := if k.resident = some id then none else k.resident,
             weight := mdel k.weight id, deficit := mdel k.deficit id, tlb := keep k.tlb }
  { s with
      cores := cores, clusters := clusters, ctxs := mdel s.ctxs id
      counters := s.counters.filter fun p => p.2.ctx != id
      images := s.images.filter fun im => im.ctx != id
      ops := s.ops.filter fun o => o.ctx != id
      net := { s.net with posts := s.net.posts.filter fun p => p.ctx != id }
      svc := { s.svc with grants := s.svc.grants.filter fun g => g.2 != id } }

/-- The destruction of a context: its counters without a parent are cancelled; when its strands have retired its resources
are freed, the save image, the page tables, rings, capability page and frames allocated for it among them (R61, R63). -/
def destroyStep (s : State) (id : Nat) : State :=
  match mget s.ctxs id with
  | none => s
  | some x =>
      if !destroyDue s id x then s
      else if !x.doomed then
        (liveRoots s id).foldl (fun s i => cancelCounter s i) (modCtx s id fun y => { y with doomed := true })
      else
        let s := if x.res then giveImage s x.imgbase.toNat else s
        let s := giveFrames s (framesOf s id)
        let s := eraseCtx s id
        match x.destroying with
        | some q => answer s q 0
        | none => s

/-- CTXWEIGHT: taken at each cluster's next quantum (R61, R92). Another weight, or no such context, is BADARG (log entry 67). -/
def execCtxWeight (q : Req) (ctx weight : DWord) (s : State) : Host.Outcome State Fault Refusal :=
  asOwner s q (if (ctxArg s ctx).isNone || weight = 0 || 255 < weight.toNat then answer s q 4
    else answer (modCtx s ctx.toNat fun x => { x with weight := weight.toNat }) q 0)

/-- CTXHANDLER (R60, R61; log entry 67). -/
def execCtxHandler (q : Req) (ctx handler : DWord) (s : State) : Host.Outcome State Fault Refusal :=
  asCtx s q ctx.toNat (if (ctxArg s ctx).isNone || handler.extractLsb' 0 2 != 0 || handler.extractLsb' 57 7 != 0 then
      answer s q 4
    else answer (modCtx s ctx.toNat fun x => { x with handler := handler.truncate 57 }) q 0)

/-! ### Counters (R60, R69, R70) -/

/-- The lowest counter that is not allocated (R69, R70; log entry 94). -/
def freeCounter (s : State) : Option Nat := (List.range 4096).find? fun i => (mget s.counters i).isNone

/-- PARENT may be the parent of a new counter of a level and a context (R60, R70). -/
def parentOk (s : State) (ctx level parent : Nat) : Bool :=
  match mget s.counters parent with
  | some c => c.ctx == ctx && decide (level < c.level) && !c.done
  | none => false

/-- Allocate a counter with COUNT 1; its parent counts one more (R70). -/
def allocCounter (s : State) (i ctx level : Nat) (parent : Option Nat) : State :=
  let c : Counter := { count := 1, level := level, cancel := false, aband := false, done := false, parent := parent, ctx := ctx }
  let s := { s with counters := mput s.counters i c
                    sched := { s.sched with terms := s.sched.terms.filter fun p => p.1 / 192 != i } }
  match parent with
  | some p => counterAdd s p 1
  | none => s

/-- COUNTER, allocate (R60). -/
def execCounterAllocate (q : Req) (ctx op : DWord) (s : State) : Host.Outcome State Fault Refusal :=
  let w := op.toNat
  let level := bitsOf w 3 2
  let parent := bitsOf w 15 4
  let pv := bitOf w 16
  asCtx s q ctx.toNat (match ctxArg s ctx with
    | none => answer s q 4
    | some x =>
        if bitsOf w 63 17 != 0 || x.destroying.isSome || (pv && !parentOk s ctx.toNat level parent) then answer s q 4
        else match freeCounter s with
          | none => answer s q 5
          | some i =>
              replyTo (allocCounter s i ctx.toNat level (if pv then some parent else none)) q 0 (leBytes 8 i))

/-- A launch that waits names the counter (R60). -/
def launchNames (s : State) (i : Nat) : Bool :=
  let names (l : Launch) : Bool := descField l.desc 27 16 == i ||
    (List.range 4).any fun n => descField l.desc (47 + 16 * n) (47 + 16 * n) == 1 && descField l.desc (43 + 16 * n) (32 + 16 * n) == i
  s.sched.queues.any (fun p => p.2.any names) || s.sched.records.any fun p => p.held && names p

/-- The counter that an INDEX argument names, when it is allocated to the context (R60). -/
def counterArg (s : State) (ctx index : DWord) : Option Counter :=
  match mget s.counters index.toNat with
  | some c => if c.ctx = ctx.toNat then some c else none
  | none => none

/-- COUNTER, free (R60). -/
def execCounterFree (q : Req) (ctx op index : DWord) (s : State) : Host.Outcome State Fault Refusal :=
  asCtx s q ctx.toNat (match counterArg s ctx index with
    | none => answer s q 4
    | some c =>
        if bitsOf op.toNat 63 17 != 0 then answer s q 4
        else if !c.done || launchNames s index.toNat then answer s q 6
        else replyTo { s with counters := mdel s.counters index.toNat } q 0 (leBytes 8 index.toNat))

/-- COUNTER, read (R60, R69). -/
def execCounterRead (q : Req) (ctx op index : DWord) (s : State) : Host.Outcome State Fault Refusal :=
  asCtx s q ctx.toNat (match counterArg s ctx index with
    | none => answer s q 4
    | some c =>
        if bitsOf op.toNat 63 17 != 0 then answer s q 4
        else replyTo s q 0 (leBytes 8 index.toNat ++ leBytes 8 (counterWord c)))

/-! ### MAP and UNMAP (R60, R111, R122 to R127, R172) -/

/-- Two ranges of addresses overlap. -/
def rangesMeet (a n b m : Nat) : Bool := decide (a < b + m) && decide (b < a + n)

/-- A range that the service keeps for itself in a context: the capability page, the private-window backing, the rings (R64,
R111, R172, R191; log entry 44). -/
def keptRange (x : Ctx) (va size : Nat) : Bool :=
  rangesMeet va size capabilityVa 65536 ||
  rangesMeet va size (x.pbase.toNat * 2 ^ 34) (196608 * (4096 * 2 ^ x.psz)) ||
  (match x.tring with | some r => rangesMeet va size tringVa (ceilDiv (64 + 32 * r.size) 65536 * 65536) | none => false) ||
  (match x.trace with | some r => rangesMeet va size traceVa (ceilDiv (64 + 128 * r.size) 65536 * 65536) | none => false)

/-- A leaf of a context lies in a range of addresses. -/
def anyMapped (s : State) (lo hi : Nat) : List (Nat × Nat) → Nat → Nat → Bool
  | [], _, _ => false
  | (bits, n) :: rest, base, vbase =>
      (listedEntries s base n).any fun i =>
        let v := vbase + i * 2 ^ bits
        let e := leNat (peeks s.mem (base + 16 * i) 8)
        !(decide (hi ≤ v) || decide (v + 2 ^ bits ≤ lo) || !bitOf e 0) &&
          (bitOf e 1 || anyMapped s lo hi rest (entryAddr e) v)

/-- Exponent and metadata bytes of a page of 2^bits elements (R124). -/
def planeBytes (bits w1 : Nat) : Nat × Nat :=
  let fmt := leafFmt w1
  let kept := spKept (bitsOf w1 8 7)
  if fmt < 6 then (0, 0)
  else (ceilDiv (2 ^ bits) (blkLen (bitsOf w1 6 4)), if kept = 0 then 0 else 2 ^ bits * kept / 8 * 3 / 8)

/-- Round up to a multiple of 8 KiB (R60). -/
def roundPlane (n : Nat) : Nat := ceilDiv n 8192 * 8192

/-- Replace ADDR, EXPF and METAF of a leaf. -/
def leafAt (w0 w1 pa ex mt : Nat) : Nat × Nat :=
  (bitsOf w0 15 0 + pa / 256 * 2 ^ 16 + bitsOf w0 63 56 * 2 ^ 56,
   bitsOf w1 8 0 + ex / 8192 * 2 ^ 9 + mt / 8192 * 2 ^ 36 + bitsOf w1 63 63 * 2 ^ 63)

/-- Page k of a MAP: its leaf, and the state after its frames are allocated and zeroed (R60); the ADDR of a remote leaf is no frame
(R122); ALLOC and ZERO have no frame to act on where LOC is not local memory (log entry 38). -/
def mapLeaf (s : State) (id bits w0 w1 flags k : Nat) : Option (Nat × Nat × State) :=
  let storage := codeStorage (2 ^ bits) (leafFmt w1) (bitsOf w1 8 7)
  let (ex, mt) := planeBytes bits w1
  let zero (s : State) (pa e m : Nat) : State :=
    if bitOf flags 1 && leafLoc w0 == 0 then zeroRange (zeroRange (zeroRange s pa storage) e ex) m mt else s
  if bitOf flags 0 && leafLoc w0 == 0 then
    match alloc s id storage (frameAlign storage) with
    | none => none
    | some (pa, s) => match plane s ex with
        | none => none
        | some (e, s) => match plane s mt with
            | none => none
            | some (m, s) =>
                let (x0, x1) := leafAt w0 w1 pa e m
                some (x0, x1, zero s pa e m)
  else
    let pa := entryAddr w0 + (if leafLoc w0 = 1 ∨ leafLoc w0 = 2 then 0 else k * frameAlign storage)
    let e := bitsOf w1 35 9 * 8192 + k * roundPlane ex
    let m := bitsOf w1 62 36 * 8192 + k * roundPlane mt
    let (x0, x1) := leafAt w0 w1 pa e m
    some (x0, x1, zero s pa e m)
where
  plane (s : State) (n : Nat) : Option (Nat × State) := if n = 0 then some (0, s) else alloc s id (roundPlane n) 8192

/-- Map the pages of a request in turn; the error is the status of the reply: NOSPACE for frames or planes that do not fit, BADARG
for a page that cannot be entered, a page table without memory among the reasons (log entry 38). -/
def mapPages (x : Ctx) (id bits w0 w1 flags va : Nat) : Nat → Nat → State → Except Nat State
  | 0, _, s => .ok s
  | n + 1, k, s =>
      match mapLeaf s id bits w0 w1 flags k with
      | none => .error 5
      | some (x0, x1, s) =>
          if leafBad bits x0 x1 then .error 4
          else match mapPage s x id (va + k * 2 ^ bits) bits x0 x1 with
            | none => .error 4
            | some s => mapPages x id bits w0 w1 flags va n (k + 1) s

/-- Runs allocated to a context that a leaf of it maps, as a frame or as a plane. -/
def runUsed (r : Nat × Nat) (l : Nat × Nat × Nat × Nat) : Bool :=
  let within (a : Nat) : Bool := decide (r.1 ≤ a) && decide (a < r.1 + r.2)
  leafLoc l.2.2.1 == 0 && (within (entryAddr l.2.2.1) ||
    (6 ≤ leafFmt l.2.2.2 && (within (bitsOf l.2.2.2 35 9 * 8192) || within (bitsOf l.2.2.2 62 36 * 8192))))

/-- Runs allocated to a context that leaves in a range map in one state, and no leaf of it maps in a later one. -/
def runsFreed (s t : State) (id : Nat) (x : Ctx) (lo hi : Nat) : List (Nat × Nat) :=
  let old := (leavesOf s walkLevels (x.ptroot.toNat * 4096) 0).filter fun l => decide (l.1 < hi) && decide (lo < l.1 + 2 ^ l.2.1)
  let new := leavesOf t walkLevels (x.ptroot.toNat * 4096) 0
  (framesOf s id).filter fun r => old.any (runUsed r) && !new.any (runUsed r)

/-- INVALIDATION_COMPLETE: only now are unmapped frames free for another use (R127). -/
def execInvalidationComplete (id : Nat) (s : State) : Host.Outcome State Fault Refusal :=
  .next (match s.svc.invals.find? fun v => v.id == id with
    | none => s
    | some v =>
        if !invalDone s v then s
        else
          let s := giveFrames { s with svc := { s.svc with invals := s.svc.invals.filter fun w => w.id != id } } v.frames
          match v.req with
          | some q => replyTo (flushAll s) q 0 []
          | none => s)

/-- MAP (R60): one that replaces a mapping is answered after its invalidation (R127), so that launches admitted after the answer
fetch the new words, stores of the old words among them performed (R244; log entry 38). -/
def execMap (q : Req) (ctx va size word0 word1 flags : DWord) (s : State) : Host.Outcome State Fault Refusal :=
  let bits := pageBits (bitsOf flags.toNat 3 2)
  let w0 := word0.toNat
  asCtx s q ctx.toNat (match ctxArg s ctx with
    | none => answer s q 4
    | some x =>
        if 16 ≤ flags.toNat || size = 0 || va.toNat % 2 ^ bits != 0 || size.toNat % 2 ^ bits != 0 ||
            2 ^ 57 < va.toNat + size.toNat || !bitOf w0 0 || !bitOf w0 1 || keptRange x va.toNat size.toNat then answer s q 4
        else
          let old := anyMapped s va.toNat (va.toNat + size.toNat) walkLevels (x.ptroot.toNat * 4096) 0
          match mapPages x ctx.toNat bits w0 word1.toNat flags.toNat va.toNat (size.toNat / 2 ^ bits) 0 s with
          | .error e => answer s q e
          | .ok t =>
              let hi := va.toNat + size.toNat
              if old then startInval t ctx.toNat va.toNat hi (some q) (runsFreed s t ctx.toNat x va.toNat hi)
              else answer (flushAll t) q 0)

/-- UNMAP: answered after the invalidation (R60, R127, R244; log entry 38); an empty or unaligned one is BADARG (log entry 67). -/
def execUnmap (q : Req) (ctx va size : DWord) (s : State) : Host.Outcome State Fault Refusal :=
  asCtx s q ctx.toNat (match ctxArg s ctx with
    | none => answer s q 4
    | some x =>
        if size = 0 || va.toNat % 65536 != 0 || size.toNat % 65536 != 0 || 2 ^ 57 < va.toNat + size.toNat ||
            keptRange x va.toNat size.toNat then answer s q 4
        else
          let hi := va.toNat + size.toNat
          let t := clearLeaves va.toNat hi walkLevels s (x.ptroot.toNat * 4096) 0
          startInval t ctx.toNat va.toNat hi (some q) (runsFreed s t ctx.toNat x va.toNat hi))

/-! ### Power, firmware, status (R23, R60) -/

/-- POWERLIMIT (R23, R60); watts beyond the range are BADARG (log entry 67). -/
def execPowerLimit (q : Req) (watts : DWord) (s : State) : Host.Outcome State Fault Refusal :=
  asOwner s q (if watts.toNat < 900 || 1800 < watts.toNat then answer s q 4
    else answer (refreshCaps { s with power := { s.power with limit := watts.toNat } }) q 0)

/-- Lock or unlock the boot flash against writes (R17). -/
def setFlashLock (s : State) (locked : Bool) : State := { s with svc := { s.svc with flashLocked := locked } }

/-- Write the boot flash, where it is not locked; what it holds outlasts a reset (R16, R17). -/
def writeFlash (s : State) (stage : BootStage) : State :=
  if s.svc.flashLocked then s else { s with bootFlash := stage, flashKnown := true }

/-- FWUPDATE: an authorised update unlocks the boot flash, is written and measured, and the flash is locked again (R17, R53,
R60; log entry 42). -/
def execFwUpdate (q : Req) (image : List Byte) (sig : BitVec 768) (s : State) : Host.Outcome State Fault Refusal :=
  let digest := Config.sha384 image
  asOwner s q (if !Config.ecdsaVerify Config.birrovKey digest sig then answer s q 1
    else
      let s := setFlashLock (writeFlash (setFlashLock s false) { image := image, sig := sig }) true
      answer (extendMeas s 6 digest) q 0)

/-- What the status record of the device is made from: the device, its capability summary, each degraded boundary with its
rate (R11), the miswired ports (R15), and the endpoints left disabled (R16; log entry 23). -/
def deviceStatus (s : State) : List (List Nat) :=
  [[s.phys.deviceId, 192 - s.phys.lostCores.length, 16 - s.phys.retired.length],
   (capabilityBytes s none).map (·.toNat),
   s.phys.degraded.flatMap fun p => [p.1, Config.boundaryRate p.1 p.2],
   (s.phys.ports.filter fun p => p.2.miswired).map (·.1),
   s.phys.disabled]

/-- STATUS of the device (R60; log entry 23). -/
def execStatusDevice (q : Req) (s : State) : Host.Outcome State Fault Refusal :=
  served s (replyTo s q 0 (padEight (Config.statusRecord 0 (deviceStatus s))))

/-- STATUS of temperatures, power and clock (R60; log entry 23). -/
def execStatusThermal (q : Req) (s : State) : Host.Outcome State Fault Refusal :=
  let data := [[min s.power.clockPower s.power.clockTherm, s.power.limit, s.power.watts], s.power.temps]
  served s (replyTo s q 0 (padEight (Config.statusRecord 1 data)))

/-- STATUS of the error log, for the owner alone: COUNT records from FIRST on, the oldest kept record being 0, at most as
many as a reply holds (R60, R189; log entry 23). -/
def execStatusErrorLog (q : Req) (first count : DWord) (s : State) : Host.Outcome State Fault Refusal :=
  let recs := (s.svc.log.drop first.toNat).take (min count.toNat 2048)
  asOwner s q (replyTo s q 0 (recs.flatMap fun r => leBytes 32 (logWord r)))

/-- A request with another code (R58). -/
def execUnknownRequest (q : Req) (_code : BitVec 16) (s : State) : Host.Outcome State Fault Refusal := served s (answer s q 4)

end Sys2Proof.Machine
end

