-- ==== Sys2Proof/Machine/Requests.lean ====
section
/-! DEFINITION. Requests to the Linzel service about the fabric, collectives and launches; paging of save images (R30, R31, R39,
R42 to R48, R60, R62, R63, R73, R74). -/
namespace Sys2Proof.Machine

/-! ### WINDOW (R29 to R31) -/

/-- A window write with V = 1 is refused (R30). Bits of VBASE and OBASE below SZ count as reserved (log entry 46). -/
def windowBad (w : Nat) : Bool :=
  let sz := bitsOf w 6 1
  bitOf w 7 || bitsOf w 63 52 != 0 || bitsOf w 95 92 != 0 || bitsOf w 127 112 != 0 || decide (sz < 21) || decide (48 < sz) ||
  decide (240 ≤ bitsOf w 15 8) || decide (2 ^ 48 < bitsOf w 90 64 * 2 ^ 21 + 2 ^ sz) ||
  bitsOf w 51 16 * 2 ^ 21 % 2 ^ sz != 0 || bitsOf w 90 64 * 2 ^ 21 % 2 ^ sz != 0

/-- A change of a window can go on: a token of its old range can be given back, or none is held there any more. A return that failed
is tried again in the next cycle (R31, R40). -/
def windowDue (s : State) (w : WindowWait) : Bool :=
  let held := (s.fab.tokens.map (·.1)).filter (windowHolds (mgetD s.fab.windows w.window 0).toNat)
  held.isEmpty || (decide (s.fab.cleanAt ≤ s.now) && held.any (canReturn s))

/-- A waiting change of a window: the device gives back its tokens for the old range as TKREL does, then the window is remapped
(R31, R40, R319). -/
def windowStep (s : State) (w : WindowWait) : State :=
  let held := (s.fab.tokens.map (·.1)).filter (windowHolds (mgetD s.fab.windows w.window 0).toNat)
  if held.isEmpty then
    startRemap { s with fab := { s.fab with windowWaits := s.fab.windowWaits.filter (· != w) } } w.window w.bits w.req
  else (held.filter (canReturn s)).foldl returnToken s

/-- The service writes a window: with V = 1 only what R30 allows; the entry changes by a remap (R30, R31). -/
def windowWrite (s : State) (n : Nat) (b : BitVec 128) (q : Option Req) : State :=
  if 256 ≤ n || (b.getLsbD 0 && windowBad b.toNat) then answerIf s q 4 []
  else
    let w : WindowWait := { window := n, bits := if b.getLsbD 0 then b else 0, req := q }
    { s with fab := { s.fab with windowWaits := s.fab.windowWaits ++ [w] } }

/-- WINDOW (R30, R31): answered by REMAP_COMPLETE. -/
def execWindow (q : Req) (entry : DWord) (contents : BitVec 128) (s : State) : Host.Outcome State Fault Refusal :=
  asOwner s q (windowWrite s entry.toNat contents (some q))

/-! ### EXPORT (R39) -/

/-- Physical ranges of the local leaves of a context, by rising address. -/
def ownedRanges (s : State) (x : Ctx) : List (Nat × Nat) :=
  let ls := (leavesOf s walkLevels (x.ptroot.toNat * 4096) 0).filter fun l => leafLoc l.2.2.1 == 0
  sortBy (·.1) (ls.map fun l =>
    (entryAddr l.2.2.1, entryAddr l.2.2.1 + codeStorage (2 ^ l.2.1) (leafFmt l.2.2.2) (bitsOf l.2.2.2 8 7)))

/-- Ranges by rising address cover an interval. -/
def rangesCover : List (Nat × Nat) → Nat → Nat → Bool
  | [], lo, hi => decide (hi ≤ lo)
  | (a, b) :: rest, lo, hi => if a ≤ lo && lo < b then rangesCover rest b hi else rangesCover rest lo hi

/-- An EXPORT is refused (R39): with V = 0 only for its reserved fields (log entry 46). -/
def exportBad (s : State) (n x : Nat) : Bool :=
  let sz := bitsOf x 13 8
  let off := bitsOf x 95 64 * 2 ^ 16
  let pa := bitsOf x 127 96 * 2 ^ 16
  bitsOf x 7 3 != 0 || bitsOf x 15 14 != 0 || bitsOf x 63 24 != 0 ||
  (bitOf x 0 && (decide (sz < 16) || decide (36 < sz) || off % 2 ^ sz != 0 || pa % 2 ^ sz != 0 ||
    (s.fab.exports.any fun e => e.1 != n && bitOf e.2.toNat 0 &&
      rangesMeet off (2 ^ sz) (bitsOf e.2.toNat 95 64 * 2 ^ 16) (2 ^ bitsOf e.2.toNat 13 8)) ||
    (match mget s.ctxs (bitsOf x 23 16) with
     | none => true
     | some c => !rangesCover (ownedRanges s c) pa (pa + 2 ^ sz))))

/-- Put an entry in force. -/
def putExport (s : State) (n : Nat) (bits : BitVec 256) : State :=
  { s with fab := { s.fab with exports := mset s.fab.exports n bits 0 } }

/-- Directory regions in the range of an entry. -/
def exportRegions (s : State) (n : Nat) : List (Nat × DirEntry) :=
  s.fab.dir.filter fun p => exportCovers (mgetD s.fab.exports n 0).toNat p.1

/-- Holders whose token may be revoked for a change (R40). -/
def exportRevocable (s : State) (n : Nat) : List (Nat × Nat) :=
  (exportRegions s n).flatMap fun p =>
    (p.2.holders.filter fun h => decide (h.2.2 + 4096 ≤ s.now) && !p.2.revoking.contains h.1).map fun h => (p.1, h.1)

/-- Tokens of the range are still granted. -/
def exportHolders (s : State) (n : Nat) : Bool := (exportRegions s n).any fun p => !p.2.holders.isEmpty

/-- A waiting change can go on. -/
def exportDue (s : State) (w : ExportWait) : Bool := !(exportRevocable s w.entry).isEmpty || !exportHolders s w.entry

/-- Acquisitions that no entry allows any more are answered FAILED; the others go on (R39, R318). -/
def reserveRegion (s : State) (region : Nat) : State :=
  let d := dirOf s region
  let lost := d.queue.filter fun q => (tokenExport s q.1 region).isNone
  let s := putDir s region { d with queue := d.queue.filter fun q => (tokenExport s q.1 region).isSome }
  let s := lost.foldl (fun s q => sendWire s (.grant q.1 region .failed q.2)) s
  dirServe (d.queue.length + 1) s region

/-- A waiting change of an export entry: its tokens are revoked, then it is put in force and answered (R39). -/
def exportStep (s : State) (w : ExportWait) : State :=
  let again := exportRevocable s w.entry
  if !again.isEmpty then
    again.foldl (fun s (r, dev) =>
      let d := dirOf s r
      sendWire (putDir s r { d with revoking := d.revoking ++ [dev] }) (.revoke dev r)) s
  else if exportHolders s w.entry then s
  else
    let regions := (exportRegions s w.entry).map (·.1)
    let s := putExport s w.entry w.bits
    let s := { s with fab := { s.fab with exportWaits := s.fab.exportWaits.filter (· != w) } }
    answerIf (regions.foldl reserveRegion s) w.req 0 []

/-- The service writes an entry of the export table: what R39 allows; a change of a valid entry waits for the tokens of its range
(R39). -/
def exportWrite (s : State) (n : Nat) (b : BitVec 256) (q : Option Req) : State :=
  let new : BitVec 256 := if b.getLsbD 0 then b else 0
  let old := mgetD s.fab.exports n 0
  if 256 ≤ n || exportBad s n b.toNat then answerIf s q 4 []
  else if old.getLsbD 0 && old != new then
    { s with fab := { s.fab with exportWaits := s.fab.exportWaits ++ [{ entry := n, bits := new, req := q }] } }
  else answerIf (putExport s n new) q 0 []

/-- EXPORT (R39). -/
def execExportEntry (q : Req) (entry : DWord) (contents : BitVec 256) (s : State) : Host.Outcome State Fault Refusal :=
  asOwner s q (exportWrite s entry.toNat contents (some q))

/-! ### CONNECT (R33, R48, R60) -/

/-- The service writes a connection: entry 0 is its own (R48), and a request for it is refused; an invalid entry is stored as zero
(both log entry 46); an invalidated connection closes its posted requests (R342). -/
def connectionWrite (s : State) (n : Nat) (b : BitVec 128) (q : Option Req) : State :=
  let w := b.toNat
  if (n = 0 ∧ q.isSome) ∨ 65536 ≤ n ∨ bitsOf w 31 16 ≠ 0 ∨ 7 < bitsOf w 7 4 then answerIf s q 4 []
  else
    let new : BitVec 128 := if b.getLsbD 0 then b else 0
    let s := if b.getLsbD 0 then s else closeConn s n
    answerIf { s with fab := { s.fab with conns := mset s.fab.conns n new 0 } } q 0 []

/-- CONNECT of the connection table (R48, R60). -/
def execConnectConnection (q : Req) (entry : DWord) (contents : BitVec 128) (s : State) : Host.Outcome State Fault Refusal :=
  asOwner s q (connectionWrite s entry.toNat contents (some q))

/-- The service writes a path (R33, R60). -/
def pathWrite (s : State) (n : Nat) (b : BitVec 128) (q : Option Req) : State :=
  if 1920 ≤ n || bitsOf b.toNat 127 16 != 0 || 24 ≤ bitsOf b.toNat 7 0 then answerIf s q 4 []
  else answerIf (writePath s n b) q 0 []

/-- CONNECT of the path table (R33, R60). -/
def execConnectPath (q : Req) (entry : DWord) (contents : BitVec 128) (s : State) : Host.Outcome State Fault Refusal :=
  asOwner s q (pathWrite s entry.toNat contents (some q))

/-! ### COLLDESC (R42 to R46, R60) -/

/-- A member entry (R42). -/
def memberOf (w : Word) : Member :=
  { dev := bitsOf w.toNat 6 0, strand := bitsOf w.toNat 19 7, w := bitOf w.toNat 20 }

/-- Member entries with a reserved bit or a strand that does not exist, or too many of them. -/
def membersBad (ms : List Word) : Bool :=
  decide (1024 < ms.length) || ms.any fun w => bitsOf w.toNat 31 21 != 0 || decide (6144 ≤ bitsOf w.toNat 19 7)

/-- The member list after the edits that wait. -/
def membersAfter (c : CollDesc) : List Member :=
  c.edits.foldl (fun ms e => match e.1 with
    | .setUp _ new => new
    | .add new => ms ++ new
    | .remove gone => ms.filter fun m => !gone.any fun r => r.dev == m.dev && r.strand == m.strand) c.members

/-- An edit waits until the descriptor is IDLE (R44); its reply comes when it is applied. -/
def addEdit (s : State) (d : Nat) (e : CollEdit) (q : Req) : State :=
  let c := collOf s d
  applyEdits (putColl s d { c with edits := c.edits ++ [(e, q)] }) d

/-- COLLDESC, set up (R44, R60). -/
def execColldescSetUp (q : Req) (desc ctx : DWord) (members : List Word) (s : State) : Host.Outcome State Fault Refusal :=
  asOwner s q (if 256 ≤ desc.toNat || (ctxArg s ctx).isNone || membersBad members then answer s q 4
    else addEdit s desc.toNat (.setUp ctx.toNat (members.map memberOf)) q)

/-- COLLDESC, add members (R44, R60). -/
def execColldescAddMembers (q : Req) (desc : DWord) (members : List Word) (s : State) : Host.Outcome State Fault Refusal :=
  asOwner s q (if 256 ≤ desc.toNat || membersBad members ||
      1024 < (membersAfter (collOf s desc.toNat)).length + members.length then answer s q 4
    else addEdit s desc.toNat (.add (members.map memberOf)) q)

/-- COLLDESC, remove members (R44, R60). -/
def execColldescRemoveMembers (q : Req) (desc : DWord) (members : List Word) (s : State) : Host.Outcome State Fault Refusal :=
  asOwner s q (if 256 ≤ desc.toNat || membersBad members then answer s q 4
    else addEdit s desc.toNat (.remove (members.map memberOf)) q)

/-- The rank of a listed member. -/
def rankIn (c : CollDesc) (m : Member) : Option Nat :=
  (c.members.zipIdx.find? fun p => p.1.dev == m.dev && p.1.strand == m.strand).map (·.2)

/-- COLLDESC, withdraw members (R46, R60): the service of a member's own device withdraws it (R370). -/
def execColldescWithdraw (q : Req) (desc : DWord) (members : List Word) (s : State) : Host.Outcome State Fault Refusal :=
  let d := desc.toNat
  asOwner s q (if 256 ≤ d || membersBad members || members.any fun w => (rankIn (collOf s d) (memberOf w)).isNone then
      answer s q 4
    else
      answer (members.foldl (fun s w =>
        let m := memberOf w
        match rankIn (collOf s d) m with
        | some r => if m.dev = s.phys.deviceId then collWithdraw s d r else s
        | none => s) s) q 0)

/-- COLLDESC, abort (R45, R60). -/
def execColldescAbort (q : Req) (desc : DWord) (s : State) : Host.Outcome State Fault Refusal :=
  asOwner s q (if 256 ≤ desc.toNat then answer s q 4 else answer (collAbort s desc.toNat) q 0)

/-- COLLDESC, read: the descriptor word and its members; DROP is cleared (R42, R60). -/
def execColldescRead (q : Req) (desc : DWord) (s : State) : Host.Outcome State Fault Refusal :=
  let c := collOf s desc.toNat
  asOwner s q (if 256 ≤ desc.toNat then answer s q 4
    else replyTo (putColl s desc.toNat { c with drop := 0 }) q 0
      (leBytes 8 (collWord c) ++ padEight (c.members.flatMap fun m => leBytes 4 (memberWord m))))

/-! ### LAUNCH (R60, R73, R74, R222) -/

/-- The valid dependence counters of a descriptor. -/
def depsOf (d : BitVec 1024) : List Nat :=
  (List.range 4).filterMap fun n =>
    if descField d (47 + 16 * n) (47 + 16 * n) = 1 then some (descField d (43 + 16 * n) (32 + 16 * n)) else none

/-- A reserved field of a launch descriptor is nonzero; BINS belongs to record launches (R74). -/
def descReserved (d : BitVec 1024) : Bool :=
  [(7, 4), (31, 28), (46, 44), (62, 60), (78, 76), (94, 92), (159, 153), (191, 188), (223, 208), (279, 277), (319, 296),
   (1023, 960)].any (fun p => descField d p.1 p.2 != 0) || (descField d 3 3 == 0 && descField d 271 256 != 0)

/-- The cores of CMASK ∩ CORES (R76). -/
def launchCores (x : Ctx) (d : BitVec 1024) : BitVec 192 := BitVec.ofNat 192 (descField d 511 320) &&& x.cores

/-- Checks of R74 that a launch of a context fails. -/
def descBad (s : State) (x : Ctx) (id : Nat) (d : BitVec 1024) : Bool :=
  let slices := descField d 187 184
  let recl := descField d 3 3 == 1
  descReserved d || slices == 0 || decide (8 < slices) || decide (128 < descField d 199 192) ||
  (recl && (descField d 183 160 != 0 || descField d 271 256 == 0 || decide (4 * slices < descField d 276 272 + 1) ||
    decide (descField d 295 280 < 63))) ||
  launchCores x d == 0 || (depsOf d).any (fun i => (mget s.counters i).isNone) ||
  (match mget s.counters (descField d 27 16) with
   | some c => c.ctx != id || c.level != 0 || c.done
   | none => true)

/-- The counters that CLOSE closes, with the level each must have (R60). -/
def closeList (w : Nat) : List (Nat × Nat) :=
  (if bitOf w 0 then [(bitsOf w 15 4, 1)] else []) ++ (if bitOf w 1 then [(bitsOf w 27 16, 2)] else []) ++
  (if bitOf w 2 then [(bitsOf w 39 28, 3)] else [])

/-- CLOSE is refused (R60). -/
def closeBad (s : State) (id w : Nat) : Bool :=
  bitOf w 3 || bitsOf w 63 44 != 0 || (closeList w).any fun p => match mget s.counters p.1 with
    | some c => c.ctx != id || c.level != p.2 || c.done
    | none => true

/-- The bytes of a file from an offset. -/
def fileNat (bs : List Byte) (off n : Nat) : Nat := leNat ((bs.drop off).take n)

/-- The contents of the signature section of an FJO file that has one: offset and length (R215, R216). -/
def signatureSection (bs : List Byte) : Option (Nat × Nat) :=
  let headers := (List.range (fileNat bs 12 4)).map fun n => fileNat bs 16 8 + 48 * n
  if fileNat bs 0 4 = 0x314F4A46 ∧ bitOf (fileNat bs 6 2) 1 then
    (headers.find? fun h => fileNat bs (h + 4) 1 == 12).map fun h => (fileNat bs (h + 16) 8, fileNat bs (h + 24) 8)
  else none

/-- A file with the contents of a section replaced by zero bytes (R222). -/
def blankSection (bs : List Byte) (off n : Nat) : List Byte := bs.take off ++ List.replicate n 0 ++ bs.drop (off + n)

/-- The three conditions under which a launch from an image is admitted with SIGREQ = 1 (R222): DIGEST matches the file, the
signature verifies, and the chain ends at a key that the policy in MEAS4 trusts. -/
def imageTrusted (s : State) (bs : List Byte) : Bool :=
  match signatureSection bs with
  | none => false
  | some (off, n) =>
      let digest := Config.sha384 (blankSection bs off n)
      let chain := (bs.drop (off + 152)).take (fileNat bs (off + 4) 4)
      fileNat bs off 4 == 1 && digest == BitVec.ofNat 384 (fileNat bs (off + 8) 48) &&
      Config.ecdsaVerify (Config.chainKey chain) digest (BitVec.ofNat 768 (fileNat bs (off + 56) 96)) &&
      Config.chainTrusted (measOf s 4) chain

/-- A launch abandons a page-out under way and starts a page-in of images that are on flash (R62, R63). -/
def wakeImages (x : Ctx) : Ctx := if x.res then { x with moving := false } else { x with moving := true }

/-- Admit a launch at the tail of its queue and close the counters it names (R70, R73). -/
def admitLaunch (s : State) (id : Nat) (d : BitVec 1024) (w : Nat) : State :=
  let n := bitsOf w 43 40
  let l : Launch := { desc := d ||| 1, placed := 0, last := none, held := true }
  let s := modCtx s id fun x => { wakeImages x with idleSince := s.now }
  let s := { s with sched := { s.sched with queues := mput s.sched.queues n (mgetD s.sched.queues n [] ++ [l]) } }
  (closeList w).foldl (fun s p => counterSub 4 s p.1 1) s

/-- LAUNCH (R58, R60, R73, R74, R222; log entries 45, 47). -/
def execLaunch (q : Req) (desc : BitVec 1024) (close : DWord) (s : State) : Host.Outcome State Fault Refusal :=
  let id := descField desc 15 8
  let w := close.toNat
  let n := bitsOf w 43 40
  asCtx s q id (match mget s.ctxs id with
    | none => answer s q 4
    | some x =>
        if x.priomax < n / 4 || x.failed || (x.sigreq && !imageTrusted s (Config.imageFile desc)) then answer s q 1
        else if 64 ≤ (mgetD s.sched.queues n []).length then answer s q 6
        else if x.destroying.isSome || descBad s x id desc || closeBad s id w then answer s q 4
        else answer (admitLaunch s id desc w) q 0)

/-! ### Paging of save images (R62, R63) -/

/-- The root port has an NVMe endpoint to write images to and read them from; without one every such write and read fails (R16,
R62). -/
def flashThere (s : State) : Bool := !s.phys.nvme.isEmpty

/-- The context is idle and old enough to be paged out (R62). -/
def pageOutDue (s : State) (id : Nat) (x : Ctx) : Bool :=
  x.res && !x.moving && x.destroying.isNone && !ctxActive s id && decide (x.idleSince + Config.pageOutAge ≤ s.now)

/-- PAGE_OUT_START (R62). -/
def execPageOutStart (ctx : Nat) (s : State) : Host.Outcome State Fault Refusal :=
  served s (match mget s.ctxs ctx with
    | none => s
    | some x => if pageOutDue s ctx x then modCtx s ctx fun x => { x with moving := true } else s)

/-- Cells as bytes for a digest. -/
def cellBytes (cs : List Host.Cell) : List Byte := cs.flatMap fun c => leBytes 8 c.1 ++ [c.2]

/-- The image leaves memory for flash, its poisoned lines and those of a stack that is out of service marked as such (R14, R62,
R188). -/
def pageOut (s : State) (ctx : Nat) (x : Ctx) : State :=
  let base := x.imgbase.toNat * 2 ^ 21
  let cells := (cellsIn s.mem base (base + imageBytes)).map fun c => (c.1 - base, c.2)
  let bad := if s.phys.retired.contains (base / stackSize) then List.range (imageBytes / 128)
    else (s.poison.filter fun l => base ≤ l * 128 && l * 128 < base + imageBytes).map fun l => l - base / 128
  let image : FlashImage := { cells := cells, poison := bad, digest := Config.sha384 (cellBytes cells) }
  let s := giveImage (zeroRange s base imageBytes) x.imgbase.toNat
  modCtx s ctx fun x => { x with res := false, moving := false, flash := some image }

/-- PAGE_OUT_COMPLETE: a failed write leaves RES at 1 (R62). -/
def execPageOutComplete (ctx : Nat) (ok : Bool) (s : State) : Host.Outcome State Fault Refusal :=
  served s (match mget s.ctxs ctx with
    | none => s
    | some x =>
        if x.moving && x.res then
          (if ok && flashThere s then pageOut s ctx x else modCtx s ctx fun x => { x with moving := false, idleSince := s.now })
        else s)

/-- The image comes back into memory (R62). -/
def pageIn (s : State) (ctx : Nat) (x : Ctx) : Option State :=
  match takeImage s, x.flash with
  | some (b, s), some image =>
      if Config.sha384 (cellBytes image.cells) = image.digest then
        let base := b * 2 ^ 21
        let s := zeroRange s base imageBytes
        let s := { s with
          mem := pokeCells s.mem (image.cells.map fun c => (base + c.1, c.2))
          poison := s.poison ++ image.poison.map fun l => base / 128 + l }
        some (modCtx s ctx fun x => { x with res := true, moving := false, flash := none, imgbase := BitVec.ofNat 27 b })
      else none
  | _, _ => none

/-- A page-in fails: the queued launches of the context are cancelled, and it is marked failed (R62). -/
def pageInFails (s : State) (ctx : Nat) : State :=
  let s := modCtx s ctx fun x => { x with moving := false, failed := true }
  let mine := s.sched.queues.flatMap fun p => (p.2.filter fun l => descField l.desc 15 8 == ctx).map fun l => descField l.desc 27 16
  mine.foldl (fun s i => cancelCounter s i) s

/-- PAGE_IN_COMPLETE (R62). -/
def execPageInComplete (ctx : Nat) (ok : Bool) (s : State) : Host.Outcome State Fault Refusal :=
  served s (match mget s.ctxs ctx with
    | none => s
    | some x =>
        if x.moving && !x.res then
          (match (if ok && flashThere s then pageIn s ctx x else none) with
           | some t => t
           | none => pageInFails s ctx)
        else s)

end Sys2Proof.Machine
end

