-- ==== Sys2Proof/Machine/Debug.lean ====
section
/-! DEFINITION. Debugger access: grants, tracing, halts, reads and writes of a strand's state, breakpoints (R197 to R200); the
encoding of the functions' arguments is log entry 48. -/
namespace Sys2Proof.Machine

/-- The argument that names every strand of a context, or no filter. -/
def allStrands : DWord := BitVec.allOnes 64

/-- The sender holds a grant for the context (R200). -/
def hasGrant (s : State) (q : Req) (ctx : Nat) : Bool :=
  match q.sender with
  | .host key => s.svc.grants.contains (key, ctx)
  | .strand _ _ => false

/-- Serve a request of a holder of a grant. -/
def asDebugger (s : State) (q : Req) (ctx : Nat) (t : State) : Host.Outcome State Fault Refusal :=
  served s (if hasGrant s q ctx then t else answer s q 1)

/-! ### Grants (R200) -/

/-- DEBUG GRANT (R200). -/
def execDebugGrant (q : Req) (key : BitVec 384) (ctx : DWord) (s : State) : Host.Outcome State Fault Refusal :=
  let g := (key, ctx.toNat)
  let grants := if s.svc.grants.contains g then s.svc.grants else s.svc.grants ++ [g]
  asOwner s q (if (ctxArg s ctx).isNone then answer s q 4
    else answer { s with svc := { s.svc with grants := grants } } q 0)

/-- The global strand numbers that a context holds, live or saved. -/
def heldStrands (s : State) (ctx : Nat) : List Nat :=
  (s.cores.flatMap fun p => (p.2.slots.filter fun q => q.2.ctx == ctx).map fun q => gidOf p.1 q.1) ++
  (s.images.filter fun im => im.ctx == ctx).flatMap fun im => im.data.slots.map fun q => gidOf im.core q.1

/-- Change a strand of a context by its global number. -/
def modGid (s : State) (ctx g : Nat) (f : Strand → Strand) : State := modStrandAny s ctx (g / 32) (g % 32) f

/-- A halt or a resume of a saved strand sets or clears HALT in its slot image in memory (R186, R197). -/
def imageHalt (s : State) (ctx g : Nat) (on : Bool) : State :=
  let live := match strandAt s (g / 32) (g % 32) with
    | some x => x.ctx == ctx
    | none => false
  match mget s.ctxs ctx with
  | none => s
  | some x =>
      if live || !x.res then s
      else
        let at_ := imageBase x (g / 32) + g % 32 * 0x6000 + 0x4040
        let b := peek s.mem at_
        homeWrite s at_ [if on then b ||| 8 else b &&& ~~~8]

/-- A halted strand runs again, or issues some instructions for a debugger (R200). -/
def resumeStrand (steps : Option (Nat × BitVec 384)) (x : Strand) : Strand :=
  if x.halted.isSome then { x with halted := none, steps := steps } else x

/-- The halt of a debugger is over for a strand: the strand runs again once no other debugger holds it (R200). -/
def letGo (key : BitVec 384) (x : Strand) : Strand :=
  let x := { x with steps := x.steps.filter fun p => p.2 != key }
  match x.halted with
  | none => x
  | some h =>
      if !h.holders.contains key then x
      else
        let rest := h.holders.filter (· != key)
        if rest.isEmpty then { x with halted := none } else { x with halted := some { h with holders := rest } }

/-- Change a strand of a context and, where it is saved, HALT of its image in memory with it. -/
def modHalt (s : State) (ctx g : Nat) (f : Strand → Strand) : State :=
  let s := modGid s ctx g f
  match holderOf s ctx g with
  | some (_, x) => imageHalt s ctx g x.halted.isSome
  | none => s

/-- DEBUG REVOKE: the strands that the grant has halted are resumed (R200; log entry 48). -/
def execDebugRevoke (q : Req) (key : BitVec 384) (ctx : DWord) (s : State) : Host.Outcome State Fault Refusal :=
  let t := { s with svc := { s.svc with grants := s.svc.grants.filter (· != (key, ctx.toNat)) } }
  asOwner s q (answer ((heldStrands t ctx.toNat).foldl (fun t g => modHalt t ctx.toNat g (letGo key)) t) q 0)

/-! ### The trace ring (R191, R192) -/

/-- A power of two in a range of exponents. -/
def powerIn (n lo hi : Nat) : Bool := decide (2 ^ lo ≤ n) && decide (n ≤ 2 ^ hi) && 2 ^ Nat.log2 n == n

/-- Replace the trace ring by one of another size, in fresh frames. -/
def newTrace (s : State) (ctx : Nat) (x : Ctx) (size : Nat) : Option State :=
  let hi := traceVa + 2 ^ 28
  let s := match x.trace with
    | some _ =>
        let t := clearLeaves traceVa hi walkLevels s (x.ptroot.toNat * 4096) 0
        startInval t ctx traceVa hi none (runsFreed s t ctx x traceVa hi)
    | none => s
  if size = 0 then some (modCtx s ctx fun x => { x with trace := none })
  else (makeRing s x ctx traceVa size 128).map fun p => modCtx p.2 ctx fun x => { x with trace := some p.1 }

/-- DEBUG TRACECFG: ring size (0 for none), sampling interval (0 for off), flags [0] stall records, [1] marker records
(R191, R200). -/
def execTraceCfg (q : Req) (ctx ringSize interval flags : DWord) (s : State) : Host.Outcome State Fault Refusal :=
  let size := ringSize.toNat
  let n := interval.toNat
  asDebugger s q ctx.toNat (match ctxArg s ctx with
    | none => answer s q 4
    | some x =>
        if (size != 0 && !powerIn size 4 20) || (n != 0 && !powerIn n 8 20) || 4 ≤ flags.toNat then answer s q 4
        else
          let same := (x.trace.map (·.size)).getD 0 = size
          match (if same then some s else newTrace s ctx.toNat x size) with
          | none => answer s q 5
          | some t =>
              answer (modCtx t ctx.toNat fun x =>
                { x with interval := n, stallRecs := bitOf flags.toNat 0, markRecs := bitOf flags.toNat 1 }) q 0)

/-! ### Halts (R197, R199, R200) -/

/-- The strands that an argument names; none when it names no strand of the context. -/
def strandArg (s : State) (ctx strand : DWord) : Option (List Nat) :=
  let held := heldStrands s ctx.toNat
  if strand = allStrands then some held
  else if held.contains strand.toNat then some [strand.toNat] else none

/-- The key of a host that asks; a strand has none. -/
def keyOf (q : Req) : BitVec 384 :=
  match q.sender with
  | .host key => key
  | .strand _ _ => 0

/-- Halt one strand for a debugger at its next boundary, where it stands (R197). -/
def haltGid (s : State) (ctx g : Nat) (key : BitVec 384) : State :=
  match holderOf s ctx g with
  | none => s
  | some (k, x) =>
      let mine := k.splits.filter fun p => p.2.slot == g % 32
      modHalt (takeStop s) ctx g (haltedBy (stopOf s (g / 32) x mine 0 0 none [key]))

/-- DEBUG HALT (R197, R200). -/
def execDebugHalt (q : Req) (ctx strand : DWord) (s : State) : Host.Outcome State Fault Refusal :=
  asDebugger s q ctx.toNat (match strandArg s ctx strand with
    | none => answer s q 4
    | some gs => answer (gs.foldl (fun s g => haltGid s ctx.toNat g (keyOf q)) s) q 0)

/-- DEBUG RESUME; a step count of 1 to 255 issues that many instructions (R200). -/
def execDebugResume (q : Req) (ctx strand steps : DWord) (s : State) : Host.Outcome State Fault Refusal :=
  let n := steps.toNat
  asDebugger s q ctx.toNat (match strandArg s ctx strand with
    | none => answer s q 4
    | some gs =>
        if 255 < n then answer s q 4
        else answer (gs.foldl (fun s g =>
            modHalt s ctx.toNat g (resumeStrand (if n = 0 then none else some (n, keyOf q)))) s) q 0)

/-- A halted strand of a context, with its core state. -/
def haltedAt (s : State) (ctx strand : DWord) : Option (Core × Strand × Option StopRec) :=
  (holderOf s ctx.toNat strand.toNat).map fun p => (p.1, p.2, p.2.halted)

/-- DEBUG READSTOP (R199, R200). -/
def execReadStop (q : Req) (ctx strand : DWord) (s : State) : Host.Outcome State Fault Refusal :=
  asDebugger s q ctx.toNat (match haltedAt s ctx strand with
    | none => answer s q 4
    | some (_, _, none) => answer s q 6
    | some (_, _, some r) => replyTo s q 0 (leBytes 64 (stopWord strand.toNat r)))

/-- DEBUG READ at the offsets of R186 (R200). -/
def execDebugRead (q : Req) (ctx strand offset len : DWord) (s : State) : Host.Outcome State Fault Refusal :=
  asDebugger s q ctx.toNat (match haltedAt s ctx strand, slotImageOf s ctx.toNat strand.toNat with
    | some (_, _, none), _ => answer s q 6
    | some _, some bs =>
        if 0x6000 < offset.toNat + len.toNat then answer s q 4
        else replyTo s q 0 (padEight ((bs.drop offset.toNat).take len.toNat))
    | _, _ => answer s q 4)

/-! ### Writes to a halted strand (R186, R200) -/

/-- Byte i of a register changes; the register is FULL. -/
def cellByte (c : RegCell) (i : Nat) (b : Byte) : RegCell :=
  let old := c.val.toNat
  fullCell (BitVec.ofNat 32 (old - old / 256 ^ i % 256 * 256 ^ i + b.toNat * 256 ^ i))

/-- A byte of a 32-bit word changes. -/
def wordByte (w : Word) (i : Nat) (b : Byte) : Word := (cellByte (fullCell w) i b).val

/-- The full bits of a byte: the bits from `lo` on of the registers that `get` and `set` name. -/
def fullBits (x : Strand) (b : Byte) (get : Strand → Nat → RegCell) (set : Strand → Nat → RegCell → Strand) (lo : Nat) : Strand :=
  (List.range 8).foldl (fun x i =>
    set x (lo + i) { get x (lo + i) with st := if b.getLsbD i then .full else .vacant }) x

/-- One byte written at an offset of the slot image; none where R200 refuses it, the split table, the strand-state block and the trap
record, or the image has no field. A written HZ is at once again the one of R106, and the reserved area stays zero (log entry 48). -/
def writeImageByte (x : Strand) (off : Nat) (b : Byte) : Option Strand :=
  if off < 0x3C00 then
    let r := off / 128
    let l := off % 128 / 4
    some (vset x r l (cellByte (vget x r l) (off % 4) b))
  else if off < 0x3D00 then
    let r := (off - 0x3C00) / 4
    some (sset x r (cellByte (sget x r) (off % 4) b))
  else if off < 0x3EE0 then
    let r := (off - 0x3D00) / 4
    some (fullBits x b (fun x l => vget x r l) (fun x l c => vset x r l c) (8 * ((off - 0x3D00) % 4)))
  else if off < 0x3EE8 then some (fullBits x b sget sset (8 * (off - 0x3EE0)))
  else if 0x3F00 ≤ off && off < 0x3F20 then
    let n := (off - 0x3F00) / 4
    some (kset x n (BitVec.allOnes 32) (wordByte (kmask x n) (off % 4) b))
  else if off = 0x3F20 then some { x with g := b &&& 0xFE }
  else if 0x4080 ≤ off && off < 0x5E00 then some x
  else none

/-- The register a byte of an image belongs to is PENDING (R200). -/
def pendingByte (x : Strand) (off : Nat) : Bool :=
  if off < 0x3C00 then (vget x (off / 128) (off % 128 / 4)).st == .pending
  else if off < 0x3D00 then (sget x ((off - 0x3C00) / 4)).st == .pending
  else if off < 0x3EE0 then
    (List.range 8).any fun i => (vget x ((off - 0x3D00) / 4) (8 * ((off - 0x3D00) % 4) + i)).st == .pending
  else if off < 0x3EE8 then (List.range 8).any fun i => (sget x (8 * (off - 0x3EE0) + i)).st == .pending
  else false

/-- Write bytes at successive offsets of the image. -/
def writeImageBytes (x : Strand) (off : Nat) : List Byte → Option Strand
  | [] => some x
  | b :: rest => match writeImageByte x off b with
      | none => none
      | some y => writeImageBytes y (off + 1) rest

/-- DEBUG WRITE (R200). -/
def execDebugWrite (q : Req) (ctx strand offset : DWord) (bytes : List Byte) (s : State) :
    Host.Outcome State Fault Refusal :=
  asDebugger s q ctx.toNat (match haltedAt s ctx strand with
    | none => answer s q 4
    | some (_, _, none) => answer s q 6
    | some (_, x, some _) => match writeImageBytes x offset.toNat bytes with
        | none => answer s q 4
        | some y =>
            if (List.range bytes.length).any fun i => pendingByte x (offset.toNat + i) then answer s q 6
            else answer (modGid s ctx.toNat strand.toNat fun _ => y) q 0)

/-! ### Breakpoints (R198) -/

/-- DEBUG SETBP: PC in bits [56:0] with the enable in bit 63, and the filter (R198, R200). -/
def execSetBp (q : Req) (ctx index pc filter : DWord) (s : State) : Host.Outcome State Fault Refusal :=
  let only : Option Nat := if filter = allStrands then none else some filter.toNat
  let bp : Breakpoint := { pc := pc.truncate 57, en := pc.getLsbD 63, filter := only, setter := keyOf q }
  asDebugger s q ctx.toNat (if (ctxArg s ctx).isNone || 8 ≤ index.toNat || pc.extractLsb' 57 6 != 0 || 6144 ≤ only.getD 0 then
      answer s q 4
    else answer (modCtx s ctx.toNat fun x => { x with bps := mput x.bps index.toNat bp }) q 0)

end Sys2Proof.Machine
end

