-- ==== Sys2Proof/Machine/SysCall.lean ====
section
/-! DEFINITION. Requests of strands: the service reads the block of a SYS, serves the request, and writes the reply (R58, R59, R60,
R296). -/
namespace Sys2Proof.Machine

/-! ### The block in the context's memory (R296) -/

/-- The lane as which the service reaches a strand's private window (log entry 49). -/
def blockLane (x : Strand) : Nat := lowLane (lanesThere x &&& ~~~x.exited)

/-- The leaf of an address of a context, after a private page has been mapped on demand (R111, R177). -/
def blockLeaf (s : State) (ctx g eva : Nat) : Option Leaf × State :=
  let s := if inBacking s ctx eva then mapPrivate s ctx eva else s
  match walk s ctx eva with
  | .error e => (none, logWalk s ctx (g / 32) e)
  | .ok l => (some l, s)

/-- The place of a byte that the service may read and write as the context: on a plain local or remote page with RD and WR
(R125, R296; log entry 49). -/
def blockPlace (s : State) (ctx g lane va : Nat) : Option Place × State :=
  if 2 ^ 57 ≤ va then (none, s)
  else match backing s ctx g lane va with
    | none => (none, s)
    | some eva =>
        let (r, s) := blockLeaf s ctx g eva
        (r.bind fun l =>
          let w := l.w0.toNat
          if !bitOf w 2 || !bitOf w 3 || leafLoc w == 3 || leafFmt l.w1.toNat != 0 then none
          else match placeOf s (g / 32) l eva with
            | .ok (p, false) => some p
            | _ => none, s)

/-- The places of bytes at successive virtual addresses. -/
def blockPlaces (ctx g lane va : Nat) : Nat → State → Option (List Place) × State
  | 0, s => (some [], s)
  | n + 1, s =>
      let (p, s) := blockPlace s ctx g lane va
      match p with
      | none => (none, s)
      | some p =>
          let (rest, s) := blockPlaces ctx g lane (va + 1) n s
          (rest.map fun ps => p :: ps, s)

/-- What the service finds of a block: its bytes, remote bytes to ask for, or a block that it cannot read. -/
inductive BlockRead where
  | bytes (bs : List Byte)
  | ask (addrs : List Nat)
  | bad
  deriving DecidableEq, Repr

/-- A byte of a block: poisoned, there, or still remote. -/
def blockByte (s : State) (g : Nat) (far : SMap Byte) (p : Place) : BlockRead :=
  match p with
  | .dev pa _ => if poisonedIn s pa 1 then .bad else .bytes [localByte s (clusterOf (g / 32)) pa]
  | .fab a tkc =>
      if tkc && tokenServes s (a / 2 ^ 21) false && cachedAll s a 1 then
        (if s.fab.cachedPoison.contains (a / 128) then .bad else .bytes (cachedBytes s a 1))
      else match mget far a with
        | some b => .bytes [b]
        | none => .ask [a]
  | .chip _ => .bad

/-- Two stretches of a block together. -/
def BlockRead.append : BlockRead → BlockRead → BlockRead
  | .bad, _ | _, .bad => .bad
  | .bytes a, .bytes b => .bytes (a ++ b)
  | .ask a, .ask b => .ask (a ++ b)
  | .ask a, .bytes _ | .bytes _, .ask a => .ask a

/-- Read some bytes of a block. -/
def readBlock (s : State) (ctx g lane va n : Nat) (far : SMap Byte) : BlockRead × State :=
  let (ps, s) := blockPlaces ctx g lane va n s
  (match ps with
   | none => .bad
   | some ps => ps.foldr (fun p r => (blockByte s g far p).append r) (.bytes []), s)

/-- LEN and ARGS of a block; bad when it cannot be read, LEN is out of range or its second word is not zero (R296). -/
def readArgs (s : State) (ctx g lane va : Nat) (far : SMap Byte) : BlockRead × State :=
  let (head, s) := readBlock s ctx g lane va 8 far
  match head with
  | .bytes h =>
      let n := leNat (h.take 4)
      if n < 8 || 4096 < n || n % 8 != 0 || leNat (h.drop 4) != 0 then (.bad, s)
      else readBlock s ctx g lane (va + 8) (n - 8) far
  | r => (r, s)

/-- Bytes at fabric addresses as runs inside one line. -/
def farRuns : List (Nat × Byte) → List (Nat × List Byte)
  | [] => []
  | (a, b) :: rest => match farRuns rest with
      | (a', bs) :: runs => if a' = a + 1 ∧ a' % 128 ≠ 0 then (a, b :: bs) :: runs else (a, [b]) :: (a', bs) :: runs
      | [] => [(a, [b])]

/-- Requests for runs of a strand's block; the strand waits for their replies (R32, R296). -/
def askBlock (s : State) (ctx g : Nat) (runs : List (Nat × FabKind)) : State :=
  let (ids, s) := runs.foldl (fun (acc : List Nat × State) q =>
    let (id, s) := newReq acc.2 (g / 32) [q] (.block ctx g) none
    (acc.1 ++ [id], s)) ([], s)
  pump (modStrandAny s ctx (g / 32) (g % 32) fun x => { x with sys := x.sys.map fun r => { r with asked := ids } })

/-- The fabric addresses of bytes that a request must carry to their home (R40). -/
def farWrites (s : State) (bs : List (Place × Byte)) : List (Nat × Byte) :=
  bs.filterMap fun q => match q.1 with
    | .fab a tkc => if tkc && tokenServes s (a / 2 ^ 21) true then none else some (a, q.2)
    | _ => none

/-- Write the bytes of a block that need no request: in device memory, and in the cache under an exclusive token (R40). -/
def writePlaces (s : State) : List (Place × Byte) → State
  | [] => s
  | (p, b) :: rest =>
      writePlaces (match p with
        | .dev pa _ => homeWrite s pa [b]
        | .fab a tkc => if tkc && tokenServes s (a / 2 ^ 21) true then cacheWrite s a [b] else s
        | .chip _ => s) rest

/-! ### Decoding a request (R58 to R60) -/

/-- A field of some bytes of the arguments, as a number. -/
def argNat (bs : List Byte) (off n : Nat) : Nat := leNat ((bs.drop off).take n)
/-- The 8-byte argument at an offset. -/
def argAt (bs : List Byte) (off : Nat) : DWord := BitVec.ofNat 64 (argNat bs off 8)

/-- Codes that only the owner, or a holder of a debug grant, may send (R58). -/
def ownerCode (code : Nat) : Bool :=
  [0x10, 0x11, 0x12, 0x21, 0x22, 0x23, 0x24, 0x40, 0x41, 0x50].contains code

/-- CLAIM, whose certificate has a length of its own. -/
def decodeClaim (q : Req) (bs : List Byte) : Option Instr :=
  let n := argNat bs 104 8
  let padded := ceilDiv n 8 * 8
  if bs.length < 112 + padded + 96 then none
  else some (.claim q (argAt bs 0) (BitVec.ofNat 768 (argNat bs 8 96)) ((bs.drop 112).take n)
    (BitVec.ofNat 768 (argNat bs (112 + padded) 96)))

/-- COUNTER by its OP; OP 3 is BADARG (log entry 67). -/
def decodeCounter (q : Req) (bs : List Byte) : Option Instr :=
  if bs.length < 16 then none
  else match argNat bs 8 8 % 4 with
    | 0 => some (.counterAllocate q (argAt bs 0) (argAt bs 8))
    | 1 => if bs.length < 24 then none else some (.counterFree q (argAt bs 0) (argAt bs 8) (argAt bs 16))
    | 2 => if bs.length < 24 then none else some (.counterRead q (argAt bs 0) (argAt bs 8) (argAt bs 16))
    | _ => none

/-- STATUS by its WHAT; one above 2 is BADARG (log entry 67). -/
def decodeStatus (q : Req) (bs : List Byte) : Option Instr :=
  if bs.length < 8 then none
  else match argNat bs 0 8 with
    | 0 => some (.statusDevice q)
    | 1 => some (.statusThermal q)
    | 2 => if bs.length < 24 then none else some (.statusErrorLog q (argAt bs 8) (argAt bs 16))
    | _ => none

/-- Words of 4 bytes. -/
def argWords (bs : List Byte) (off n : Nat) : List Word := (List.range n).map fun i => BitVec.ofNat 32 (argNat bs (off + 4 * i) 4)

/-- COLLDESC by its OP: N member entries follow the four words (R60). The CTXID word stands in every request, and an OP above 5 is
BADARG (log entry 67). -/
def decodeColldesc (q : Req) (bs : List Byte) : Option Instr :=
  let n := argNat bs 24 8
  let ms := argWords bs 32 n
  let listed := decide (32 + ceilDiv (4 * n) 8 * 8 ≤ bs.length)
  if bs.length < 16 then none
  else match argNat bs 8 8 with
    | 0 => if listed then some (.colldescSetUp q (argAt bs 0) (argAt bs 16) ms) else none
    | 1 => if listed then some (.colldescAddMembers q (argAt bs 0) ms) else none
    | 2 => if listed then some (.colldescRemoveMembers q (argAt bs 0) ms) else none
    | 3 => if listed then some (.colldescWithdraw q (argAt bs 0) ms) else none
    | 4 => some (.colldescAbort q (argAt bs 0))
    | 5 => some (.colldescRead q (argAt bs 0))
    | _ => none

/-- CONNECT by its TABLE (R60); one above 1 is BADARG (log entry 67). -/
def decodeConnect (q : Req) (bs : List Byte) : Option Instr :=
  if bs.length < 32 then none
  else match argNat bs 0 8 with
    | 0 => some (.connectConnection q (argAt bs 8) (BitVec.ofNat 128 (argNat bs 16 16)))
    | 1 => some (.connectPath q (argAt bs 8) (BitVec.ofNat 128 (argNat bs 16 16)))
    | _ => none

/-- FWUPDATE, whose image has a length of its own (R60). -/
def decodeUpdate (q : Req) (bs : List Byte) : Option Instr :=
  let n := argNat bs 0 8
  let padded := ceilDiv n 8 * 8
  if bs.length < 8 + padded + 96 then none
  else some (.fwUpdate q ((bs.drop 8).take n) (BitVec.ofNat 768 (argNat bs (8 + padded) 96)))

/-- DEBUG by its FUNCTION, the functions numbered in the order of R200 (log entry 48); one above 8 is
BADARG (log entry 67). -/
def decodeDebug (q : Req) (bs : List Byte) : Option Instr :=
  let need (n : Nat) (i : Instr) : Option Instr := if bs.length < n then none else some i
  match argNat bs 0 8 with
  | 0 => need 64 (.debugGrant q (BitVec.ofNat 384 (argNat bs 8 48)) (argAt bs 56))
  | 1 => need 64 (.debugRevoke q (BitVec.ofNat 384 (argNat bs 8 48)) (argAt bs 56))
  | 2 => need 40 (.traceCfg q (argAt bs 8) (argAt bs 16) (argAt bs 24) (argAt bs 32))
  | 3 => need 24 (.debugHalt q (argAt bs 8) (argAt bs 16))
  | 4 => need 32 (.debugResume q (argAt bs 8) (argAt bs 16) (argAt bs 24))
  | 5 => need 24 (.readStop q (argAt bs 8) (argAt bs 16))
  | 6 => need 40 (.debugRead q (argAt bs 8) (argAt bs 16) (argAt bs 24) (argAt bs 32))
  | 7 => need (40 + argNat bs 32 8)
      (.debugWrite q (argAt bs 8) (argAt bs 16) (argAt bs 24) ((bs.drop 40).take (argNat bs 32 8)))
  | 8 => need 40 (.setBp q (argAt bs 8) (argAt bs 16) (argAt bs 24) (argAt bs 32))
  | _ => none

/-- A request as a step of the machine; none when its arguments are shorter than its code requires (R59, R60). -/
def decodeRequest (q : Req) (code : Nat) (bs : List Byte) : Option Instr :=
  let need (n : Nat) (i : Instr) : Option Instr := if bs.length < n then none else some i
  match code with
  | 0x01 => need 48 (.attest q (BitVec.ofNat 384 (argNat bs 0 48)))
  | 0x02 => decodeClaim q bs
  | 0x03 => need 112 (.release q (argAt bs 0) (argAt bs 8) (BitVec.ofNat 768 (argNat bs 16 96)))
  | 0x10 => need 56 (.ctxCreate q (argAt bs 0) (argAt bs 8) (BitVec.ofNat 256 (argNat bs 16 32)) (argAt bs 48))
  | 0x11 => need 8 (.ctxDestroy q (argAt bs 0))
  | 0x12 => need 16 (.ctxWeight q (argAt bs 0) (argAt bs 8))
  | 0x13 => decodeCounter q bs
  | 0x14 => need 16 (.ctxHandler q (argAt bs 0) (argAt bs 8))
  | 0x20 => need 48 (.map q (argAt bs 0) (argAt bs 8) (argAt bs 16) (argAt bs 24) (argAt bs 32) (argAt bs 40))
  | 0x21 => need 24 (.window q (argAt bs 0) (BitVec.ofNat 128 (argNat bs 8 16)))
  | 0x22 => need 40 (.exportEntry q (argAt bs 0) (BitVec.ofNat 256 (argNat bs 8 32)))
  | 0x23 => decodeConnect q bs
  | 0x24 => decodeColldesc q bs
  | 0x25 => need 24 (.unmap q (argAt bs 0) (argAt bs 8) (argAt bs 16))
  | 0x30 => need 136 (.launch q (BitVec.ofNat 1024 (argNat bs 0 128)) (argAt bs 128))
  | 0x40 => need 8 (.powerLimit q (argAt bs 0))
  | 0x41 => decodeUpdate q bs
  | 0x42 => decodeStatus q bs
  | 0x50 => decodeDebug q bs
  | _ => some (.unknownRequest q (BitVec.ofNat 16 code))

/-! ### Messages at the service endpoint (R48, R58, R59) -/

/-- The 16-byte header of a request or a reply (R59). -/
def header (seq code status len : Nat) : List Byte :=
  leBytes 16 (pack [(0, 32, seq), (32, 16, code), (48, 8, status), (64, 32, len)])

/-- A reply as the message that leaves the service (R58, R59). -/
def replyMessage (r : Reply) : List Byte := header r.seq.toNat r.code.toNat r.status r.args.length ++ r.args

/-- What a message at the service endpoint asks of the machine: the request of its header and arguments; BADARG at once for a
reserved bit, a STATUS, a LEN that is not that of a request, or arguments too short (R59). The request's status comes from
`answer`. -/
def endpointRequest (s : State) (key : BitVec 384) (msg : List Byte) : State :=
  let h := leNat (msg.take 16)
  let q : Req := { sender := .host key, seq := BitVec.ofNat 32 (bitsOf h 31 0), code := BitVec.ofNat 16 (bitsOf h 47 32) }
  let len := bitsOf h 95 64
  let args := msg.drop 16
  if bitsOf h 63 48 != 0 || bitsOf h 127 96 != 0 || len % 8 != 0 || decide (65536 < len) || decide (args.length < len) then
    answer s q 4
  else match decodeRequest q q.code.toNat (args.take len) with
    | none => answer s q 4
    | some i => { s with inbox := (s.now, i) :: s.inbox }

/-- NET_MESSAGE_ARRIVAL: a message at entry 0 is a request to the service, from the host behind that connection (R48, R58, log
entry 78); a message of another connection starts a posted request or is delivered (R51); one in a mode that is not
implemented, or for a connection that is not there, is dropped and counted (R47, log entry 78). -/
def execNetMessageArrival (mode : NetMode) (conn tag : Nat) (payload : List Byte) (s : State) :
    Host.Outcome State Fault Refusal :=
  .next (if mode == .rudi || mode == .uud || !(mgetD s.fab.conns conn 0).getLsbD 0 then
      { s with net := { s.net with dropped := s.net.dropped + 1 } }
    else if conn = 0 then
      (if s.svc.running then endpointRequest s (Config.peerKey (mgetD s.fab.conns 0 0)) payload else s)
    else netMessage s conn tag payload)

/-! ### Writes without a row of their own (R25, R29, R33, R39, R48, R53, R58) -/

/-- REGISTER_WRITE: a write of the service to one of its structures, under the rules that hold for a request to write it, or a message
at the management port, which is a request as one at the service endpoint is (R58, R59; log entry 92). -/
def execRegisterWrite (w : RegWrite) (s : State) : Host.Outcome State Fault Refusal :=
  served s (match w with
    | .window n b => windowWrite s n b none
    | .connection n b => connectionWrite s n b none
    | .path n b => pathWrite s n b none
    | .exportTable n b => exportWrite s n b none
    | .deviceId d => refreshCaps { s with phys := { s.phys with deviceId := d } }
    | .measure n d => if 7 ≤ n ∧ n < 16 then extendMeas s n d else s
    | .management key msg => endpointRequest s key msg)

/-! ### Serving (R58, R296) -/

/-- A strand's operations that write memory have been performed, so that the service reads a whole block (log entry 49). -/
def storesDone (s : State) (c sl : Nat) : Bool :=
  (opsOf s c sl).all fun o => !(o.kind == .store || o.kind == .atom || o.kind == .cas || o.kind == .cell) || openLanes o == 0 || opFaulted o

/-- A request of a live strand that the service may take now. -/
def sysDue (s : State) (c sl : Nat) (x : Strand) : Bool :=
  match x.sys with
  | some r => !r.taken && r.asked.isEmpty && decide (r.due ≤ s.now) && storesDone s c sl
  | none => false

/-- The service has taken the request; `len` is the size of its arguments. -/
def sysTaken (s : State) (c sl len : Nat) : State :=
  modStrand s c sl fun x => { x with sys := x.sys.map fun r => { r with taken := true, len := len, far := [], lost := false } }

/-- The service takes the request of a strand: what the machine executes for it, if anything, and the state before that; a
remote block is asked for first. -/
def sysTake (s : State) (c sl : Nat) : Option Instr × State :=
  match strandAt s c sl with
  | none => (none, s)
  | some x => match x.sys with
      | none => (none, s)
      | some r =>
          let q : Req := { sender := .strand (gidOf c sl) x.ctx, seq := r.seq, code := r.code }
          let (args, s) := readArgs s x.ctx (gidOf c sl) (blockLane x) r.va.toNat r.far
          match if r.lost then .bad else args with
          | .bad => (none, answer (sysTaken s c sl 0) q 4)
          | .ask as =>
              (none, askBlock s x.ctx (gidOf c sl) ((farRuns (as.map fun a => (a, 0))).map fun q => (q.1, .read q.2.length)))
          | .bytes bs =>
              let s := sysTaken s c sl bs.length
              if ownerCode r.code.toNat then (none, answer s q 1)
              else match decodeRequest q r.code.toNat bs with
                | none => (none, answer s q 4)
                | some i => (some i, s)

/-- The context of a strand that is live at a slot, or saved in an image of the core. -/
def ctxsAt (s : State) (c sl : Nat) : List Nat :=
  ((strandAt s c sl).map (·.ctx)).toList ++
  (s.images.filter fun im => im.core == c && (mget im.data.slots sl).isSome).map (·.ctx)

/-- The contexts whose strand of a global number waits for a reply that is there: live first, then saved. -/
def replyCtx (s : State) (g : Nat) : Option (Nat × Strand) :=
  ((ctxsAt s (g / 32) (g % 32)).filterMap fun ctx => (holderOf s ctx g).bind fun p =>
    match p.2.sys with
    | some { reply := some _, .. } => some (ctx, p.2)
    | _ => none).head?

/-- The split waits for a SYS. -/
def parkedSys (q : Split) : Bool :=
  match q.parked with
  | some (.sys _ _) => true
  | _ => false

/-- Give the status of a reply to its split, in the table, in the record of a trap, or in an image. -/
def sysDeliver (s : State) (ctx g : Nat) (status : Nat) : State :=
  match holderOf s ctx g with
  | none => s
  | some (k, _) =>
      let s := modGid s ctx g fun y => { y with sys := none }
      let at_ := (splitsIn k (g % 32)).filterMap fun p => match p.parked with
        | some (.sys d nx) => some (d, nx)
        | _ => none
      match at_ with
      | (d, nx) :: _ => deliver s ctx (g / 32) (g % 32) parkedSys d (BitVec.ofNat 32 status) nx
      | [] => s

/-- The reply arguments take the place of the request's in the block; the strand waits for the remote bytes among them. -/
def sysWrite (s : State) (ctx g : Nat) (bs : List (Place × Byte)) : State :=
  let far := farWrites s bs
  let s := modStrandAny (writePlaces s bs) ctx (g / 32) (g % 32) fun x =>
    { x with sys := x.sys.map fun r => { r with written := true } }
  askBlock s ctx g ((farRuns far).map fun q => (q.1, .write q.2))

/-- SERVICE_REPLY: the reply arguments take the place of the request's in the block, and D receives the status once they are
there; a reply that does not fit returns NOSPACE and leaves the block unchanged (R59, R296; log entry 49). -/
def execServiceReply (gid : Nat) (s : State) : Host.Outcome State Fault Refusal :=
  .next (match replyCtx s gid with
    | none => s
    | some (ctx, x) => match x.sys with
        | some { reply := some (status, args), va := va, len := len, written := written, lost := lost, .. } =>
            if written then sysDeliver s ctx gid (if lost then 4 else status)
            else if len < args.length then sysDeliver s ctx gid 5
            else
              let (ps, s) := blockPlaces ctx gid (blockLane x) (va.toNat + 8) args.length s
              (match ps with
               | none => sysDeliver s ctx gid 4
               | some ps =>
                   let bs := ps.zip args
                   if (farWrites s bs).isEmpty then sysDeliver (writePlaces s bs) ctx gid status
                   else sysWrite s ctx gid bs)
        | _ => s)

end Sys2Proof.Machine
end

