-- ==== Sys2Proof/Machine/Share.lean ====
section
/-! DEFINITION. Sharing a cluster between contexts, pre-emption and restore (R89 to R92, R184 to R188). -/
namespace Sys2Proof.Machine

/-! ### Pending work (R89) -/

/-- The cores of a cluster. -/
def coresOf (k : Nat) : List Nat := (List.range 8).map (· + 8 * k)

/-- A dependence counter has DONE = 1 (R75); one that is no longer allocated counts as done (log entry 95). -/
def depDone (s : State) (i : Nat) : Bool := ((mget s.counters i).map (·.done)).getD true

/-- The dependences of a launch are met (R75, R89). -/
def headReady (s : State) (l : Launch) : Bool := (depsOf l.desc).all (depDone s)

/-- A bin holds records. -/
def binsFull (k : Core) : Bool := k.bins.any fun b => !b.2.recs.isEmpty

/-- CMASK names a core of a cluster. -/
def maskMeets (d : BitVec 1024) (k : Nat) : Bool := descField d (320 + 8 * k + 7) (320 + 8 * k) != 0

/-- PEND of a context on a cluster (R89). -/
def pend (s : State) (k ctx : Nat) : Bool :=
  (s.images.any fun im => im.ctx == ctx && clusterOf im.core == k && (!im.data.slots.isEmpty || binsFull im.data)) ||
  ((clusterAt s k).resident == some ctx && (coresOf k).any fun c =>
    (coreOf s c).slots.any (fun p => p.2.ctx == ctx) || binsFull (coreOf s c)) ||
  s.sched.queues.any fun q => match q.2.head? with
    | some l => descField l.desc 15 8 == ctx && maskMeets l.desc k && headReady s l
    | none => false

/-- The first context after p, in cyclic order, whose PEND is 1 (R91). -/
def nextPending (s : State) (k p : Nat) : Option Nat :=
  leastBy (fun c => (c + 254 - p) % 255) ((s.ctxs.map (·.1)).filter (pend s k))

/-- Another context is pending (R91). -/
def otherPending (s : State) (k c : Nat) : Bool := s.ctxs.any fun x => x.1 != c && pend s k x.1

/-! ### Charges (R90) -/

/-- Engines of a core busy with operations of a context: the array, the copy engine, the network engine. An operation that has
faulted keeps no engine busy. -/
def busyEngines (s : State) (ctx c : Nat) : Nat :=
  let open_ (k : OpKind) : Bool := s.ops.any fun o =>
    o.core == c && o.ctx == ctx && o.kind == k && !o.complete && !o.discarded && !opFaulted o
  bit ((coreOf s c).fil.any fun o => o.ctx == ctx) + bit (open_ .cpy) + bit (open_ .net)

/-- DEF of a context on a cluster. -/
def deficitOf (k : Cluster) (ctx : Nat) : Int := mgetD k.deficit ctx 0

/-- Who is charged for a cycle of a cluster (R90, R91): the owner while it has work, and without an owner the resident whose
state the collectors write. -/
def chargedCtx (s : State) (k : Nat) : Option Nat :=
  let x := clusterAt s k
  match x.run, x.coll with
  | some c, _ => if pend s k c then some c else none
  | none, .saving _ => x.resident
  | none, _ => none

/-- The charges of a cycle reach the deficit (R90, R91). -/
def chargeCluster (s : State) (k : Nat) : State :=
  modCluster s k fun x =>
    match chargedCtx s k with
    | none => { x with charge := 0 }
    | some c =>
        let units := x.charge + ((coresOf k).map (busyEngines s c)).foldl (· + ·) 0
        { x with charge := 0, deficit := mput x.deficit c (deficitOf x c - (units : Int)) }

/-! ### Taking a cluster (R91) -/

/-- The collectors of a cluster are asked to save its resident (R184). -/
def startCollector (s : State) (k : Nat) (next : Option Nat) : State :=
  let s := (coresOf k).foldl (fun s c => modCore s c fun x => { x with stopReq := some s.now, engAck := false }) s
  modCluster s k fun x => { x with coll := .saving next }

/-- A context owns the cluster and gains one quantum (R91, R92). -/
def takeRun (s : State) (k c : Nat) : State :=
  let w := ((mget s.ctxs c).map (·.weight)).getD 0
  modCluster s k fun x =>
    { x with run := some c, resident := some c, last := c, coll := .idle, weight := mput x.weight c w,
             deficit := mput x.deficit c (deficitOf x c + (2 ^ 20 * w : Nat)) }

/-- A context takes a cluster that nobody owns: a resident other than it is saved first, its own images are restored. -/
def startTake (s : State) (k c : Nat) : State :=
  match (clusterAt s k).resident with
  | some r => if r = c then takeRun s k c else startCollector s k (some c)
  | none =>
      if s.images.any fun im => im.ctx == c && clusterOf im.core == k then
        let (due, s) := takeDue s
        modCluster s k fun x => { x with coll := .restoring c, collDue := due }
      else takeRun s k c

/-- The cluster has no owner, its collectors are idle, and some context waits for it. -/
def takeNext (s : State) (k : Nat) : Option Nat :=
  let x := clusterAt s k
  if x.run.isNone && x.coll == .idle then nextPending s k x.last else none

/-- CLUSTER_TAKE (R91). -/
def execClusterTake (cluster : Nat) (s : State) : Host.Outcome State Fault Refusal :=
  .next (match takeNext s cluster with
    | some c => startTake s cluster c
    | none => s)

/-- Ownership lapses: the owner has no work (R91). -/
def lapseDue (s : State) (k : Nat) : Option Nat :=
  match (clusterAt s k).run with
  | some c => if !pend s k c then some c else none
  | none => none

/-- OWNERSHIP_LAPSE: surplus lapses, debt is kept, the owner stays resident (R91). Collectors that run go on, for the next
context. -/
def execOwnershipLapse (cluster : Nat) (s : State) : Host.Outcome State Fault Refusal :=
  .next (match lapseDue s cluster with
    | none => s
    | some c =>
        let s := modCluster s cluster fun x =>
          { x with run := none, deficit := mput x.deficit c (min 0 (deficitOf x c)) }
        match (clusterAt s cluster).coll with
        | .saving _ => modCluster s cluster fun x => { x with coll := .saving (nextPending s cluster c) }
        | _ => match takeNext s cluster with
            | some d => startTake s cluster d
            | none => s)

/-- The quantum of the owner is used up, and no collector or hand-over to a spare core runs (R66, R91). -/
def quantumDue (s : State) (k : Nat) : Option Nat :=
  let x := clusterAt s k
  match x.run with
  | some c =>
      if x.coll == .idle && pend s k c && decide (deficitOf x c ≤ 0) && !((coresOf k).any fun c => s.phys.bringIn.contains c) then
        some c
      else none
  | none => none

/-- QUANTUM_EXPIRY: pre-emption for a pending context, or another quantum (R91). -/
def execQuantumExpiry (cluster : Nat) (s : State) : Host.Outcome State Fault Refusal :=
  .next (match quantumDue s cluster with
    | none => s
    | some c => if otherPending s cluster c then startCollector s cluster none else takeRun s cluster c)

/-! ### Engines (R184) -/

/-- An operation stands at its engine's unit, or belongs to no engine (R184). A chunk that waits at a mailbox or a queue
port is a continuation with its sequence number (R187). -/
def atUnit (s : State) (o : Op) : Bool :=
  if o.complete || o.discarded || opFaulted o || triggered s o then true
  else match o.work with
    | .cpy w => w.cur.isNone || (o.waits.isEmpty && w.moves.any fun m => match m.dst with
        | .mem (.chip _) => true
        | _ => false)
    | .net w => (mget o.got askedKey).isNone || w.sent.isSome
    | .coll q => collHas s (collParams q).desc o.id
    | _ => true

/-- Every engine of a core has reached its unit. -/
def enginesStopped (s : State) (c : Nat) : Bool := s.ops.all fun o => o.core != c || atUnit s o

/-- The FMMA in progress leaves its count in the tile unless it carries .hold (R184). -/
def drainAtStop (s : State) (c : Nat) : State :=
  match (coreOf s c).fil with
  | o :: _ =>
      if o.opc = 0x6B && o.started && !filHold o && (bankOf (coreOf s c) (filBankB o)).live then
        let r := drainBank (coreOf s c) (filBankB o)
        let s := filPut s c o r
        if r.eaten then filEaten s c o else s
      else s
  | [] => s

/-- A core waits for the acknowledgement of its engines. -/
def ackDue (s : State) (c : Nat) : Bool := (coreOf s c).stopReq.isSome && !(coreOf s c).engAck && enginesStopped s c

/-- ENGINE_STOP_ACK (R184). -/
def execEngineStopAck (core : Nat) (s : State) : Host.Outcome State Fault Refusal :=
  .next (if ackDue s core then modCore (drainAtStop s core) core fun k => { k with engAck := true } else s)

/-! ### Strands at a boundary (R184) -/

/-- An operation that a save image may hold: nothing is open, or it is a continuation, or it belongs to the program that a saved
handler interrupted: a fault that the trap or the TRET decides on, an access that is held (R175, R180, R184). -/
def mayBeSaved (x : Strand) (o : Op) : Bool :=
  openLanes o == 0 && (o.complete || o.kind == .fil) ||
  o.discarded ||
  (engineKind o.kind && !o.complete && !opFaulted o && o.waits.isEmpty && o.tok.isNone && !atService o && match o.work with
    | .net w => w.sent.isNone
    | _ => true) ||
  (x.handling.isSome && (x.trapOps.contains o.id || (decide (o.id < x.trapMark) &&
    (opFaulted o || (!engineKind o.kind && o.accs.all fun a => !accOpen a || accHeld a)))))

/-- A strand stands at a boundary with its horizons clear. -/
def strandQuiet (s : State) (c sl : Nat) (x : Strand) : Bool :=
  x.arisen.isNone && x.cancelNext.isNone && (x.handling.isNone || stopLate s c) && (opsOf s c sl).all (mayBeSaved x)

/-- A core can be saved. -/
def coreQuiet (s : State) (c : Nat) : Bool :=
  (coreOf s c).engAck && (coreOf s c).slots.all fun p => strandQuiet s c p.1 p.2

/-- PREEMPT_HANDLER_TIMEOUT: the strand is stopped inside its handler (R184). -/
def execPreemptHandlerTimeout (core slot : Nat) (s : State) : Host.Outcome State Fault Refusal :=
  .next (match strandAt s core slot with
    | none => s
    | some x =>
        if x.handling.isSome && stopLate s core then
          modCore s core fun k => { k with splits := mmap k.splits fun _ p =>
            if p.slot = slot then { p with cls := some .preempt } else p }
        else s)

/-! ### Saving and restoring a core (R184, R186 to R188) -/

/-- Stall records of the strands of a core, whose counters start again (R195). -/
def saveStalls (s : State) (c : Nat) : State :=
  (coreOf s c).slots.foldl (fun s p => modStrand (stallRecord s c p.1 2 p.2) c p.1 fun x => { x with stalls := [] }) s

/-- Operations that go into the image of a core; the collective unit keeps its members (R184). -/
def savedOps (s : State) (c ctx : Nat) : List Op :=
  s.ops.filter fun o => o.core == c && o.ctx == ctx && o.slot != noSlot && !triggered s o &&
    !(o.kind == .coll && !o.complete && !o.discarded)

/-- The core state as an image holds it: nothing of a fetch under way, and no stop request. -/
def stillCore (k : Core) : Core :=
  { k with
      splits := mmap k.splits fun _ p => { p with fetch := none, tried := 0, turn := none }
      serving := false, tlb := [], oldWin := [], invs := [], issued := [], issuedSlots := [], stopReq := none, engAck := false }

/-- Save the state of a context on a core, in the structured image and, where its images are in memory, as bytes (R184; log
entry 43). -/
def saveCore (s : State) (ctx c : Nat) : State :=
  let s := saveStalls s c
  let s := if ((mget s.ctxs ctx).map (·.res)).getD false then writeImage s ctx c else s
  let s := (savedOps s c ctx).foldl (fun s o => refundOp s o.id) s
  let ops := savedOps s c ctx
  let im : Image := { ctx := ctx, core := c, data := stillCore (coreOf s c), ops := ops }
  modCore { s with images := (s.images.filter fun i => !(i.ctx == ctx && i.core == c)) ++ [im],
                   stale := s.stale.filter fun w => w.core != c
                   ops := s.ops.filter fun o => !ops.any fun p => p.id == o.id } c fun k =>
    { vacateCore k with recheck := mdel k.recheck ctx }

/-- A poisoned bin state, descriptor or split entry lies in the image of a core (R188). -/
def imagePoisoned (s : State) (x : Ctx) (c : Nat) : Bool :=
  let base := imageBase x c
  ((List.range 32).any fun sl => poisonedIn s (base + sl * 0x6000 + 0x3F40) 0x100) ||
  poisonedIn s (base + 0xC0000 + 0x11A000) 8 || poisonedIn s (base + 0xC0000 + 0x11A200) 0x80 ||
  poisonedIn s (base + 0xC0000 + 0x11A400) 0x80

/-- Put an image back onto its core: every wait is evaluated anew, each destination slot starts with its full measure, and the
recheck setting and count of the context come back (R88, R184, R333). -/
def restoredCore (old k : Core) (ctx now : Nat) : Core :=
  { k with
      splits := mmap k.splits fun _ p => { p with tried := now + 1, cls := p.parked.bind fun _ => p.cls }
      dst := mmap k.dst fun _ d => { d with credit := 4095, ceiling := 4095 }
      tlb := old.tlb, oldWin := old.oldWin, invs := old.invs, issued := old.issued, issuedSlots := old.issuedSlots,
      recheck := match mget k.recheck ctx with
        | some r => mput old.recheck ctx r
        | none => mdel old.recheck ctx
      samples := old.samples }

/-- Restore a core of a context: continuations are charged anew (R184, R188). -/
def restoreCore (s : State) (ctx c : Nat) : State :=
  match s.images.find? fun im => im.ctx == ctx && im.core == c with
  | none => s
  | some im =>
      let s := modCore { s with images := s.images.filter fun i => !(i.ctx == ctx && i.core == c) } c fun k => restoredCore k im.data ctx s.now
      let s := { s with ops := sortBy (fun o : Op => o.id) (s.ops ++ im.ops) }
      let s := im.data.slots.foldl (fun s p => modView s (gidOf c p.1) fun w => { w with floor := s.past.length, fenced := true }) s
      let s := im.ops.foldl (fun s o => if engineKind o.kind && !o.complete && !o.discarded then recharge s o.id o.lanes else s) s
      let bad := match mget s.ctxs ctx with
        | some x => x.res && imagePoisoned s x c
        | none => false
      if bad then (coreOf s c).slots.foldl (fun s p => terminate s c p.1 0x80) s else s

/-- The collectors of a cluster can finish. -/
def saveDue (s : State) (k : Nat) : Bool :=
  match (clusterAt s k).coll with
  | .saving _ => (coresOf k).all (coreQuiet s)
  | _ => false

/-- PREEMPT_COMPLETE: the images are written, the cluster has no resident, and moves on (R91, R184). -/
def execPreemptComplete (cluster : Nat) (s : State) : Host.Outcome State Fault Refusal :=
  .next (match (clusterAt s cluster).coll with
    | .saving next =>
        if saveDue s cluster then
          let s := match (clusterAt s cluster).resident with
            | some r => (coresOf cluster).foldl (fun s c => saveCore s r c) s
            | none => (coresOf cluster).foldl (fun s c => modCore s c vacateCore) s
          let s := modCluster s cluster fun x => { x with run := none, resident := none, coll := .idle }
          (match next.orElse fun _ => takeNext s cluster with
           | some c => startTake s cluster c
           | none => s)
        else s
    | _ => s)

/-- RESTORE_COMPLETE: the context's images are back on the cluster, which it owns (R91, R184). -/
def execRestoreComplete (cluster : Nat) (s : State) : Host.Outcome State Fault Refusal :=
  .next (match (clusterAt s cluster).coll with
    | .restoring c =>
        if (mget s.ctxs c).isNone then modCluster s cluster fun x => { x with coll := .idle }
        else takeRun ((coresOf cluster).foldl (fun s n => restoreCore s c n) s) cluster c
    | _ => s)

/-- The restore of a cluster is over. -/
def restoreDue (s : State) (k : Nat) : Bool :=
  match (clusterAt s k).coll with
  | .restoring _ => decide ((clusterAt s k).collDue ≤ s.now)
  | _ => false

/-! ### Spare cores (R66) -/

/-- A core that a spare is to take over can go on: its stop is asked for, or it is quiet, while no collector runs. -/
def bringDue (s : State) (c : Nat) : Bool :=
  s.phys.bringIn.contains c && (clusterAt s (clusterOf c)).coll == .idle &&
  ((coreOf s c).stopReq.isNone || coreQuiet s c)

/-- The hand-over of a logical core to a spare: stop, save, restore (R66, R190). -/
def bringStep (s : State) (c : Nat) : State :=
  if !bringDue s c then s
  else if (coreOf s c).stopReq.isNone then modCore s c fun k => { k with stopReq := some s.now, engAck := false }
  else
    let s := match (clusterAt s (clusterOf c)).resident with
      | some r => restoreCore (saveCore s r c) r c
      | none => s
    let s := modCore s c fun k => { k with tlb := [], stopReq := none, engAck := false }
    { s with phys := { s.phys with
        bringIn := s.phys.bringIn.filter (· != c), onSpare := s.phys.onSpare ++ [c]
        spareSince := mput s.phys.spareSince c s.now } }

/-- A core is lost: no context may use it any more (R66). -/
def loseCore (s : State) (c : Nat) : State :=
  let ctxs := mmap s.ctxs fun _ x => { x with cores := x.cores &&& ~~~BitVec.ofNat 192 (2 ^ c) }
  refreshCaps { s with ctxs := ctxs, phys := { s.phys with lostCores := s.phys.lostCores ++ [c] } }

/-- SPARE_CORE_BRING_IN (R66, R189). -/
def execSpareCoreBringIn (core : Nat) (s : State) : Host.Outcome State Fault Refusal :=
  let s := { s with phys := { s.phys with suspect := s.phys.suspect.filter (· != core) } }
  let used := mgetD s.phys.coresUsed (dieOf core) 0
  let rec_ : LogRec := { kind := 7, sev := 3, ctx := 0, core := core, strand := 0, loc := core, cycle := cycleOf s core, synd := 0 }
  served s (if 192 ≤ core || s.phys.bringIn.contains core || s.phys.lostCores.contains core then s
    else if used < Config.coreSpares then
      let phys := { s.phys with coresUsed := mput s.phys.coresUsed (dieOf core) (used + 1), bringIn := s.phys.bringIn ++ [core] }
      logError { s with phys := phys } rec_
    else loseCore s core)

end Sys2Proof.Machine
end

