-- ==== Sys2Proof/Machine/Place.lean ====
section
/-! DEFINITION. From launch to slot: reservations, dispatchers, record launches and bins (R70, R72, R75 to R83). -/
namespace Sys2Proof.Machine

/-! ### Reservations (R76) -/

/-- Granules a launch descriptor asks for. -/
def descSpad (d : BitVec 1024) : Nat := descField d 199 192
def descLcnt (d : BitVec 1024) : Nat := descField d 27 16
def descCtx (d : BitVec 1024) : Nat := descField d 15 8
def isRecord (d : BitVec 1024) : Bool := descField d 3 3 == 1

/-- The lowest base of free granules that follow one another (log entry 50). -/
def freeBase (k : Core) (n : Nat) : Option Nat :=
  (List.range (129 - n)).find? fun b => k.resvs.all fun r => !rangesMeet b n r.base r.spad

/-- The core can grant what a launch asks for. -/
def canGrant (k : Core) (d : BitVec 1024) : Bool :=
  (freeBase k (descSpad d)).isSome && k.resvs.all fun r =>
    r.queues.toNat &&& descField d 207 200 == 0 && r.mbox.toNat &&& descField d 255 224 == 0 &&
    r.bins.toNat &&& descField d 271 256 == 0

/-- The reservation of a launch (R76, R79). -/
def newResv (d : BitVec 1024) (base : Nat) : Resv :=
  { lcnt := descLcnt d, ctx := descCtx d, base := base, spad := descSpad d, queues := BitVec.ofNat 8 (descField d 207 200),
    mbox := BitVec.ofNat 32 (descField d 255 224), bins := BitVec.ofNat 16 (descField d 271 256), recl := isRecord d,
    slices := descField d 187 184, dmr := descField d 2 2 == 1, entry := BitVec.ofNat 57 (descField d 152 96),
    nstrand := descField d 183 160, params := BitVec.ofNat 448 (descField d 959 512) }

/-- Grant a reservation: the tags of its granules are zero; a record launch's binds its bins (R76, R80, R116). -/
def grantResv (k : Core) (d : BitVec 1024) : Core :=
  match freeBase k (descSpad d) with
  | none => k
  | some b =>
      let r := newResv d b
      let tags := k.tags.filter fun t => !(decide (b ≤ t.1) && decide (t.1 < b + r.spad))
      let k := { k with resvs := k.resvs ++ [r], tags := tags }
      (List.range 16).foldl (fun k n =>
        if r.recl && r.bins.getLsbD n then
          { k with bins := mput k.bins n { emptyBin with
              en := true, thr := descField d 276 272, tmr := descField d 295 280, tlc := r.lcnt } }
        else k) k

/-! ### Eligible cores (R76, R77, R83) -/

/-- SPAWNs of a core that wait for a slot and could take one: they come before bins and dispatchers (R83). -/
def spawnWaiters (s : State) (c : Nat) : Nat := ((coreOf s c).splits.filter fun p => spawnReady s c p.2).length

/-- Free slots beyond those that waiting SPAWNs take. -/
def slotOpen (s : State) (c : Nat) : Bool := decide ((coreOf s c).slots.length + spawnWaiters s c < 32)

/-- The cluster of a core is owned by a context, no collector runs there, and the core has its cycles. -/
def coreOwned (s : State) (c ctx : Nat) : Bool :=
  let k := clusterAt s (clusterOf c)
  k.run == some ctx && k.coll == .idle && (coreOf s c).stopReq.isNone && coreRuns s c

/-- A core is eligible for a strand of a launch (R76). -/
def eligible (s : State) (x : Ctx) (d : BitVec 1024) (c : Nat) : Bool :=
  (launchCores x d).getLsbD c && coreOwned s c (descCtx d) && slotOpen s c &&
  ((resvOf (coreOf s c) (descLcnt d)).isSome || canGrant (coreOf s c) d)

/-- The core that takes the next strand of a launch (R77). -/
def pickCore (s : State) (x : Ctx) (l : Launch) : Option Nat :=
  let from_ := if descField l.desc 1 1 = 1 then match l.last with
      | some c => c + 1
      | none => 0
    else 0
  ((List.range 192).map fun i => (from_ + i) % 192).find? (eligible s x l.desc)

/-! ### Dispatch (R75, R77, R79) -/

/-- A dependence of a launch was cancelled (R75). -/
def depCancelled (s : State) (d : BitVec 1024) : Bool :=
  (depsOf d).any fun i => ((mget s.counters i).map (·.cancel)).getD false

/-- What the dispatchers do for the launch at the head of a queue. -/
inductive HeadWork where
  | cancel
  | release
  | place (c : Nat)
  | none
  deriving DecidableEq, Repr

/-- The next thing to do for the head of a queue, if anything can be done in this cycle (R75 to R77). A launch that has placed a
strand has started: a dependence cancelled later does not cancel it. -/
def headWork (s : State) (n : Nat) : HeadWork :=
  match (mgetD s.sched.queues n []).head? with
  | none => .none
  | some l =>
      if l.placed = 0 && depCancelled s l.desc then .cancel
      else if isRecord l.desc || !headReady s l then .none
      else if descField l.desc 183 160 ≤ l.placed then .release
      else match mget s.ctxs (descCtx l.desc) with
        | none => .none
        | some x =>
            if !x.res then .none
            else match pickCore s x l with
              | some c => if s.sched.dies.contains (dieOf c) then .none else .place c
              | none => .none

/-- Change the launch at the head of a queue. -/
def putHead (s : State) (n : Nat) (g : Launch → Launch) : State :=
  match mgetD s.sched.queues n [] with
  | [] => s
  | l :: rest => { s with sched := { s.sched with queues := mput s.sched.queues n (g l :: rest) } }

/-- Take the launch at the head off its queue. -/
def popHead (s : State) (n : Nat) : State :=
  { s with sched := { s.sched with queues := mput s.sched.queues n (mgetD s.sched.queues n []).tail } }

/-- The dispatcher has placed the last strand, or there was none: the open hold is released (R70, R75). -/
def finishHead (s : State) (n : Nat) (l : Launch) : State := counterSub 4 (popHead s n) (descLcnt l.desc) 1

/-- Place the next strand of a launch on a core (R70, R76, R77, R79). The reservation, ENTRY, NSTRAND and PARAM are those of the
launch counter, which launches that name the same one share (log entry 81). -/
def placeNext (s : State) (n : Nat) (l : Launch) (c : Nat) : State :=
  let d := l.desc
  let s := if (resvOf (coreOf s c) (descLcnt d)).isSome then s else modCore s c fun k => grantResv k d
  match resvOf (coreOf s c) (descLcnt d), pickSlot (coreOf s c) with
  | some r, some sl =>
      let x := launchStrand s r (BitVec.ofNat 32 l.placed) (BitVec.ofNat 32 r.nstrand)
      let s := counterAdd (placeStrand s c sl x r.entry) r.lcnt 1
      let s := putHead s n fun l => { l with placed := l.placed + 1, last := some c }
      let s := { s with sched := { s.sched with served := mput s.sched.served (n / 4) n, dies := dieOf c :: s.sched.dies } }
      if r.nstrand ≤ l.placed + 1 then finishHead s n l else s
  | _, _ => s

/-- DISPATCH_PLACE: the next strand of a queue's head goes to its core; a head whose dependence was cancelled is cancelled
(R72, R75). -/
def execDispatchPlace (queue : Nat) (s : State) : Host.Outcome State Fault Refusal :=
  .next (match (mgetD s.sched.queues queue []).head? with
    | none => s
    | some l => match headWork s queue with
        | .cancel => cancelCounter s (descLcnt l.desc)
        | .release => finishHead s queue l
        | .place c => placeNext s queue l c
        | .none => s)

/-- The order in which the queues are served: priorities from the highest, and within one the rotation after the queue
served last (R75). -/
def queueOrder (s : State) : List Nat :=
  [3, 2, 1, 0].flatMap fun p =>
    let start := match mget s.sched.served p with
      | some n => n % 4 + 1
      | none => 0
    (List.range 4).map fun i => 4 * p + (start + i) % 4

/-- The queue that the dispatchers serve now. -/
def dispatchQueue (s : State) : Option Nat :=
  if s.sched.queues.isEmpty then none else (queueOrder s).find? fun n => headWork s n != .none

/-! ### Record launches (R75, R76) -/

/-- Cores on which the record launch at a queue's head has no reservation yet. -/
def missingCores (s : State) (x : Ctx) (d : BitVec 1024) : List Nat :=
  (List.range 192).filter fun c => (launchCores x d).getLsbD c &&
    !((resvOf (coreOf s c) (descLcnt d)).isSome ||
      s.images.any fun im => im.ctx == descCtx d && im.core == c && (resvOf im.data (descLcnt d)).isSome)

/-- Cores that can grant a reservation to a record launch now. -/
def grantable (s : State) (x : Ctx) (d : BitVec 1024) : List Nat :=
  if x.res then (missingCores s x d).filter fun c => coreOwned s c (descCtx d) && canGrant (coreOf s c) d else []

/-- The record launch at the head of a queue can go on. -/
def recordWork (s : State) (n : Nat) : Bool :=
  match (mgetD s.sched.queues n []).head? with
  | none => false
  | some l => isRecord l.desc && !depCancelled s l.desc && match mget s.ctxs (descCtx l.desc) with
      | none => false
      | some x => (missingCores s x l.desc).isEmpty || !(grantable s x l.desc).isEmpty

/-- RECORD_LAUNCH_RESERVE: the launch reserves on each core that can grant it; with every reservation granted it leaves its
queue (R75, R76). -/
def execRecordLaunchReserve (queue : Nat) (s : State) : Host.Outcome State Fault Refusal :=
  .next (if !recordWork s queue then s
    else match (mgetD s.sched.queues queue []).head? with
      | none => s
      | some l => match mget s.ctxs (descCtx l.desc) with
          | none => s
          | some x =>
              let s := (grantable s x l.desc).foldl (fun s c => modCore s c fun k => grantResv k l.desc) s
              if (missingCores s x l.desc).isEmpty then
                let s := popHead s queue
                { s with sched := { s.sched with
                  served := mput s.sched.served (queue / 4) queue, records := s.sched.records ++ [l] } }
              else s)

/-- A record launch, queued or admitted, whose hold is open and whose dependences are all done (R70). -/
def recordHoldDue (s : State) : Option Launch :=
  (s.sched.records ++ s.sched.queues.flatMap (·.2)).find? fun l => isRecord l.desc && l.held && headReady s l

/-- The open hold of a record launch is released by its dependences (R70). -/
def recordHold (s : State) (l : Launch) : State :=
  let free (m : List Launch) : List Launch :=
    -- the first launch equal to it
    match m.findIdx? (· == l) with
    | some i => m.set i { l with held := false }
    | none => m
  let sched := if s.sched.records.contains l then { s.sched with records := free s.sched.records }
    else match s.sched.queues.find? fun q => q.2.contains l with
      | some q => { s.sched with queues := mput s.sched.queues q.1 (free q.2) }
      | none => s.sched
  counterSub 4 { s with sched := sched } (descLcnt l.desc) 1

/-! ### Bins (R80 to R83) -/

def binOf (s : State) (c n : Nat) : Bin := mgetD (coreOf s c).bins n emptyBin

/-- The timer of a bin has run out (R81). -/
def binExpired (b : Bin) : Bool := b.ton && b.left == 0 && !b.expired

/-- BIN_TIMER_EXPIRY (R81). -/
def execBinTimerExpiry (core bin : Nat) (s : State) : Host.Outcome State Fault Refusal :=
  .next (if binExpired (binOf s core bin) then
      modCore s core fun k => { k with bins := mput k.bins bin { binOf s core bin with expired := true } }
    else s)

/-- A bin has a strand to start (R81). -/
def binReady (b : Bin) : Bool := b.en && !b.recs.isEmpty && (decide (b.thr + 1 ≤ b.recs.length) || b.expired)

/-- A bin can start a strand now: its launch's core runs, a slot is free, and the context's images are in memory (R62, R81, R83). -/
def binDue (s : State) (c n : Nat) : Bool :=
  let b := binOf s c n
  binReady b && slotOpen s c && match resvOf (coreOf s c) b.tlc with
    | some r => coreOwned s c r.ctx && ((mget s.ctxs r.ctx).map (·.res)).getD false
    | none => false

/-- The lanes that take records, in order: every lane, or the primaries of pairs (R82, R107; log entry 51). -/
def recordLanes (r : Resv) : List Nat :=
  (List.range (4 * r.slices)).filter fun l => primaryOf r.dmr l == l

/-- The strand that a bin starts with records (R82). -/
def binStrand (s : State) (r : Resv) (bin : Nat) (recs : List (List RegCell)) : Strand :=
  let x := launchStrand s r (BitVec.ofNat 32 bin) (BitVec.ofNat 32 recs.length)
  let lanes := recordLanes r
  let give (x : Strand) (l : Nat) (rec_ : List RegCell) : Strand :=
    rec_.zipIdx.foldl (fun x p => vset x p.2 l p.1) x
  let x := (lanes.zip recs).foldl (fun x p =>
    let x := give x p.1 p.2
    if r.dmr then give x (p.1 + 2) p.2 else x) x
  let used := maskOf fun l => (lanes.take recs.length).contains (primaryOf r.dmr l)
  { x with exited := ~~~used &&& lanesThere x }

/-- A bin after a start: the timer reloads if records remain, and stops otherwise (R81). -/
def binAfter (b : Bin) (n : Nat) : Bin :=
  let rest := b.recs.drop n
  { b with recs := rest, expired := false, ton := !rest.isEmpty, left := if rest.isEmpty then 0 else b.tmr + 1 }

/-- BIN_START (R70, R81, R82); under redundancy it takes no more records than there are primaries (log entry 51). -/
def execBinStart (core bin : Nat) (s : State) : Host.Outcome State Fault Refusal :=
  .next (if !binDue s core bin then s
    else
      let b := binOf s core bin
      match resvOf (coreOf s core) b.tlc, pickSlot (coreOf s core) with
      | some r, some sl =>
          let n := min (min b.recs.length (b.thr + 1)) (recordLanes r).length
          let x := binStrand s r bin (b.recs.take n)
          let s := counterAdd (placeStrand s core sl x r.entry) r.lcnt 1
          counterSub 4 (modCore s core fun k => { k with bins := mput k.bins bin (binAfter b n) }) r.lcnt n
      | _, _ => s)

/-- The timers of a core's bins advance by a cycle; a stop request freezes them (R81, R184). -/
def tickBins (k : Core) : Core :=
  if k.stopReq.isSome then k
  else { k with bins := mmap k.bins fun _ b => if b.ton then { b with left := b.left - 1 } else b }

end Sys2Proof.Machine
end

