-- ==== Sys2Proof/Machine/Power.lean ====
section
/-! DEFINITION. Power, reset, start-up, temperature, and physical failures (R11, R14, R15, R18 to R24, R52, R53, R66, R67,
R188). -/
namespace Sys2Proof.Machine

/-! ### Power and reset (R18 to R21) -/

/-- All state of the dies is lost (R19); the carrier power controller, the boot flash, the events to come and the model's own
counters stay. -/
def loseDevice (s : State) : State :=
  { State.reset with
      power := s.power, bootFlash := s.bootFlash, flashKnown := s.flashKnown, fresh := s.fresh, nextId := s.nextId,
      inbox := s.inbox }

/-- Change the power controller. -/
def modPower (s : State) (g : Power → Power) : State := { s with power := g s.power }

/-- The module goes back to a phase, with everything of the dies lost (R19, R20). The power limit, the clocks and the last
readings are not of the dies and stay until the next start (log entry 70). -/
def fallBack (s : State) (ph : BootPhase) (g : Power → Power) : State :=
  loseDevice (modPower s fun p => { g p with phase := ph })

/-- The status block, as the host reads it over SMBus (R19). -/
def statusBlock (p : Power) : Word :=
  BitVec.ofNat 32 (p.trip % 256 + p.boot % 256 * 2 ^ 8 + p.tdie % 256 * 2 ^ 16)

/-- PRSNT_N is tied low inside the module (R18). -/
def prsntN : Bool := false

/-- The power stages bring up the rails, and the limit returns to 1,800 W (R19, R20). -/
def railsUp (p : Power) : Power := { p with phase := .railsUp, limit := 1800, clockPower := 1400, clockTherm := 1400, cool := 0, alertN := true,
                                                    powerSeen := false, thermSeen := false }

/-- VIN comes back into its range: with PWR_EN high the rails come up (R20 step 1). -/
def vinInRange (p : Power) : Power :=
  let p := { p with vinOk := true }
  if p.pwrEn && p.phase == .off then railsUp p else p

/-- VIN_APPLIED: VIN comes, and the status block with it; or a VIN that was there comes back into its range, and the block
keeps what it holds (R19, R20). -/
def execVinApplied (s : State) : Host.Outcome State Fault Refusal :=
  .next (modPower s fun p =>
    if p.vin then (if p.vinOk then p else vinInRange p)
    else vinInRange { p with vin := true, trip := 0, boot := 0, tdie := 0, alertN := true })

/-- VIN_REMOVED (R19). -/
def execVinRemoved (s : State) : Host.Outcome State Fault Refusal :=
  .next (fallBack s .off fun p =>
    { p with vin := false, vinOk := false, pwrGood := false, trip := 0, boot := 0, tdie := 0, alertN := true })

/-- PWR_EN_ASSERT (R20). After a trip the power stages stay down until PWR_EN is asserted again (log entry 70). -/
def execPwrEnAssert (s : State) : Host.Outcome State Fault Refusal :=
  .next (modPower s fun p =>
    let p := { p with pwrEn := true }
    if p.vin && p.vinOk && p.phase == .off then railsUp p else p)

/-- The boot ROM checks the first stage that the boot flash holds; a bad signature halts the control cores with code 1
(R20 steps 3 and 4, R52, R53). -/
def bootRom (s : State) : State :=
  let digest := Config.sha384 s.bootFlash.image
  if Config.ecdsaVerify Config.birrovKey digest s.bootFlash.sig then
    extendMeas (modPower s fun p => { p with phase := .booting }) 0 digest
  else modPower s fun p => { p with phase := .romFailed, boot := 1 }

/-- PWR_GOOD_RISE: with RST_N already high reset is released now (R20). -/
def execPwrGoodRise (s : State) : Host.Outcome State Fault Refusal :=
  .next (if s.power.phase != .railsUp then s
    else
      let s := modPower s fun p => { p with pwrGood := true, phase := .held }
      if s.power.rstN then bootRom s else s)

/-- PWR_EN_DEASSERT: the effect of a fall of PWR_GOOD (R21); a module that is off is neither throttled nor, by this,
tripped (R18). -/
def execPwrEnDeassert (s : State) : Host.Outcome State Fault Refusal :=
  .next (if s.power.phase == .off then modPower s fun p => { p with pwrEn := false }
    else fallBack s .off fun p => { p with pwrEn := false, pwrGood := false, alertN := true })

/-- The power stages drop, with a cause in the status block (R19, R24). -/
def tripWith (s : State) (cause tdie : Nat) : State :=
  fallBack s .off fun p => { p with pwrGood := false, trip := cause, tdie := tdie, alertN := false }

/-- PWR_GOOD_FALL: a rail has left regulation (R19, R20). -/
def execPwrGoodFall (s : State) : Host.Outcome State Fault Refusal :=
  .next (if s.power.pwrGood then tripWith s 3 s.power.tdie else s)

/-- VIN_OUT_OF_RANGE: VIN is there still, and the status block with it (R19). -/
def execVinOutOfRange (s : State) : Host.Outcome State Fault Refusal :=
  .next (if s.power.vin then modPower (tripWith s 4 s.power.tdie) fun p => { p with vinOk := false } else s)

/-- RST_N_ASSERT (R19, R20). -/
def execRstNAssert (s : State) : Host.Outcome State Fault Refusal :=
  .next (fallBack s (if s.power.pwrGood then .held else s.power.phase) fun p => { p with rstN := false })

/-- RESET_RELEASE: RST_N has risen with REFCLK stable. Without PWR_GOOD step 3 waits for it (R20). The first such event tells what
the boot flash holds; from then on only an update changes it (R17, log entry 3). -/
def execResetRelease (stage : BootStage) (s : State) : Host.Outcome State Fault Refusal :=
  let s := if s.flashKnown || s.svc.flashLocked then s else { s with bootFlash := stage, flashKnown := true }
  let s := modPower s fun p => { p with rstN := true }
  .next (if s.power.phase == .held then bootRom s else s)

/-- A port as training leaves it (R15, R26): one wired to a device does not come up. -/
def trainedPort (t : PortTraining) : Nat × Port :=
  (t.port, { up := !t.miswired, node := t.node, reach := t.reach, credits := t.credits, miswired := t.miswired, spareUsed := 0,
             retraining := false })

/-- SERVICE_START: the first stage has measured the boot configuration, the training firmware and the service image, the
service its policy; it trains the ports, enumerates the root port, where an endpoint that is not NVMe is left disabled, locks
the boot flash, and releases the compute dies from reset, each in a cycle of its own (R16, R17, R20, R25, R53, R190; log entry 77). -/
def execServiceStart (st : StartUp) (s : State) : Host.Outcome State Fault Refusal :=
  .next (if s.power.phase != .booting then s
    else
      let s := extendMeas (extendMeas (extendMeas (extendMeas s 1 st.configuration) 2 st.training) 3 st.service) 4 st.policy
      let ports := st.ports.foldl (fun m t => if t.port < 24 then mput m t.port (trainedPort t).2 else m) []
      let s := modPower s fun p => { p with phase := .running, started := some s.fresh, changes := [] }
      { s with
          fresh := s.fresh + 1
          phys := { s.phys with
                      deviceId := st.deviceId, ports := ports
                      nvme := (st.endpoints.filter fun e => e.nvme).map (·.number)
                      disabled := (st.endpoints.filter fun e => !e.nvme).map (·.number) }
          svc := { s.svc with running := true, flashLocked := true }, now := 0 })

/-! ### Power limit and clock (R23, R24) -/

/-- The core clock in MHz: the lower of what the power limit and the temperature set (R24). -/
def clockOf (p : Power) : Nat := min p.clockPower p.clockTherm

/-- Change the power controller while the module is on; while it runs the capability list follows, and a change of the clock is
recorded (R64, R65, R190). -/
def runPower (s : State) (g : Power → Power) : State :=
  if s.power.phase == .off then s
  else if s.power.phase != .running then modPower s g
  else
    let t := modPower s g
    if clockOf t.power = clockOf s.power then (if t.power.limit = s.power.limit then t else refreshCaps t)
    else refreshCaps (modPower t fun p => { p with changes := p.changes ++ [s.now] })

/-- The hottest reading with its place, the lowest of several equal ones: the one that TDIE names (log entry 70). -/
def hottest (ts : List Nat) : Nat × Nat :=
  ts.zipIdx.foldl (fun h p => if h.1 < p.1 then p else h) (0, 0)

/-- The clock in force when the 1 ms window began in which power or temperatures are now judged: what has not yet been judged in the
window of the other belongs to that window (R23, R24; log entry 70). -/
def windowClockOf (mine other : Bool) (p : Power) : Nat := if other && !mine then p.windowClock else clockOf p

/-- One window of the power limit (R23): the clock falls while the average would exceed the limit, and rises with headroom,
but not from 90 °C on (R24). -/
def powerStep (watts : Nat) (p : Power) : Power :=
  let clock := windowClockOf p.powerSeen p.thermSeen p
  let p := { p with windowClock := clock, powerSeen := true, thermSeen := p.thermSeen && !p.powerSeen }
  if p.limit < watts then { p with watts := watts, clockPower := max 800 (clock - 100) }
  else if Config.powerHeadroom watts p.limit (clockOf p) && decide ((hottest p.temps).1 < 90000) then
    { p with watts := watts, clockPower := min 1400 (p.clockPower + 100) }
  else { p with watts := watts }

/-- POWER_WINDOW (R23). -/
def execPowerWindow (watts : Nat) (s : State) : Host.Outcome State Fault Refusal := .next (runPower s (powerStep watts))

/-- TDIE of a reading: compute dies 0 to 3, I/O dies 4 and 5, then the stacks as 16 to 31 (R19). -/
def tdieCode (i : Nat) : Nat := if i < 6 then i else i + 10

/-- Throttling for temperature in one window (R24). -/
def thermalStep (hot : Nat) (p : Power) : Power :=
  let clock := windowClockOf p.thermSeen p.powerSeen p
  let p := { p with windowClock := clock, thermSeen := true, powerSeen := p.powerSeen && !p.thermSeen }
  if 95000 ≤ hot then { p with clockTherm := max 800 (clock - 100), cool := 0, alertN := false }
  else if 90000 ≤ hot then { p with cool := 0 }
  else
    let n := p.cool + 1
    let t := if 10 ≤ n then min 1400 (p.clockTherm + 100) else p.clockTherm
    { p with cool := n, clockTherm := t, alertN := p.alertN || decide (p.clockPower ≤ t) }

/-- THERMAL_WINDOW: a trip wins over a throttle (R24). -/
def execThermalWindow (milliDegrees : List Nat) (s : State) : Host.Outcome State Fault Refusal :=
  let (hot, i) := hottest milliDegrees
  .next (if s.power.phase == .off then s
    else if 105000 ≤ hot then tripWith s 1 (tdieCode i)
    else if 100000 < hot && clockOf s.power == 800 then tripWith s 2 (tdieCode i)
    else runPower s fun p => thermalStep hot { p with temps := milliDegrees })

/-- SMBUS_POWER_LIMIT_WRITE (R23). A value outside 900 W to 1,800 W changes nothing (log entry 70). -/
def execSmbusPowerLimitWrite (watts : Nat) (s : State) : Host.Outcome State Fault Refusal :=
  .next (if 900 ≤ watts && watts ≤ 1800 then
      (if s.power.phase == .running then runPower s fun p => { p with limit := watts }
       else modPower s fun p => { p with limit := watts })
    else s)

/-! ### Lanes, links, stacks (R10, R11, R14, R15, R67, R189, R369) -/

/-- A log record of a structure that belongs to no core. -/
def deviceLog (s : State) (kind sev loc : Nat) : State :=
  logError s { kind := kind, sev := sev, ctx := 0, core := 255, strand := 0, loc := loc, cycle := cycleOf s 255, synd := 0 }

/-- The number of a die boundary, in the order of the table of R10. -/
def boundaryCode : Boundary → Nat
  | .compute01 => 0 | .compute13 => 1 | .compute32 => 2 | .compute20 => 3
  | .compute0io0 => 4 | .compute1io0 => 5 | .compute2io1 => 6 | .compute3io1 => 7

/-- DIE_BOUNDARY_LANE_FAIL: a spare lane comes in; without one the boundary is degraded, and each lane lost then lowers the
rate it runs at (R10, R11). -/
def execDieBoundaryLaneFail (boundary : Boundary) (s : State) : Host.Outcome State Fault Refusal :=
  let b := boundaryCode boundary
  let used := mgetD s.phys.laneUsed b 0
  served s (if used < Config.boundarySpares b then
      deviceLog { s with phys := { s.phys with laneUsed := mput s.phys.laneUsed b (used + 1) } } 10 3 b
    else
      deviceLog { s with phys := { s.phys with degraded := mput s.phys.degraded b (mgetD s.phys.degraded b 0 + 1) } } 10 0 b)

/-- SERDES_LANE_FAIL: the spare lane comes in after a retrain that holds the port's requests; without one the port goes down
(R67, R369). -/
def execSerdesLaneFail (port : Nat) (s : State) : Host.Outcome State Fault Refusal :=
  served s (match mget s.phys.ports port with
    | none => s
    | some p =>
        if !p.up then s
        else if p.spareUsed < Config.serdesSpares then
          deviceLog (modPort s port fun p => { p with spareUsed := p.spareUsed + 1, retraining := true }) 9 3 port
        else refreshCaps (portDown (deviceLog s 9 0 port) port))

/-- SERDES_RETRAIN_COMPLETE: the port's held requests go on (R67). -/
def execSerdesRetrainComplete (port : Nat) (s : State) : Host.Outcome State Fault Refusal :=
  served s (match mget s.phys.ports port with
    | none => s
    | some p => if p.retraining then pump (modPort s port fun p => { p with retraining := false }) else s)

/-- KWAMON_LINK_DOWN (R369). -/
def execKwamonLinkDown (port : Nat) (s : State) : Host.Outcome State Fault Refusal :=
  served s (match mget s.phys.ports port with
    | none => s
    | some p => if p.up then refreshCaps (portDown s port) else s)

/-- A stack whose errors exceed its spares goes out of service, and what it held reads as poisoned (R14, R188). -/
def retireStack (s : State) (stack : Nat) : State :=
  if 16 ≤ stack || s.phys.retired.contains stack then s
  else refreshCaps { s with phys := { s.phys with retired := s.phys.retired ++ [stack] } }

/-- STACK_RETIRE: the errors of the stack have exceeded its spares (R14). -/
def execStackRetire (stack : Nat) (s : State) : Host.Outcome State Fault Refusal := served s (retireStack s stack)

/-- SPARE_ROW_MAP: a spare row takes the place of a failing one (R67); a failing row without a spare takes the stack out of
service (R14). -/
def execSpareRowMap (stack : Nat) (s : State) : Host.Outcome State Fault Refusal :=
  let used := mgetD s.phys.rowsUsed stack 0
  served s (if used < Config.rowSpares stack then
      deviceLog { s with phys := { s.phys with rowsUsed := mput s.phys.rowsUsed stack (used + 1) } } 6 3 stack
    else retireStack s stack)

/-- PATROL_SCRUB: corrected data is rewritten, which no reader can tell (R188). -/
def execPatrolScrub (_stack : Nat) (s : State) : Host.Outcome State Fault Refusal := .next s

end Sys2Proof.Machine
end

