-- ==== Sys2Proof/Machine/Sched.lean ====
section
/-! DEFINITION. What the machine does next: events of the outside, events of its own that are due, the issue of one
instruction, or the passage of a cycle (R84 to R87, R90, R194). Within a cycle the order of internal events that the spec
leaves open is the one written here. -/
namespace Sys2Proof.Machine

/-- What a step does: execute an instruction or an event in a state, go to a state, or look at a split. -/
inductive Act where
  | exec (i : Instr) (s : State)
  | next (s : State)
  /-- Execute only to see whether the instruction of a split takes effect. -/
  | probe (i : Instr) (s : State) (c e : Nat)
  deriving DecidableEq, Repr

/-- An event executes in the state. -/
def event (s : State) (i : Option Instr) : Option Act := i.map fun i => .exec i s

/-- The strands of the cores: core, slot, strand. -/
def liveStrands (s : State) : List (Nat × Nat × Strand) :=
  s.cores.flatMap fun p => p.2.slots.map fun q => (p.1, q.1, q.2)

/-- The splits of the cores: core, entry, split. -/
def liveSplits (s : State) : List (Nat × Nat × Split) :=
  s.cores.flatMap fun p => p.2.splits.map fun q => (p.1, q.1, q.2)

/-- The clusters of the device (R2). -/
def clusterList : List Nat := List.range 24

/-! ### Strands -/

/-- A cause or a fault of the cycle in which a strand was cancelled comes before the CANCEL, which then takes effect inside the
handler (R183). -/
def trapFirst (s : State) (c sl : Nat) (x : Strand) (t : Nat) : Bool :=
  x.handling.isNone && ((match x.arisen with | some k => k.cycle == t | none => false) ||
    (opsOf s c sl).any fun o => !o.discarded && o.accs.any fun a => match accFault a with
      | some (_, _, _, cyc) => cyc == t
      | none => false)

/-- A cancelled strand ends at its instruction boundary (R183, R299). -/
def dueCancel (s : State) : Option Act :=
  ((liveStrands s).find? fun p => p.2.2.phase != .ending && match p.2.2.cancelNext with
    | some t => !trapFirst s p.1 p.2.1 p.2.2 t
    | none => false).map fun p => .next (terminate s p.1 p.2.1 0x82)

/-- A core that the service has to bring a spare in for (R66). -/
def dueSpare (s : State) : Option Act := event s (s.phys.suspect.head?.map .spareCoreBringIn)

/-- A strand takes its trap, or a double fault (R175, R181). -/
def trapDue (s : State) (p : Nat × Nat × Strand) : Bool :=
  p.2.2.phase != .ending && (doubleFault p.2.2 (opsOf s p.1 p.2.1) ||
    (trapReady s p.1 p.2.1 p.2.2 && (trapRecord s p.1 p.2.1 p.2.2).isSome))

def dueTrap (s : State) : Option Act :=
  event s (((liveStrands s).find? (trapDue s)).map fun p => .trapEntry p.1 p.2.1)

/-- A result that has to be written to a mailbox takes its place in the mailbox's order, or is written: the halted strand's too
(R101, R290). -/
def deliverDue (s : State) (c e : Nat) (p : Split) : Bool :=
  match p.parked, mget (coreOf s c).slots p.slot with
  | some (.deliver d _ _), some x =>
      p.blocked.isNone || (!(mgetD (coreOf s c).mbox (d - 64) emptyMailbox).full &&
        !waitsBefore s x.ctx c (coreOf s c) (.mwrite (d - 64)) (p.blocked.map (·.2)) (some e) none)
  | _, _ => false

def dueDeliver (s : State) : Option Act :=
  ((liveSplits s).find? fun p => deliverDue s p.1 p.2.1 p.2.2).map fun p => .next (deliverStep s p.1 p.2.1)

/-- A YIELD is over (R293). -/
def dueYield (s : State) : Option Act :=
  event s (((liveSplits s).find? fun p => 0 < p.2.2.yieldTo && p.2.2.yieldTo ≤ s.now).map fun p => .yieldExpiry p.1 p.2.1)

/-- A strand has been in its handler too long after a stop request (R184). -/
def duePreemptTimeout (s : State) : Option Act :=
  event s (((liveStrands s).find? fun p => p.2.2.handling.isSome && stopLate s p.1 &&
    (splitsOf s p.1 p.2.1).any fun q => q.2.cls != some .preempt).map fun p => .preemptHandlerTimeout p.1 p.2.1)

/-- A split stands at a breakpoint (R198). -/
def bpDue (s : State) (p : Nat × Nat × Split) : Bool :=
  p.2.2.parked.isNone && !p.2.2.rgw && match strandAt s p.1 p.2.2.slot with
    | some x => strandIssues s p.1 p.2.2.slot x && (bpHit s p.1 p.2.2 x).isSome
    | none => false

def dueBreakpoint (s : State) : Option Act :=
  event s (((liveSplits s).find? (bpDue s)).map fun p => .breakpointHalt p.1 p.2.1)

/-! ### Operations and engines -/

/-- An operation on memory or tokens takes its next step (R106, R318, R319). -/
def localDue (s : State) (o : Op) : Bool :=
  memWork o && (if o.kind == .tkacq || o.kind == .tkrel then
      (match o.accs.head? with
       | some a => a.place.isSome && accDue s a && performable s o a
       | none => false)
    else !(readyAccs s o).isEmpty)

def dueLocal (s : State) : Option Act :=
  event s ((s.ops.find? (localDue s)).map fun o => .localAccessComplete o.id)

/-- The first store that a cluster holds and the home may accept, and what the cluster holds afterwards: stores to one line
are accepted in their order (R118, R133); the ones it passes are marked (R136). -/
def storeDue (now : Nat) (held : List ClStore) : List ClStore → Option (ClStore × List ClStore)
  | [] => none
  | e :: rest =>
      if e.due ≤ now && held.all fun f => !sharesLine e.pa e.bytes.length f.pa f.bytes.length then
        some (e, held.map (fun f => { f with passed := true }) ++ rest)
      else storeDue now (held ++ [e]) rest

/-- The home die cache accepts a store (R118). -/
def dueStore (s : State) : Option Act :=
  s.clusters.findSome? fun (k, x) => (storeDue s.now [] x.stores).map fun (e, rest) =>
    .next (modCluster (acceptStore s e) k fun x => { x with stores := rest })

/-- An uncached access waits for a dirty line of the device: its write-back starts (R132, R133). -/
def dueDirty (s : State) : Option Act :=
  (dirtyWaits s).map fun r => .next (writeBackSome s r.core none fun l => r.parts.any fun p => p.1 / 128 == l)

/-- A release at system scope has to wait for dirty lines: their write-back starts (R147). -/
def cleanDue (s : State) (o : Op) : Bool :=
  (o.gate == .release || o.sc) && o.scope == .sys && !behindTrap s o && o.accs.any (accDue s) &&
  !((orderedOps s o).any fun p => opOpen p && orderedBefore p o)

def dueClean (s : State) : Option Act :=
  if !hasDirty s || writingBack s || s.now < s.fab.cleanAt then none
  else (s.ops.find? (cleanDue s)).map fun o => .next (writeBackAll s o.core none)

/-- The array of a core performs its next operation, or takes back one that its members have decided on (R180, R327). -/
def dueFiligree (s : State) : Option Act :=
  s.cores.findSome? fun (c, k) =>
    if k.filFaulted.any (filDecided s) then some (.next (filRejoin s c))
    else if k.stopReq.isSome then none
    else match k.fil with
      | o :: _ => if o.due ≤ s.now then some (.exec (.filigreePerform c) s) else none
      | [] => none

/-- A joint operation has all its members (R98). -/
def dueGather (s : State) : Option Act :=
  (s.cores.find? fun p => p.2.clasps.any (claspFull s p.1)).map fun p => .next (gatherDone s p.1)

/-- A waiter of a broken clasp faults (R98). -/
def dueClasp (s : State) : Option Act :=
  (liveSplits s).findSome? fun p => (claspFaultDue s p.1 p.2.2).map fun o => .next (claspFault s p.1 p.2.1 p.2.2 o)

/-- The copy, collective and network engines (R336, R338, R341). -/
def dueCopy (s : State) : Option Act := event s ((s.ops.find? (cpyReady s)).map fun o => .cpyChunkComplete o.id)
def dueColl (s : State) : Option Act := (s.ops.find? (collReady s)).map fun o => .next (collStep s o.id)
def dueNet (s : State) : Option Act := (s.ops.find? (netReady s)).map fun o => .next (netStep s o.id)

/-! ### Fabric -/

/-- A held request can leave now, or has lost its path (R27, R35, R369). -/
def dueSend (s : State) : Option Act := event s ((s.fab.reqs.find? (sendable s)).map fun r => .retryReissue r.id)

/-- The fabric timeout of requests and network operations (R37, R50). -/
def dueTimeout (s : State) : Option Act :=
  event s (match s.fab.reqs.find? (reqLate s) with
    | some r => some (.fabricTimeout r.id)
    | none => (s.ops.find? fun o => (netLate s o).isSome).map fun o => .fabricTimeout o.id)

/-- A ceiling grows (R41). -/
def dueCeiling (s : State) : Option Act :=
  event s (s.cores.findSome? fun (c, k) =>
    (k.dst.find? fun p => p.2.ceiling < 4095 && p.2.since + 256 ≤ s.now).map fun p => .ceilingGrowth c p.1)

/-- A revoked token is given back once nothing runs under it (R40). -/
def dueRevoke (s : State) : Option Act :=
  (s.fab.revoking.find? fun r => !regionBusy s r && !returning s r).map fun r => .next (revokeFinish s r)

/-- The first acquisition of a region may revoke a holder whose tenure is over (R40). -/
def tenureOver (s : State) (region : Nat) (d : DirEntry) : Option Nat :=
  match d.queue with
  | [] => none
  | (src, excl) :: _ =>
      if exportHeld s region then none
      else (d.holders.find? fun h => h.1 != src && (excl || h.2.1) && decide (h.2.2 + 4096 ≤ s.now) && !d.revoking.contains h.1).map (·.1)

def dueTenure (s : State) : Option Act :=
  event s (s.fab.dir.findSome? fun (r, d) => (tenureOver s r d).map fun h => .tokenTenureExpiry r h)

/-- An attempt of a collective has lasted too long (R45). -/
def collLate (s : State) (c : CollDesc) : Bool :=
  c.state == .running && c.abort.isNone && match c.attempt with
    | some a => decide (a.since + 2 ^ 20 ≤ s.now)
    | none => false

def dueCollTimeout (s : State) : Option Act :=
  event s ((s.coll.find? fun p => collLate s p.2).map fun p => .collTimeout p.1)

/-- A pinned channel whose old path has drained (R33). -/
def dueSwitch (s : State) : Option Act :=
  event s ((s.fab.switching.find? fun p => !chanBusy s p.1).map fun p => .pinnedPathSwitch p.1)

/-- Remaps and invalidations: each core passes its point at a cycle of its own, and the service completes them (R31,
R127). -/
def duePoints (s : State) : Option Act :=
  event s (s.cores.findSome? fun (c, k) =>
    if !k.oldWin.isEmpty && Config.freeBit (Config.rank s.now (2 * c)) then some (.remapPoint c)
    else if !k.invs.isEmpty && Config.freeBit (Config.rank s.now (2 * c + 1)) then some (.tlbInvalidatePoint c)
    else none)

def dueRemap (s : State) : Option Act :=
  event s ((s.fab.remaps.find? (remapDone s)).map fun r => .remapComplete r.window)
def dueInval (s : State) : Option Act :=
  event s ((s.svc.invals.find? (invalDone s)).map fun v => .invalidationComplete v.id)

/-! ### The service -/

/-- The service maps a page of a private window on demand (R111, R177). -/
def privateFault (s : State) (o : Op) (a : Access) : Bool :=
  match atServiceSince a with
  | some (since, eva) => inBacking s o.ctx eva && decide (since + 1 + Config.delay since ≤ s.now)
  | none => false

/-- The same for a page that an instruction is fetched from. -/
def privateFetch (s : State) (c : Nat) (p : Split) : Bool :=
  match p.fetch, strandAt s c p.slot with
  | some (_, .atService va since _), some x => inBacking s x.ctx va.toNat && decide (since + 1 + Config.delay since ≤ s.now)
  | _, _ => false

def duePrivate (s : State) : Option Act :=
  event s ((s.ops.findSome? fun o =>
    (o.accs.zipIdx.find? fun p => privateFault s o p.1).map fun p => .translationFaultAnswer (.access o.id p.2) true).orElse fun _ =>
    ((liveSplits s).find? fun p => privateFetch s p.1 p.2.2).map fun p => .translationFaultAnswer (.fetch p.1 p.2.1) true)

/-- Translation faults that the service holds. -/
def heldFaults (s : State) : List FaultRef :=
  (s.ops.flatMap fun o => (o.accs.zipIdx.filter fun p => (atServiceSince p.1).isSome).map fun p => .access o.id p.2) ++
  (liveSplits s).filterMap fun p => match p.2.2.fetch with
    | some (_, .atService _ _ _) => some (.fetch p.1 p.2.1)
    | _ => none

def dueFaultTimeout (s : State) : Option Act :=
  event s (((heldFaults s).find? fun r => match faultSince s r with
    | some since => decide (since + 2 ^ 20 ≤ s.now)
    | none => false).map fun r => .translationFaultTimeout r)

/-- The service takes the request of a strand (R296). -/
def dueSys (s : State) : Option Act :=
  ((liveStrands s).find? fun p => sysDue s p.1 p.2.1 p.2.2).map fun p =>
    match sysTake s p.1 p.2.1 with
    | (some i, t) => .exec i t
    | (none, t) => .next t

/-- A strand's reply is there. -/
def replyDue (s : State) (x : Strand) : Bool :=
  match x.sys with
  | some r => r.reply.isSome && r.asked.isEmpty && decide (r.due ≤ s.now)
  | none => false

def dueReply (s : State) : Option Act :=
  let live := (liveStrands s).findSome? fun p => if replyDue s p.2.2 then some (gidOf p.1 p.2.1) else none
  event s ((live.orElse fun _ => s.images.findSome? fun im =>
    (im.data.slots.find? fun q => replyDue s q.2).map fun q => gidOf im.core q.1).map fun g => .serviceReply g)

/-- A change of a window goes on (R31). -/
def dueWindow (s : State) : Option Act := (s.fab.windowWaits.find? (windowDue s)).map fun w => .next (windowStep s w)

/-- Paging out, changes of exports, destruction of contexts (R39, R61 to R63). -/
def duePaging (s : State) : Option Act :=
  if !s.svc.running then none
  else event s ((s.ctxs.find? fun p => pageOutDue s p.1 p.2).map fun p => .pageOutStart p.1)
def dueExport (s : State) : Option Act := (s.fab.exportWaits.find? (exportDue s)).map fun w => .next (exportStep s w)
def dueDestroy (s : State) : Option Act := (s.ctxs.find? fun p => destroyDue s p.1 p.2).map fun p => .next (destroyStep s p.1)

/-! ### Bins, dispatchers, clusters -/

/-- Bins come before dispatchers (R83). -/
def dueBins (s : State) : Option Act :=
  event s (s.cores.findSome? fun (c, k) => k.bins.findSome? fun (n, b) =>
    if binExpired b then some (.binTimerExpiry c n) else if binDue s c n then some (.binStart c n) else none)

def dueRecords (s : State) : Option Act :=
  match recordHoldDue s with
  | some l => some (.next (recordHold s l))
  | none => event s ((s.sched.queues.find? fun p => recordWork s p.1).map fun p => .recordLaunchReserve p.1)

def dueDispatch (s : State) : Option Act := event s ((dispatchQueue s).map fun n => .dispatchPlace n)

def dueClusters (s : State) : Option Act :=
  event s (clusterList.findSome? fun k =>
    if saveDue s k then some (.preemptComplete k)
    else if restoreDue s k then some (.restoreComplete k)
    else if (lapseDue s k).isSome then some (.ownershipLapse k)
    else if (quantumDue s k).isSome then some (.quantumExpiry k)
    else if (takeNext s k).isSome then some (.clusterTake k)
    else none)

def dueCores (s : State) : Option Act :=
  s.cores.findSome? fun (c, _) =>
    if ackDue s c then some (.exec (.engineStopAck c) s)
    else if bringDue s c then some (.next (bringStep s c))
    else none

/-- Every kind of internal event, in the model's order. -/
def dueList : List (State → Option Act) :=
  [dueTrap, dueDeliver, dueYield, duePreemptTimeout, dueLocal, dueStore, dueClean, dueDirty, dueFiligree, dueGather, dueClasp, dueCopy, dueColl,
   dueNet, dueSend, dueTimeout, dueCeiling, dueRevoke, dueTenure, dueCollTimeout, dueSwitch, dueWindow, duePoints, dueRemap, dueInval,
   duePrivate, dueSpare, dueFaultTimeout, dueReply, dueSys, dueExport, dueCores, dueClusters, dueDestroy, duePaging, dueRecords,
   dueBins, dueDispatch, dueBreakpoint]

/-- The first internal event that is due. -/
def internalAct (s : State) : Option Act := dueList.findSome? fun f => f s

/-! ### Issue (R85, R86) -/

/-- The splits of a scheduler from the oldest stamp on; ties go to the lower slot, then to the lower entry (R85). -/
def oldestSplit (s : State) (c : Nat) (k : Core) (n : Nat) : Option (Nat × Split) :=
  (leastBy (fun p => (2 ^ 47 - ageOf s.now p.2.stamp) * 2 ^ 16 + p.2.slot * 2 ^ 8 + p.1)
    (k.splits.filter fun p => schedOf p.2.slot == n && triable s c p.1 p.2))

/-- A split is tried: its instruction is fetched and executes as the split's, or the split waits (R86, R229). -/
def issueAct (s : State) (c e : Nat) : Act :=
  match splitAt s c e with
  | none => .next s
  | some p => match strandAt s c p.slot with
      | none => .next s
      | some x => match fetchFor s c e p x with
          | .run i t => .exec i { t with cur := some (c, e) }
          | .waits t => .next t
          | .raised t =>
              .next (if (coreOf s c).issued.contains (schedOf p.slot) then
                  modSplit s c e fun q => { q with cls := some .notsel, tried := s.now + 1 }
                else t)

/-! #### The turn of blocked operations

In a cycle that begins with blocked operations (R101, R103), every scheduler first chooses its split: a blocked operation that is
chosen takes effect at once, in the order in which they blocked; another instruction is only probed. Afterwards the schedulers
that have not issued choose among all of theirs, in ascending order, which is ascending strand number. -/

/-- A scheduler has issued or has chosen its split while the core serves blocked operations. -/
def hasChosen (k : Core) (n : Nat) : Bool :=
  k.issued.contains n || k.splits.any fun p => p.2.turn == some true && schedOf p.2.slot == n

/-- A blocked operation stands behind one of a scheduler that has not chosen. -/
def behindOther (s : State) (c : Nat) (k : Core) (p : Split) : Bool :=
  match p.blocked with
  | none => false
  | some (o, mine) => k.splits.any fun q => blockedBefore o (some mine) q.2 && schedOf q.2.slot != schedOf p.slot &&
      !hasChosen k (schedOf q.2.slot) && triable s c q.1 q.2

/-- The split tried next while blocked operations are served. -/
def servingPick (s : State) (c : Nat) (k : Core) : Option (Nat × Split) :=
  let fronts := ([0, 1, 2, 3].filter fun n => !hasChosen k n).filterMap (oldestSplit s c k)
  (fronts.find? fun p => !behindOther s c k p.2).orElse fun _ => fronts.head?

/-- The split tried next afterwards: waiters of a mailbox that has changed state come first (R101). -/
def issuePick (s : State) (c : Nat) (k : Core) : Option (Nat × Split) :=
  let fronts := ([0, 1, 2, 3].filter fun n => !k.issued.contains n).filterMap (oldestSplit s c k)
  (fronts.find? fun p => p.2.blocked.isSome).orElse fun _ => fronts.head?

/-- Blocked operations have had their turn: what was only probed is tried again. -/
def endServing (s : State) (c : Nat) : State :=
  modCore s c fun k => { k with
    serving := false
    splits := mmap k.splits fun _ p =>
      if p.turn.isSome && !k.issued.contains (schedOf p.slot) then { p with tried := 0, turn := none } else { p with turn := none } }

/-- A split's instruction is looked at while blocked operations are served: a blocked one executes. -/
def serveAct (s : State) (c e : Nat) : Act :=
  match issueAct (modSplit s c e fun q => { q with turn := some false }) c e with
  | .exec i t => if ((splitAt s c e).bind (·.blocked)).isSome then .exec i t else .probe i t c e
  | a => a

/-- What a probe has shown: the scheduler chooses the split, whose instruction would take effect, or the split is left in its class;
nothing else changes. -/
def probed (s : State) (c e : Nat) (r : Host.Outcome State Fault Refusal) : Host.Outcome State Fault Refusal :=
  match r with
  | .next t =>
      let chosen : Bool := match splitAt t c e with
        | some q => (coreOf t c).issued.contains (schedOf q.slot)
        | none => true
      .next (modSplit s c e fun p => { p with
        tried := s.now + 1, turn := some chosen, cls := if chosen then p.cls else (splitAt t c e).bind (·.cls) })
  | r => r

/-- What a core does next to issue. -/
def coreIssue (s : State) (c : Nat) (k : Core) : Option Act :=
  if k.serving then
    some (match servingPick s c k with
      | some p => serveAct s c p.1
      | none => .next (endServing s c))
  else (issuePick s c k).map fun p => issueAct s c p.1

/-- The splits that a core only looks at for their class: their schedulers have issued (R86). -/
def lookPick (s : State) (c : Nat) (k : Core) : Option (Nat × Split) :=
  (sortBy id k.issued).findSome? (oldestSplit s c k)

/-- What the device does next to issue. Once no scheduler can issue any more in the cycle, the splits left are looked at. -/
def nextIssue (s : State) : Option Act :=
  let run := (s.cores.map (·.1)).filter (coreRuns s)
  (run.findSome? fun c => coreIssue s c (coreOf s c)).orElse fun _ =>
    run.findSome? fun c => (lookPick s c (coreOf s c)).map fun p => issueAct s c p.1

/-! ### The passage of a cycle (R81, R90, R190, R194) -/

/-- The class that a split is reported in: the strand's condition first (R86). -/
def splitClass (s : State) (c sl : Nat) (x : Strand) (p : Split) : Nat :=
  if x.halted.isSome then 1
  else if x.arisen.isSome || x.phase == .ending || (x.handling.isNone && (opsOf s c sl).any opFaulted) then 2
  else if p.entering then 2
  else if stoppedFor s c x then 3
  else if p.rgw then 5
  else match p.cls with
    | none => 16
    | some w => classCode w

/-- The stall counter of a strand that advances in this cycle: 0 is ISSUED (R194). -/
def stallKey (s : State) (c : Nat) (k : Core) (sl : Nat) (x : Strand) : Nat :=
  if k.issuedSlots.contains sl then 0
  else match (splitsOf s c sl).map fun p => splitClass s c sl x p.2 with
    | [] => if x.phase == .ending then 2 else 8
    | n :: rest => rest.foldl min n

/-- A split at the end of a cycle: the class it is reported in, 0 when it has issued (R86, R193). -/
def tickSplit (s : State) (c : Nat) (k : Core) (p : Split) : Split :=
  match mget k.slots p.slot with
  | none => p
  | some x => { p with reported := if p.stamp = s.now then 0 else splitClass s c p.slot x p, turn := none }

/-- A core at the end of a cycle; one that has had no cycle of its own stands still (R190). -/
def tickCore (s : State) (c : Nat) (k : Core) : Core :=
  if !coreRuns s c then k
  else
    let k := tickBins k
    { k with
        splits := mmap k.splits fun _ p => tickSplit s c k p
        slots := mmap k.slots fun sl x => { x with stalls := countUp x.stalls (stallKey s c k sl x) }
        issued := [], issuedSlots := [], serving := k.splits.any fun p => p.2.blocked.isSome }

/-- A cycle has passed: the barriers complete on all that has happened in it, aborts of collectives take effect (R339), and a context that has work is not idle in it (R62,
R290). -/
def tick (s : State) : State :=
  let s := collSweep <| barSweep { s with cores := mmap s.cores fun c k => tickCore s c k, sched := { s.sched with dies := [] }, cur := none }
  let s := s.clusters.foldl (fun s p => chargeCluster s p.1) s
  let ctxs := mmap s.ctxs fun i x => if ctxActive s i then { x with idleSince := s.now + 1 } else x
  { s with ctxs := ctxs, now := s.now + 1 }

/-! ### The next act -/

/-- What the running machine does by itself. -/
def runAct (s : State) : Act :=
  match internalAct s with
  | some a => a
  | none => (nextIssue s).getD ((dueCancel s).getD (.next (tick s)))

/-- What the machine does next: the outside's next event, once its cycle has come; otherwise, while the compute dies run, its
own. -/
def nextAct (s : State) : Act :=
  let running := s.power.phase == .running
  match s.inbox with
  | (t, i) :: rest =>
      if !running || decide (t ≤ s.now) then .exec i { s with inbox := rest, cur := none } else runAct s
  | [] => if running then runAct s else .next s

end Sys2Proof.Machine
end

