-- ==== Sys2Proof/Machine/Boot.lean ====
section
/-! DEFINITION. A machine in which a given instruction stands where the next step fetches: one core of one context runs one
strand, whose only split has its PC at the instruction (log entry 52). -/
namespace Sys2Proof.Machine

/-- The virtual and the physical address of the instruction. -/
def fetchBase : Nat := 0x10000

/-- The leaf by which core 0 finds the instruction: a plain local page that may be read, written and executed (R122). -/
def fetchLeaf : Leaf :=
  { ctx := 1, base := fetchBase, bits := 16, w0 := BitVec.ofNat 64 (localLeaf fetchBase true true true), w1 := 0 }

/-- A context that may use every core (R61). -/
def fetchCtx : Ctx :=
  { res := true, sigreq := false, moving := false, weight := 1, priomax := 0, jobid := 0, cores := BitVec.allOnes 192,
    ptroot := 0, imgbase := 0, handler := 0, psz := 0, pbase := 0x7F0000, destroying := none, doomed := false, failed := false, idleSince := 0,
    flash := none, tring := none, trace := none, interval := 0, stallRecs := false, markRecs := false, bps := [] }

/-- Its strand, with eight slices, in slot 0 (R79). -/
def fetchStrand : Strand := newStrand 1 0 8 false 0

/-- The split of the strand at the instruction. -/
def fetchSplit : Split :=
  { slot := 0, smask := 0xFF, pc := BitVec.ofNat 57 fetchBase, jstk := [], rgw := false, stamp := 0, cls := none, tried := 0,
    blocked := none, desched := none, yieldTo := 0, parked := none, bpSkip := false, spawnWait := false, replay := false,
    fetch := none, held := none, turn := none, entering := false, reported := 0 }

/-- The core that runs it. -/
def fetchCore : Core := { emptyCore with slots := [(0, fetchStrand)], splits := [(0, fetchSplit)], tlb := [fetchLeaf] }

/-- The cluster, which the context owns with a quantum to spend (R91). -/
def fetchCluster : Cluster :=
  { emptyCluster with run := some 1, resident := some 1, last := 1, weight := [(1, 1)], deficit := [(1, 2 ^ 20)] }

/-- The state with instruction bytes at the place where the next step fetches. -/
def placeInstr (s : State) (bs : List Byte) : State :=
  { s with
      power := { s.power with phase := .running, rstN := true }
      svc := { s.svc with running := true }
      ctxs := mput s.ctxs 1 fetchCtx
      clusters := mput s.clusters 0 fetchCluster
      cores := [(0, fetchCore)]
      ops := []
      mem := pokes s.mem fetchBase bs
      inbox := [] }

end Sys2Proof.Machine
end

