-- ==== Sys2Proof/Machine/Dispatch.lean ====
section
/-! DEFINITION. One arm for each row of the opcode table. -/
namespace Sys2Proof.Machine

def exec (i : Instr) (s : State) : Host.Outcome State Fault Refusal :=
  match i with
  | .vinApplied => Sys2Proof.Machine.execVinApplied s
  | .vinRemoved => Sys2Proof.Machine.execVinRemoved s
  | .pwrEnAssert => Sys2Proof.Machine.execPwrEnAssert s
  | .pwrGoodRise => Sys2Proof.Machine.execPwrGoodRise s
  | .pwrEnDeassert => Sys2Proof.Machine.execPwrEnDeassert s
  | .pwrGoodFall => Sys2Proof.Machine.execPwrGoodFall s
  | .vinOutOfRange => Sys2Proof.Machine.execVinOutOfRange s
  | .rstNAssert => Sys2Proof.Machine.execRstNAssert s
  | .resetRelease stage => Sys2Proof.Machine.execResetRelease stage s
  | .serviceStart st => Sys2Proof.Machine.execServiceStart st s
  | .powerWindow watts => Sys2Proof.Machine.execPowerWindow watts s
  | .thermalWindow milliDegrees => Sys2Proof.Machine.execThermalWindow milliDegrees s
  | .smbusPowerLimitWrite watts => Sys2Proof.Machine.execSmbusPowerLimitWrite watts s
  | .dieBoundaryLaneFail boundary => Sys2Proof.Machine.execDieBoundaryLaneFail boundary s
  | .serdesLaneFail port => Sys2Proof.Machine.execSerdesLaneFail port s
  | .kwamonLinkDown port => Sys2Proof.Machine.execKwamonLinkDown port s
  | .stackRetire stack => Sys2Proof.Machine.execStackRetire stack s
  | .spareRowMap stack => Sys2Proof.Machine.execSpareRowMap stack s
  | .spareCoreBringIn core => Sys2Proof.Machine.execSpareCoreBringIn core s
  | .eccErrorDetected loc fatal guarded synd => Sys2Proof.Machine.execEccErrorDetected loc fatal guarded synd s
  | .patrolScrub stack => Sys2Proof.Machine.execPatrolScrub stack s
  | .checkerMismatch loc => Sys2Proof.Machine.execCheckerMismatch loc s
  | .replyOk id data => Sys2Proof.Machine.execReplyOk id data s
  | .replyRetry id => Sys2Proof.Machine.execReplyRetry id s
  | .retryReissue id => Sys2Proof.Machine.execRetryReissue id s
  | .replyReject id => Sys2Proof.Machine.execReplyReject id s
  | .replyPoison id => Sys2Proof.Machine.execReplyPoison id s
  | .replyDown id => Sys2Proof.Machine.execReplyDown id s
  | .targetDownNotice target => Sys2Proof.Machine.execTargetDownNotice target s
  | .fabricTimeout id => Sys2Proof.Machine.execFabricTimeout id s
  | .remoteRequestServe r => Sys2Proof.Machine.execRemoteRequestServe r s
  | .congestionMark core slot => Sys2Proof.Machine.execCongestionMark core slot s
  | .ceilingGrowth core slot => Sys2Proof.Machine.execCeilingGrowth core slot s
  | .pinnedPathSwitch chanEntry => Sys2Proof.Machine.execPinnedPathSwitch chanEntry s
  | .remapPoint core => Sys2Proof.Machine.execRemapPoint core s
  | .remapComplete window => Sys2Proof.Machine.execRemapComplete window s
  | .tlbInvalidatePoint core => Sys2Proof.Machine.execTlbInvalidatePoint core s
  | .invalidationComplete id => Sys2Proof.Machine.execInvalidationComplete id s
  | .tokenAcquireRequest src region excl => Sys2Proof.Machine.execTokenAcquireRequest src region excl s
  | .tokenRevocation home region => Sys2Proof.Machine.execTokenRevocation home region s
  | .tokenRevokeAck src region dirty => Sys2Proof.Machine.execTokenRevokeAck src region dirty s
  | .tokenGrant id st => Sys2Proof.Machine.execTokenGrant id st s
  | .tokenTenureExpiry region src => Sys2Proof.Machine.execTokenTenureExpiry region src s
  | .tokenReleaseReceived src region dirty => Sys2Proof.Machine.execTokenReleaseReceived src region dirty s
  | .collArrivalPacket src desc att rank quad0 quad1 fn input => Sys2Proof.Machine.execCollArrivalPacket src desc att rank quad0 quad1 fn input s
  | .collAbortNotice desc att => Sys2Proof.Machine.execCollAbortNotice desc att s
  | .collAbortAck desc att src => Sys2Proof.Machine.execCollAbortAck desc att src s
  | .collTimeout desc => Sys2Proof.Machine.execCollTimeout desc s
  | .withdrawalNotice desc att rank => Sys2Proof.Machine.execWithdrawalNotice desc att rank s
  | .netMessageArrival mode conn tag payload => Sys2Proof.Machine.execNetMessageArrival mode conn tag payload s
  | .netDeliveryConfirm op => Sys2Proof.Machine.execNetDeliveryConfirm op s
  | .netRetryExhausted op => Sys2Proof.Machine.execNetRetryExhausted op s
  | .attest q nonce => Sys2Proof.Machine.execAttest q nonce s
  | .claim q term key cert sig => Sys2Proof.Machine.execClaim q term key cert sig s
  | .electionWindowClose => Sys2Proof.Machine.execElectionWindowClose s
  | .release q term signer sig => Sys2Proof.Machine.execRelease q term signer sig s
  | .ctxCreate q cfg jobid cores tring => Sys2Proof.Machine.execCtxCreate q cfg jobid cores tring s
  | .ctxDestroy q ctx => Sys2Proof.Machine.execCtxDestroy q ctx s
  | .ctxWeight q ctx weight => Sys2Proof.Machine.execCtxWeight q ctx weight s
  | .counterAllocate q ctx op => Sys2Proof.Machine.execCounterAllocate q ctx op s
  | .counterFree q ctx op index => Sys2Proof.Machine.execCounterFree q ctx op index s
  | .counterRead q ctx op index => Sys2Proof.Machine.execCounterRead q ctx op index s
  | .ctxHandler q ctx handler => Sys2Proof.Machine.execCtxHandler q ctx handler s
  | .map q ctx va size word0 word1 flags => Sys2Proof.Machine.execMap q ctx va size word0 word1 flags s
  | .window q entry contents => Sys2Proof.Machine.execWindow q entry contents s
  | .exportEntry q entry contents => Sys2Proof.Machine.execExportEntry q entry contents s
  | .connectConnection q entry contents => Sys2Proof.Machine.execConnectConnection q entry contents s
  | .connectPath q entry contents => Sys2Proof.Machine.execConnectPath q entry contents s
  | .colldescSetUp q desc ctx members => Sys2Proof.Machine.execColldescSetUp q desc ctx members s
  | .colldescAddMembers q desc members => Sys2Proof.Machine.execColldescAddMembers q desc members s
  | .colldescRemoveMembers q desc members => Sys2Proof.Machine.execColldescRemoveMembers q desc members s
  | .colldescWithdraw q desc members => Sys2Proof.Machine.execColldescWithdraw q desc members s
  | .colldescAbort q desc => Sys2Proof.Machine.execColldescAbort q desc s
  | .colldescRead q desc => Sys2Proof.Machine.execColldescRead q desc s
  | .unmap q ctx va size => Sys2Proof.Machine.execUnmap q ctx va size s
  | .launch q desc close => Sys2Proof.Machine.execLaunch q desc close s
  | .powerLimit q watts => Sys2Proof.Machine.execPowerLimit q watts s
  | .fwUpdate q image sig => Sys2Proof.Machine.execFwUpdate q image sig s
  | .statusDevice q => Sys2Proof.Machine.execStatusDevice q s
  | .statusThermal q => Sys2Proof.Machine.execStatusThermal q s
  | .statusErrorLog q first count => Sys2Proof.Machine.execStatusErrorLog q first count s
  | .unknownRequest q code => Sys2Proof.Machine.execUnknownRequest q code s
  | .debugGrant q key ctx => Sys2Proof.Machine.execDebugGrant q key ctx s
  | .debugRevoke q key ctx => Sys2Proof.Machine.execDebugRevoke q key ctx s
  | .traceCfg q ctx ringSize interval flags => Sys2Proof.Machine.execTraceCfg q ctx ringSize interval flags s
  | .debugHalt q ctx strand => Sys2Proof.Machine.execDebugHalt q ctx strand s
  | .debugResume q ctx strand steps => Sys2Proof.Machine.execDebugResume q ctx strand steps s
  | .readStop q ctx strand => Sys2Proof.Machine.execReadStop q ctx strand s
  | .debugRead q ctx strand offset len => Sys2Proof.Machine.execDebugRead q ctx strand offset len s
  | .debugWrite q ctx strand offset bytes => Sys2Proof.Machine.execDebugWrite q ctx strand offset bytes s
  | .setBp q ctx index pc filter => Sys2Proof.Machine.execSetBp q ctx index pc filter s
  | .serviceReply gid => Sys2Proof.Machine.execServiceReply gid s
  | .translationFaultAnswer r resolved => Sys2Proof.Machine.execTranslationFaultAnswer r resolved s
  | .translationFaultTimeout r => Sys2Proof.Machine.execTranslationFaultTimeout r s
  | .pageOutStart ctx => Sys2Proof.Machine.execPageOutStart ctx s
  | .pageOutComplete ctx ok => Sys2Proof.Machine.execPageOutComplete ctx ok s
  | .pageInComplete ctx ok => Sys2Proof.Machine.execPageInComplete ctx ok s
  | .dispatchPlace queue => Sys2Proof.Machine.execDispatchPlace queue s
  | .recordLaunchReserve queue => Sys2Proof.Machine.execRecordLaunchReserve queue s
  | .binTimerExpiry core bin => Sys2Proof.Machine.execBinTimerExpiry core bin s
  | .binStart core bin => Sys2Proof.Machine.execBinStart core bin s
  | .localAccessComplete op => Sys2Proof.Machine.execLocalAccessComplete op s
  | .quantumExpiry cluster => Sys2Proof.Machine.execQuantumExpiry cluster s
  | .ownershipLapse cluster => Sys2Proof.Machine.execOwnershipLapse cluster s
  | .clusterTake cluster => Sys2Proof.Machine.execClusterTake cluster s
  | .engineStopAck core => Sys2Proof.Machine.execEngineStopAck core s
  | .preemptComplete cluster => Sys2Proof.Machine.execPreemptComplete cluster s
  | .preemptHandlerTimeout core slot => Sys2Proof.Machine.execPreemptHandlerTimeout core slot s
  | .trapEntry core slot => Sys2Proof.Machine.execTrapEntry core slot s
  | .breakpointHalt core entry => Sys2Proof.Machine.execBreakpointHalt core entry s
  | .yieldExpiry core entry => Sys2Proof.Machine.execYieldExpiry core entry s
  | .filigreePerform core => Sys2Proof.Machine.execFiligreePerform core s
  | .cpyChunkComplete op => Sys2Proof.Machine.execCpyChunkComplete op s
  | .registerWrite w => Sys2Proof.Machine.execRegisterWrite w s
  | .nop f => Sys2Proof.Machine.execNop f s
  | .iadd f => Sys2Proof.Machine.execIadd f s
  | .isub f => Sys2Proof.Machine.execIsub f s
  | .imul f => Sys2Proof.Machine.execImul f s
  | .imulh f => Sys2Proof.Machine.execImulh f s
  | .imad f => Sys2Proof.Machine.execImad f s
  | .idiv f => Sys2Proof.Machine.execIdiv f s
  | .irem f => Sys2Proof.Machine.execIrem f s
  | .imin f => Sys2Proof.Machine.execImin f s
  | .imax f => Sys2Proof.Machine.execImax f s
  | .iabs f => Sys2Proof.Machine.execIabs f s
  | .ineg f => Sys2Proof.Machine.execIneg f s
  | .and f => Sys2Proof.Machine.execAnd f s
  | .or f => Sys2Proof.Machine.execOr f s
  | .xor f => Sys2Proof.Machine.execXor f s
  | .not f => Sys2Proof.Machine.execNot f s
  | .shl f => Sys2Proof.Machine.execShl f s
  | .shr f => Sys2Proof.Machine.execShr f s
  | .sar f => Sys2Proof.Machine.execSar f s
  | .rot f => Sys2Proof.Machine.execRot f s
  | .bfx f => Sys2Proof.Machine.execBfx f s
  | .bfi f => Sys2Proof.Machine.execBfi f s
  | .popc f => Sys2Proof.Machine.execPopc f s
  | .clz f => Sys2Proof.Machine.execClz f s
  | .brev f => Sys2Proof.Machine.execBrev f s
  | .icmp f => Sys2Proof.Machine.execIcmp f s
  | .sel f => Sys2Proof.Machine.execSel f s
  | .mov f => Sys2Proof.Machine.execMov f s
  | .lea f => Sys2Proof.Machine.execLea f s
  | .plop f => Sys2Proof.Machine.execPlop f s
  | .cvti f => Sys2Proof.Machine.execCvti f s
  | .idot4 f => Sys2Proof.Machine.execIdot4 f s
  | .fadd f => Sys2Proof.Machine.execFadd f s
  | .fsub f => Sys2Proof.Machine.execFsub f s
  | .fmul f => Sys2Proof.Machine.execFmul f s
  | .ffma f => Sys2Proof.Machine.execFfma f s
  | .fmin f => Sys2Proof.Machine.execFmin f s
  | .fmax f => Sys2Proof.Machine.execFmax f s
  | .fdiv f => Sys2Proof.Machine.execFdiv f s
  | .fsqrt f => Sys2Proof.Machine.execFsqrt f s
  | .frcp f => Sys2Proof.Machine.execFrcp f s
  | .frsq f => Sys2Proof.Machine.execFrsq f s
  | .fexp2 f => Sys2Proof.Machine.execFexp2 f s
  | .flog2 f => Sys2Proof.Machine.execFlog2 f s
  | .ftrig f => Sys2Proof.Machine.execFtrig f s
  | .fcmp f => Sys2Proof.Machine.execFcmp f s
  | .fclass f => Sys2Proof.Machine.execFclass f s
  | .cvt f => Sys2Proof.Machine.execCvt f s
  | .frnd f => Sys2Proof.Machine.execFrnd f s
  | .fdot2 f => Sys2Proof.Machine.execFdot2 f s
  | .qenc f => Sys2Proof.Machine.execQenc f s
  | .qdec f => Sys2Proof.Machine.execQdec f s
  | .shfl f => Sys2Proof.Machine.execShfl f s
  | .vote f => Sys2Proof.Machine.execVote f s
  | .lred f => Sys2Proof.Machine.execLred f s
  | .lscan f => Sys2Proof.Machine.execLscan f s
  | .xmov f => Sys2Proof.Machine.execXmov f s
  | .getsr f => Sys2Proof.Machine.execGetsr f s
  | .setsr f => Sys2Proof.Machine.execSetsr f s
  | .bra f => Sys2Proof.Machine.execBra f s
  | .brx f => Sys2Proof.Machine.execBrx f s
  | .call f => Sys2Proof.Machine.execCall f s
  | .jmpr f => Sys2Proof.Machine.execJmpr f s
  | .regang f => Sys2Proof.Machine.execRegang f s
  | .exit f => Sys2Proof.Machine.execExit f s
  | .hzwait f => Sys2Proof.Machine.execHzwait f s
  | .hzbr f => Sys2Proof.Machine.execHzbr f s
  | .hztest f => Sys2Proof.Machine.execHztest f s
  | .albr f => Sys2Proof.Machine.execAlbr f s
  | .dstbind f => Sys2Proof.Machine.execDstbind f s
  | .bar f => Sys2Proof.Machine.execBar f s
  | .waitb f => Sys2Proof.Machine.execWaitb f s
  | .fbatch f => Sys2Proof.Machine.execFbatch f s
  | .opfence f => Sys2Proof.Machine.execOpfence f s
  | .trap f => Sys2Proof.Machine.execTrap f s
  | .tret f => Sys2Proof.Machine.execTret f s
  | .tretReplay f => Sys2Proof.Machine.execTretReplay f s
  | .tretTerm f => Sys2Proof.Machine.execTretTerm f s
  | .yield f => Sys2Proof.Machine.execYield f s
  | .mark f => Sys2Proof.Machine.execMark f s
  | .brk f => Sys2Proof.Machine.execBrk f s
  | .sys f => Sys2Proof.Machine.execSys f s
  | .ld f => Sys2Proof.Machine.execLd f s
  | .st f => Sys2Proof.Machine.execSt f s
  | .lds f => Sys2Proof.Machine.execLds f s
  | .sts f => Sys2Proof.Machine.execSts f s
  | .ldsp f => Sys2Proof.Machine.execLdsp f s
  | .stsp f => Sys2Proof.Machine.execStsp f s
  | .atom f => Sys2Proof.Machine.execAtom f s
  | .cas f => Sys2Proof.Machine.execCas f s
  | .cellAdd f => Sys2Proof.Machine.execCellAdd f s
  | .cellInit f => Sys2Proof.Machine.execCellInit f s
  | .cellRead f => Sys2Proof.Machine.execCellRead f s
  | .cellReadz f => Sys2Proof.Machine.execCellReadz f s
  | .fence f => Sys2Proof.Machine.execFence f s
  | .pref f => Sys2Proof.Machine.execPref f s
  | .qcfg f => Sys2Proof.Machine.execQcfg f s
  | .qctl f => Sys2Proof.Machine.execQctl f s
  | .tkacq f => Sys2Proof.Machine.execTkacq f s
  | .tkrel f => Sys2Proof.Machine.execTkrel f s
  | .netwr f => Sys2Proof.Machine.execNetwr f s
  | .netrd f => Sys2Proof.Machine.execNetrd f s
  | .netsend f => Sys2Proof.Machine.execNetsend f s
  | .netpost f => Sys2Proof.Machine.execNetpost f s
  | .cpy f => Sys2Proof.Machine.execCpy f s
  | .collBar f => Sys2Proof.Machine.execCollBar f s
  | .collRed f => Sys2Proof.Machine.execCollRed f s
  | .collBcast f => Sys2Proof.Machine.execCollBcast f s
  | .collGather f => Sys2Proof.Machine.execCollGather f s
  | .collAbort f => Sys2Proof.Machine.execCollAbort f s
  | .emit f => Sys2Proof.Machine.execEmit f s
  | .spawn f => Sys2Proof.Machine.execSpawn f s
  | .cancel f => Sys2Proof.Machine.execCancel f s
  | .wcnt f => Sys2Proof.Machine.execWcnt f s
  | .fmma f => Sys2Proof.Machine.execFmma f s
  | .fdrain f => Sys2Proof.Machine.execFdrain f s
  | .fmerge f => Sys2Proof.Machine.execFmerge f s
  | .fzeroBank f => Sys2Proof.Machine.execFzeroBank f s
  | .fzeroTile f => Sys2Proof.Machine.execFzeroTile f s
  | .facc f => Sys2Proof.Machine.execFacc f s
  | .fcfg f => Sys2Proof.Machine.execFcfg f s
  | .claspset f => Sys2Proof.Machine.execClaspset f s
  | .restoreComplete cluster => Sys2Proof.Machine.execRestoreComplete cluster s
  | .netrdDataReturn op data => Sys2Proof.Machine.execNetrdDataReturn op data s
  | .serdesRetrainComplete port => Sys2Proof.Machine.execSerdesRetrainComplete port s

end Sys2Proof.Machine
end

