-- ==== Sys2Proof/Machine/Step.lean ====
section
/-! DEFINITION. One step of the machine, and the state in which a given word stands where the next step fetches. -/
namespace Sys2Proof.Machine

/-- One step: what the machine does next is executed, or is a state (R84 to R91, R229). -/
def step (s : State) : Host.Outcome State Fault Refusal :=
  match nextAct s with
  | .exec i t => exec i t
  | .next t => .next t
  | .probe i t c e => probed t c e (exec i t)

/-- The state with an instruction of the opcode table where the next step fetches (log entry 52). -/
def State.withFetchWord (s : State) (nbits w : Nat) : State := placeInstr s (tableBytes nbits w)

end Sys2Proof.Machine
end

