-- ==== Sys2Proof/Safety.lean ====
section
/-! DEFINITION. What a run is and when it is safe, and the terms in which the statements speak of an issue. -/
namespace Sys2Proof.Safety
open Sys2Proof.Machine

/-! ### Runs -/

/-- A state that steps reach from another. -/
inductive Run : State → State → Prop where
  | start (s : State) : Run s s
  | more {a b c : State} (h : Run a b) (hs : step b = .next c) : Run a c

/-- An event of the outside world, a request to the service or an event of the machine itself: an instruction has an
encoding, an event has none. -/
def isEvent (i : Instr) : Bool := !i.encoded

/-- The outside world sends events only. -/
def EventsOnly (s : State) : Prop := ∀ p ∈ s.inbox, isEvent p.2 = true

/-- The invariant of memory: its canonical form. -/
def Inv (s : State) : Prop := Memory.wf s.mem = true

/-- A run that never stops and keeps the invariant. -/
def Safe (s : State) : Prop := ∀ t, Run s t → Inv t ∧ ∃ u, step t = .next u

/-! ### An issue -/

/-- The split that the state names issues an instruction with these fields, and sees `v`: its scheduler has not issued in this
cycle (R85), and its guard is not false (R231). -/
def Issues (s : State) (opc : BitVec 7) (f : Fields) (v : Iss) : Prop :=
  viewOf s opc f = some v ∧ passedOver s v = false ∧ v.off = false

/-- The issue is not tagged for sampling (R192) and its strand is not single-stepped (R200). -/
def Quiet (v : Iss) : Prop := v.sample = none ∧ v.x.steps = none

/-- The split after an issue: it goes on at a PC with the stamp of this cycle, out of every wait (R85, R225). -/
def splitAfter (s : State) (v : Iss) (pc : Pc) : Split :=
  { v.sp with
      pc := pc, stamp := s.now, cls := none, tried := s.now + 1, blocked := none, desched := none, bpSkip := false,
      spawnWait := false, replay := false, fetch := none, turn := none, entering := false }

/-- What an issue leaves alone in the rest of the machine: every field of the state (memory, contexts, counters, operations,
the fabric, the service) but the cores, the clusters, the number of free values used and the model's own record of what plain and
engine reads may still return old (log entries 57, 93); every other core; of the issuing
core, which becomes `k`, everything but its strands, its splits and its record of issues; every other strand and split; every
cluster but for the count of issues. -/
structure Elsewhere (s t : State) (v : Iss) (k : Core) : Prop where
  device : { t with cores := s.cores, clusters := s.clusters, fresh := s.fresh, views := s.views, stale := s.stale } = s
  cores : ∀ c, c ≠ v.c → coreOf t c = coreOf s c
  core : { coreOf t v.c with
             slots := k.slots, splits := k.splits, issued := k.issued, issuedSlots := k.issuedSlots,
             samples := k.samples } = k
  strands : ∀ sl, sl ≠ v.sl → strandAt t v.c sl = strandAt s v.c sl
  splits : ∀ e, e ≠ v.e → splitAt t v.c e = splitAt s v.c e
  clusters : ∀ j, j ≠ clusterOf v.c → clusterAt t j = clusterAt s j
  cluster : { clusterAt t (clusterOf v.c) with charge := (clusterAt s (clusterOf v.c)).charge } = clusterAt s (clusterOf v.c)

/-- An issue that changes its core to `k`, its strand to `x` and its split to `p`, and changes nothing else. -/
structure CoreStep (s t : State) (v : Iss) (k : Core) (x : Strand) (p : Split) : Prop where
  rest : Elsewhere s t v k
  strand : strandAt t v.c v.sl = some x
  split : splitAt t v.c v.e = some p

/-- An issue that changes its strand to `x`, goes on at a PC, and changes nothing else. -/
def StrandStep (s t : State) (v : Iss) (x : Strand) (pc : Pc) : Prop := CoreStep s t v (coreOf s v.c) x (splitAfter s v pc)

/-- An instruction that waits: the split records the class and the cycle of the try, and nothing else changes (R86). -/
def waiting (s : State) (v : Iss) (cl : WaitClass) : State :=
  modSplit s v.c v.e fun p => { p with cls := some cl, tried := s.now + 1 }

/-! ### Register operands -/

/-- The registers of an operand: one, or a pair (R232). -/
def pairOf (r : Nat) (wide : Bool) : List Nat := if wide then [r, r + 1] else [r]

/-- A register operand, no queue and no mailbox, that is FULL and not poisoned wherever the instruction reads it (R100). -/
def Readable (v : Iss) (r : Nat) (wide : Bool) : Prop :=
  ∀ q ∈ pairOf r wide,
    if v.f.strand then q < 64 ∧ (sget v.x q).st = .full ∧ (sget v.x q).poison = false
    else q < 120 ∧ ∀ l, l < 32 → v.on.getLsbD l = true → (vget v.x q l).st = .full ∧ (vget v.x q l).poison = false

/-- A destination register, no queue and no mailbox, that is not PENDING wherever the instruction writes it (R100). -/
def Writable (v : Iss) (r : Nat) (wide : Bool) : Prop :=
  ∀ q ∈ pairOf r wide,
    if v.f.strand then q < 64 ∧ (sget v.x q).st ≠ .pending
    else q < 120 ∧ ∀ l, l < 32 → v.on.getLsbD l = true → (vget v.x q l).st ≠ .pending

/-- The value of a register operand in a lane, or of the strand: a pair holds its low word in the lower register (R99,
R232). -/
def regVal (v : Iss) (r : Nat) (wide : Bool) (l : Nat) : DWord :=
  let w (q : Nat) : Word := if v.f.strand then (sget v.x q).val else (vget v.x q l).val
  if wide then (w (r + 1) ++ w r : BitVec 64) else (w r).zeroExtend 64

/-- A value that is written to register r, or to the pair, of one element; the registers become FULL (R100). -/
def newCell (r q : Nat) (wide : Bool) (w : DWord) (old : RegCell) : RegCell :=
  if q = r then fullCell (w.extractLsb' 0 32) else if wide ∧ q = r + 1 then fullCell (w.extractLsb' 32 32) else old

/-- Strand `x` is the issuing strand with a value written to D: in each active, unguarded lane, or in the strand register;
every other register of the strand holds what it held. -/
def Wrote (v : Iss) (x : Strand) (d : Nat) (wide : Bool) (val : Nat → DWord) : Prop :=
  if v.f.strand then x.v = v.x.v ∧ ∀ q, sget x q = newCell d q wide (val 0) (sget v.x q)
  else x.s = v.x.s ∧ ∀ q l, l < 32 →
    vget x q l = if v.on.getLsbD l then newCell d q wide (val l) (vget v.x q l) else vget v.x q l

/-- Strand `x` is the issuing strand with a predicate written: k in each active, unguarded lane, or g; k0 and g0 discard
it (R99). -/
def WroteP (v : Iss) (x : Strand) (d : Nat) (val : Nat → Bool) : Prop :=
  if v.f.strand then x.k = v.x.k ∧ ∀ i, i < 8 → gget x i = if i = d ∧ i ≠ 0 then val 0 else gget v.x i
  else x.g = v.x.g ∧ ∀ i l, i < 8 → l < 32 →
    (kmask x i).getLsbD l = if i = d ∧ i ≠ 0 ∧ v.on.getLsbD l then val l else (kmask v.x i).getLsbD l

/-- Apart from its v and s registers and FPFLAGS, strand `x` is the issuing strand. -/
def SameButRegs (v : Iss) (x : Strand) : Prop := { x with v := v.x.v, s := v.x.s, fpflags := v.x.fpflags } = v.x

/-- Apart from its predicates and FPFLAGS, strand `x` is the issuing strand. -/
def SameButPreds (v : Iss) (x : Strand) : Prop := { x with k := v.x.k, g := v.x.g, fpflags := v.x.fpflags } = v.x

/-- An operand that is read is a readable register. -/
def ReadableIf (v : Iss) (r : Nat) : Option Bool → Prop
  | none => True
  | some w => Readable v r w

/-- The value of an operand that may not be read. -/
def valIf (v : Iss) (r : Nat) (l : Nat) : Option Bool → DWord
  | none => 0
  | some w => regVal v r w l

/-- The value of B: a register, or an immediate (R233). -/
def bVal (v : Iss) (t : Ty) (l : Nat) (w : Option Bool) : DWord :=
  match w with
  | none => 0
  | some w => if bIsImm v.f false then immVal v.f t else regVal v v.f.b.toNat w l

/-- B is an immediate or a readable register. -/
def BReady (v : Iss) : Option Bool → Prop
  | none => True
  | some w => bIsImm v.f false = true ∨ Readable v v.f.b.toNat w

end Sys2Proof.Safety
end

