-- ==== Sys2Proof/Certificates/Slice0/Obligations.lean ====
section
/-! DEFINITION. The statements for the provers, with the tables and shapes they are made from. -/
open Sys2Proof Sys2Proof.Machine Sys2Proof.Safety

namespace Sys2Proof.Spec

/-! ### Register instructions -/

/-- One register instruction: its constructor, its opcode, which of A, B and C it reads and whether as pairs, the type of an
immediate, whether D is a pair, and the result with its flags. -/
structure RegRow where
  con : Fields → Instr
  opc : BitVec 7
  a : Fields → Option Bool
  b : Fields → Option Bool
  c : Fields → Option Bool
  imm : Fields → Ty
  wide : Fields → Bool
  val : Iss → DWord → DWord → DWord → DWord × FpFlags

/-- The result of a row in an element. -/
def RegRow.result (row : RegRow) (v : Iss) (l : Nat) : DWord × FpFlags :=
  row.val v (valIf v v.f.a.toNat l (row.a v.f)) (bVal v (row.imm v.f) l (row.b v.f)) (valIf v v.f.c.toNat l (row.c v.f))

/-- Every register operand of a row can be read and its destination written, no queue and no mailbox among them. -/
def RegRow.Ready (row : RegRow) (v : Iss) : Prop :=
  ReadableIf v v.f.a.toNat (row.a v.f) ∧ BReady v (row.b v.f) ∧ ReadableIf v v.f.c.toNat (row.c v.f) ∧
  Writable v v.f.d.toNat (row.wide v.f)

/-- The instruction of a row completes: D receives the result in each element, FPFLAGS the flags, the split goes on at the next
instruction, and nothing else changes. -/
def RegRow.Completes (row : RegRow) : Prop :=
  ∀ (f : Fields) (s : State) (v : Iss), Issues s row.opc f v → Quiet v → row.Ready v →
    ∃ t x, exec (row.con f) s = .next t ∧ StrandStep s t v x v.next ∧ SameButRegs v x ∧
      Wrote v x f.d.toNat (row.wide f) (fun l => (row.result v l).1) ∧
      x.fpflags = v.x.fpflags ||| flagsOf (elemsOf v) fun l => (row.result v l).2

/-- Reads of the width of T. -/
def xT (f : Fields) : Option Bool := some (tyIs64 f.ty)
/-- Not read. -/
def nil_ (_ : Fields) : Option Bool := none
/-- A 32-bit read. -/
def w32 (_ : Fields) : Option Bool := some false

/-- Integer shape D x, A x, B x·i. -/
def int2 (con : Fields → Instr) (opc : BitVec 7) (val : Iss → Int → Int → Int) : RegRow :=
  { con := con, opc := opc, a := xT, b := xT, c := nil_, imm := fun f => f.ty, wide := fun f => tyIs64 f.ty,
    val := fun v a b _ => (wrInt v.f.ty (satInt (v.f.md.getLsbD 0) v.f.ty (val v (rdInt v.f.ty a) (rdInt v.f.ty b))), 0) }

/-- Integer shape D x, A x. -/
def int1 (con : Fields → Instr) (opc : BitVec 7) (val : Int → Int) : RegRow :=
  { con := con, opc := opc, a := xT, b := nil_, c := nil_, imm := fun f => f.ty, wide := fun f => tyIs64 f.ty,
    val := fun v a _ _ => (wrInt v.f.ty (satInt (v.f.md.getLsbD 0) v.f.ty (val (rdInt v.f.ty a))), 0) }

/-- Pattern shape D x, A x, B x·i. -/
def pat2 (con : Fields → Instr) (opc : BitVec 7) (val : Nat → Nat → Nat) : RegRow :=
  { con := con, opc := opc, a := xT, b := xT, c := nil_, imm := fun f => f.ty, wide := fun f => tyIs64 f.ty,
    val := fun v a b _ => (wrBits v.f.ty (val (rdBits v.f.ty a) (rdBits v.f.ty b)), 0) }

/-- Shift shape D x, A x, B w·i: the count is B modulo the width (R249). -/
def shift2 (con : Fields → Instr) (opc : BitVec 7) (val : Nat → Nat → Nat → Nat) : RegRow :=
  { con := con, opc := opc, a := xT, b := w32, c := nil_, imm := fun _ => .b32, wide := fun f => tyIs64 f.ty,
    val := fun v a b _ => (wrBits v.f.ty (val (tyWidth v.f.ty) (rdBits v.f.ty a) (rdBits .b32 b % tyWidth v.f.ty)), 0) }

/-- The arithmetic of R247 and R248. -/
def arithmeticRows : List RegRow :=
  [ int2 .iadd 0x01 (fun _ a b => a + b),
    int2 .isub 0x02 (fun _ a b => a - b),
    int2 .imul 0x03 (fun _ a b => a * b),
    int2 .imulh 0x04 (fun v a b => a * b / ((2 ^ tyWidth v.f.ty : Nat) : Int)),
    { int2 .imad 0x05 (fun _ a _ => a) with
        c := xT
        val := fun v a b c => (wrInt v.f.ty (satInt (v.f.md.getLsbD 0) v.f.ty
          (rdInt v.f.ty a * rdInt v.f.ty b + rdInt v.f.ty c)), 0) },
    int2 .idiv 0x06 (fun v a b =>
      if b = 0 then (if tySigned v.f.ty then -1 else ((2 ^ tyWidth v.f.ty : Nat) : Int) - 1) else a.tdiv b),
    int2 .irem 0x07 (fun _ a b => if b = 0 then a else a - a.tdiv b * b),
    int2 .imin 0x08 (fun _ a b => min a b),
    int2 .imax 0x09 (fun _ a b => max a b),
    int1 .iabs 0x0A (fun a => (a.natAbs : Int)),
    int1 .ineg 0x0B (fun a => -a) ]

/-- The logic, shifts, bit fields and counts of R249 and R250. -/
def logicRows : List RegRow :=
  [ pat2 .and 0x0C (fun a b => a &&& b),
    pat2 .or 0x0D (fun a b => a ||| b),
    pat2 .xor 0x0E (fun a b => a ^^^ b),
    { pat2 .not 0x0F (fun a _ => a) with
        b := nil_, val := fun v a _ _ => (wrBits v.f.ty (2 ^ tyWidth v.f.ty - 1 - rdBits v.f.ty a), 0) },
    shift2 .shl 0x10 (fun w x c => x * 2 ^ c % 2 ^ w),
    shift2 .shr 0x11 (fun _ x c => x / 2 ^ c),
    shift2 .sar 0x12 (fun w x c => wrapOf w (signedOf w x / ((2 ^ c : Nat) : Int))),
    shift2 .rot 0x13 (fun w x c => (x * 2 ^ c + x * 2 ^ c / 2 ^ w) % 2 ^ w),
    { shift2 .bfx 0x14 (fun _ x _ => x) with val := fun v a b _ => (wrInt v.f.ty (extractField v.f.ty a b), 0) },
    { shift2 .bfi 0x15 (fun _ x _ => x) with
        c := xT, val := fun v a b c => (wrBits v.f.ty (insertField v.f.ty a b c), 0) },
    { pat2 .popc 0x16 (fun a _ => a) with
        b := nil_, wide := fun _ => false
        val := fun v a _ _ => (BitVec.ofNat 64 (onesOf (tyWidth v.f.ty) (rdBits v.f.ty a)), 0) },
    { pat2 .clz 0x17 (fun a _ => a) with
        b := nil_, wide := fun _ => false
        val := fun v a _ _ => (BitVec.ofNat 64 (leadingZeros (tyWidth v.f.ty) (rdBits v.f.ty a)), 0) },
    { pat2 .brev 0x18 (fun a _ => a) with
        b := nil_, val := fun v a _ _ => (wrBits v.f.ty (reverseBits (tyWidth v.f.ty) (rdBits v.f.ty a) 0), 0) } ]

/-- Address formation, conversion and the dot product of R252, R254 and R255. -/
def convertRows : List RegRow :=
  [ { con := .lea, opc := 0x1C, a := fun _ => some true, b := w32, c := nil_, imm := fun _ => .b32, wide := fun _ => true,
      val := fun v a b _ =>
        (a + ((b.truncate 32 : Word).signExtend 64 <<< v.f.fn.toNat) + v.f.imm16.signExtend 64, 0) },
    { con := .cvti, opc := 0x1E, a := fun f => some (tyIs64 (srcTy f)), b := nil_, c := nil_, imm := fun f => f.ty,
      wide := fun f => tyIs64 f.ty
      val := fun v a _ _ => (wrInt v.f.ty (satInt (v.f.md.getLsbD 0) v.f.ty (rdInt (srcTy v.f) a)), 0) },
    { con := .idot4, opc := 0x1F, a := w32, b := w32, c := w32, imm := fun f => f.ty, wide := fun _ => false
      val := fun v a b c =>
        (wrInt .i32 (satInt (v.f.md.getLsbD 0) .i32 (signedOf 32 c.toNat +
          (List.range 4).foldl (fun t k => t + rdInt v.f.ty (a >>> (8 * k)) * rdInt v.f.ty (b >>> (8 * k))) 0)), 0) } ]

/-- Floating shape D w, A w, B w·i. -/
def fp2Row (con : Fields → Instr) (opc : BitVec 7) (g : Iss → Nat → Nat → Nat × FpFlags) : RegRow :=
  { con := con, opc := opc, a := w32, b := w32, c := nil_, imm := fun f => f.ty, wide := fun _ => false
    val := fun v a b _ => fpMap v.f.ty fun i => g v (fpElem v.f.ty a i) (fpElem v.f.ty b i) }

/-- Floating shape D w, A w. -/
def fp1Row (con : Fields → Instr) (opc : BitVec 7) (g : Iss → Nat → Nat × FpFlags) : RegRow :=
  { con := con, opc := opc, a := w32, b := nil_, c := nil_, imm := fun f => f.ty, wide := fun _ => false
    val := fun v a _ _ => fpMap v.f.ty fun i => g v (fpElem v.f.ty a i) }

/-- The static rounding of an instruction, or FPMODE.RM (R154, R264). -/
def roundHere (v : Iss) : Round :=
  if v.f.md.getLsbD 2 then roundOf (v.f.md.extractLsb' 0 2).toNat else roundOf (v.x.fpmode.extractLsb' 0 2).toNat

/-- The floating-point instructions of R265 to R272 whose result is a register. -/
def floatRows : List RegRow :=
  [ fp2Row .fadd 0x20 (fun v a b => fAdd (fmtOf v.f.ty) (roundHere v) a b),
    fp2Row .fsub 0x21 (fun v a b => fSub (fmtOf v.f.ty) (roundHere v) a b),
    fp2Row .fmul 0x22 (fun v a b => fMul (fmtOf v.f.ty) (roundHere v) a b),
    { fp2Row .ffma 0x23 (fun _ a _ => (a, 0)) with
        c := w32
        val := fun v a b c => fpMap v.f.ty fun i =>
          fFma (fmtOf v.f.ty) (roundHere v) (fpElem v.f.ty a i) (fpElem v.f.ty b i) (fpElem v.f.ty c i) },
    fp2Row .fmin 0x24 (fun v a b => fMinMax (fmtOf v.f.ty) false (v.f.fn == 1) a b),
    fp2Row .fmax 0x25 (fun v a b => fMinMax (fmtOf v.f.ty) true (v.f.fn == 1) a b),
    fp2Row .fdiv 0x26 (fun v a b => fDiv (fmtOf v.f.ty) (roundHere v) a b),
    fp1Row .fsqrt 0x27 (fun v a => fSqrt (fmtOf v.f.ty) (roundHere v) a),
    { fp1Row .fclass 0x2E (fun _ a => (a, 0)) with
        val := fun v a _ _ => (BitVec.ofNat 64 (fClass (fmtOf v.f.ty) (fpElem v.f.ty a 0)), 0) },
    fp1Row .frnd 0x30 (fun v a => fIntegral (fmtOf v.f.ty)
      (match v.f.fn.toNat with
       | 0 => roundOf (v.x.fpmode.extractLsb' 0 2).toNat
       | 1 => .ne
       | 2 => .tz
       | 3 => .dn
       | _ => .up) a),
    { fp2Row .fdot2 0x31 (fun _ a _ => (a, 0)) with
        c := w32
        val := fun v a b c =>
          let r := fDot2 (fmtOf v.f.ty) (roundHere v) (bitsOf a.toNat 31 0) (bitsOf b.toNat 31 0) (bitsOf c.toNat 31 0)
          (BitVec.ofNat 64 r.1, r.2) } ]

/-- The conversions of R273 to R277 that act in each element. -/
def formatRows : List RegRow :=
  [ { con := .cvt, opc := 0x2F, a := fun f => some (tyIs64 (srcTy f))
      b := fun f => if cvtTwo f then some (tyIs64 (srcTy f)) else none, c := nil_, imm := srcTy, wide := fun f => tyIs64 f.ty
      val := fun v a b _ => cvtResult v v.f a b },
    { con := .qdec, opc := 0x33, a := w32, b := w32, c := nil_, imm := fun _ => .b32, wide := fun _ => false
      val := fun v a b _ =>
        (BitVec.ofNat 64 (bfpDecode v.f.fn.toNat (bitsOf b.toNat 7 0) (signedOf v.f.fn.toNat a.toNat)), 0) } ]

/-- QENC.bfpw (R276): the block code of an element under a given exponent. -/
def qencRow : RegRow :=
  { con := .qenc, opc := 0x32, a := w32, b := w32, c := nil_, imm := fun _ => .b32, wide := fun _ => false
    val := fun v a b _ =>
      qencCode v.f.fn.toNat (fdec (fmtOf v.f.ty) (fpElem v.f.ty a 0)) (bitsOf b.toNat 7 0) }

/-- A transcendental of R269: its result takes the free values of the element (R168). -/
structure TransRow where
  con : Fields → Instr
  opc : BitVec 7
  val : Fields → Nat → Nat → Nat × FpFlags

def transRows : List TransRow :=
  [ { con := .frcp, opc := 0x28, val := fun f n a => fRcp (fmtOf f.ty) n a },
    { con := .frsq, opc := 0x29, val := fun f n a => fRsq (fmtOf f.ty) n a },
    { con := .fexp2, opc := 0x2A, val := fun f n a => fExp2 (fmtOf f.ty) n a },
    { con := .flog2, opc := 0x2B, val := fun f n a => fLog2 (fmtOf f.ty) n a },
    { con := .ftrig, opc := 0x2C, val := fun f n a => fTrig (fmtOf f.ty) (f.fn == 1) n a } ]

/-- The result of a transcendental in an element: free values are numbered from the state's counter. -/
def TransRow.result (row : TransRow) (s : State) (v : Iss) (l : Nat) : DWord × FpFlags :=
  fpMap v.f.ty fun i => row.val v.f (s.fresh + 4 * l + 2 * i) (fpElem v.f.ty (regVal v v.f.a.toNat false l) i)

/-- An instruction that computes a predicate from A and B. -/
structure PredRow where
  con : Fields → Instr
  opc : BitVec 7
  wide : Fields → Bool
  val : Iss → DWord → DWord → Bool × FpFlags

def predRows : List PredRow :=
  [ { con := .icmp, opc := 0x19, wide := fun f => tyIs64 f.ty
      val := fun v a b =>
        (match v.f.fn.toNat with
         | 0 => decide (rdInt v.f.ty a = rdInt v.f.ty b)
         | 1 => decide (rdInt v.f.ty a ≠ rdInt v.f.ty b)
         | 2 => decide (rdInt v.f.ty a < rdInt v.f.ty b)
         | 3 => decide (rdInt v.f.ty a ≤ rdInt v.f.ty b)
         | 4 => decide (rdInt v.f.ty b < rdInt v.f.ty a)
         | 5 => decide (rdInt v.f.ty b ≤ rdInt v.f.ty a)
         | 6 => decide (rdBits v.f.ty a &&& rdBits v.f.ty b ≠ 0)
         | _ => decide (rdBits v.f.ty a &&& rdBits v.f.ty b = 0), 0) },
    { con := .fcmp, opc := 0x2D, wide := fun _ => false
      val := fun v a b => fCompare (fmtOf v.f.ty) v.f.fn.toNat (fpElem v.f.ty a 0) (fpElem v.f.ty b 0) } ]

/-- The result of a predicate row in an element. -/
def PredRow.result (row : PredRow) (v : Iss) (l : Nat) : Bool × FpFlags :=
  row.val v (regVal v v.f.a.toNat (row.wide v.f) l) (bVal v v.f.ty l (some (row.wide v.f)))

/-- A predicate operand in an element: k in each lane, or g (R230). -/
def predVal (v : Iss) (n l : Nat) : Bool := if v.f.strand then gget v.x n else (kmask v.x n).getLsbD l

end Sys2Proof.Spec

open Sys2Proof.Spec

/-- R245 to R250, R252, R254, R255: the integer arithmetic instructions write wr(sat(…)) of the exact result into D and change
nothing else, whatever their operands; division by zero writes all ones and leaves the dividend as remainder; so do logic, shifts
(the count modulo the width), rotation, bit fields and bit counts, LEA, CVTI and IDOT4. -/
def Obligations.IntegerResults : Prop := ∀ row ∈ arithmeticRows ++ logicRows ++ convertRows, row.Completes

/-- R263 to R268, R271, R272: the floating-point instructions that write a register, with the flags they raise (R153). -/
def Obligations.FloatingPointResults : Prop := ∀ row ∈ floatRows, row.Completes

/-- R269, R273 to R277, R168: CVT, QENC.bfp and QDEC; the transcendental instructions complete in each element with a result that
rests on free values alone where the spec bounds the error and gives no value (the model's free values, log entry 12). -/
def Obligations.ConversionAndTranscendentalResults : Prop :=
  (∀ row ∈ formatRows, row.Completes) ∧
  (∀ (f : Fields) (s : State) (v : Iss), f.fn ≠ 0 → Issues s 0x32 f v → Quiet v → qencRow.Ready v →
    ∃ t x, exec (.qenc f) s = .next t ∧ StrandStep s t v x v.next ∧ SameButRegs v x ∧
      Wrote v x f.d.toNat false (fun l => (qencRow.result v l).1) ∧
      x.fpflags = v.x.fpflags ||| flagsOf (elemsOf v) fun l => (qencRow.result v l).2) ∧
  ∀ row ∈ transRows, ∀ (f : Fields) (s : State) (v : Iss), Issues s row.opc f v → Quiet v →
    Readable v f.a.toNat false → Writable v f.d.toNat false →
    ∃ t x, exec (row.con f) s = .next t ∧ StrandStep s t v x v.next ∧ SameButRegs v x ∧
      Wrote v x f.d.toNat false (fun l => (row.result s v l).1) ∧
      x.fpflags = v.x.fpflags ||| flagsOf (elemsOf v) fun l => (row.result s v l).2

/-- R251, R253, R270: ICMP, FCMP and PLOP write a predicate in each element and change nothing else; k0 and g0 discard it
(R99). -/
def Obligations.PredicateResults : Prop :=
  (∀ row ∈ predRows, ∀ (f : Fields) (s : State) (v : Iss), Issues s row.opc f v → Quiet v → f.d.toNat < 8 →
    Readable v f.a.toNat (row.wide f) → BReady v (some (row.wide f)) →
    ∃ t x, exec (row.con f) s = .next t ∧ StrandStep s t v x v.next ∧ SameButPreds v x ∧
      WroteP v x f.d.toNat (fun l => (row.result v l).1) ∧
      x.fpflags = v.x.fpflags ||| flagsOf (elemsOf v) fun l => (row.result v l).2) ∧
  ∀ (f : Fields) (s : State) (v : Iss), Issues s 0x1D f v → Quiet v → f.d.toNat < 8 →
    ∃ t x, exec (.plop f) s = .next t ∧ StrandStep s t v x v.next ∧ SameButPreds v x ∧ x.fpflags = v.x.fpflags ∧
      WroteP v x f.d.toNat fun l => f.fn.getLsbD ((if predVal v f.a.toNat l then 1 else 0) +
        (if predVal v f.b.toNat l then 2 else 0) + (if predVal v f.c.toNat l then 4 else 0))

/-- R247, R252: NOP only goes on; SEL writes A where its predicate is true and B elsewhere; MOV writes B; an immediate is
converted to the type. -/
def Obligations.MoveAndSelectResults : Prop :=
  (∀ (f : Fields) (s : State) (v : Iss), Issues s 0x00 f v → Quiet v →
    ∃ t, exec (.nop f) s = .next t ∧ StrandStep s t v v.x v.next) ∧
  (∀ (f : Fields) (s : State) (v : Iss), Issues s 0x1A f v → Quiet v → Readable v f.a.toNat (tyIs64 f.ty) →
    BReady v (xT f) → Writable v f.d.toNat (tyIs64 f.ty) →
    ∃ t x, exec (.sel f) s = .next t ∧ StrandStep s t v x v.next ∧ SameButRegs v x ∧ x.fpflags = v.x.fpflags ∧
      Wrote v x f.d.toNat (tyIs64 f.ty) fun l =>
        if predVal v f.c.toNat l then regVal v f.a.toNat (tyIs64 f.ty) l
        else if bIsImm f false then moveImm f else regVal v f.b.toNat (tyIs64 f.ty) l) ∧
  ∀ (f : Fields) (s : State) (v : Iss), Issues s 0x1B f v → Quiet v → BReady v (xT f) → Writable v f.d.toNat (tyIs64 f.ty) →
    ∃ t x, exec (.mov f) s = .next t ∧ StrandStep s t v x v.next ∧ SameButRegs v x ∧ x.fpflags = v.x.fpflags ∧
      Wrote v x f.d.toNat (tyIs64 f.ty) fun l =>
        if bIsImm f false then moveImm f else regVal v f.b.toNat (tyIs64 f.ty) l

/-! ### Every operand form, queues, mailboxes, waits, guards -/

namespace Sys2Proof.Spec

/-- Every register row. -/
def allRows : List RegRow := arithmeticRows ++ logicRows ++ convertRows ++ floatRows ++ formatRows

/-- The index of a lane among the lanes that stand for queue words: under redundancy one a pair (R103, R107). -/
def unitIndex (v : Iss) (l : Nat) : Nat := (unitLanes v.x.dmr v.on).idxOf (primaryOf v.x.dmr l)

/-- Queue n may be used by the strand: its launch owns it, it is enabled, no stop freezes it, and no earlier operation is
blocked on that end (R103, R184, R187). -/
def QueueUsable (s : State) (v : Iss) (n : Nat) (r : Resv) (q : QueueDesc) (o : WaitObj) : Prop :=
  myResv s v = some r ∧ r.queues.getLsbD n = true ∧ q = mgetD (coreOf s v.c).queues n emptyQueue ∧ q.en = true ∧
  (coreOf s v.c).stopReq = none ∧ mustQueue s v o = false

/-- The strand's launch owns mailbox n. -/
def MailboxOwned (s : State) (v : Iss) (n : Nat) : Prop := ∃ r, myResv s v = some r ∧ r.mbox.getLsbD n = true

/-- A core with another descriptor of queue n, with another mailbox n. -/
def withQueue (k : Core) (n : Nat) (q : QueueDesc) : Core := { k with queues := mput k.queues n q }
def withMailbox (k : Core) (n : Nat) (m : Mailbox) : Core := { k with mbox := mput k.mbox n m }
def mailboxOf (s : State) (v : Iss) (n : Nat) : Mailbox := mgetD (coreOf s v.c).mbox n emptyMailbox

/-- The queue after words have been popped, or pushed. -/
def popped (s : State) (v : Iss) (q : QueueDesc) : QueueDesc :=
  { snapQueue q s.now with head := q.head + BitVec.ofNat 32 (unitLanes v.x.dmr v.on).length }
def pushed (s : State) (v : Iss) (q : QueueDesc) : QueueDesc :=
  { snapQueue q s.now with tail := q.tail + BitVec.ofNat 32 (unitLanes v.x.dmr v.on).length }

/-- The mailbox after a read, and after a write. -/
def drained (m : Mailbox) : Mailbox := { m with full := false, val := 0, poison := false }
def filled (m : Mailbox) (w : Word) : Mailbox := { m with full := true, val := w, poison := false }

/-- What MOV writes in an element. -/
def movValue (v : Iss) (l : Nat) : DWord := if bIsImm v.f false then moveImm v.f else regVal v v.f.b.toNat false l

/-- The core after MOV has pushed its words into a queue. -/
def pushedCore (s : State) (v : Iss) (n : Nat) (r : Resv) (q : QueueDesc) : Core :=
  withQueue ((unitLanes v.x.dmr v.on).zipIdx.foldl (fun k p =>
    spadPut k (queueByte r q (q.tail + BitVec.ofNat 32 p.2).toNat) ((movValue v p.1).truncate 32) false) (coreOf s v.c))
    n (pushed s v q)

/-- An operand of one register that is empty in some element: the instruction cannot read it (R100). -/
def NotFull (v : Iss) (r : Nat) : Prop :=
  if v.f.strand then r < 64 ∧ (sget v.x r).st ≠ .full
  else r < 120 ∧ ∃ l, l < 32 ∧ v.on.getLsbD l = true ∧ (vget v.x r l).st ≠ .full

/-- An operand of one register that is FULL in every element and poisoned in one (R188). -/
def Poisoned (v : Iss) (r : Nat) : Prop :=
  if v.f.strand then r < 64 ∧ (sget v.x r).st = .full ∧ (sget v.x r).poison = true
  else r < 120 ∧ (∀ l, l < 32 → v.on.getLsbD l = true → (vget v.x r l).st = .full) ∧
    ∃ l, l < 32 ∧ v.on.getLsbD l = true ∧ (vget v.x r l).poison = true

end Sys2Proof.Spec

/-- R99 to R103, R230: whatever its operands are (registers, queues, mailboxes, immediates), a register instruction whose
sources are there and whose destination can be written completes with its result in each element; the poison of a word that it
popped or took from a mailbox goes with the result (R188).
(That an operand read from a port carries its mark: the model's reading, log entry 17.) -/
def Obligations.RegisterFormsComplete : Prop :=
  ∀ row ∈ allRows, ∀ (f : Fields) (s s1 : State) (v : Iss) (xa xb xc : Src), Issues s row.opc f v →
    readSources (markIssued s v) v (row.a f) (row.b f) (row.c f) (row.imm f) = .ok (s1, xa, xb, xc) →
    destReady s1 v f.d.toNat (row.wide f) false = .ok () →
    destCompare v f.d.toNat (fun l => (row.val v (xa.val l) (xb.val l) (xc.val l)).1) = .ok () →
    exec (row.con f) s =
      .next (afterIssue s (finishAlu s1 v (row.wide f) (fun l => row.val v (xa.val l) (xb.val l) (xc.val l))
        (xa.poison ||| xb.poison ||| xc.poison)) v)

/-- R102, R103: MOV from a queue, an acquire (R140, R144), pops one word for each lane that takes part, the oldest word to the lowest
lane, with its poison mark (R188), and HEAD advances by their number; MOV into a queue appends one word for each lane that takes part, in ascending lane
order, once the split's earlier operations have settled (R140), and TAIL advances by their number. Nothing else of the core
changes.
(That MOV carries the poison mark and does not consume it: the model's reading, log entry 17.) -/
def Obligations.QueueTransfers : Prop :=
  (∀ (f : Fields) (s : State) (v : Iss) (n : Nat) (r : Resv) (q : QueueDesc), Issues s 0x1B f v → Quiet v →
    f.strand = false → bIsImm f false = false → f.b.toNat = 120 + n → tyIs64 f.ty = false → f.d.toNat < 120 →
    Writable v f.d.toNat false → QueueUsable s v n r q (.qpop n) →
    (∀ b, (unitLanes v.x.dmr v.on).length ≤ wordsFor q s.now b) → unitLanes v.x.dmr v.on ≠ [] → accessPassed s v = .ok () →
    ∃ t x, exec (.mov f) s = .next t ∧
      CoreStep s t v (withQueue (coreOf s v.c) n (popped s v q)) x (splitAfter s v v.next) ∧
      x.s = v.x.s ∧ x.fpflags = v.x.fpflags ∧ SameButRegs v x ∧
      ∀ i l, l < 32 → vget x i l =
        if v.on.getLsbD l ∧ i = f.d.toNat then
          { val := spadWord (coreOf s v.c) (queueByte r q (q.head + BitVec.ofNat 32 (unitIndex v l)).toNat), st := .full,
            poison := (coreOf s v.c).spadPoison.contains
              (queueByte r q (q.head + BitVec.ofNat 32 (unitIndex v l)).toNat / 4) }
        else vget v.x i l) ∧
  ∀ (f : Fields) (s : State) (v : Iss) (n : Nat) (r : Resv) (q : QueueDesc), Issues s 0x1B f v → Quiet v →
    f.strand = false → f.d.toNat = 120 + n → tyIs64 f.ty = false → BReady v (some false) →
    QueueUsable s v n r q (.qpush n) → (∀ b, (unitLanes v.x.dmr v.on).length ≤ spaceFor q s.now b (ownPops v n)) →
    unitLanes v.x.dmr v.on ≠ [] → fenceReady s v.c v.sl v.sp.smask false true .core = true →
    comparePairs v (movValue v) = .ok () →
    ∃ t, exec (.mov f) s = .next t ∧ CoreStep s t v (pushedCore s v n r q) v.x (splitAfter s v v.next)

/-- R101: strand-side MOV from a full mailbox takes its word, with its poison mark, and empties it unless MOD.keep is set;
MOV into an empty mailbox, or, once no reader waits there, into a full one with MOD.ovw, fills it, once the split's earlier operations have settled
(R140).
(The mark: as for queues, log entry 17.) -/
def Obligations.MailboxMoves : Prop :=
  (∀ (f : Fields) (s : State) (v : Iss) (n : Nat), Issues s 0x1B f v → Quiet v → f.strand = true → bIsImm f false = false →
    f.b.toNat = 64 + n → tyIs64 f.ty = false → f.d.toNat < 64 → Writable v f.d.toNat false → MailboxOwned s v n →
    (mailboxOf s v n).full = true → mustQueue s v (.mread n) = false → accessPassed s v = .ok () →
    ∃ t, exec (.mov f) s = .next t ∧
      CoreStep s t v (if f.md.getLsbD 0 then coreOf s v.c else withMailbox (coreOf s v.c) n (drained (mailboxOf s v n)))
        (sset v.x f.d.toNat { val := (mailboxOf s v n).val, st := .full, poison := (mailboxOf s v n).poison })
        (splitAfter s v v.next)) ∧
  ∀ (f : Fields) (s : State) (v : Iss) (n : Nat), Issues s 0x1B f v → Quiet v → f.strand = true → f.d.toNat = 64 + n →
    tyIs64 f.ty = false → BReady v (some false) → MailboxOwned s v n →
    ((mailboxOf s v n).full = false → mustQueue s v (.mwrite n) = false) →
    ((mailboxOf s v n).full = true → f.md.getLsbD 1 = true ∧ mustQueue s v (.mread n) = false) → fenceReady s v.c v.sl v.sp.smask false true .core = true →
    ∃ t, exec (.mov f) s = .next t ∧
      CoreStep s t v (withMailbox (coreOf s v.c) n (filled (mailboxOf s v n) ((movValue v 0).truncate 32))) v.x
        (splitAfter s v v.next)

/-- R86, R100, R174, R188, R232: a register instruction whose A is not FULL waits in class REGISTER, or in a lower class that
holds for another operand, or, with the E bit of A set, raises
EMPTYREG with the register's number, and nothing is read or written; one that reads a poisoned register consumes it, and its strand
ends with UNCORR (code 0x80). -/
def Obligations.UnreadableSources : Prop :=
  ∀ row ∈ allRows, ∀ (f : Fields) (s : State) (v : Iss), Issues s row.opc f v → row.a f = some false →
    (NotFull v f.a.toNat → exec (row.con f) s =
      .next (if f.ea then stopped s v (.trap 0x09 (BitVec.ofNat 32 f.a.toNat)) else waiting s v (lowestWait .register (operandWaits s v)))) ∧
    (Poisoned v f.a.toNat → BReady v (row.b f) → ReadableIf v f.c.toNat (row.c f) →
      exec (row.con f) s = .next (terminate s v.c v.sl 0x80))

/-- R231: an instruction of the strand side whose guard reads false does nothing but go on; it counts as an issue. -/
def Obligations.FalseGuardSkips : Prop :=
  ∀ (f : Fields) (s : State) (v : Iss) (i : Instr) (opc : BitVec 7), instrParts i = some (opc, f) → viewOf s opc f = some v →
    passedOver s v = false → v.off = true → Quiet v → ∃ t, exec i s = .next t ∧ StrandStep s t v v.x v.next

/-! ### Cross-lane instructions and special registers -/

/-- R256, R257: SHFL gives each participating lane the A of the lane that B names, and its own A where that lane does not
exist or does not participate. -/
def Obligations.ShuffleResults : Prop :=
  ∀ (f : Fields) (s : State) (v : Iss) (m part : Word), Issues s 0x34 f v → Quiet v → memberMask v = .ok m →
    participants v m = .ok part → Readable (asMembers v part) f.a.toNat (tyIs64 f.ty) → BReady (asMembers v part) (some false) →
    Writable (asMembers v part) f.d.toNat (tyIs64 f.ty) → f.strand = false →
    ∃ t x, exec (.shfl f) s = .next t ∧ StrandStep s t v x v.next ∧ SameButRegs v x ∧ x.fpflags = v.x.fpflags ∧
      Wrote (asMembers v part) x f.d.toNat (tyIs64 f.ty) fun l =>
        let me := primaryOf v.x.dmr l
        let other := match f.fn.toNat with
          | 0 => if rdBits .b32 (bVal (asMembers v part) .b32 me (some false)) < 32
              then some (rdBits .b32 (bVal (asMembers v part) .b32 me (some false))) else none
          | 1 => if rdBits .b32 (bVal (asMembers v part) .b32 me (some false)) ≤ me
              then some (me - rdBits .b32 (bVal (asMembers v part) .b32 me (some false))) else none
          | 2 => if me + rdBits .b32 (bVal (asMembers v part) .b32 me (some false)) < 32
              then some (me + rdBits .b32 (bVal (asMembers v part) .b32 me (some false))) else none
          | _ => if me ^^^ rdBits .b32 (bVal (asMembers v part) .b32 me (some false)) < 32
              then some (me ^^^ rdBits .b32 (bVal (asMembers v part) .b32 me (some false))) else none
        match other with
        | some j => if part.getLsbD (primaryOf v.x.dmr j)
            then regVal v f.a.toNat (tyIs64 f.ty) (primaryOf v.x.dmr j) else regVal v f.a.toNat (tyIs64 f.ty) me
        | none => regVal v f.a.toNat (tyIs64 f.ty) me

/-- R258: VOTE.ballot writes the mask of the participating lanes whose predicate is true into every one of them; .any, .all
and .uni write a predicate. -/
def Obligations.VoteResults : Prop :=
  ∀ (f : Fields) (s : State) (v : Iss) (m part : Word), Issues s 0x35 f v → Quiet v → memberMask v = .ok m →
    participants v m = .ok part → f.strand = false →
    (f.fn = 0 → Writable (asMembers v part) f.d.toNat false →
      ∃ t x, exec (.vote f) s = .next t ∧ StrandStep s t v x v.next ∧ SameButRegs v x ∧ x.fpflags = v.x.fpflags ∧
        Wrote (asMembers v part) x f.d.toNat false fun _ => (part &&& kmask v.x f.a.toNat).zeroExtend 64) ∧
    (f.fn ≠ 0 → f.d.toNat < 8 →
      ∃ t x, exec (.vote f) s = .next t ∧ StrandStep s t v x v.next ∧ SameButPreds v x ∧ x.fpflags = v.x.fpflags ∧
        WroteP (asMembers v part) x f.d.toNat fun _ =>
          if f.fn = 1 then decide (part &&& kmask v.x f.a.toNat ≠ 0)
          else if f.fn = 2 then decide (part &&& kmask v.x f.a.toNat = part)
          else decide (part &&& kmask v.x f.a.toNat = part ∨ part &&& kmask v.x f.a.toNat = 0))

/-- R169, R259: LRED writes the tree over the participating lanes into each of them, LSCAN the result over the lanes up to
and with its own (.excl: before its own); lanes that do not participate hold the identity. -/
def Obligations.ReductionResults : Prop :=
  ∀ (f : Fields) (s : State) (v : Iss) (m part : Word), Quiet v → memberMask v = .ok m → participants v m = .ok part →
    f.strand = false → Readable (asMembers v part) f.a.toNat (tyIs64 f.ty) → Writable (asMembers v part) f.d.toNat (tyIs64 f.ty) →
    let leaf := fun l => if part.getLsbD l then rdBits f.ty (regVal v f.a.toNat (tyIs64 f.ty) l) else redIdentity f.ty f.fn.toNat
    let join := redCombine v f.ty f.fn.toNat
    (Issues s 0x36 f v →
      ∃ t x, exec (.lred f) s = .next t ∧ StrandStep s t v x v.next ∧ SameButRegs v x ∧
        Wrote (asMembers v part) x f.d.toNat (tyIs64 f.ty) (fun _ => redWrite f.ty (treeNode join leaf 5 0).1) ∧
        x.fpflags = v.x.fpflags ||| flagsOf part fun _ => (treeNode join leaf 5 0).2) ∧
    (Issues s 0x37 f v →
      ∃ t x, exec (.lscan f) s = .next t ∧ StrandStep s t v x v.next ∧ SameButRegs v x ∧
        Wrote (asMembers v part) x f.d.toNat (tyIs64 f.ty) (fun l => redWrite f.ty (scanNode join leaf
          (redIdentity f.ty f.fn.toNat) (primaryOf v.x.dmr l + if f.md.getLsbD 1 then 0 else 1)).1) ∧
        x.fpflags = v.x.fpflags ||| flagsOf part fun l => (scanNode join leaf (redIdentity f.ty f.fn.toNat)
          (primaryOf v.x.dmr l + if f.md.getLsbD 1 then 0 else 1)).2)

/-- R260: XMOV.bcast copies a strand register into each active, unguarded lane, and reads nothing where there is none (R231); .first and .pick copy one lane's register into
a strand register, .pick naming a lane of the issuing split; a shadow lane is read as its primary (R107). -/
def Obligations.SideMoveResults : Prop :=
  (∀ (f : Fields) (s : State) (v : Iss), Issues s 0x38 f v → Quiet v → f.strand = false → f.a.toNat < 63 →
    (∀ q ∈ pairOf f.a.toNat (tyIs64 f.ty), (sget v.x q).st = .full ∧ (sget v.x q).poison = false) →
    Writable v f.d.toNat (tyIs64 f.ty) →
    ∃ t x, exec (.xmov f) s = .next t ∧ StrandStep s t v x v.next ∧ SameButRegs v x ∧ x.fpflags = v.x.fpflags ∧
      Wrote v x f.d.toNat (tyIs64 f.ty) fun _ =>
        if tyIs64 f.ty then ((sget v.x (f.a.toNat + 1)).val ++ (sget v.x f.a.toNat).val : BitVec 64)
        else (sget v.x f.a.toNat).val.zeroExtend 64) ∧
  (∀ (f : Fields) (s : State) (v : Iss), Issues s 0x38 f v → Quiet v → f.strand = false → v.on = 0 →
    ∃ t, exec (.xmov f) s = .next t ∧ StrandStep s t v v.x v.next) ∧
  ∀ (f : Fields) (s : State) (v : Iss) (l : Nat), Issues s 0x38 f v → Quiet v → f.strand = true → l < 32 →
    l = (if f.fn = 1 then lowLane v.act else f.imm16.toNat) →
    (f.fn = 2 → (lanesThere v.x).getLsbD l = true ∧ v.sp.smask.getLsbD (l / 4) = true) →
    (∀ q ∈ pairOf f.a.toNat (tyIs64 f.ty), (vget v.x q (primaryOf v.x.dmr l)).st = .full ∧
      (vget v.x q (primaryOf v.x.dmr l)).poison = false) →
    Writable v f.d.toNat (tyIs64 f.ty) →
    ∃ t x, exec (.xmov f) s = .next t ∧ StrandStep s t v x v.next ∧ SameButRegs v x ∧ x.fpflags = v.x.fpflags ∧
      Wrote v x f.d.toNat (tyIs64 f.ty) fun _ =>
        if tyIs64 f.ty then ((vget v.x (f.a.toNat + 1) (primaryOf v.x.dmr l)).val ++
          (vget v.x f.a.toNat (primaryOf v.x.dmr l)).val : BitVec 64)
        else (vget v.x f.a.toNat (primaryOf v.x.dmr l)).val.zeroExtend 64

/-- R276: QENC.exp gives every participating lane the greatest block exponent, 255 when a lane holds an infinity, a NaN or the
exponent 255, which raises NV for a value that is no number. -/
def Obligations.BlockExponentResults : Prop :=
  ∀ (f : Fields) (s : State) (v : Iss) (m part : Word), Issues s 0x32 f v → Quiet v → f.fn = 0 → memberMask v = .ok m →
    participants v m = .ok part → f.strand = false → Readable (asMembers v part) f.a.toNat false →
    BReady (asMembers v part) (some false) → Writable (asMembers v part) f.d.toNat false →
    let val := fun l => fdec (fmtOf f.ty) (fpElem f.ty (regVal v f.a.toNat false l) 0)
    let own := fun l => qCombine (blockExp (val l)) (bitsOf (bVal (asMembers v part) .b32 l (some false)).toNat 7 0)
    ∃ t x, exec (.qenc f) s = .next t ∧ StrandStep s t v x v.next ∧ SameButRegs v x ∧
      Wrote (asMembers v part) x f.d.toNat false
        (fun _ => BitVec.ofNat 64 ((lanesOf part).foldl (fun e l => qCombine e (own l)) 0)) ∧
      x.fpflags = v.x.fpflags ||| (if (lanesOf part).any (fun l => blockExp (val l) == 255) then flNV else 0)

/-- R104, R261, R262: GETSR writes the value that the special register has when the instruction has issued, and reading CYCLE
latches its high word, unless every lane is guarded off; SETSR writes FPFLAGS or FPMODE, and the flags that engines raise in the
same cycle are ORed in after that. -/
def Obligations.SpecialRegisterAccess : Prop :=
  (∀ (f : Fields) (s : State) (v : Iss), Issues s 0x39 f v → Quiet v → f.imm16 ≠ 0x071 → Writable v f.d.toNat false →
    ∃ t x, exec (.getsr f) s = .next t ∧ StrandStep s t v x v.next ∧
      { x with v := v.x.v, s := v.x.s, clatch := v.x.clatch } = v.x ∧
      x.clatch = (if elemsOf v = 0 then v.x.clatch else if f.imm16 = 0x010 then some (BitVec.ofNat 32 (cycleOf s v.c / 2 ^ 32)) else if f.imm16 = 0x011 then none
        else v.x.clatch) ∧
      Wrote v x f.d.toNat false fun l => (specialValue (markIssued s v) v f.imm16.toNat l 0).zeroExtend 64) ∧
  (∀ (f : Fields) (s : State) (v : Iss), Issues s 0x39 f v → Quiet v → f.imm16 = 0x071 → BReady v (some false) →
    (∀ l, l < 32 → rdBits .b32 (bVal v .b32 l (some false)) < 128) → Writable v f.d.toNat false →
    ∃ t x, exec (.getsr f) s = .next t ∧ StrandStep s t v x v.next ∧ SameButRegs v x ∧ x.fpflags = v.x.fpflags ∧
      Wrote v x f.d.toNat false fun l =>
        (trapRecWord s v.c v.x (rdBits .b32 (bVal v .b32 l (some false)))).zeroExtend 64) ∧
  ∀ (f : Fields) (s : State) (v : Iss), Issues s 0x3A f v → Quiet v → f.strand = true → Readable v f.a.toNat false →
    ∃ t, exec (.setsr f) s = .next t ∧
      StrandStep s t v
        (if f.imm16 = 0x050 then { v.x with fpflags := (regVal v f.a.toNat false 0).truncate 6 ||| flagsNow s v.x }
         else { v.x with fpmode := (regVal v f.a.toNat false 0).truncate 3 }) v.next

/-! ### Control: branches, splits, exits, waits, barriers -/

namespace Sys2Proof.Spec

/-- The target of a PC-relative instruction: its 64-bit PC plus the literal, or four times IMM16 (R234). -/
def relTarget (v : Iss) : DWord :=
  (v.pc.zeroExtend 64 : DWord) + (if v.f.hasLit then v.f.lit else (v.f.imm16.signExtend 64 : DWord) <<< 2)

/-- A target that instructions can be fetched from (R243). -/
def TargetOk (t : DWord) : Prop := t.extractLsb' 0 2 = 0 ∧ t.extractLsb' 57 7 = 0

/-- The instruction goes to a target when a condition holds and on otherwise, and changes nothing else. -/
def Goes (i : Instr) (s : State) (v : Iss) (cond : Bool) (target : DWord) : Prop :=
  ∃ t, exec i s = .next t ∧ StrandStep s t v v.x (if cond then (target.truncate 57 : Pc) else v.next)

/-- B of an instruction whose literal, if it has one, is its target. -/
def BesideTarget (v : Iss) : Prop := v.f.imm = true ∨ (v.f.hasLit = false ∨ v.f.imm = false) ∧ Readable v v.f.b.toNat false
def besideTarget (v : Iss) (l : Nat) : Word :=
  if v.f.imm then (shortImm v.f.b .b32).truncate 32 else (regVal v v.f.b.toNat false l).truncate 32

/-- The horizon of a lane of the issuing strand is clear, or has passed an ISN (R106, R285). -/
def passed (s : State) (v : Iss) (past : Option (BitVec 16)) (l : Nat) : Bool :=
  hzClear (opsOf s v.c v.sl) l || match past with
    | none => false
    | some x => precedes x (hzOf (opsOf s v.c v.sl) v.x l)

/-- Every active lane has passed. -/
def allPassed (s : State) (v : Iss) (past : Option (BitVec 16)) : Bool := (lanesOf v.act).all (passed s v past)

/-- The active lanes of a slice. -/
def activeIn (v : Iss) (i : Nat) : List Nat := (List.range 32).filter fun l => l / 4 == i && v.act.getLsbD l

/-- A slice takes a BRX: under .any a lane of it that is active votes for it, otherwise every one does, and there is one
(R281). -/
def takes (v : Iss) (i : Nat) : Bool :=
  let votes (l : Nat) : Bool := (kmask v.x v.f.a.toNat).getLsbD l != v.f.md.getLsbD 2
  !(activeIn v i).isEmpty && if v.f.md.extractLsb' 0 2 = 0 then (activeIn v i).any votes else (activeIn v i).all votes

/-- Under redundancy each pair of active lanes agrees on a predicate (R107). -/
def PairsAgreeOn (v : Iss) (k : Word) : Prop :=
  v.x.dmr = true → ∀ l, l < 32 → v.act.getLsbD l = true → v.act.getLsbD (primaryOf true l) = true →
    k.getLsbD l = k.getLsbD (primaryOf true l)

/-- An issue that changes the issuing strand to `x` and the split table to `new` where that names entries, and nothing else:
no field of the state but the cores, the clusters' counts of issues and the number of free values; no other core; no other
strand; no other entry of the split table. -/
structure SplitsStep (s t : State) (v : Iss) (x : Strand) (new : Nat → Option (Option Split)) : Prop where
  device : { t with cores := s.cores, clusters := s.clusters, fresh := s.fresh } = s
  cores : ∀ c, c ≠ v.c → coreOf t c = coreOf s c
  core : { coreOf t v.c with
             slots := (coreOf s v.c).slots, splits := (coreOf s v.c).splits, issued := (coreOf s v.c).issued,
             issuedSlots := (coreOf s v.c).issuedSlots, samples := (coreOf s v.c).samples } = coreOf s v.c
  strands : ∀ sl, sl ≠ v.sl → strandAt t v.c sl = strandAt s v.c sl
  strand : strandAt t v.c v.sl = some x
  splits : ∀ e, splitAt t v.c e = (new e).getD (splitAt s v.c e)

/-- No split of the issuing strand waits at a REGANG. -/
def NoneGathers (s : State) (v : Iss) : Prop := ∀ p ∈ splitsOf s v.c v.sl, p.2.rgw = false

/-- The lanes that an EXIT names: all active ones, or those whose predicate is true (R284). -/
def exiting (v : Iss) : Word := if v.f.fn = 1 then v.act &&& kmask v.x v.f.a.toNat else v.act

/-- The strand after an EXIT: at handler depth 1 the lanes leave the handler only (R284). -/
def afterExit (v : Iss) : Strand :=
  match v.x.handling with
  | none => { v.x with exited := v.x.exited ||| exiting v }
  | some _ => { v.x with hexit := v.x.hexit ||| exiting v }

/-- The cause that an instruction raises: at its own PC, with its active lanes, in the lowest slice that has one (R174,
R178). -/
def raised (s : State) (v : Iss) (code : Nat) (detail : Word) : Cause :=
  { code := code, detail := detail, faddr := 0, pc := v.pc, spc := if code = 0x0F then v.next else v.pc, active := v.act,
    flanes := v.act, smask := v.sp.smask, fslice := (slicesOf v.act).headD 0,
    fisn := nextIsn v.x ((slicesOf v.act).headD 0), rpl := v.sp.replay, svc := false,
    cycle := s.now }

/-- The split of an instruction that raised a cause: still at it, with the stamp of this issue (R85), out of every blocking order
(R175). -/
def splitStopped (s : State) (v : Iss) : Split :=
  { v.sp with stamp := s.now, tried := s.now + 1, turn := none, blocked := none, desched := none }

/-- The instruction raises a precise cause at depth 0 and has no effect: its strand holds the cause until the trap is
entered. -/
def Raises (i : Instr) (s : State) (v : Iss) (code : Nat) (detail : Word) : Prop :=
  ∃ t, exec i s = .next t ∧ CoreStep s t v (coreOf s v.c) { v.x with arisen := some (raised s v code detail) } (splitStopped s v)

/-- The instruction jumps to a target that cannot be fetched from (R243). -/
def BadTarget (i : Instr) (s : State) (v : Iss) (target : DWord) : Prop :=
  (target.extractLsb' 0 2 ≠ 0 → Raises i s v 0x03 4) ∧
  (target.extractLsb' 0 2 = 0 → target.extractLsb' 57 7 ≠ 0 → Raises i s v 0x04 2)

/-- The issue can raise a cause that no other overtakes: at handler depth 0, none has arisen. -/
def CanRaise (v : Iss) : Prop := Quiet v ∧ v.x.handling = none ∧ v.x.arisen = none

/-- The joins of a BRX. -/
def joined (v : Iss) : List (BitVec 8) := v.sp.jstk ++ [v.f.fn]

/-- The two halves of a split that BRX divides (R96, R281). -/
def takenHalf (s : State) (v : Iss) (taken : BitVec 8) : Split :=
  { splitAfter s v ((relTarget v).truncate 57) with smask := taken, jstk := joined v }
def fallHalf (s : State) (v : Iss) (taken : BitVec 8) : Split :=
  { splitAfter s v v.next with smask := v.sp.smask &&& ~~~taken, jstk := joined v }

/-- A split that waits at a REGANG (R282). -/
def gathering (s : State) (v : Iss) : Split :=
  { splitAfter s v v.sp.pc with rgw := true, cls := some .regang, held := none }

/-- The splits of the issuing strand once the issuing one has arrived at its REGANG. -/
def arrivedSplits (s : State) (v : Iss) : List (Nat × Split) :=
  (splitsOf s v.c v.sl).map fun p => if p.1 = v.e then (v.e, gathering s v) else p

/-- A split waits for a sibling of its join that has not arrived there (R96). -/
def WaitsFor (ps : List (Nat × Split)) (p : Split) : Prop :=
  ∃ q ∈ ps, isSibling p.jstk.length p q.2 = true ∧ (q.2.rgw = false ∨ q.2.jstk.length ≠ p.jstk.length)

/-- The splits that meet at the innermost join of the issuing one (R96). -/
def gang (s : State) (v : Iss) : List (Nat × Split) :=
  (splitsOf s v.c v.sl).filter fun p => isSibling v.sp.jstk.length v.sp p.2

/-- Every sibling of the issuing split has arrived and no other split of the strand can merge; no sibling holds a sample. -/
def AllArrived (s : State) (v : Iss) : Prop :=
  (∀ p ∈ gang s v, (p.1 = v.e ∧ p.2 = v.sp) ∨
    (p.1 ≠ v.e ∧ p.2.rgw = true ∧ p.2.jstk.length = v.sp.jstk.length ∧ p.2.held = none)) ∧
  ∀ p ∈ arrivedSplits s v, isSibling v.sp.jstk.length v.sp p.2 = false → p.2.rgw = true → WaitsFor (arrivedSplits s v) p.2

/-- Slice i stays in a merged split: a split of the gang has it, and a lane of it is living (R96). -/
def mergedSlice (s : State) (v : Iss) (i : Nat) : Bool :=
  ((gang s v).any fun p => p.2.smask.getLsbD i) && (livingLanes v.x).extractLsb' (4 * i) 4 != 0

/-- The cycle of the last issue of a split of the gang: the issuing one issues now (R85). -/
def gangStamp (s : State) (v : Iss) (p : Nat × Split) : Nat := if p.1 = v.e then s.now else p.2.stamp

/-- Split p of the gang holds its lowest-numbered slice. -/
def HoldsLowest (s : State) (v : Iss) (p : Split) : Prop :=
  ∃ i, p.smask.getLsbD i = true ∧ ∀ j, j < i → ∀ q ∈ gang s v, q.2.smask.getLsbD j = false

/-- A destination descriptor of DSTBIND (R287): bits [9:8] give the kind, [7:0] the target. -/
def Binds (a : Nat) (d : Option Dest) : Prop :=
  a < 1024 ∧
  ((a / 256 = 0 ∧ a % 256 < 240 ∧ d = some (.fabric (a % 256))) ∨ (a / 256 = 1 ∧ d = some (.group (a % 256))) ∨
   (a / 256 = 2 ∧ d = none))

/-- A 32-bit operand of the strand side. -/
def wordA (v : Iss) : Nat := (regVal v v.f.a.toNat false 0).toNat % 2 ^ 32
def wordB (v : Iss) (t : Ty) : Nat := (bVal v t 0 (some false)).toNat % 2 ^ 32

/-- A barrier entry before any arrival of an instance: `term` counts the launch's strands on the core that have terminated
(R289). -/
def freshBar (s : State) (v : Iss) (n : Nat) : BarEntry :=
  { barOf (coreOf s v.c) n with arr := 0, term := termsOf s v.x.lcnt v.c, abt := false, wait := 0, arrived := 0, late := 0, ord := v.f.ord }

/-- The entry after the first arrival of an instance (R288, R289). -/
def firstArrival (s : State) (v : Iss) (n expect : Nat) : BarEntry :=
  { freshBar s v n with
      isOpen := true, bound := true, scope := v.f.scope, lcnt := v.x.lcnt, expect := expect, arr := 1
      wait := laneBit v.sl, arrived := laneBit v.sl }

/-- The core after it. -/
def arrivedCore (s : State) (v : Iss) : Core :=
  { coreOf s v.c with
      barriers := mput (coreOf s v.c).barriers (wordB v .b32) (firstArrival s v (wordB v .b32) (wordA v)) }

/-- A BAR can arrive and finds no instance of its barrier open within its scope: its operands are readable and in range, D is
writable later, its entry is not bound to another launch that is there, and its release part holds. -/
def FirstArrives (s : State) (v : Iss) : Prop :=
  v.f.strand = true ∧ v.c < 192 ∧ v.sl < 32 ∧ Readable v v.f.a.toNat false ∧ BReady v (some false) ∧ wordB v .b32 < 16 ∧ 0 < wordA v ∧
  wordA v ≤ 6144 ∧ (barOf (coreOf s v.c) (wordB v .b32)).isOpen = false ∧
  ((barOf (coreOf s v.c) (wordB v .b32)).bound = true → (barOf (coreOf s v.c) (wordB v .b32)).lcnt ≠ v.x.lcnt →
    resvOf (coreOf s v.c) (barOf (coreOf s v.c) (wordB v .b32)).lcnt = none) ∧
  (∀ p ∈ barPlaces s, inInstance v.f.scope v.c p.2.1 = true → (barOf p.2.2 (wordB v .b32)).isOpen = false) ∧
  (ordRel v.f.ord = true → fenceReady s v.c v.sl v.sp.smask false true v.f.scope = true) ∧
  (if v.f.d.toNat < 64 then (sget v.x v.f.d.toNat).st ≠ .pending else MailboxOwned s v (v.f.d.toNat - 64))

end Sys2Proof.Spec

/-- R234, R278, R280, R283, R285, R286: a branch goes to its target exactly when its condition holds; CALL and JMPR always
do, CALL with the return PC in s63; nothing else changes. -/
def Obligations.BranchesAndJumps : Prop :=
  (∀ (f : Fields) (s : State) (v : Iss), Issues s 0x3C f v → Quiet v → f.fn = 0 →
    (gget v.x f.a.toNat ≠ f.md.getLsbD 0 → TargetOk (relTarget v)) →
    Goes (.bra f) s v (gget v.x f.a.toNat != f.md.getLsbD 0) (relTarget v)) ∧
  (∀ (f : Fields) (s : State) (v : Iss) (b : Bool), Issues s 0x3C f v → Quiet v → f.fn ≠ 0 → v.act ≠ 0 →
    (∀ l, l < 32 → v.act.getLsbD l = true → (kmask v.x f.a.toNat).getLsbD l = b) →
    (b ≠ f.md.getLsbD 0 → TargetOk (relTarget v)) → Goes (.bra f) s v (b != f.md.getLsbD 0) (relTarget v)) ∧
  (∀ (f : Fields) (s : State) (v : Iss), Issues s 0x3E f v → Quiet v → f.strand = true → (sget v.x 63).st ≠ .pending →
    (f.fn = 1 → Readable v f.a.toNat true) →
    TargetOk (if f.fn = 1 then regVal v f.a.toNat true 0 else relTarget v) →
    ∃ t, exec (.call f) s = .next t ∧
      StrandStep s t v (sset v.x 63 (fullCell (v.next.truncate 32)))
        ((if f.fn = 1 then regVal v f.a.toNat true 0 else relTarget v).truncate 57)) ∧
  (∀ (f : Fields) (s : State) (v : Iss) (a : DWord), Issues s 0x3F f v → Quiet v → f.strand = true →
    Readable v f.a.toNat (f.fn == 0) →
    a = (if f.fn = 0 then regVal v f.a.toNat true 0
      else ((v.pc.extractLsb' 32 25).zeroExtend 32 ++ (regVal v f.a.toNat false 0).truncate 32 : BitVec 64)) →
    TargetOk a → Goes (.jmpr f) s v true a) ∧
  (∀ (f : Fields) (s : State) (v : Iss) (past : Option (BitVec 16)), Issues s 0x43 f v → Quiet v → f.strand = true →
    past = (if f.fn = 2 then some ((besideTarget v 0).truncate 16) else none) → (f.fn = 2 → BesideTarget v) →
    ((allPassed s v past != (f.fn == 1)) = true → TargetOk (relTarget v)) →
    Goes (.hzbr f) s v (allPassed s v past != (f.fn == 1)) (relTarget v)) ∧
  ∀ (f : Fields) (s : State) (v : Iss) (go : Bool), Issues s 0x45 f v → Quiet v → f.strand = true → BesideTarget v →
    go = (if f.md.getLsbD 0 then decide ((besideTarget v 0).toNat ≤ alwOf (coreOf s v.c) f.fn.toNat)
      else decide (alwOf (coreOf s v.c) f.fn.toNat < (besideTarget v 0).toNat)) →
    (go = true → TargetOk (relTarget v)) → Goes (.albr f) s v go (relTarget v)

/-- R243, R278, R280: a taken jump of BRA, BRX, CALL, JMPR, HZBR or ALBR to a target that is not a multiple of four raises ALIGN with
DETAIL 4, one to a target with a bit of [63:57] set XLATE with DETAIL 2; a uniform branch whose lanes disagree raises UNIF with the
first slice that differs. -/
def Obligations.BadTargetsTrap : Prop :=
  (∀ (f : Fields) (s : State) (v : Iss), Issues s 0x3C f v → CanRaise v → f.fn = 0 →
    gget v.x f.a.toNat ≠ f.md.getLsbD 0 → BadTarget (.bra f) s v (relTarget v)) ∧
  (∀ (f : Fields) (s : State) (v : Iss) (b : Bool), Issues s 0x3C f v → CanRaise v → f.fn ≠ 0 → v.act ≠ 0 →
    (∀ l, l < 32 → v.act.getLsbD l = true → (kmask v.x f.a.toNat).getLsbD l = b) → b ≠ f.md.getLsbD 0 →
    BadTarget (.bra f) s v (relTarget v)) ∧
  (∀ (f : Fields) (s : State) (v : Iss) (taken : BitVec 8), Issues s 0x3D f v → CanRaise v →
    PairsAgreeOn v (kmask v.x f.a.toNat) → (∀ i, i < 8 → taken.getLsbD i = takes v i) →
    (f.md.extractLsb' 0 2 = 2 → ∀ i l l', l ∈ activeIn v i → l' ∈ activeIn v i →
      (kmask v.x f.a.toNat).getLsbD l = (kmask v.x f.a.toNat).getLsbD l') →
    taken ≠ 0 → (v.sp.smask &&& ~~~taken = 0 ∨ v.sp.jstk.length < 8) → BadTarget (.brx f) s v (relTarget v)) ∧
  (∀ (f : Fields) (s : State) (v : Iss), Issues s 0x3E f v → CanRaise v → f.strand = true → (sget v.x 63).st ≠ .pending →
    (f.fn = 1 → Readable v f.a.toNat true) →
    BadTarget (.call f) s v (if f.fn = 1 then regVal v f.a.toNat true 0 else relTarget v)) ∧
  (∀ (f : Fields) (s : State) (v : Iss) (a : DWord), Issues s 0x3F f v → CanRaise v → f.strand = true →
    Readable v f.a.toNat (f.fn == 0) →
    a = (if f.fn = 0 then regVal v f.a.toNat true 0
      else ((v.pc.extractLsb' 32 25).zeroExtend 32 ++ (regVal v f.a.toNat false 0).truncate 32 : BitVec 64)) →
    BadTarget (.jmpr f) s v a) ∧
  (∀ (f : Fields) (s : State) (v : Iss) (past : Option (BitVec 16)), Issues s 0x43 f v → CanRaise v → f.strand = true →
    past = (if f.fn = 2 then some ((besideTarget v 0).truncate 16) else none) → (f.fn = 2 → BesideTarget v) →
    (allPassed s v past != (f.fn == 1)) = true → BadTarget (.hzbr f) s v (relTarget v)) ∧
  (∀ (f : Fields) (s : State) (v : Iss), Issues s 0x45 f v → CanRaise v → f.strand = true → BesideTarget v →
    (if f.md.getLsbD 0 then (besideTarget v 0).toNat ≤ alwOf (coreOf s v.c) f.fn.toNat
      else alwOf (coreOf s v.c) f.fn.toNat < (besideTarget v 0).toNat) →
    BadTarget (.albr f) s v (relTarget v)) ∧
  ∀ (f : Fields) (s : State) (v : Iss) (l : Nat), Issues s 0x3C f v → CanRaise v → f.fn ≠ 0 → v.x.dmr = false → l < 32 →
    v.act.getLsbD l = true →
    (kmask v.x f.a.toNat).getLsbD l ≠ (kmask v.x f.a.toNat).getLsbD (lowLane v.act) →
    (∀ j, j < l → v.act.getLsbD j = true →
      (kmask v.x f.a.toNat).getLsbD j = (kmask v.x f.a.toNat).getLsbD (lowLane v.act)) →
    Raises (.bra f) s v 0x07 (BitVec.ofNat 32 (l / 4))

/-- R96, R281: BRX moves the slices that take it. When none does the split goes on, when all do it goes to the target, and
otherwise it divides: the taken half keeps its entry, the other takes the lowest free one of its scheduler, and both push the
join; a half without a living lane is freed. A ninth join raises ILLEGAL with FIELD 1. -/
def Obligations.DivergentBranch : Prop :=
  ∀ (f : Fields) (s : State) (v : Iss) (taken : BitVec 8), Issues s 0x3D f v → PairsAgreeOn v (kmask v.x f.a.toNat) →
    (∀ i, i < 8 → taken.getLsbD i = takes v i) →
    (f.md.extractLsb' 0 2 = 2 → ∀ i l l', l ∈ activeIn v i → l' ∈ activeIn v i →
      (kmask v.x f.a.toNat).getLsbD l = (kmask v.x f.a.toNat).getLsbD l') →
    (taken = 0 → Quiet v → Goes (.brx f) s v false (relTarget v)) ∧
    (taken ≠ 0 → v.sp.smask &&& ~~~taken = 0 → TargetOk (relTarget v) → Quiet v → Goes (.brx f) s v true (relTarget v)) ∧
    (taken ≠ 0 → v.sp.smask &&& ~~~taken ≠ 0 → 8 ≤ v.sp.jstk.length → CanRaise v →
      Raises (.brx f) s v 0x01 (illegalDetail 0x3D f.strand 1)) ∧
    ∀ e2, e2 = freeEntry (coreOf s v.c) (schedOf v.sl) → splitAt s v.c e2 = none →
      taken ≠ 0 → v.sp.smask &&& ~~~taken ≠ 0 → v.sp.jstk.length < 8 → TargetOk (relTarget v) → Quiet v →
      ∃ t, exec (.brx f) s = .next t ∧
        SplitsStep s t v v.x fun e =>
          if e = v.e then some (some (takenHalf s v taken))
          else if e = e2 then
            some (if lanesOfSlices (v.sp.smask &&& ~~~taken) &&& livingLanes v.x = 0 then none
              else some (fallHalf s v taken))
          else none

/-- R96, R129, R282: REGANG goes on when its join is not the split's innermost. Otherwise the split waits there while a sibling has not
arrived, and the last one to arrive merges its gang into one split: of the slices that have a living lane, with one join less, the
oldest of their stamps and the PC after the REGANG of the split that holds the lowest slice; what any of them has issued comes before
what it issues.
(That a handler's last gang goes on when no lane of it is living: the model's reading, log entry 16.) -/
def Obligations.RegangJoins : Prop :=
  (∀ (f : Fields) (s : State) (v : Iss), Issues s 0x40 f v → Quiet v → v.sp.jstk.getLast? ≠ some (f.imm16.truncate 8) →
    Goes (.regang f) s v false 0) ∧
  (∀ (f : Fields) (s : State) (v : Iss), Issues s 0x40 f v → Quiet v → v.sp.jstk.getLast? = some (f.imm16.truncate 8) →
    (∀ p ∈ arrivedSplits s v, p.2.rgw = true → WaitsFor (arrivedSplits s v) p.2) →
    ∃ t, exec (.regang f) s = .next t ∧
      SplitsStep s t v v.x fun e => if e = v.e then some (some (gathering s v)) else none) ∧
  ∀ (f : Fields) (s : State) (v : Iss), Issues s 0x40 f v → Quiet v → v.sp.jstk.getLast? = some (f.imm16.truncate 8) →
    AllArrived s v → (∃ i, i < 8 ∧ mergedSlice s v i = true) ∨ v.x.handling.isSome = true →
    ∃ t e0 m all, exec (.regang f) s = .next t ∧ (∃ p, (e0, p) ∈ gang s v) ∧
      (∀ i, all.getLsbD i = (gang s v).any fun p => p.2.smask.getLsbD i) ∧
      SplitsStep (mergeOps s v.c v.sl all) t v v.x (fun e =>
        if e = e0 then some (some m) else if e ∈ (gang s v).map (·.1) then some none else none) ∧
      m.slot = v.sl ∧ m.jstk = v.sp.jstk.dropLast ∧ m.rgw = false ∧ m.cls = none ∧
      ((∃ i, i < 8 ∧ mergedSlice s v i = true) → ∀ i, i < 8 → m.smask.getLsbD i = mergedSlice s v i) ∧
      ((∀ i, i < 8 → mergedSlice s v i = false) → ∃ p ∈ gang s v, m.smask = p.2.smask) ∧
      ((∃ i, all.getLsbD i = true) → ∃ p ∈ gang s v, HoldsLowest s v p.2 ∧ m.pc = p.2.pc + 12) ∧
      (∃ p ∈ gang s v, m.stamp = gangStamp s v p) ∧ ∀ p ∈ gang s v, m.stamp ≤ gangStamp s v p

/-- R97, R284: EXIT ends lanes. While a lane of the split lives the split goes on; when none does its entry is freed; when
no lane of the strand lives the strand lingers, or retires at once when nothing of it is outstanding. In a handler the lanes
leave the handler only, and the last split of it goes on.
(That the last split of a handler goes on without a living lane: the model's reading, log entry 16.) -/
def Obligations.ExitEndsLanes : Prop :=
  ∀ (f : Fields) (s : State) (v : Iss), Issues s 0x41 f v → Quiet v →
    (splitLanes (afterExit v) v.sp ≠ 0 ∨ v.x.handling.isSome = true ∧ (splitsOf s v.c v.sl).length ≤ 1 → NoneGathers s v →
      ∃ t, exec (.exit f) s = .next t ∧ StrandStep s t v (afterExit v) v.next) ∧
    (splitLanes (afterExit v) v.sp = 0 → NoneGathers s v → livingLanes (afterExit v) ≠ 0 → v.x.handling = none →
      ∃ t, exec (.exit f) s = .next t ∧ SplitsStep s t v (afterExit v) fun e => if e = v.e then some none else none) ∧
    (splitLanes (afterExit v) v.sp = 0 → NoneGathers s v → v.x.handling.isSome = true →
      (∃ e p, e ≠ v.e ∧ splitAt s v.c e = some p ∧ p.slot = v.sl) →
      ∃ t, exec (.exit f) s = .next t ∧ SplitsStep s t v (afterExit v) fun e => if e = v.e then some none else none) ∧
    (livingLanes (afterExit v) = 0 → v.x.handling = none → v.x.phase = .live → v.x.arisen = none →
      ∃ t, exec (.exit f) s = .next t ∧ splitAt t v.c v.e = none ∧
        (allClear (opsOf s v.c v.sl) = true → strandAt t v.c v.sl = none) ∧
        (allClear (opsOf s v.c v.sl) = false →
          strandAt t v.c v.sl = some { afterExit v with phase := .linger }))

/-- R285, R293, R294, R315, R323, R324: HZWAIT, WAITB, OPFENCE and FENCE go on when what they wait for holds, HZTEST writes
the horizon's state into a predicate, PREF performs no access, YIELD holds the split for B cycles, and MARK without a marker
ring goes on; nothing else changes. -/
def Obligations.FencesAndTestsComplete : Prop :=
  (∀ (f : Fields) (s : State) (v : Iss) (past : Option (BitVec 16)), Issues s 0x42 f v → Quiet v → f.strand = true →
    past = (if f.fn = 1 then some ((bVal v .b32 0 (some false)).truncate 16) else none) →
    (f.fn = 1 → BReady v (some false)) → allPassed s v past = true → Goes (.hzwait f) s v false 0) ∧
  (∀ (f : Fields) (s : State) (v : Iss), Issues s 0x44 f v → Quiet v → f.strand = false → f.d.toNat < 8 →
    (f.fn = 1 → BReady v (some false)) →
    ∃ t x, exec (.hztest f) s = .next t ∧ StrandStep s t v x v.next ∧ SameButPreds v x ∧ x.fpflags = v.x.fpflags ∧
      WroteP v x f.d.toNat fun l =>
        passed s v (if f.fn = 1 then some ((bVal v .b32 l (some false)).truncate 16) else none) l) ∧
  (∀ (f : Fields) (s : State) (v : Iss), Issues s 0x48 f v → Quiet v → f.strand = true → BReady v (some false) →
    (bdoneOf s v.c v.sl v.x - (bVal v .b32 0 (some false)).truncate 16).toNat ≤ 32767 → Goes (.waitb f) s v false 0) ∧
  (∀ (f : Fields) (s : State) (v : Iss), Issues s 0x4A f v → Quiet v →
    (∀ o ∈ splitOps s v.c v.sl, openLanes o ≠ 0 → sameSplit o v.sp.smask = true →
      o.kind ≠ .store ∧ o.kind ≠ .atom ∧ o.kind ≠ .cas ∧ o.kind ≠ .cell) →
    (∀ e ∈ (clusterAt s (clusterOf v.c)).stores, e.gid ≠ gidOf v.c v.sl) → Goes (.opfence f) s v false 0) ∧
  (∀ (f : Fields) (s : State) (v : Iss), Issues s 0x5B f v → Quiet v →
    (f.ord = .sc → ∀ o ∈ splitOps s v.c v.sl, o.sc = true → openLanes o ≠ 0 → sameSplit o v.sp.smask = false) →
    fenceReady s v.c v.sl v.sp.smask (ordAcq f.ord) (ordRel f.ord) f.scope = true →
    (f.scope = .sys → remoteClear (splitOps s v.c v.sl) v.sp.smask = true) → Goes (.fence f) s v false 0) ∧
  (∀ (f : Fields) (s : State) (v : Iss), Issues s 0x5C f v → Quiet v → Readable v f.a.toNat true →
    Goes (.pref f) s v false 0) ∧
  (∀ (f : Fields) (s : State) (v : Iss), Issues s 0x4D f v → Quiet v → f.strand = true → BReady v (some false) →
    ∃ t, exec (.yield f) s = .next t ∧
      CoreStep s t v (coreOf s v.c) v.x { splitAfter s v v.next with yieldTo := s.now + 1 + wordB v .b32 % 4096 }) ∧
  ∀ (f : Fields) (s : State) (v : Iss), Issues s 0x4E f v → Quiet v →
    (∀ k, mget s.ctxs v.x.ctx = some k → k.markRecs = false) → Goes (.mark f) s v false 0

/-- R86, R285, R315, R323, R324: while what it waits for does not hold the instruction waits in its class, and nothing else
changes. -/
def Obligations.UnmetConditionsWait : Prop :=
  (∀ (f : Fields) (s : State) (v : Iss) (past : Option (BitVec 16)), Issues s 0x42 f v → f.strand = true →
    past = (if f.fn = 1 then some ((bVal v .b32 0 (some false)).truncate 16) else none) →
    (f.fn = 1 → BReady v (some false)) → allPassed s v past = false →
    exec (.hzwait f) s = .next (waiting s v .horizon)) ∧
  (∀ (f : Fields) (s : State) (v : Iss), Issues s 0x48 f v → f.strand = true → BReady v (some false) →
    32767 < (bdoneOf s v.c v.sl v.x - (bVal v .b32 0 (some false)).truncate 16).toNat →
    exec (.waitb f) s = .next (waiting s v .batch)) ∧
  (∀ (f : Fields) (s : State) (v : Iss) (o : Op), Issues s 0x4A f v → o ∈ splitOps s v.c v.sl → o.kind = .store →
    openLanes o ≠ 0 → sameSplit o v.sp.smask = true → exec (.opfence f) s = .next (waiting s v .pipe)) ∧
  ∀ (f : Fields) (s : State) (v : Iss) (o : Op), Issues s 0x5B f v → o ∈ splitOps s v.c v.sl → openLanes o ≠ 0 →
    sameSplit o v.sp.smask = true → ordRel f.ord = true → f.scope ≠ .sys → exec (.fence f) s = .next (waiting s v .pipe)

/-- R288, R289, R290: the first arrival at a closed barrier opens an instance of the launch with its count, and the strand waits
there. At the end of a cycle in which arrivals and terminations have reached the count, the instance closes, its generation grows,
its waiter goes on, and D receives the number of terminations and whether the instance was abandoned. A barrier number above 15
and a count of 0 or above 6,144 are ILLEGAL. -/
def Obligations.BarrierArrival : Prop :=
  (∀ (f : Fields) (s : State) (v : Iss), Issues s 0x47 f v → Quiet v → FirstArrives s v →
    ∃ t, exec (.bar f) s = .next t ∧ CoreStep s t v (arrivedCore s v) v.x
      { splitAfter s v v.sp.pc with
          parked := some (.barrier (wordB v .b32) f.d.toNat v.next), cls := some .barrier, held := none }) ∧
  (∀ (s : State) (c sl n d e nterm : Nat) (nx : Pc) (b : BarEntry) (x : Strand) (q : Split),
    b = barOf (coreOf s c) n → b.isOpen = true → b.late = 0 → b.wait = laneBit sl → sl < 32 →
    barPeers s c n b = [(none, c, b)] → nterm = barTerm s c b [(none, c, b)] → b.expect ≤ b.arr + nterm →
    strandAt s c sl = some x → x.handling = none → splitsOf s c sl = [(e, q)] → splitAt s c e = some q →
    q.parked = some (.barrier n d nx) → q.held = none → d < 64 →
    splitAt (barCheck s none c n) c e = some { q with parked := none, pc := nx, cls := none, tried := s.now + 1 } ∧
    strandAt (barCheck s none c n) c sl = some (sset x d (fullCell
      (BitVec.ofNat 32 (nterm % 65536 + if nterm = 0 ∧ b.abt = false then 0 else 65536)))) ∧
    (barOf (coreOf (barCheck s none c n) c) n).isOpen = false ∧
    (barOf (coreOf (barCheck s none c n) c) n).gen = b.gen + 1 ∧ (barCheck s none c n).mem = s.mem) ∧
  ∀ (f : Fields) (s : State) (v : Iss), Issues s 0x47 f v → f.strand = true → CanRaise v → Readable v f.a.toNat false →
    BReady v (some false) →
    (16 ≤ wordB v .b32 → Raises (.bar f) s v 0x01 (illegalDetail 0x47 true 5)) ∧
    (wordB v .b32 < 16 → (barOf (coreOf s v.c) (wordB v .b32)).isOpen = false →
      (barOf (coreOf s v.c) (wordB v .b32)).bound = false → (wordA v = 0 ∨ 6144 < wordA v) →
      Raises (.bar f) s v 0x01 (illegalDetail 0x47 true 4))

/-- R41, R287: DSTBIND binds a destination slot, or frees it, with full allowance; where a strand of a higher number has bound the slot
in the same cycle it changes nothing, so that the highest remains; a malformed descriptor and a slot above 15 are ILLEGAL. -/
def Obligations.DestinationBinding : Prop :=
  ∀ (f : Fields) (s : State) (v : Iss), Issues s 0x46 f v → f.strand = true → Readable v f.a.toNat false →
    BReady v (some false) →
    (∀ d, Binds (wordA v) d → wordB v .b32 < 16 → Quiet v →
      (dstOf (coreOf s v.c) (wordB v .b32)).boundAt = s.now + 1 → v.sl < (dstOf (coreOf s v.c) (wordB v .b32)).boundBy →
      Goes (.dstbind f) s v false 0) ∧
    (∀ d, Binds (wordA v) d → wordB v .b32 < 16 → Quiet v →
      ((dstOf (coreOf s v.c) (wordB v .b32)).boundAt = s.now + 1 → (dstOf (coreOf s v.c) (wordB v .b32)).boundBy ≤ v.sl) →
      ∃ t slot, exec (.dstbind f) s = .next t ∧
        CoreStep s t v { coreOf s v.c with dst := mput (coreOf s v.c).dst (wordB v .b32) slot } v.x (splitAfter s v v.next) ∧
        slot.bind = d ∧ slot.credit = 4095 ∧ slot.ceiling = 4095 ∧ slot.since = s.now) ∧
    ((∀ d, ¬ Binds (wordA v) d) → CanRaise v → Raises (.dstbind f) s v 0x01 (illegalDetail 0x46 true 4)) ∧
    ((∃ d, Binds (wordA v) d) → 16 ≤ wordB v .b32 → CanRaise v →
      Raises (.dstbind f) s v 0x01 (illegalDetail 0x46 true 5))

/-- R174, R181, R291, R295: TRAP raises SOFT with IMM16 as its detail, to go on after it; BRK raises BRK without a debug
grant for its context, and with one halts the strand with reason 2 after it (R199); a cause raised inside a handler ends the strand as
a double fault.
(That every debugger with a grant for the context then holds the strand: the model's choice, log entry 48.) -/
def Obligations.TrapAndBreakInstructions : Prop :=
  (∀ (f : Fields) (s : State) (v : Iss), Issues s 0x4B f v → CanRaise v →
    Raises (.trap f) s v 0x0F (f.imm16.zeroExtend 32)) ∧
  (∀ (f : Fields) (s : State) (v : Iss), Issues s 0x4F f v → CanRaise v → (∀ g ∈ s.svc.grants, g.2 ≠ v.x.ctx) →
    Raises (.brk f) s v 0x10 0) ∧
  (∀ (f : Fields) (s : State) (v : Iss), Issues s 0x4F f v → Quiet v → (∃ g ∈ s.svc.grants, g.2 = v.x.ctx) →
    v.x.halted = none → v.x.phase ≠ .ending →
    ∃ t r, exec (.brk f) s = .next t ∧ StrandStep s t v { v.x with halted := some r, steps := none } v.next ∧
      r.reason = 2 ∧ r.pc = v.pc ∧ r.cycle = cycleOf s v.c ∧ r.depth = v.x.handling.isSome ∧ r.smask = v.sp.smask ∧
      r.nsplit = (splitsOf s v.c v.sl).length ∧ r.holders = grantKeys s v.x.ctx) ∧
  ∀ (f : Fields) (s : State) (v : Iss), Issues s 0x4B f v → v.sample = none → v.x.handling.isSome = true →
    v.x.phase ≠ .ending →
    ∃ t, exec (.trap f) s = .next t ∧ splitsOf t v.c v.sl = [] ∧
      ∀ y, strandAt t v.c v.sl = some y → y.phase = .ending ∧ y.fatal = some 0x81

/-! ### Memory, engines, work -/

namespace Sys2Proof.Spec

/-- The strand after the issue of a long-latency producer: its destinations are PENDING in the lanes that take part (R100) and
each slice with such a lane has taken an ISN (R106); nothing else of it changes. -/
structure Producing (v : Iss) (x : Strand) (isnLanes : Word) (regs : List Nat) : Prop where
  same : { x with v := v.x.v, s := v.x.s, nisn := v.x.nisn } = v.x
  isns : ∀ i, nextIsn x i = if i ∈ slicesOf isnLanes then nextIsn v.x i + 1 else nextIsn v.x i
  regs :
    if v.f.strand then x.v = v.x.v ∧ ∀ q, sget x q = if q ∈ regs then { sget v.x q with st := .pending } else sget v.x q
    else x.s = v.x.s ∧ ∀ q l, l < 32 →
      vget x q l = if q ∈ regs ∧ v.on.getLsbD l = true then { vget v.x q l with st := .pending } else vget v.x q l

/-- An issue that starts operation `o` and does nothing more: `o` joins the operations with what the instruction is and which
lanes take part; the charges are taken from the send allowance (R41, R87); the split goes on; no memory is written; every other
field of the state, core, strand and split is as before. -/
structure Starts (s u : State) (v : Iss) (o : Op) (kind : OpKind) (lanes : Word) (regs : List Nat)
    (charges : List (Nat × Nat × Word)) : Prop where
  what : o.id = s.nextId ∧ o.kind = kind ∧ o.core = v.c ∧ o.slot = v.sl ∧ o.ctx = v.x.ctx ∧ o.pc = v.pc ∧ o.npc = v.next ∧
    o.opc = v.opc ∧ o.fields = v.f ∧ o.scope = v.f.scope ∧ o.fpmode = v.x.fpmode ∧ o.batch = none
  part : o.lanes = lanes ∧ o.active = v.act ∧ o.smask = v.sp.smask ∧ o.settled = 0 ∧ o.complete = false ∧
    o.discarded = false ∧ o.merges = [] ∧ o.isns = (slicesOf lanes).map fun i => (i, nextIsn v.x i)
  charge : o.charge = charges.map fun c =>
    { slot := c.1, epoch := (dstOf (coreOf s v.c) c.1).epoch, units := c.2.1, lanes := c.2.2, owed := true }
  ops : u.ops = s.ops ++ [o]
  next : u.nextId = s.nextId + 1
  device : { u with cores := s.cores, clusters := s.clusters, fresh := s.fresh, ops := s.ops, nextId := s.nextId } = s
  cores : ∀ c, c ≠ v.c → coreOf u c = coreOf s c
  core : { coreOf u v.c with
             slots := (coreOf s v.c).slots, splits := (coreOf s v.c).splits, issued := (coreOf s v.c).issued,
             issuedSlots := (coreOf s v.c).issuedSlots, samples := (coreOf s v.c).samples, dst := (coreOf s v.c).dst } =
    coreOf s v.c
  allowance : (coreOf u v.c).dst = (charges.foldl (fun k c => spend k c.1 c.2.1) (coreOf s v.c)).dst
  strands : ∀ sl, sl ≠ v.sl → strandAt u v.c sl = strandAt s v.c sl
  strand : ∃ x, strandAt u v.c v.sl = some x ∧ Producing v x lanes regs
  splits : ∀ e, e ≠ v.e → splitAt u v.c e = splitAt s v.c e
  split : splitAt u v.c v.e = some (splitAfter s v v.next)

/-- A register is not PENDING wherever the instruction writes it. -/
def NotPending (v : Iss) (q : Nat) : Prop :=
  if v.f.strand then (sget v.x q).st ≠ .pending
  else ∀ l, l < 32 → v.on.getLsbD l = true → (vget v.x q l).st ≠ .pending

/-- A memory instruction: the operation it starts, the bytes each access counts for the send allowance, which operands it
reads beside the address pair A, its destinations, its gate (R140) and acquire part, its data, and whether redundant lanes are
compared (R107). -/
structure MemRow where
  con : Fields → Instr
  opc : BitVec 7
  kind : OpKind
  bytes : Fields → Nat
  b : Fields → Option Bool
  c : Fields → Option Bool
  imm : Fields → Ty
  regs : Fields → List Nat
  gate : Fields → Gate
  acq : Fields → Bool
  data : Fields → DWord → DWord
  data2 : DWord → DWord
  cmp : Bool

/-- The registers of a destination of the width of T. -/
def destPair (f : Fields) : List Nat := if tyIs64 f.ty then [f.d.toNat, f.d.toNat + 1] else [f.d.toNat]

/-- The gate of an access with its order and HZ: a release, .hz, or none (R140, R237). -/
def gateFor (f : Fields) : Gate := if ordRel f.ord then .release else if f.hz then .hz else .none

def loadRow (con : Fields → Instr) (opc : BitVec 7) : MemRow :=
  { con := con, opc := opc, kind := .load, bytes := fun f => tyWidth f.ty / 8, b := nil_, c := nil_, imm := fun f => f.ty,
    regs := destPair, gate := fun _ => .none, acq := fun f => ordAcq f.ord, data := fun _ _ => 0, data2 := fun _ => 0,
    cmp := false }

def storeRow (con : Fields → Instr) (opc : BitVec 7) : MemRow :=
  { loadRow con opc with
      kind := .store, b := xT, regs := fun _ => [], gate := gateFor, acq := fun _ => false, data := fun _ b => b, cmp := true }

def cellRow (con : Fields → Instr) (opc : BitVec 7) : MemRow :=
  { loadRow con opc with kind := .cell, bytes := fun _ => 4, gate := gateFor, cmp := true }

def tokenRow (con : Fields → Instr) (opc : BitVec 7) (kind : OpKind) : MemRow :=
  { loadRow con opc with kind := kind, bytes := fun _ => 0, acq := fun _ => false }

/-- The memory instructions (R305, R310, R311, R313, R314, R318, R319). -/
def memRows : List MemRow :=
  [ loadRow .ld 0x51, storeRow .st 0x52, loadRow .lds 0x53, storeRow .sts 0x54,
    { storeRow .atom 0x57 with
        kind := .atom, regs := fun f => if f.md.getLsbD 0 then [] else destPair f, acq := fun f => ordAcq f.ord },
    { storeRow .cas 0x58 with
        kind := .cas, c := xT, regs := destPair, acq := fun f => ordAcq f.ord, data2 := fun c => c },
    { cellRow .cellAdd 0x59 with
        b := w32, regs := fun _ => [], data := fun f b => widen f.ty b, data2 := fun _ => 1 },
    { cellRow .cellInit 0x5A with
        b := w32, imm := fun _ => .b32, regs := fun _ => [], data := fun _ b => b &&& 0xFF },
    { cellRow .cellRead 0x5A with regs := fun f => [f.d.toNat] },
    { cellRow .cellReadz 0x5A with regs := fun f => [f.d.toNat] },
    { tokenRow .tkacq 0x5F .tkacq with regs := fun f => [f.d.toNat] },
    { tokenRow .tkrel 0x60 .tkrel with regs := fun _ => [] } ]

/-- The address of an element: the pair A plus IMM16 (R304). -/
def addrOf (v : Iss) (l : Nat) : DWord := regVal v v.f.a.toNat true l + v.f.imm16.signExtend 64

/-- The lanes that take part: the unguarded active ones, or every active one on the strand side (R304). -/
def takingPart (v : Iss) : Word := if v.f.strand then v.act else v.on

/-- The operands of a memory instruction are readable, and under redundancy its lanes agree (R107). -/
def MemRow.Operands (row : MemRow) (v : Iss) : Prop :=
  Readable v v.f.a.toNat true ∧ BReady v (row.b v.f) ∧ ReadableIf v v.f.c.toNat (row.c v.f) ∧
  (row.cmp = true → compareAccess v (addrOf v) (fun l => bVal v (row.imm v.f) l (row.b v.f))
    (fun l => valIf v v.f.c.toNat l (row.c v.f)) = .ok ())

/-- The accesses it starts: one for the strand, or one for each lane, a pair under redundancy counting as one (R107, R304). -/
def MemRow.accesses (row : MemRow) (v : Iss) : List Access :=
  accessesOf v (addrOf v) (fun l => row.data v.f (bVal v (row.imm v.f) l (row.b v.f)))
    (fun l => row.data2 (valIf v v.f.c.toNat l (row.c v.f)))

/-- What its remote accesses are charged (R41, R87). -/
def MemRow.charges (row : MemRow) (s : State) (v : Iss) : List (Nat × Nat × Word) :=
  windowCharges s v.c (row.accesses v) (row.bytes v.f)

/-- Nothing holds the operation back: fewer than 512 fallible operations are outstanding in its slices (R106), its
destinations are not PENDING (R100), its slots have allowance (R87), no acquire of the split is outstanding (R140). -/
def CanStart (s : State) (v : Iss) (lanes : Word) (regs : List Nat) (charges : List (Nat × Nat × Word)) : Prop :=
  (∀ i ∈ slicesOf lanes, hzOut (opsOf s v.c v.sl) i < 512) ∧ (∀ q ∈ regs, NotPending v q) ∧
  allowanceOk s v charges = .ok () ∧ acquireClear (splitOps s v.c v.sl) v.sp.smask = true

/-- Four consecutive strand registers are readable, and their words (R320). -/
def QuadReady (v : Iss) (r n : Nat) : Prop := ∀ i, i < n → (sget v.x (r + i)).st = .full ∧ (sget v.x (r + i)).poison = false
def quad (v : Iss) (r n : Nat) : List Word := (List.range n).map fun i => (sget v.x (r + i)).val

/-- The launch-relative scratchpad address of a lane (R309). -/
def spAddr (v : Iss) (l : Nat) : Nat :=
  ((regVal v v.f.a.toNat false l).truncate 32 + v.f.imm16.signExtend 32 : Word).toNat
/-- Under redundancy a lane loads at its primary's address, when that takes part (R107). -/
def pairLane (v : Iss) (l : Nat) : Nat := if v.on.getLsbD (primaryOf v.x.dmr l) then primaryOf v.x.dmr l else l

/-- Every lane's scratchpad address is aligned and in the launch's reservation (R309). -/
def SpadOk (v : Iss) (r : Resv) (addr : Nat → Nat) : Prop :=
  ∀ l, l < 32 → v.on.getLsbD l = true → addr l < r.spad * 4096 ∧ addr l % (tyWidth v.f.ty / 8) = 0

/-- What a scratchpad access waits for is over: acquires of its split, accesses from before a REGANG merge, and earlier .sc accesses of an
.sc one (R129, R138, R140). -/
def SpadOrdered (s : State) (v : Iss) : Prop :=
  acquireClear (splitOps s v.c v.sl) v.sp.smask = true ∧ mergeClear (splitOps s v.c v.sl) v.sp.smask = true ∧
  (v.f.ord = .sc → ∀ o ∈ splitOps s v.c v.sl, o.sc = true → openLanes o ≠ 0 → sameSplit o v.sp.smask = false)

/-- Byte i of the value that lane l stores. -/
def storeByte (v : Iss) (l i : Nat) : Byte := ((leBytes (tyWidth v.f.ty / 8) (bVal v v.f.ty l (xT v.f)).toNat)[i]?).getD 0

/-- Lane l of a scratchpad store writes byte a. -/
def Covers (v : Iss) (r : Resv) (l a : Nat) : Prop :=
  r.base * 4096 + spAddr v l ≤ a ∧ a < r.base * 4096 + spAddr v l + tyWidth v.f.ty / 8

/-- The network work that an instruction starts (R340, R341). -/
def netWork (v : Iss) (what : Nat) (peer : DWord) : NetWork :=
  let q := quad v v.f.a.toNat 4
  { what := what, conn := bitsOf (wordAt q 0) 15 0, tag := bitsOf (wordAt q 0) 31 16, len := wordAt q 1,
    buf := BitVec.ofNat 64 (wordAt q 2 + wordAt q 3 * 2 ^ 32), peer := peer, sent := none }

/-- The copy that CPY starts (R334). -/
def cpyWork (v : Iss) : CpyWork :=
  let q := quad v v.f.a.toNat 4
  let b := wordB v .b32
  { fn := v.f.fn.toNat, src := BitVec.ofNat 64 (wordAt q 0 + wordAt q 1 * 2 ^ 32),
    dst := BitVec.ofNat 64 (wordAt q 2 + wordAt q 3 * 2 ^ 32), count := bitsOf b 23 0, comp := bitsOf b 30 24,
    shape := none, past := none, dry := v.f.hz, reach := [], todo := [], kept := [], cur := none, moves := [], tags := [], writing := false, due := 0,
    blocked := none }

/-- The tag of the granule that a copy reads from (R116). -/
def sourceTag (s : State) (v : Iss) : Tag :=
  tagOf (coreOf s v.c) (((myResv s v).map (·.base)).getD 0 + (cpyWork v).src.toNat / 4096)

/-- An array operation issued by one strand enters the array's queue with its operation (R320, R327). -/
structure Queued (s t : State) (v : Iss) (kind : OpKind) (vals : List Word) (o : Op) (q : FilOp) : Prop where
  op : o.kind = kind ∧ o.core = v.c ∧ o.slot = v.sl ∧ o.ctx = v.x.ctx ∧ o.opc = v.opc ∧ o.fields = v.f ∧ o.lanes = v.act ∧
    o.work = .fil q.id ∧ o.isns = (if kind = .fmma then (slicesOf v.act).map fun i => (i, nextIsn v.x i) else [])
  entry : q.ops = [o.id] ∧ q.ctx = v.x.ctx ∧ q.lcnt = v.x.lcnt ∧ q.slot = v.sl ∧ q.opc = v.opc ∧ q.fields = v.f ∧
    q.vals = vals ∧ q.nextK = 0 ∧ q.started = false ∧ q.batch = v.x.batch ∧ q.pc = v.pc
  ops : t.ops = s.ops ++ [o]
  queue : (coreOf t v.c).fil = (coreOf s v.c).fil ++ [q]
  core : { coreOf t v.c with
             slots := (coreOf s v.c).slots, splits := (coreOf s v.c).splits, issued := (coreOf s v.c).issued,
             issuedSlots := (coreOf s v.c).issuedSlots, samples := (coreOf s v.c).samples, fil := (coreOf s v.c).fil,
             recheck := (coreOf s v.c).recheck } = coreOf s v.c
  device : { t with cores := s.cores, clusters := s.clusters, fresh := s.fresh, ops := s.ops, nextId := s.nextId } = s
  cores : ∀ c, c ≠ v.c → coreOf t c = coreOf s c
  strand : ∃ x, strandAt t v.c v.sl = some x ∧ { x with nisn := v.x.nisn } = v.x ∧
    ∀ i, nextIsn x i = if kind = .fmma ∧ i ∈ slicesOf v.act then nextIsn v.x i + 1 else nextIsn v.x i
  strands : ∀ sl, sl ≠ v.sl → strandAt t v.c sl = strandAt s v.c sl
  splits : ∀ e, e ≠ v.e → splitAt t v.c e = splitAt s v.c e
  split : splitAt t v.c v.e = some (splitAfter s v v.next)

/-- The registers of an FMMA, read in order: A, B and the triple C. -/
def fmmaVals (v : Iss) : List Word := quad v v.f.a.toNat 4 ++ quad v v.f.b.toNat 4 ++ quad v v.f.c.toNat 3

/-- The checks of an FMMA at issue (R328 to R330): its quads are legal, its shape is in range, its operands and index list
lie in the launch's granules, no word of the list is poisoned (R188), and an accumulating one fits its bank. -/
def FmmaLegal (s : State) (v : Iss) (r : Resv) : Prop :=
  let qa := quad v v.f.a.toNat 4
  let qb := quad v v.f.b.toNat 4
  let qc := quad v v.f.c.toNat 3
  let a := opndOf (coreOf s v.c) r.base qa (gatherOf s v (fmmaVals v)) false
  let b := opndOf (coreOf s v.c) r.base qb [] true
  quadOk qa false = true ∧ quadOk qb true = true ∧
  (1 ≤ wordAt qc 0 ∧ wordAt qc 0 ≤ 64 ∧ 1 ≤ wordAt qc 1 ∧ wordAt qc 1 ≤ 64 ∧ 1 ≤ wordAt qc 2 ∧ wordAt qc 2 ≤ 2 ^ 24) ∧
  (∀ at_, gatherAddr qa = some at_ → at_ + 2 * wordAt qc 0 ≤ r.spad * 4096) ∧
  gatherPoisoned s v (fmmaVals v) = false ∧
  reachOk a r.base r.spad (wordAt qc 0) (wordAt qc 2) = true ∧ reachOk b r.base r.spad (wordAt qc 1) (wordAt qc 2) = true ∧
  (v.f.md.getLsbD 1 = true → (bankOf (coreOf s v.c) (v.f.md.getLsbD 0)).live = true →
    (bankOf (coreOf s v.c) (v.f.md.getLsbD 0)).tile = v.f.imm16.toNat ∧
    (bankOf (coreOf s v.c) (v.f.md.getLsbD 0)).integer = filMode a b)

/-- The checks of an FACC at issue (R332). -/
def FaccLegal (s : State) (v : Iss) : Prop :=
  let a := wordA v
  let b := wordB v .b32
  let p := (regVal v v.f.c.toNat false 0).toNat % 2 ^ 32
  let rows := bitsOf b 18 12
  let cols := bitsOf b 25 19
  1 ≤ rows ∧ rows ≤ 64 ∧ 1 ≤ cols ∧ cols ≤ 64 ∧ bitsOf b 31 26 = 0 ∧ bitsOf b 5 0 + rows ≤ 64 ∧
  bitsOf b 11 6 + cols ≤ 64 ∧ p % 4 = 0 ∧ 4 * cols ≤ p ∧ a % 4 = 0 ∧
  ∃ r, myResv s v = some r ∧ a + (rows - 1) * p + 4 * cols ≤ r.spad * 4096

/-- The joint instructions without register operands of their own: how they are built, their opcode, their D (R325, R331). -/
def jointRows : List ((Fields → Instr) × BitVec 7 × (Fields → Nat)) :=
  [(.claspset, 0x71, fun f => f.d.toNat), (.fdrain, 0x6C, fun _ => 0), (.fmerge, 0x6D, fun _ => 0),
   (.fzeroBank, 0x6E, fun _ => 0), (.fzeroTile, 0x6E, fun _ => 0)]

/-- The clasp that AUX names (R98). -/
def claspOf (v : Iss) : Word := (sget v.x v.f.aux.toNat).val

/-- A clasp is well formed for its issuer (R98): 2 to 6 members, the issuer among them, each a live strand of the launch. -/
def ClaspLegal (s : State) (v : Iss) : Prop :=
  (sget v.x v.f.aux.toNat).st = .full ∧ (sget v.x v.f.aux.toNat).poison = false ∧
  2 ≤ (lanesOf (claspOf v)).length ∧ (lanesOf (claspOf v)).length ≤ 6 ∧ (claspOf v).getLsbD v.sl = true ∧ v.sl < 32 ∧
  ∀ sl ∈ lanesOf (claspOf v), ∃ x, strandAt s v.c sl = some x ∧ x.phase = .live ∧ x.lcnt = v.x.lcnt

/-- The arrival of the issuer. -/
def arrivalOf (v : Iss) (vals : List Word) : ClaspArrival :=
  { slot := v.sl, entry := v.e, opc := v.opc, fields := v.f, vals := vals }

/-- A split that waits at a joint operation whose clasp was broken in this cycle. -/
def brokenNow (s : State) (q : Split) : Bool :=
  match q.parked with
  | some (.claspFault _ _ t) => t == s.now
  | _ => false

/-- No clasp of the issuing core was broken in this cycle: no split there, none in the record of a trap and none in a saved image
waits to fault because of one. -/
def NoneBroken (s : State) (v : Iss) : Prop :=
  ∀ k, (k = coreOf s v.c ∨ ∃ im ∈ s.images, k = im.data) →
    (∀ p ∈ k.splits, brokenNow s p.2 = false) ∧
    ∀ p ∈ k.slots, ∀ r, p.2.handling = some r → ∀ q ∈ r.splits, brokenNow s q.2 = false

/-- The core with a new gathering. -/
def withClasp (k : Core) (g : Clasp) : Core := { k with clasps := k.clasps ++ [g] }

/-- The bin that a lane's record goes to, the bins of an EMIT, and the records of one of them in lane order (R81, R297). -/
def binOf (v : Iss) (l : Nat) : Nat := (bVal v .b32 l (some false)).toNat % 16
def binsOf (v : Iss) : List Nat := ((unitLanes v.x.dmr v.on).map (binOf v)).eraseDups
def recordsOf (v : Iss) (n : Nat) : List (List RegCell) :=
  ((unitLanes v.x.dmr v.on).filter fun l => binOf v l == n).map fun l =>
    (List.range 4).map fun i => fullCell ((regVal v (v.f.a.toNat + i) false l).truncate 32)
def binAt (s : State) (v : Iss) (n : Nat) : Bin := mgetD (coreOf s v.c).bins n emptyBin

/-- A counter of the issuer's context (R299, R300). -/
def ownCounter (s : State) (v : Iss) (c : Option Counter) : Prop :=
  match c with
  | some k => mget s.counters (wordA v) = some k ∧ k.ctx = v.x.ctx
  | none => ∀ k, mget s.counters (wordA v) = some k → k.ctx ≠ v.x.ctx

end Sys2Proof.Spec

/-- R87, R100, R106, R140, R304, R305, R310 to R314, R318, R319: a memory instruction whose operands can be read and that
nothing holds back starts one operation, with an access for each lane that takes part at the pair A plus IMM16; its
destinations become PENDING, and no byte of memory changes at its issue. With no lane that takes part it only goes on. -/
def Obligations.MemoryOperationsStart : Prop :=
  ∀ row ∈ memRows, ∀ (f : Fields) (s : State) (v : Iss), Issues s row.opc f v → Quiet v → row.Operands v →
    (takingPart v = 0 → Goes (row.con f) s v false 0) ∧
    (takingPart v ≠ 0 → CanStart s v (takingPart v) (row.regs f) (row.charges s v) →
      ∃ t u o, exec (row.con f) s = .next t ∧ t = translateOp u o.id (fun _ => true) ∧
        Starts s u v o row.kind (takingPart v) (row.regs f) (row.charges s v) ∧ o.accs = row.accesses v ∧
        o.gate = row.gate f ∧ o.acq = row.acq f ∧ o.sc = (f.ord == .sc) ∧ o.work = .mem ∧
        (v.x.phase = .live → (∀ p ∈ s.ops, p.id ≠ s.nextId) → t.mem = s.mem))

/-- R125, R177, R304: what becomes of the access of a load of the strand side: bits [63:57] of its address raise XLATE with
DETAIL 2; without a leaf it waits at the service; without read permission it faults PERM with DETAIL 3; on a plain page of this
device a misaligned address faults ALIGN with the width; otherwise it is ready at the leaf's physical address. -/
def Obligations.AccessChecks : Prop :=
  ∀ (f : Fields) (s : State) (v : Iss), Issues s 0x53 f v → Quiet v → f.strand = true → v.act ≠ 0 → v.x.phase = .live →
    (loadRow .lds 0x53).Operands v → CanStart s v v.act (destPair f) ((loadRow .lds 0x53).charges s v) →
    f.md.getLsbD 0 = false → f.md.getLsbD 1 = false → (∀ o ∈ s.ops, o.id ≠ s.nextId) →
    ∃ t o a, exec (.lds f) s = .next t ∧ opById t s.nextId = some o ∧ o.accs = [a] ∧ a.va = addrOf v 0 ∧
      (a.va.extractLsb' 57 7 ≠ 0 → a.st = .faulted 0x04 2 a.va s.now) ∧
      (a.va.extractLsb' 57 7 = 0 → inPrivate a.va.toNat = false →
        (∀ d, (lookup s v.c v.x.ctx a.va.toNat).1 = .error d → a.st = .atService s.now d ∧ a.eva = a.va.toNat) ∧
        ∀ lf, (lookup s v.c v.x.ctx a.va.toNat).1 = .ok lf → leafLoc lf.w0.toNat = 0 →
          (lf.w0.getLsbD 2 = false → a.st = .faulted 0x05 3 a.va s.now) ∧
          (lf.w0.getLsbD 2 = true → leafFmt lf.w1.toNat = 0 →
            (a.va.toNat % (tyWidth f.ty / 8) ≠ 0 →
              a.st = .faulted 0x03 (BitVec.ofNat 32 (tyWidth f.ty / 8)) a.va s.now) ∧
            (a.va.toNat % (tyWidth f.ty / 8) = 0 →
              a.place = some (.dev (entryAddr lf.w0.toNat + (a.va.toNat - lf.base)) (bitsOf lf.w0.toNat 9 8)) ∧
              ∃ due, a.st = .ready due ∧ s.now < due)))

/-- R118, R132 to R134, R137, R188, R305, R310 to R314: performing an access to plain memory of this device. A load writes no memory
and fills its destination with the bytes that its cluster saw at one point of the past writes, with the strand's own older stores: no
older than what the strand's acquires, fences and earlier accesses there allow, and the newest for .sc; poisoned when a line of them
is; a store whose page has CATTR 0 enters its
cluster's cache and any other writes exactly its bytes; a read-modify-write writes what its function gives, or nothing, returns
the old value, and raises its flags.
(The point is a free value of the model: its choice of which old writes a plain read may still return, log entry 57. That a line
counts as poisoned whole, and the state the poison is read in: log entries 57 and 71.) -/
def Obligations.PlainAccessesPerformed : Prop :=
  ∀ (s : State) (o : Op) (a : Access) (x : Strand) (pa k due n : Nat), opById s o.id = some o → o.work = .mem →
    o.discarded = false → o.sample = none → o.settled = 0 → o.accs = [a] → a.lanes = o.lanes → a.st = .ready due →
    due ≤ s.now → performable s o a = true → a.place = some (.dev pa k) → a.leaf = none → s.fab.reqs = [] → n = accBytes o →
    strandAt s o.core o.slot = some x → x.ctx = o.ctx → x.phase = .live →
    (o.kind = .load →
      ∃ t y point, exec (.localAccessComplete o.id) s = .next t ∧ t.mem = s.mem ∧ strandAt t o.core o.slot = some y ∧
        { y with v := x.v, s := x.s } = x ∧
        min (oldestView s o pa) s.past.length ≤ point ∧ point ≤ s.past.length ∧ (o.sc = true → point = s.past.length) ∧
        ∀ r i, (r, i) ∈ (destRegs o).zipIdx →
          let cell : RegCell :=
            { val := (loadValue o.fields.ty (seenBytes s o point pa)).extractLsb' (32 * i) 32, st := .full,
              poison := poisonedIn s pa n }
          if o.fields.strand then sget y r = cell else ∀ l, l < 32 → o.lanes.getLsbD l = true → vget y r l = cell) ∧
    (o.kind = .store → k = 0 →
      ∃ t due', exec (.localAccessComplete o.id) s = .next t ∧ t.mem = s.mem ∧ strandAt t o.core o.slot = some x ∧
        (clusterAt t (clusterOf o.core)).stores = (clusterAt s (clusterOf o.core)).stores ++
          [{ pa := pa, bytes := leBytes n a.data.toNat, gid := gidOf o.core o.slot, due := due', plain := plainStore s o, passed := false }]) ∧
    ((∀ p ∈ s.clusters, ∀ e ∈ p.2.stores, sharesLine e.pa e.bytes.length pa n = false) →
      (o.kind = .store → k ≠ 0 →
        ∃ t, exec (.localAccessComplete o.id) s = .next t ∧ strandAt t o.core o.slot = some x ∧
          ∀ b, peek t.mem b =
            if pa ≤ b ∧ b < pa + n then ((leBytes n a.data.toNat)[b - pa]?).getD 0 else peek s.mem b) ∧
      (o.kind = .atom ∨ o.kind = .cas ∨ o.kind = .cell → poisonedIn s pa n = false →
        ∃ t y, exec (.localAccessComplete o.id) s = .next t ∧ strandAt t o.core o.slot = some y ∧
          y.fpflags = x.fpflags ||| (rmwOf (rmwKind o a) (peeks s.mem pa n)).flags ∧
          { y with v := x.v, s := x.s, fpflags := x.fpflags, engFlags := x.engFlags } = x ∧
          (∀ r i, (r, i) ∈ (destRegs o).zipIdx →
            if o.fields.strand then sget y r = fullCell ((rmwOf (rmwKind o a) (peeks s.mem pa n)).value.extractLsb' (32 * i) 32)
            else ∀ l, l < 32 → o.lanes.getLsbD l = true →
              vget y r l = fullCell ((rmwOf (rmwKind o a) (peeks s.mem pa n)).value.extractLsb' (32 * i) 32)) ∧
          ∀ b, peek t.mem b =
            match (rmwOf (rmwKind o a) (peeks s.mem pa n)).write with
            | none => peek s.mem b
            | some bs => if pa ≤ b ∧ b < pa + bs.length then (bs[b - pa]?).getD 0 else peek s.mem b))

/-- R309, R128: LDSP reads the scratchpad of the issuing launch; STSP writes it, where several lanes write a byte one of them
last (in an order the spec leaves open; log entry 11), and changes no other byte. For either, an address outside the reservation raises
PERM with DETAIL 0, a misaligned one ALIGN; of several lanes that fail the lowest is reported.
(That the lowest lane fixes the cause: the model's choice, log entry 28.) -/
def Obligations.ScratchpadAccess : Prop :=
  (∀ (f : Fields) (s : State) (v : Iss) (r : Resv), Issues s 0x55 f v → Quiet v → f.strand = false →
    Readable v f.a.toNat false → Writable v f.d.toNat (tyIs64 f.ty) → myResv s v = some r →
    SpadOk v r (fun l => spAddr v (pairLane v l)) → SpadOrdered s v →
    (∀ l i, l < 32 → v.on.getLsbD l = true → i < tyWidth f.ty / 8 →
      (coreOf s v.c).spadPoison.contains ((r.base * 4096 + spAddr v (pairLane v l) + i) / 4) = false) →
    ∃ t x, exec (.ldsp f) s = .next t ∧ StrandStep s t v x v.next ∧ SameButRegs v x ∧ x.fpflags = v.x.fpflags ∧
      Wrote v x f.d.toNat (tyIs64 f.ty) fun l =>
        loadValue f.ty (peeks (coreOf s v.c).spad (r.base * 4096 + spAddr v (pairLane v l)) (tyWidth f.ty / 8))) ∧
  (∀ (f : Fields) (s : State) (v : Iss) (r : Resv), Issues s 0x56 f v → Quiet v → f.strand = false →
    Readable v f.a.toNat false → BReady v (xT f) → myResv s v = some r → SpadOk v r (spAddr v) → SpadOrdered s v →
    (ordRel f.ord = true → fenceReady s v.c v.sl v.sp.smask false true f.scope = true) → v.x.dmr = false →
    ∃ t k, exec (.stsp f) s = .next t ∧ CoreStep s t v k v.x (splitAfter s v v.next) ∧
      { k with spad := (coreOf s v.c).spad, spadPoison := (coreOf s v.c).spadPoison } = coreOf s v.c ∧
      (∀ b, (∀ l, l < 32 → v.on.getLsbD l = true → ¬ Covers v r l b) → peek k.spad b = peek (coreOf s v.c).spad b) ∧
      ∀ b l, l < 32 → v.on.getLsbD l = true → Covers v r l b →
        ∃ l', l' < 32 ∧ v.on.getLsbD l' = true ∧ Covers v r l' b ∧
          peek k.spad b = storeByte v l' (b - (r.base * 4096 + spAddr v l'))) ∧
  ∀ row ∈ ([(.ldsp, 0x55), (.stsp, 0x56)] : List ((Fields → Instr) × BitVec 7)),
    ∀ (f : Fields) (s : State) (v : Iss) (r : Resv) (l : Nat), Issues s row.2 f v → CanRaise v → f.strand = false →
    v.x.dmr = false → Readable v f.a.toNat false → (row.2 = 0x56 → BReady v (xT f)) → myResv s v = some r → l < 32 →
    v.on.getLsbD l = true →
    (∀ j, j < l → v.on.getLsbD j = true → spAddr v j < r.spad * 4096 ∧ spAddr v j % (tyWidth f.ty / 8) = 0) →
    (r.spad * 4096 ≤ spAddr v l → Raises (row.1 f) s v 0x05 0) ∧
    (spAddr v l < r.spad * 4096 → spAddr v l % (tyWidth f.ty / 8) ≠ 0 →
      Raises (row.1 f) s v 0x03 (BitVec.ofNat 32 (tyWidth f.ty / 8)))

/-- R102, R316, R317: QCFG enables a queue of the launch at a base and a size, empty; a queue that is enabled or a size of 0
or above 131,072 raises QUEUE. QCTL reads a queue's occupancy, space, HEAD or TAIL (0 when it is off); .flush and .off empty
it, .off disables it. -/
def Obligations.QueueControl : Prop :=
  (∀ (f : Fields) (s : State) (v : Iss) (r : Resv) (q : QueueDesc), Issues s 0x5D f v → f.strand = true →
    Readable v f.a.toNat false → BReady v (some false) → myResv s v = some r → r.queues.getLsbD f.imm16.toNat = true →
    q = mgetD (coreOf s v.c).queues f.imm16.toNat emptyQueue → (coreOf s v.c).stopReq = none →
    (q.en = false → 0 < wordB v .n32 → wordB v .n32 ≤ 131072 → wordA v + wordB v .n32 ≤ r.spad * 1024 → Quiet v →
      ∃ t q', exec (.qcfg f) s = .next t ∧
        CoreStep s t v (withQueue (coreOf s v.c) f.imm16.toNat q') v.x (splitAfter s v v.next) ∧
        q'.en = true ∧ q'.base = wordA v ∧ q'.size = wordB v .n32 ∧ q'.head = 0 ∧ q'.tail = 0) ∧
    (q.en = true → CanRaise v → Raises (.qcfg f) s v 0x0D (BitVec.ofNat 32 f.imm16.toNat)) ∧
    (q.en = false → wordB v .n32 = 0 ∨ 131072 < wordB v .n32 → CanRaise v →
      Raises (.qcfg f) s v 0x0D (BitVec.ofNat 32 f.imm16.toNat))) ∧
  ∀ (f : Fields) (s : State) (v : Iss) (r : Resv) (q : QueueDesc), Issues s 0x5E f v → Quiet v → f.strand = true →
    myResv s v = some r → r.queues.getLsbD f.imm16.toNat = true →
    q = mgetD (coreOf s v.c).queues f.imm16.toNat emptyQueue → Writable v f.d.toNat false →
    (coreOf s v.c).stopReq = none →
    (q.en = false ∨ f.fn.toNat < 4 →
      ∃ t x, exec (.qctl f) s = .next t ∧ StrandStep s t v x v.next ∧ SameButRegs v x ∧ x.fpflags = v.x.fpflags ∧
        Wrote v x f.d.toNat false fun _ =>
          if q.en = false then 0
          else if f.fn.toNat = 0 then (q.tail - q.head).zeroExtend 64
          else if f.fn.toNat = 1 then (BitVec.ofNat 32 q.size - (q.tail - q.head)).zeroExtend 64
          else if f.fn.toNat = 2 then q.head.zeroExtend 64 else q.tail.zeroExtend 64) ∧
    (q.en = true → 4 ≤ f.fn.toNat → (∀ p ∈ (coreOf s v.c).splits, blockedOnQueue f.imm16.toNat p.2 = false) →
      ∃ t x q', exec (.qctl f) s = .next t ∧
        CoreStep s t v (withQueue (coreOf s v.c) f.imm16.toNat q') x (splitAfter s v v.next) ∧
        SameButRegs v x ∧ Wrote v x f.d.toNat false (fun _ => (q.tail - q.head).zeroExtend 64) ∧
        q'.head = q.tail ∧ q'.tail = q.tail ∧ q'.en = (f.fn != 5) ∧ q'.base = q.base ∧ q'.size = q.size)

/-- R321, R334 to R342: CPY, the collective instructions and the network instructions start one operation in every active lane
with D PENDING; a copy of nothing is complete at once. -/
def Obligations.EngineOperationsStart : Prop :=
  (∀ (f : Fields) (s : State) (v : Iss), Issues s 0x65 f v → Quiet v → f.strand = true → QuadReady v f.a.toNat 4 →
    BReady v (some false) → v.act ≠ 0 →
    ((f.fn = 2 ∨ f.fn = 3) → wordAt (quad v f.a.toNat 4) 1 = 0) → ((f.fn = 1 ∨ f.fn = 3) → wordAt (quad v f.a.toNat 4) 3 = 0) →
    wordB v .b32 < 2 ^ 31 →
    cpySpadOk (cpyWork v) (((myResv s v).map fun r => r.spad * 4096).getD 0) = true →
    (f.fn = 2 → 6 ≤ (sourceTag s v).fmt → ∃ r, myResv s v = some r ∧ r.base ≤ (sourceTag s v).comp ∧
      (sourceTag s v).comp < r.base + r.spad) →
    CanStart s v v.act [f.d.toNat] (cpyCharges s v (cpyWork v)) →
    ∃ t u o due, exec (.cpy f) s = .next t ∧
      Starts s u v o .cpy v.act [f.d.toNat] (cpyCharges s v (cpyWork v)) ∧
      o.work = .cpy { cpyWork v with due := due } ∧
      o.gate = (if f.hz then .hz else .none) ∧ o.accs = [] ∧
      t = (if (cpyWork v).count = 0 then finishToken u o.id 0 else u)) ∧
  (∀ con ∈ ([.collBar, .collRed, .collBcast, .collGather, .collAbort] : List (Fields → Instr)),
    ∀ (f : Fields) (s : State) (v : Iss) (q : List Word), Issues s 0x66 f v → Quiet v → f.strand = true →
    QuadReady v f.a.toNat 4 → q = quad v f.a.toNat 4 → collLegal f.fn.toNat q = true → v.act ≠ 0 →
    (f.fn = 0 → ordRel f.ord = true → fenceReady s v.c v.sl v.sp.smask false true f.scope = true) →
    CanStart s v v.act [f.d.toNat] [(slotFor (coreOf s v.c) (.group (collParams q).desc),
      unitsOf (if f.fn = 1 ∨ f.fn = 2 ∨ f.fn = 3 then collBytes (collParams q) else 0), v.act)] →
    ∃ t u o, exec (con f) s = .next t ∧ t = collStep u o.id ∧ o.work = .coll q ∧ o.accs = [] ∧
      Starts s u v o .coll v.act [f.d.toNat] [(slotFor (coreOf s v.c) (.group (collParams q).desc),
        unitsOf (if f.fn = 1 ∨ f.fn = 2 ∨ f.fn = 3 then collBytes (collParams q) else 0), v.act)]) ∧
  ∀ row ∈ ([(.netwr, 0x61, 0), (.netrd, 0x62, 1), (.netsend, 0x63, 2), (.netpost, 0x64, 4)] :
      List ((Fields → Instr) × BitVec 7 × Nat)),
    ∀ (f : Fields) (s : State) (v : Iss) (peer : DWord), Issues s row.2.1 f v → Quiet v → f.strand = true →
    QuadReady v f.a.toNat 4 → v.act ≠ 0 →
    (row.2.2 = 0 ∨ row.2.2 = 1 ∨ row.2.2 = 4 ∧ f.fn = 1 → BReady v (some true) ∧ peer = bVal v .b32 0 (some true)) →
    (row.2.2 = 2 ∨ row.2.2 = 4 ∧ f.fn ≠ 1 → peer = 0) →
    0 < (netWork v row.2.2 peer).len → (netWork v row.2.2 peer).len ≤ 2 ^ 20 →
    connOk s v.x.ctx (netWork v row.2.2 peer).conn (row.2.2 == 2) = true →
    CanStart s v v.act [f.d.toNat] [(15, unitsOf (netWork v row.2.2 peer).len, v.act)] →
    ∃ t u o, exec (row.1 f) s = .next t ∧ t = netStep u o.id ∧ o.work = .net (netWork v row.2.2 peer) ∧ o.accs = [] ∧
      Starts s u v o .net v.act [f.d.toNat] [(15, unitsOf (netWork v row.2.2 peer).len, v.act)]

/-- R320, R326 to R333: an array instruction of one strand whose operands are legal enters the array's queue and the split
goes on; FMMA is fallible and takes an ISN; FCFG sets the context's recheck interval. -/
def Obligations.ArrayOperationsQueue : Prop :=
  (∀ (f : Fields) (s : State) (v : Iss) (r : Resv), Issues s 0x6B f v → Quiet v → f.strand = true → f.md.getLsbD 2 = false →
    QuadReady v f.a.toNat 4 → QuadReady v f.b.toNat 4 → QuadReady v f.c.toNat 3 → myResv s v = some r → FmmaLegal s v r →
    (∀ i ∈ slicesOf v.act, hzOut (opsOf s v.c v.sl) i < 512) → acquireClear (splitOps s v.c v.sl) v.sp.smask = true →
    ∃ t o q, exec (.fmma f) s = .next t ∧ Queued s t v .fmma (fmmaVals v) o q ∧ q.gather = gatherOf s v (fmmaVals v) ∧
      q.base = r.base ∧ q.spad = r.spad) ∧
  (∀ row ∈ ([(.fdrain, 0x6C), (.fmerge, 0x6D), (.fzeroBank, 0x6E), (.fzeroTile, 0x6E)] : List ((Fields → Instr) × BitVec 7)),
    ∀ (f : Fields) (s : State) (v : Iss), Issues s row.2 f v → Quiet v → f.strand = true → f.md.getLsbD 2 = false →
    ∃ t o q, exec (row.1 f) s = .next t ∧ Queued s t v .fil [] o q) ∧
  (∀ (f : Fields) (s : State) (v : Iss), Issues s 0x6F f v → Quiet v → f.strand = true → f.md.getLsbD 2 = false →
    Readable v f.a.toNat false → BReady v (some false) → Readable v f.c.toNat false → FaccLegal s v →
    acquireClear (splitOps s v.c v.sl) v.sp.smask = true →
    ∃ t o q, exec (.facc f) s = .next t ∧ Queued s t v .fil [BitVec.ofNat 32 (wordA v), BitVec.ofNat 32 (wordB v .b32),
      BitVec.ofNat 32 ((regVal v f.c.toNat false 0).toNat % 2 ^ 32)] o q) ∧
  ∀ (f : Fields) (s : State) (v : Iss), Issues s 0x70 f v → f.strand = true → Readable v f.a.toNat false →
    (wordA v = 0 ∨ 4 ≤ wordA v ∧ wordA v ≤ 16 → Quiet v →
      ∃ t, exec (.fcfg f) s = .next t ∧
        CoreStep s t v { coreOf s v.c with
            recheck := mput (coreOf s v.c).recheck v.x.ctx (wordA v, (mgetD (coreOf s v.c).recheck v.x.ctx (0, 0)).2) } v.x
          (splitAfter s v v.next)) ∧
    (0 < wordA v ∧ wordA v < 4 ∨ 16 < wordA v → CanRaise v → Raises (.fcfg f) s v 0x01 (illegalDetail 0x70 true 4))

/-- R98, R325, R326: the first member of a clasp to reach a joint operation waits there; at a CLASPSET the last one to arrive
lets every member go on, each with its rank among the members in D. -/
def Obligations.ClaspsGather : Prop :=
  (∀ row ∈ jointRows, ∀ (f : Fields) (s : State) (v : Iss), Issues s row.2.1 f v → Quiet v → f.strand = true →
    (row.2.1 ≠ 0x71 → f.md.getLsbD 2 = true) → ClaspLegal s v →
    (∀ g ∈ (coreOf s v.c).clasps, g.value.getLsbD v.sl = false ∧ claspFull s v.c g = false) → NoneBroken s v →
    (row.2.1 = 0x71 → fenceReady s v.c v.sl v.sp.smask false true .core = true ∧
      if f.d.toNat < 64 then (sget v.x f.d.toNat).st ≠ .pending else MailboxOwned s v (f.d.toNat - 64)) →
    ∃ t, exec (row.1 f) s = .next t ∧
      CoreStep s t v (withClasp (coreOf s v.c) { value := claspOf v, arrived := [arrivalOf v []] }) v.x
        { splitAfter s v v.sp.pc with parked := some (.joint (row.2.2 f) v.next), cls := some .clasp, held := none }) ∧
  ∀ (f : Fields) (s : State) (v : Iss) (g : Clasp), Issues s 0x71 f v → Quiet v → f.strand = true → ClaspLegal s v →
    (coreOf s v.c).clasps = [g] → g.value = claspOf v → f.d.toNat < 64 → (sget v.x f.d.toNat).st ≠ .pending →
    fenceReady s v.c v.sl v.sp.smask false true .core = true → v.x.handling = none → v.x.arisen = none → NoneBroken s v →
    (∀ a ∈ g.arrived, a.slot ≠ v.sl ∧ a.opc = 0x71 ∧ sameJoint a (arrivalOf v []) = true ∧
      ∃ x p d next, strandAt s v.c a.slot = some x ∧ x.handling = none ∧ x.arisen = none ∧ splitAt s v.c a.entry = some p ∧
        p.slot = a.slot ∧ p.parked = some (.joint d next) ∧ d < 64) →
    (g.arrived.map (·.slot)).Nodup → (∀ sl ∈ lanesOf (claspOf v), sl = v.sl ∨ ∃ a ∈ g.arrived, a.slot = sl) →
    ∃ t p, exec (.claspset f) s = .next t ∧ (coreOf t v.c).clasps = [] ∧
      strandAt t v.c v.sl =
        some (sset v.x f.d.toNat (fullCell (BitVec.ofNat 32 ((lanesOf (claspOf v)).idxOf v.sl)))) ∧
      splitAt t v.c v.e = some p ∧ p.pc = v.next ∧ p.parked = none ∧
      ∀ a ∈ g.arrived, ∀ x q d next, a.slot ∈ lanesOf (claspOf v) → strandAt s v.c a.slot = some x →
        splitAt s v.c a.entry = some q → q.parked = some (.joint d next) →
        strandAt t v.c a.slot =
          some (sset x d (fullCell (BitVec.ofNat 32 ((lanesOf (claspOf v)).idxOf a.slot)))) ∧
        ∃ q', splitAt t v.c a.entry = some q' ∧ q'.pc = next ∧ q'.parked = none

/-- R322: FBATCH gives D the open batch's number, closes it over the engine operations of the strand that are in no batch, and
opens the next one; an operation that a message has started joins none (R342). -/
def Obligations.BatchesClose : Prop :=
  ∀ (f : Fields) (s : State) (v : Iss), Issues s 0x49 f v → f.strand = true →
    (openBatches s v.c v.sl < 1024 → Writable v f.d.toNat false → Quiet v →
      ∃ t x, exec (.fbatch f) s = .next t ∧ StrandStep s { t with ops := s.ops } v x v.next ∧
        { x with s := v.x.s, batch := v.x.batch } = v.x ∧ x.batch = v.x.batch + 1 ∧
        Wrote v x f.d.toNat false (fun _ => v.x.batch.zeroExtend 64) ∧
        t.ops = s.ops.map fun o =>
          if o.core = v.c ∧ o.slot = v.sl ∧ (engineKind o.kind || o.kind == .fil) = true ∧ o.batch = none ∧
              triggered s o = false then
            { o with batch := some v.x.batch } else o) ∧
    (1024 ≤ openBatches s v.c v.sl → Writable v f.d.toNat false → exec (.fbatch f) s = .next (waiting s v .batch))

/-- R79, R81, R83, R297, R298: EMIT puts each unit lane's record into the bin that B names and counts it on the bin's launch;
SPAWN places a live strand of the launch with v0 to v7 of the active lanes, the other lanes exited, the parent's number in s0
and its s1, and counts it; where no slot is free .try writes false and the plain form waits in class SLOT. -/
def Obligations.WorkIsCreated : Prop :=
  (∀ (f : Fields) (s : State) (v : Iss), Issues s 0x67 f v → Quiet v → f.strand = false → f.a.toNat + 3 < 120 →
    (∀ i, i < 4 → Readable v (f.a.toNat + i) false ∧
      comparePairs v (fun l => regVal v (f.a.toNat + i) false l) = .ok ()) → BReady v (some false) →
    (∀ n ∈ binsOf v, (binAt s v n).en = true ∧ binCancelled s (binAt s v n) = false ∧
      (binAt s v n).recs.length + (recordsOf v n).length ≤ 64) →
    (coreOf s v.c).stopReq = none → fenceReady s v.c v.sl v.sp.smask false true .core = true →
    ∃ t k, exec (.emit f) s = .next t ∧ CoreStep s { t with counters := s.counters } v k v.x (splitAfter s v v.next) ∧
      { k with bins := (coreOf s v.c).bins } = coreOf s v.c ∧
      (∀ n, mgetD k.bins n emptyBin = if n ∈ binsOf v then binEnter (binAt s v n) (recordsOf v n) else binAt s v n) ∧
      t.counters = ((binsOf v).foldl (fun u n => counterAdd u (binAt s v n).tlc (recordsOf v n).length) s).counters) ∧
  ∀ (f : Fields) (s : State) (v : Iss), Issues s 0x68 f v → Quiet v → f.strand = true →
    (∀ i l, i < 8 → l < 32 → v.act.getLsbD l = true → (vget v.x i l).st = .full ∧ (vget v.x i l).poison = false) →
    (sget v.x 1).st = .full → (sget v.x 1).poison = false → TargetOk (relTarget v) →
    (∀ (r : Resv) (sl : Nat), myResv s v = some r → pickSlot (coreOf s v.c) = some sl → spawnAhead s v = false →
      fenceReady s v.c v.sl v.sp.smask false true .core = true → splitAt s v.c (freeEntry (coreOf s v.c) (schedOf sl)) = none →
      ∃ t y p x, exec (.spawn f) s = .next t ∧ strandAt t v.c sl = some y ∧ y.phase = .live ∧ y.ctx = r.ctx ∧
        y.lcnt = r.lcnt ∧ y.slices = r.slices ∧ y.exited = ~~~v.act &&& lanesThere y ∧
        (∀ i l, i < 8 → l < 32 → v.act.getLsbD l = true → vget y i l = fullCell (vget v.x i l).val) ∧
        sget y 0 = fullCell (BitVec.ofNat 32 (gidOf v.c v.sl)) ∧ sget y 1 = fullCell (sget v.x 1).val ∧
        splitAt t v.c (freeEntry (coreOf s v.c) (schedOf sl)) = some p ∧ p.slot = sl ∧
        p.smask = BitVec.ofNat 8 (2 ^ r.slices - 1) ∧ p.pc = (relTarget v).truncate 57 ∧ p.jstk = [] ∧
        strandAt t v.c v.sl = some x ∧ x = (if f.fn = 1 then gset v.x f.d.toNat true else v.x) ∧
        splitAt t v.c v.e = some (splitAfter s v v.next) ∧ t.counters = (counterAdd s v.x.lcnt 1).counters ∧
        t.mem = s.mem) ∧
    (pickSlot (coreOf s v.c) = none →
      (f.fn = 1 → f.d.toNat < 8 →
        ∃ t, exec (.spawn f) s = .next t ∧ StrandStep s t v (gset v.x f.d.toNat false) v.next) ∧
      (f.fn ≠ 1 → ∃ t, exec (.spawn f) s = .next t ∧
        CoreStep s t v (coreOf s v.c) v.x { v.sp with cls := some .slot, tried := s.now + 1, spawnWait := true }))

/-- R72, R296, R299, R300: CANCEL answers 2 for a counter that is not the context's, 1 for one that is done, and otherwise 0
and cancels it; WCNT reads a counter's count, or its upper word; SYS hands one request to the service and waits for its
reply. -/
def Obligations.CountersAndRequests : Prop :=
  (∀ (f : Fields) (s : State) (v : Iss) (c : Option Counter), Issues s 0x69 f v → Quiet v → f.strand = true →
    Readable v f.a.toNat false → Writable v f.d.toNat false → ownCounter s v c →
    ∃ t u x, exec (.cancel f) s = .next t ∧ StrandStep s u v x v.next ∧ SameButRegs v x ∧ x.fpflags = v.x.fpflags ∧
      Wrote v x f.d.toNat false (fun _ => match c with | none => 2 | some k => if k.done then 1 else 0) ∧
      t = (match c with
        | none => u
        | some k => if k.done then u else cancelCounter u (wordA v))) ∧
  (∀ (f : Fields) (s : State) (v : Iss) (c : Option Counter), Issues s 0x6A f v → Quiet v → f.strand = true →
    Readable v f.a.toNat false → Writable v f.d.toNat false → ownCounter s v c →
    ∃ t x, exec (.wcnt f) s = .next t ∧ StrandStep s t v x v.next ∧ SameButRegs v x ∧ x.fpflags = v.x.fpflags ∧
      Wrote v x f.d.toNat false fun _ => match c with
        | none => 0
        | some k => BitVec.ofNat 64 ((if f.fn = 0 then k.count else counterWord k / 2 ^ 32) % 2 ^ 32)) ∧
  ∀ (f : Fields) (s : State) (v : Iss), Issues s 0x50 f v → f.strand = true → Readable v f.a.toNat true →
    (if f.d.toNat < 64 then (sget v.x f.d.toNat).st ≠ .pending else MailboxOwned s v (f.d.toNat - 64)) →
    (v.x.sys = none → Quiet v →
      ∃ t r, exec (.sys f) s = .next t ∧
        CoreStep s t v (coreOf s v.c) { v.x with sysSeq := v.x.sysSeq + 1, sys := some r }
          { splitAfter s v v.sp.pc with parked := some (.sys f.d.toNat v.next), cls := some .pipe, held := none } ∧
        r.code = f.imm16 ∧ r.va = regVal v f.a.toNat true 0 ∧ r.d = f.d.toNat ∧ r.seq = v.x.sysSeq ∧ r.entry = v.e ∧
        r.taken = false ∧ r.reply = none) ∧
    (v.x.sys.isSome = true → exec (.sys f) s = .next (waiting s v (lowestWait .pipe (operandWaits s v))))

/-! ### Traps -/

namespace Sys2Proof.Spec

/-- The record of a precise cause k (R178). -/
def RecordsCause (s : State) (c sl : Nat) (x : Strand) (k : Cause) (r : TrapRec) : Prop :=
  r.cause = k.code ∧ r.hzf = false ∧ r.detail = k.detail ∧ r.faddr = k.faddr ∧ r.fpc = k.pc ∧ r.spc = k.spc ∧
  r.active = k.active ∧ r.flanes = k.flanes ∧ r.fslice = k.fslice ∧ r.fisn = k.fisn ∧ r.exited = x.exited ∧
  r.splits = splitsOf s c sl

/-- The record of the fault of operation o, delivered in slice i of the split p, with the code, the detail and the address of its
access (R178). -/
def RecordsFault (s : State) (c sl : Nat) (x : Strand) (o : Op) (a : Access) (i code : Nat) (detail : Word) (addr : DWord)
    (p : Split) (r : TrapRec) : Prop :=
  r.cause = code ∧ r.hzf = true ∧ r.detail = detail ∧ r.faddr = addr ∧ r.fpc = o.pc ∧ r.spc = p.pc ∧
  r.active = o.active ∧ r.flanes = a.lanes ∧ r.fslice = i ∧ r.fisn = (isnOf o i).getD 0 ∧ r.exited = x.exited ∧
  r.splits = splitsOf s c sl

/-- A strand has entered its handler with record r (R175): depth 1, the record's lanes active, one split of all its slices at
HANDLER with no join; no v or s register, no predicate and nothing else of it changed. -/
structure Entered (s t : State) (c sl : Nat) (x : Strand) (r : TrapRec) : Prop where
  strand : ∃ y, strandAt t c sl = some y ∧ y.handling = some r ∧ y.lastRec = some r ∧ y.arisen = none ∧
    livingLanes y = r.flanes ∧
    { y with
        handling := x.handling, lastRec := x.lastRec, arisen := x.arisen, hexit := x.hexit, trapMark := x.trapMark,
        trapOps := x.trapOps } = x
  split : ∃ e p, splitsOf t c sl = [(e, p)] ∧ p.pc = handlerOf s x ∧ p.smask = BitVec.ofNat 8 (2 ^ x.slices - 1) ∧
    p.jstk = [] ∧ p.rgw = false
  device : { t with cores := s.cores } = s
  others : ∀ c' sl', c' ≠ c ∨ sl' ≠ sl → strandAt t c' sl' = strandAt s c' sl'

/-- A strand has ended with a code (R181): it is in ENDING or gone, and no split of it is left. -/
def EndedWith (t : State) (c sl code : Nat) : Prop :=
  splitsOf t c sl = [] ∧ ∀ y, strandAt t c sl = some y → y.phase = .ending ∧ y.fatal = some code

/-- The strand after a TRET: depth 0, the lanes that left the handler exited, LIVE (R180, R284). -/
def returned (x : Strand) : Strand :=
  { x with handling := none, exited := x.exited ||| x.hexit, hexit := 0, trapOps := [], phase := .live }

/-- The handler of a trap that was taken out of LINGER by one split, with no array operation of the core faulted and no joint
operation gathering, can return: instructions can be fetched at its stop PC, and a lane of that split goes on living. -/
def Returns (s : State) (v : Iss) (r : TrapRec) (e : Nat) (p : Split) : Prop :=
  v.x.handling = some r ∧ r.ling = false ∧ r.splits = [(e, p)] ∧ p.slot = v.sl ∧ p.rgw = false ∧ r.fentry = some e ∧
  (r.cause = 0x0F ∨ p.pc = r.spc) ∧
  r.spc.extractLsb' 0 2 = 0 ∧ splitLanes (returned v.x) p ≠ 0 ∧ v.x.phase ≠ .ending ∧ (coreOf s v.c).filFaulted = [] ∧ (coreOf s v.c).clasps = []

/-- The interrupted split is back with its slices and its joins, and is the only one of the strand (R180): at the stop PC, which is its
own PC unless the cause is SOFT (R178). -/
def Resumed (t : State) (v : Iss) (r : TrapRec) (p : Split) : Prop :=
  ∃ e' q, splitsOf t v.c v.sl = [(e', q)] ∧ q.pc = r.spc ∧ q.smask = p.smask ∧ q.jstk = p.jstk ∧ q.rgw = false ∧
    q.parked = p.parked

end Sys2Proof.Spec
open Sys2Proof.Spec

/-- R175, R176, R178, R181: a strand whose cause has arisen, or whose one operation has faulted, and which waits for no memory
operation, writes the record and enters its handler; without a handler it ends with the cause; a fault of an operation that its
handler issued ends it as a double fault. -/
def Obligations.TrapEntry : Prop :=
  (∀ (s : State) (c sl : Nat) (x : Strand) (k : Cause), strandAt s c sl = some x → x.phase ≠ .ending → x.handling = none →
    x.arisen = some k → (∀ o ∈ opsOf s c sl, opFaulted o = false ∧ opResolved s o = true) →
    (handlerOf s x ≠ 0 → x.halted = none →
      ∃ t r, exec (.trapEntry c sl) s = .next t ∧ Entered s t c sl x r ∧ RecordsCause s c sl x k r) ∧
    (handlerOf s x = 0 → ∃ t, exec (.trapEntry c sl) s = .next t ∧ EndedWith t c sl k.code)) ∧
  (∀ (s : State) (c sl : Nat) (x : Strand) (o : Op) (a : Access) (i code : Nat) (detail : Word) (addr : DWord) (cyc e : Nat)
    (p : Split), strandAt s c sl = some x → x.phase ≠ .ending → x.handling = none → x.arisen = none →
    opsOf s c sl = [o] → o.kind ≠ .fil → o.discarded = false → o.accs = [a] → a.st = .faulted code detail addr cyc →
    (slicesOf a.lanes).head? = some i → splitsOf s c sl = [(e, p)] → p.smask.getLsbD i = true →
    handlerOf s x ≠ 0 → x.halted = none →
    ∃ t r, exec (.trapEntry c sl) s = .next t ∧ Entered s t c sl x r ∧ RecordsFault s c sl x o a i code detail addr p r) ∧
  (∀ (s : State) (c sl : Nat) (x : Strand) (r : TrapRec), strandAt s c sl = some x → x.phase ≠ .ending → x.handling = none →
    trapReady s c sl x = true → trapRecord s c sl x = some r → handlerOf s x = 0 →
    ∃ t, exec (.trapEntry c sl) s = .next t ∧ EndedWith t c sl r.cause) ∧
  ∀ (s : State) (c sl : Nat) (x : Strand) (o : Op), strandAt s c sl = some x → x.phase ≠ .ending →
    x.handling.isSome = true → o ∈ opsOf s c sl → opFaulted o = true → x.trapMark ≤ o.id → o.id ∉ x.trapOps →
    ∃ t, exec (.trapEntry c sl) s = .next t ∧ EndedWith t c sl 0x81

/-- R180, R284, R292: TRET restores the interrupted split at the stop PC and depth 0, and discards the faulted operation of the
record, which leaves the horizon with its destinations VACANT; TRET.replay keeps it under its ISN to be performed again; the
terminate form ends the strand with the cause it handles; at depth 0 each of them is ILLEGAL. A stop PC that no
instruction can stand at raises ALIGN there, which in the handler ends the strand as a double fault (R181, R243). -/
def Obligations.TrapReturn : Prop :=
  (∀ (con : Fields → Instr) (f : Fields) (s : State) (v : Iss) (r : TrapRec) (e : Nat) (p : Split),
    con = .tret ∨ con = .tretReplay → Issues s 0x4C f v → Quiet v → Returns s v r e p → opsOf s v.c v.sl = [] →
    ∃ t, exec (con f) s = .next t ∧ strandAt t v.c v.sl = some (returned v.x) ∧ Resumed t v r p ∧ t.mem = s.mem ∧
      ∀ c' sl', c' ≠ v.c ∨ sl' ≠ v.sl → strandAt t c' sl' = strandAt s c' sl') ∧
  (∀ (f : Fields) (s : State) (v : Iss) (r : TrapRec) (e : Nat) (p : Split) (o : Op), Issues s 0x4C f v → Quiet v →
    Returns s v r e p → opsOf s v.c v.sl = [o] → opById s o.id = some o → o.id ∈ v.x.trapOps → o.sample = none →
    ∃ t y, exec (.tret f) s = .next t ∧ strandAt t v.c v.sl = some y ∧ y.handling = none ∧ Resumed t v r p ∧
      opsOf t v.c v.sl = [] ∧ t.mem = s.mem ∧
      (o.fields.strand = false → ∀ q ∈ destRegs o, ∀ l, l < 32 → (openLanes o).getLsbD l = true →
        (vget v.x q l).st = .pending → (vget y q l).st = .vacant)) ∧
  (∀ (f : Fields) (s : State) (v : Iss) (r : TrapRec) (e : Nat) (p : Split) (o : Op), Issues s 0x4C f v → Quiet v →
    Returns s v r e p → r.hzf = true → opsOf s v.c v.sl = [o] → opById s o.id = some o → o.id ∈ v.x.trapOps →
    o.sample = none → o.work = .mem → openLanes o ≠ 0 →
    ∃ t y o', exec (.tretReplay f) s = .next t ∧ strandAt t v.c v.sl = some y ∧ y.handling = none ∧ Resumed t v r p ∧
      o' ∈ opsOf t v.c v.sl ∧ o'.id = o.id ∧ o'.isns = o.isns ∧ o'.discarded = false) ∧
  (∀ (f : Fields) (s : State) (v : Iss) (r : TrapRec), Issues s 0x4C f v → Quiet v → v.x.handling = some r →
    v.x.phase ≠ .ending → (coreOf s v.c).filFaulted = [] → (coreOf s v.c).clasps = [] →
    ∃ t, exec (.tretTerm f) s = .next t ∧ EndedWith t v.c v.sl r.cause) ∧
  (∀ (con : Fields → Instr) (f : Fields) (s : State) (v : Iss) (r : TrapRec), con = .tret ∨ con = .tretReplay →
    Issues s 0x4C f v → Quiet v → v.x.handling = some r → v.x.phase ≠ .ending → r.spc.extractLsb' 0 2 ≠ 0 →
    ∃ t, exec (con f) s = .next t ∧ EndedWith t v.c v.sl 0x81) ∧
  ∀ (con : Fields → Instr) (f : Fields) (s : State) (v : Iss), con = .tret ∨ con = .tretReplay ∨ con = .tretTerm →
    Issues s 0x4C f v → CanRaise v → Raises (con f) s v 0x01 (illegalDetail 0x4C f.strand 1)

/-- R200: every instruction that a stepped strand issues counts: 1 less is left to issue, and the last one halts the strand with
reason 4 where the split that has issued it now stands, held by the debugger that stepped it. A strand that this issue ends (R284,
R181) has no count any more. MARK, of which nothing else is left to say, is stated whole. (Who holds a halt: log entry 48.) -/
def Obligations.SingleStepCounts : Prop :=
  (∀ (i : Instr) (opc : BitVec 7) (f : Fields) (s : State) (v : Iss) (n : Nat) (key : BitVec 384), instrParts i = some (opc, f) →
    viewOf s opc f = some v → passedOver s v = false → v.x.steps = some (n, key) → v.x.halted = none →
    ∃ t, exec i s = .next t ∧ (schedOf v.sl ∈ (coreOf t v.c).issued → ∀ x, strandAt t v.c v.sl = some x →
      (1 < n → x.steps = some (n - 1, key)) ∧
      (n ≤ 1 → x.phase ≠ .ending → ∃ h, x.halted = some h ∧ x.steps = none ∧ h.reason = 4 ∧ h.holders = [key] ∧
        ∀ p, splitAt t v.c v.e = some p → h.pc = p.pc ∧ h.smask = p.smask))) ∧
  ∀ (f : Fields) (s : State) (v : Iss) (n : Nat) (key : BitVec 384), Issues s 0x4E f v → v.sample = none →
    v.x.steps = some (n, key) → v.x.phase ≠ .ending →
    v.x.halted = none → (∀ k, mget s.ctxs v.x.ctx = some k → k.markRecs = false) →
    (1 < n → ∃ t, exec (.mark f) s = .next t ∧ StrandStep s t v { v.x with steps := some (n - 1, key) } v.next) ∧
    (n ≤ 1 → ∃ t h, exec (.mark f) s = .next t ∧ StrandStep s t v { v.x with halted := some h, steps := none } v.next ∧
      h.reason = 4 ∧ h.pc = v.next ∧ h.smask = v.sp.smask ∧ h.cycle = cycleOf s v.c ∧ h.holders = [key])


/-! ### Power, reset and physical failures -/

namespace Sys2Proof.Spec

/-- The event takes the machine from s to t. -/
def Takes (i : Instr) (s t : State) : Prop := exec i s = .next t

/-- Nothing but the carrier power controller has changed. -/
def OnlyPower (s t : State) : Prop := { t with power := s.power } = s

/-- The dies have lost all their state: everything but the power controller, what the boot flash holds, the events to come and the
model's own counters is as after reset (R19). -/
def DiesLost (s t : State) : Prop :=
  t = { State.reset with
          power := t.power, bootFlash := s.bootFlash, flashKnown := s.flashKnown, fresh := s.fresh, nextId := s.nextId,
          inbox := s.inbox }

/-- MEASn has been extended with a digest (R53). -/
def Extended (s t : State) (n : Nat) (digest : BitVec 384) : Prop :=
  measOf t n = Config.sha384 (leBytes 48 (measOf s n).toNat ++ leBytes 48 digest.toNat) ∧
  ∀ m, m ≠ n → measOf t m = measOf s m

/-- The core clock (R24). -/
def clock (s : State) : Nat := min s.power.clockPower s.power.clockTherm

/-- The clock that a window starts from: when the other of power and temperature has already been judged in it, what the clock was
then (R24; log entry 70). -/
def windowStart (mine other : Bool) (s : State) : Nat := if other = true ∧ mine = false then s.power.windowClock else clock s

/-- What the boot flash holds once reset has been released with a first stage: only the first release tells it (R17; log entry 3). -/
def flashAfter (s : State) (stage : BootStage) : BootStage :=
  if s.flashKnown = true ∨ s.svc.flashLocked = true then s.bootFlash else stage

/-- The newest record of the error log (R189). -/
def Logged (t : State) (kind sev core loc : Nat) : Prop :=
  ∃ r, t.svc.log.getLast? = some r ∧ r.kind = kind ∧ r.sev = sev ∧ r.core = core ∧ r.loc = loc

/-- What the boot ROM does when reset is released (R20, R52, R53): the first stage of the boot flash is measured, or fails. -/
def RomRan (s t : State) (stage : BootStage) (power : Power) : Prop :=
  (Config.ecdsaVerify Config.birrovKey (Config.sha384 stage.image) stage.sig = true →
    t.power = { power with rstN := true, phase := .booting } ∧ Extended s t 0 (Config.sha384 stage.image)) ∧
  (Config.ecdsaVerify Config.birrovKey (Config.sha384 stage.image) stage.sig = false →
    t.power = { power with rstN := true, phase := .romFailed, boot := 1 } ∧ t.svc.meas = s.svc.meas)

end Sys2Proof.Spec
open Sys2Proof.Spec

/-- R19, R20, R21, R23, R24, R52, R53: what input voltage, PWR_EN, PWR_GOOD and RST_N do to the module, and how the boot ROM and
the service start: the rails rise, the dies leave reset, the first stage is measured, the service measures what it starts, and
every fall loses all state of the dies; the status block is lost with VIN only. What a window of the power limit and of the
temperature does to the clock, alone and both in one window. The model's choices: what stays over RST_N, that a limit outside 900 W
to 1,800 W is ignored, and how two windows pair (log entry 70); that the first release of reset tells what the boot flash holds
(log entry 3). -/
def Obligations.PowerAndResetEvents : Prop :=
  (∀ s : State, s.power.vin = false → s.power.pwrEn = true → s.power.phase = .off → ∃ t, Takes .vinApplied s t ∧ OnlyPower s t ∧
    t.power.vin = true ∧ t.power.phase = .railsUp ∧ t.power.limit = 1800 ∧ t.power.trip = 0 ∧ t.power.boot = 0 ∧
    t.power.tdie = 0) ∧
  (∀ s : State, s.power.vin = true → s.power.vinOk = false → s.power.pwrEn = true → s.power.phase = .off →
    ∃ t, Takes .vinApplied s t ∧ OnlyPower s t ∧ t.power.phase = .railsUp ∧ t.power.limit = 1800 ∧
      statusBlock t.power = statusBlock s.power) ∧
  (∀ s : State, ∃ t, Takes .vinRemoved s t ∧ DiesLost s t ∧ t.power.vin = false ∧ t.power.pwrGood = false ∧
    t.power.phase = .off ∧ statusBlock t.power = 0) ∧
  (∀ s : State, s.power.vin = true → s.power.vinOk = true → s.power.phase = .off → ∃ t, Takes .pwrEnAssert s t ∧ OnlyPower s t ∧
    t.power.pwrEn = true ∧ t.power.phase = .railsUp ∧ t.power.limit = 1800) ∧
  (∀ s : State, s.power.phase = .railsUp → s.power.rstN = false → ∃ t, Takes .pwrGoodRise s t ∧
    t = { s with power := { s.power with pwrGood := true, phase := .held } }) ∧
  (∀ s : State, s.power.phase = .railsUp → s.power.rstN = true → ∃ t, Takes .pwrGoodRise s t ∧
    RomRan s t s.bootFlash { s.power with pwrGood := true }) ∧
  (∀ s : State, s.power.phase ≠ .off → ∃ t, Takes .pwrEnDeassert s t ∧ DiesLost s t ∧ t.power.pwrEn = false ∧
    t.power.pwrGood = false ∧ t.power.phase = .off) ∧
  (∀ s : State, s.power.phase = .off → ∃ t, Takes .pwrEnDeassert s t ∧ t = { s with power := { s.power with pwrEn := false } }) ∧
  (∀ s : State, s.power.pwrGood = true → ∃ t, Takes .pwrGoodFall s t ∧ DiesLost s t ∧ t.power.pwrGood = false ∧
    t.power.phase = .off ∧ t.power.trip = 3 ∧ t.power.alertN = false) ∧
  (∀ s : State, s.power.vin = true → ∃ t, Takes .vinOutOfRange s t ∧ DiesLost s t ∧ t.power.vin = true ∧ t.power.vinOk = false ∧
    t.power.pwrGood = false ∧ t.power.phase = .off ∧ t.power.trip = 4 ∧ t.power.alertN = false) ∧
  (∀ s : State, s.power.pwrGood = true → ∃ t, Takes .rstNAssert s t ∧ DiesLost s t ∧
    t.power = { s.power with phase := .held, rstN := false }) ∧
  (∀ (s : State) (stage : BootStage), s.power.phase = .held → ∃ t, Takes (.resetRelease stage) s t ∧
    RomRan s t (flashAfter s stage) s.power ∧ t.bootFlash = flashAfter s stage) ∧
  (∀ (s : State) (stage : BootStage), s.power.phase = .railsUp → ∃ t, Takes (.resetRelease stage) s t ∧
    t.power = { s.power with rstN := true } ∧ t.bootFlash = flashAfter s stage) ∧
  (∀ (s : State) (stage : BootStage), s.power.phase = .running → s.svc.flashLocked = true →
    ∃ t, Takes (.resetRelease stage) s t ∧ t.bootFlash = s.bootFlash) ∧
  (∀ (s : State) (st : StartUp), s.power.phase = .booting → ∃ t, Takes (.serviceStart st) s t ∧
    t.power = { s.power with phase := .running, started := some s.fresh, changes := [] } ∧ t.svc.running = true ∧ t.svc.flashLocked = true ∧ t.now = 0 ∧
    t.phys.deviceId = st.deviceId ∧ t.cores = s.cores ∧ t.mem = s.mem ∧
    (∀ q ∈ [(1, st.configuration), (2, st.training), (3, st.service), (4, st.policy)],
      measOf t q.1 = Config.sha384 (leBytes 48 (measOf s q.1).toNat ++ leBytes 48 q.2.toNat)) ∧
    measOf t 0 = measOf s 0 ∧
    ∀ e ∈ st.endpoints, if e.nvme then e.number ∈ t.phys.nvme else e.number ∈ t.phys.disabled) ∧
  (∀ (s : State) (w : Nat), s.power.phase ≠ .off → s.power.limit < w → ∃ t, Takes (.powerWindow w) s t ∧
    t.power = { s.power with watts := w, clockPower := max 800 (windowStart s.power.powerSeen s.power.thermSeen s - 100),
                             windowClock := windowStart s.power.powerSeen s.power.thermSeen s, powerSeen := true,
                             thermSeen := t.power.thermSeen, changes := t.power.changes }) ∧
  (∀ (s : State) (ts : List Nat) (hot : Nat), hot ∈ ts → (∀ x ∈ ts, x ≤ hot) →
    (s.power.phase ≠ .off → 105000 ≤ hot → ∃ t, Takes (.thermalWindow ts) s t ∧ DiesLost s t ∧ t.power.phase = .off ∧
      t.power.trip = 1) ∧
    (s.power.phase ≠ .off → 100000 < hot → hot < 105000 → clock s = 800 →
      ∃ t, Takes (.thermalWindow ts) s t ∧ DiesLost s t ∧ t.power.phase = .off ∧ t.power.trip = 2) ∧
    (s.power.phase ≠ .off → 95000 ≤ hot → hot < 105000 → (hot ≤ 100000 ∨ clock s ≠ 800) →
      ∃ t, Takes (.thermalWindow ts) s t ∧ t.power.temps = ts ∧ t.power.cool = 0 ∧ t.power.alertN = false ∧
        t.power.clockPower = s.power.clockPower ∧
        t.power.clockTherm = max 800 (windowStart s.power.thermSeen s.power.powerSeen s - 100)) ∧
    (s.power.phase ≠ .off → 90000 ≤ hot → hot < 95000 → ∃ t, Takes (.thermalWindow ts) s t ∧ t.power.temps = ts ∧
      t.power.cool = 0 ∧ t.power.alertN = s.power.alertN ∧ clock t = clock s) ∧
    (s.power.phase ≠ .off → hot < 90000 → ∃ t, Takes (.thermalWindow ts) s t ∧
      t.power.clockTherm = (if 10 ≤ s.power.cool + 1 then min 1400 (s.power.clockTherm + 100) else s.power.clockTherm) ∧
      t.power.cool = s.power.cool + 1 ∧ t.power.temps = ts ∧ t.power.clockPower = s.power.clockPower ∧
      (t.power.alertN = true ↔ s.power.alertN = true ∨ t.power.clockPower ≤ t.power.clockTherm))) ∧
  (∀ (s : State) (w : Nat) (ts : List Nat) (hot : Nat), s.power.phase ≠ .off → s.power.powerSeen = false →
    s.power.thermSeen = false → s.power.limit < w → hot ∈ ts → (∀ x ∈ ts, x ≤ hot) → 95000 ≤ hot → hot ≤ 100000 →
    (∃ t u, Takes (.powerWindow w) s t ∧ Takes (.thermalWindow ts) t u ∧ clock u = max 800 (clock s - 100)) ∧
    ∃ t u, Takes (.thermalWindow ts) s t ∧ Takes (.powerWindow w) t u ∧ clock u = max 800 (clock s - 100)) ∧
  (∀ (s : State) (w : Nat), 900 ≤ w → w ≤ 1800 → ∃ t, Takes (.smbusPowerLimitWrite w) s t ∧
    t.power = { s.power with limit := w }) ∧
  ∀ (s : State) (w : Nat), w < 900 ∨ 1800 < w → Takes (.smbusPowerLimitWrite w) s s

/-- R11, R14, R66, R67, R185, R188, R189, R369: spare lanes, rows and cores are counted and logged; a link that goes down is down;
a retired stack stays retired; scrubbing shows nothing; storage errors poison what they hit and are logged; a checker mismatch
raises PIPE at the instruction or in the engine operation. The model's choices: SEV and LOC of the records (log entry 41), and that
every line of a retired stack reads as poisoned (log entry 71). -/
def Obligations.PhysicalFailures : Prop :=
  (∀ (s : State) (b : Boundary) (n : Nat), s.svc.running = true → n = boundaryCode b →
    (mgetD s.phys.laneUsed n 0 < Config.boundarySpares n → ∃ t, Takes (.dieBoundaryLaneFail b) s t ∧ Logged t 10 3 255 n ∧
      mgetD t.phys.laneUsed n 0 = mgetD s.phys.laneUsed n 0 + 1 ∧ t.phys.degraded = s.phys.degraded) ∧
    (Config.boundarySpares n ≤ mgetD s.phys.laneUsed n 0 → ∃ t, Takes (.dieBoundaryLaneFail b) s t ∧ Logged t 10 0 255 n ∧
      mgetD t.phys.degraded n 0 = mgetD s.phys.degraded n 0 + 1)) ∧
  (∀ (s : State) (n : Nat) (p : Port), s.svc.running = true → mget s.phys.ports n = some p → p.up = true →
    p.spareUsed < Config.serdesSpares → ∃ t, Takes (.serdesLaneFail n) s t ∧ Logged t 9 3 255 n ∧
      mget t.phys.ports n = some { p with spareUsed := p.spareUsed + 1, retraining := true }) ∧
  (∀ (s : State) (n : Nat) (p : Port), s.svc.running = true → mget s.phys.ports n = some p → p.retraining = true →
    s.fab.reqs = [] → ∃ t, Takes (.serdesRetrainComplete n) s t ∧ mget t.phys.ports n = some { p with retraining := false }) ∧
  (∀ (s : State) (n : Nat) (p : Port), s.svc.running = true → mget s.phys.ports n = some p → p.up = true →
    s.fab.reqs = [] → ∃ t, Takes (.kwamonLinkDown n) s t ∧
      mget t.phys.ports n = some { p with up := false, retraining := false }) ∧
  (∀ (s : State) (n : Nat), s.svc.running = true → n < 16 → n ∉ s.phys.retired → ∃ t, Takes (.stackRetire n) s t ∧
    t.phys = { s.phys with retired := s.phys.retired ++ [n] } ∧
    ∀ l, l * 128 / 2 ^ 36 = n → linePoisoned t l = true) ∧
  (∀ (s : State) (n : Nat), s.svc.running = true → mgetD s.phys.rowsUsed n 0 < Config.rowSpares n →
    ∃ t, Takes (.spareRowMap n) s t ∧ Logged t 6 3 255 n ∧ mgetD t.phys.rowsUsed n 0 = mgetD s.phys.rowsUsed n 0 + 1 ∧
      t.mem = s.mem) ∧
  (∀ (s : State) (n : Nat), s.svc.running = true → n < 16 → n ∉ s.phys.retired → Config.rowSpares n ≤ mgetD s.phys.rowsUsed n 0 →
    ∃ t, Takes (.spareRowMap n) s t ∧ n ∈ t.phys.retired) ∧
  (∀ (s : State) (c : Nat), s.svc.running = true → c < 192 → c ∉ s.phys.bringIn → c ∉ s.phys.lostCores →
    (mgetD s.phys.coresUsed (dieOf c) 0 < Config.coreSpares → ∃ t, Takes (.spareCoreBringIn c) s t ∧ Logged t 7 3 c c ∧
      c ∈ t.phys.bringIn ∧ mgetD t.phys.coresUsed (dieOf c) 0 = mgetD s.phys.coresUsed (dieOf c) 0 + 1) ∧
    (Config.coreSpares ≤ mgetD s.phys.coresUsed (dieOf c) 0 → ∃ t, Takes (.spareCoreBringIn c) s t ∧
      c ∈ t.phys.lostCores ∧ ∀ x k, mget t.ctxs x = some k → k.cores.getLsbD c = false)) ∧
  (∀ (s : State) (n : Nat), Takes (.patrolScrub n) s s) ∧
  (∀ (s : State) (c sl lane r : Nat) (x : Strand) (fatal : Bool) (synd : Word), strandAt s c sl = some x →
    ∃ t, Takes (.eccErrorDetected (.vreg c sl lane r) fatal false synd) s t ∧
      Logged t 0 (if fatal then 2 else 0) c (32 * r + lane) ∧ t.mem = s.mem ∧
      strandAt t c sl = some (if fatal then vset x r lane { vget x r lane with poison := true } else x)) ∧
  (∀ (s : State) (n : Nat) (synd : Word), ∃ t, Takes (.eccErrorDetected (.stackLine n) true false synd) s t ∧
    Logged t 6 2 255 (n * 128) ∧ linePoisoned t n = true ∧ t.mem = s.mem) ∧
  (∀ (s : State) (c e unit : Nat) (p : Split) (x : Strand), splitAt s c e = some p → strandAt s c p.slot = some x →
    p.replay = false → x.handling = none → x.arisen = none →
    ∃ t y k, Takes (.checkerMismatch (.split c e unit)) s t ∧ strandAt t c p.slot = some y ∧ y.arisen = some k ∧
      k.code = 0x0A ∧ k.detail = BitVec.ofNat 32 unit ∧ k.pc = p.pc ∧ k.active = splitLanes x p) ∧
  ∀ (s : State) (id unit : Nat) (o : Op) (w : CpyWork), opById s id = some o → o.work = .cpy w → o.complete = false →
    o.discarded = false → o.replay = false → opFaulted o = false → (∀ q ∈ (coreOf s o.core).fil, id ∉ q.ops) →
    (∀ x, strandAt s o.core o.slot = some x → x.phase ≠ .ending) →
    ∃ t o' d, Takes (.checkerMismatch (.engine id unit)) s t ∧ opById t id = some o' ∧ o'.isns = o.isns ∧
      faultOf o' = some (0x0A, BitVec.ofNat 32 unit, d, o.lanes)

/-! ### The fabric -/

namespace Sys2Proof.Spec

/-- The reply to a request: a host's leaves the device, that of a strand on the device waits for SERVICE_REPLY (R58, R59, R296). -/
def Answered (u t : State) (q : Req) (status : Nat) (args : List Byte) : Prop :=
  match q.sender with
  | .host _ =>
      let r : Reply := { sender := q.sender, seq := q.seq, code := q.code, status := status, args := args }
      t = { u with svc := { u.svc with replies := u.svc.replies ++ [r] } }
  | .strand g ctx => { t with cores := u.cores, images := u.images, fresh := u.fresh } = u ∧
      ∀ x, strandAt u (g / 32) (g % 32) = some x → x.ctx = ctx → ∃ due, strandAt t (g / 32) (g % 32) = some
        { x with sys := x.sys.map fun r => if r.seq = q.seq then { r with reply := some (status, args), due := due } else r }

/-- The reply to a request that the service answers, where there is one: a write of the service itself has none. -/
def AnsweredIf (u t : State) (q : Option Req) (status : Nat) (args : List Byte) : Prop :=
  match q with
  | some q => Answered u t q status args
  | none => t = u

/-- The only fabric request of the device is that of the one access of a memory operation of a live strand, and has been sent. -/
structure Outstanding (s : State) (r : FabReq) (own : ReqOwner) (o : Op) (a : Access) (x : Strand) : Prop where
  req : s.fab.reqs = [r] ∧ r.sent = true ∧ r.owner = own
  op : opById s o.id = some o ∧ o.work = .mem ∧ o.discarded = false ∧ o.sample = none ∧ o.settled = 0
  acc : o.accs = [a] ∧ a.st = .sent r.id ∧ a.lanes = o.lanes
  strand : strandAt s o.core o.slot = some x ∧ x.ctx = o.ctx ∧ x.phase = .live

/-- The operation has faulted REMOTE with a code, and its request is gone (R174). -/
def FaultedRemote (t : State) (r : FabReq) (o : Op) (a : Access) (code : Nat) : Prop :=
  t.fab.reqs = [] ∧ ∃ o', opById t o.id = some o' ∧
    faultOf o' = some (0x0E, BitVec.ofNat 32 (code + 256 * fabTarget r.addr), a.va, a.lanes)

/-- The registers of an operation hold a value, poisoned or not, in the lanes that took part, and the strand is otherwise as it
was. -/
def Received (o : Op) (x y : Strand) (val : DWord) (poison : Bool) : Prop :=
  { y with v := x.v, s := x.s } = x ∧
  ∀ r i, (r, i) ∈ (destRegs o).zipIdx →
    let cell : RegCell := { val := val.extractLsb' (32 * i) 32, st := .full, poison := poison }
    if o.fields.strand then sget y r = cell else ∀ l, l < 32 → o.lanes.getLsbD l = true → vget y r l = cell

/-- A message leaves the device, and nothing else happens. -/
def OnlySends (s t : State) (w : Wire) : Prop := t = { s with fab := { s.fab with wire := s.fab.wire ++ [w] } }

/-- No store of a cluster waits for a line of a range. -/
def NoneWaits (s : State) (pa n : Nat) : Prop :=
  ∀ p ∈ s.clusters, ∀ e ∈ p.2.stores, sharesLine e.pa e.bytes.length pa n = false

end Sys2Proof.Spec
open Sys2Proof.Spec

/-- R34, R35, R37, R39, R188, R369: OK fills the destination of a load, POISON fills it poisoned; RETRY raises the age by 1, up to
7, and sets a reissue 64 × age cycles later, at which the request leaves on a usable port; REJECT, DOWN, a notice that the target
is down and 2^20 cycles without a final reply fault the operation REMOTE; a remote request is served through the export table. -/
def Obligations.FabricReplies : Prop :=
  (∀ (s : State) (r : FabReq) (o : Op) (a : Access) (x : Strand) (addr n : Nat) (data : List Byte),
    Outstanding s r (.accesses o.id [0]) o a x → o.kind = .load → r.parts = [(addr, .read n)] → n < 128 →
    (∃ t y, Takes (.replyOk r.id data) s t ∧ t.fab.reqs = [] ∧ t.mem = s.mem ∧ strandAt t o.core o.slot = some y ∧
      Received o x y (loadValue o.fields.ty (data.take n)) false) ∧
    (∃ t y w, Takes (.replyPoison r.id) s t ∧ t.fab.reqs = [] ∧ t.mem = s.mem ∧ strandAt t o.core o.slot = some y ∧
      Received o x y w true)) ∧
  (∀ (s : State) (r : FabReq), s.fab.reqs = [r] → r.sent = true → ∃ t, Takes (.replyRetry r.id) s t ∧
    t.fab.reqs = [{ r with
      age := min 7 (r.age + 1), sent := false, port := none, reissue := some (s.now + 64 * min 7 (r.age + 1)) }] ∧
    t.ops = s.ops ∧ t.cores = s.cores ∧ t.mem = s.mem) ∧
  (∀ (s : State) (r : FabReq) (at_ n : Nat) (q : Port), s.fab.reqs = [r] → r.sent = false → r.chan = none →
    r.reissue = some at_ → at_ ≤ s.now → usablePorts s (fabTarget r.addr) = [(n, q)] → 0 < q.credits → q.retraining = false →
    useStopped s (r.addr / 2 ^ 21) = false →
    ∃ t r', Takes (.retryReissue r.id) s t ∧ t.fab.reqs = [r'] ∧ r'.sent = true ∧ r'.port = some n ∧ r'.age = r.age ∧
      t.fab.wire = s.fab.wire ++ [.request r.id r.parts n r.age]) ∧
  (∀ (s : State) (r : FabReq) (o : Op) (a : Access) (x : Strand), Outstanding s r (.accesses o.id [0]) o a x →
    (∃ t, Takes (.replyReject r.id) s t ∧ FaultedRemote t r o a 0x02) ∧
    (∃ t, Takes (.replyDown r.id) s t ∧ FaultedRemote t r o a 0x04) ∧
    (∃ t, Takes (.targetDownNotice (fabTarget r.addr)) s t ∧ FaultedRemote t r o a 0x11) ∧
    (r.first + 2 ^ 20 ≤ s.now → ∃ t, Takes (.fabricTimeout r.id) s t ∧ FaultedRemote t r o a 0x10)) ∧
  ∀ (s : State) (src off : Nat),
    (∀ k, exportFor s src off = none → ∃ t, Takes (.remoteRequestServe { src := src, offset := off, kind := k }) s t ∧
      OnlySends s t (.reply src 2 [])) ∧
    (∀ e n, exportFor s src off = some e → NoneWaits s (exportPa e off) n → poisonedIn s (exportPa e off) n = false →
      ∃ t, Takes (.remoteRequestServe { src := src, offset := off, kind := .read n }) s t ∧
        OnlySends s t (.reply src 0 (peeks s.mem (exportPa e off) n))) ∧
    (∀ e bs, exportFor s src off = some e → bitOf e 1 = true →
      ∃ t, Takes (.remoteRequestServe { src := src, offset := off, kind := .write bs }) s t ∧
        OnlySends s t (.reply src 2 [])) ∧
    ∀ e bs, exportFor s src off = some e → bitOf e 1 = false → NoneWaits s (exportPa e off) bs.length →
      ∃ t, Takes (.remoteRequestServe { src := src, offset := off, kind := .write bs }) s t ∧
        t.fab.wire = s.fab.wire ++ [.reply src 0 []] ∧
        ∀ b, peek t.mem b =
          if exportPa e off ≤ b ∧ b < exportPa e off + bs.length then (bs[b - exportPa e off]?).getD 0 else peek s.mem b

/-- R25, R29, R30, R31, R33, R39, R41, R48, R53, R58, R59, R127: a congestion mark halves the ceiling of a destination slot down to
16, and the ceiling grows by 1 after 256 cycles; a pinned channel switches its path when it has drained; cores pass the points of
remaps and invalidations, which are answered when every core has; a window whose tokens are back changes, and every core keeps the old
one until its point; the service writes windows, connections, paths and export entries under the rules of a request, the device
id, and extends a measurement register of the owner; a malformed message at the management port is answered BADARG. The model's
choices: that an invalidation is answered once the stores of the clusters are at the home (log entry 38), and what the service
writes without a request, the digest of the owner among it (log entry 92). -/
def Obligations.FabricMaintenance : Prop :=
  (∀ (s : State) (c n : Nat), ∃ t, Takes (.congestionMark c n) s t ∧
    dstOf (coreOf t c) n = { dstOf (coreOf s c) n with ceiling := max 16 ((dstOf (coreOf s c) n).ceiling / 2), since := s.now } ∧
    (∀ m, m ≠ n → dstOf (coreOf t c) m = dstOf (coreOf s c) m) ∧ ∀ c', c' ≠ c → coreOf t c' = coreOf s c') ∧
  (∀ (s : State) (c n : Nat), (dstOf (coreOf s c) n).ceiling < 4095 → (dstOf (coreOf s c) n).since + 256 ≤ s.now →
    ∃ t, Takes (.ceilingGrowth c n) s t ∧ dstOf (coreOf t c) n = { dstOf (coreOf s c) n with
      ceiling := (dstOf (coreOf s c) n).ceiling + 1, since := (dstOf (coreOf s c) n).since + 256 }) ∧
  (∀ (s : State) (e : Nat) (w : BitVec 128), mget s.fab.switching e = some w → s.fab.reqs = [] →
    ∃ t, Takes (.pinnedPathSwitch e) s t ∧ mgetD t.fab.paths e 0 = w ∧ mget t.fab.switching e = none) ∧
  (∀ (s : State) (c : Nat), (coreOf s c).oldWin ≠ [] → ∃ t, Takes (.remapPoint c) s t ∧
    coreOf t c = { coreOf s c with oldWin := [] } ∧ ∀ c', c' ≠ c → coreOf t c' = coreOf s c') ∧
  (∀ (s : State) (r : Remap), s.fab.remaps = [r] → (∀ p ∈ s.cores, mget p.2.oldWin r.window = none) →
    (∀ o ∈ s.ops, usesWindow r o = false) → (∀ im ∈ s.images, ∀ o ∈ im.ops, usesWindow r o = false) →
    (∀ q ∈ s.fab.reqs, asksWindow r q = false) → ∃ t, Takes (.remapComplete r.window) s t ∧
      AnsweredIf { s with fab := { s.fab with remaps := [] } } t r.req 0 (leBytes 8 r.gen)) ∧
  (∀ (s : State) (c : Nat), (coreOf s c).invs ≠ [] → ∃ t, Takes (.tlbInvalidatePoint c) s t ∧ (coreOf t c).invs = [] ∧
    (∀ v ∈ s.svc.invals, v.id ∈ (coreOf s c).invs →
      (∀ l ∈ (coreOf t c).tlb, invalHits v l = false) ∧ ∀ l ∈ (clusterAt t (clusterOf c)).tlb, invalHits v l = false) ∧
    t.mem = s.mem) ∧
  (∀ (s : State) (v : Inval) (q : Req), s.svc.invals = [v] → v.req = some q → (∀ p ∈ s.cores, v.id ∉ p.2.invs) →
    (∀ o ∈ s.ops, usesRange v o = false) → (∀ im ∈ s.images, ∀ o ∈ im.ops, usesRange v o = false) →
    (∀ r ∈ s.fab.reqs, fetchUses s v r = false) → ∃ t, Takes (.invalidationComplete v.id) s t ∧
      Answered (flushAll (giveFrames { s with svc := { s.svc with invals := [] } } v.frames)) t q 0 []) ∧
  (∀ (s : State) (w : WindowWait) (old : BitVec 128), old = mgetD s.fab.windows w.window 0 → s.fab.windowWaits = [w] →
    (∀ p ∈ s.fab.tokens, windowHolds old.toNat p.1 = false) → windowDue s w = true ∧
    mgetD (windowStep s w).fab.windows w.window 0 = BitVec.ofNat 128
      (w.bits.toNat % 2 ^ 96 + (old.toNat / 2 ^ 96 % 2 ^ 16 + if old.getLsbD 0 then 1 else 0) % 2 ^ 16 * 2 ^ 96) ∧
    (∀ m, m ≠ w.window → mgetD (windowStep s w).fab.windows m 0 = mgetD s.fab.windows m 0) ∧
    (windowStep s w).fab.windowWaits = [] ∧ (windowStep s w).fab.remaps.length = s.fab.remaps.length + 1 ∧
    ∀ c, c < 192 → mget (coreOf (windowStep s w) c).oldWin w.window = some (((mget (coreOf s c).oldWin w.window)).getD old)) ∧
  ∀ (s : State) (n : Nat) (b : BitVec 128) (x : BitVec 256) (d : Nat) (dg key : BitVec 384) (msg : List Byte),
    s.svc.running = true →
    (n < 256 → (b.getLsbD 0 = true → windowBad b.toNat = false) → ∃ t, Takes (.registerWrite (.window n b)) s t ∧
      t = { s with fab := { s.fab with
        windowWaits := s.fab.windowWaits ++ [{ window := n, bits := if b.getLsbD 0 then b else 0, req := none }] } }) ∧
    (b.getLsbD 0 = true → windowBad b.toNat = true → Takes (.registerWrite (.window n b)) s s) ∧
    (n < 65536 → b.toNat / 2 ^ 16 % 2 ^ 16 = 0 → b.toNat / 2 ^ 4 % 2 ^ 4 ≤ 7 → ∃ t, Takes (.registerWrite (.connection n b)) s t ∧
      mgetD t.fab.conns n 0 = (if b.getLsbD 0 then b else 0) ∧
      ∀ m, m ≠ n → mgetD t.fab.conns m 0 = mgetD s.fab.conns m 0) ∧
    (n < 1920 → b.toNat / 2 ^ 16 = 0 → b.toNat % 2 ^ 8 < 24 → s.fab.reqs = [] → ∃ t, Takes (.registerWrite (.path n b)) s t ∧
      mgetD t.fab.paths n 0 = b ∧ ∀ m, m ≠ n → mgetD t.fab.paths m 0 = mgetD s.fab.paths m 0) ∧
    (n < 256 → exportBad s n x.toNat = false → (mgetD s.fab.exports n 0).getLsbD 0 = false →
      ∃ t, Takes (.registerWrite (.exportTable n x)) s t ∧ mgetD t.fab.exports n 0 = (if x.getLsbD 0 then x else 0) ∧
      ∀ m, m ≠ n → mgetD t.fab.exports m 0 = mgetD s.fab.exports m 0) ∧
    (exportBad s n x.toNat = true → Takes (.registerWrite (.exportTable n x)) s s) ∧
    (∃ t, Takes (.registerWrite (.deviceId d)) s t ∧ t = refreshCaps { s with phys := { s.phys with deviceId := d } }) ∧
    (7 ≤ n → n < 16 → ∃ t, Takes (.registerWrite (.measure n dg)) s t ∧
      measOf t n = Config.sha384 (leBytes 48 (measOf s n).toNat ++ leBytes 48 dg.toNat) ∧
      (∀ m, m ≠ n → measOf t m = measOf s m) ∧ t.mem = s.mem ∧ t.cores = s.cores) ∧
    (leNat (msg.take 16) / 2 ^ 48 % 2 ^ 16 ≠ 0 → ∃ t r, Takes (.registerWrite (.management key msg)) s t ∧
      t = { s with svc := { s.svc with replies := s.svc.replies ++ [r] } } ∧ r.sender = .host key ∧ r.status = 4 ∧
      r.seq.toNat = leNat (msg.take 16) % 2 ^ 32)

/-- R39, R40, R318, R319: a home grants a token that nobody holds against the request, revokes one whose tenure of 4,096 cycles is
over, and passes it on when it comes back, with the dirty bytes written; a holder acknowledges a revocation and forgets the
token; a grant gives the TKACQ its token value. -/
def Obligations.OwnershipTokens : Prop :=
  (∀ (s : State) (src region : Nat) (excl : Bool),
    (tokenExport s src region = none → ∃ t, Takes (.tokenAcquireRequest src region excl) s t ∧
      OnlySends s t (.grant src region .failed excl)) ∧
    (∀ e, tokenExport s src region = some e → bitOf e 1 = false → s.fab.exportWaits = [] → (dirOf s region).queue = [] →
      (dirOf s region).holders = [] → ∃ t, Takes (.tokenAcquireRequest src region excl) s t ∧
        t.fab.wire = s.fab.wire ++ [.grant src region .granted excl] ∧
        (dirOf t region).holders = [(src, excl, s.now)] ∧ (dirOf t region).queue = []) ∧
    ∀ e h t0, tokenExport s src region = some e → bitOf e 1 = false → s.fab.exportWaits = [] → (dirOf s region).queue = [] →
      (dirOf s region).holders = [(h, true, t0)] → h ≠ src → t0 + 4096 ≤ s.now → (dirOf s region).revoking = [] →
      ∃ t, Takes (.tokenAcquireRequest src region excl) s t ∧ t.fab.wire = s.fab.wire ++ [.revoke h region] ∧
        (dirOf t region).queue = [(src, excl)] ∧ (dirOf t region).revoking = [h]) ∧
  (∀ (s : State) (home region : Nat),
    (mget s.fab.tokens (home * 2 ^ 27 + region) = none → s.fab.reqs = [] → ∃ t, Takes (.tokenRevocation home region) s t ∧
      OnlySends s t (.revokeAck home region [])) ∧
    (∀ ex, mget s.fab.tokens (home * 2 ^ 27 + region) = some ex → region < 2 ^ 27 → s.fab.reqs = [] →
      ∃ t, Takes (.tokenRevocation home region) s t ∧
        t.fab.wire = s.fab.wire ++ [.revokeAck home region (dirtyOf s (home * 2 ^ 27 + region))] ∧
        mget t.fab.tokens (home * 2 ^ 27 + region) = none ∧ ∀ p ∈ t.fab.cached, regionOf p.1 ≠ home * 2 ^ 27 + region)) ∧
  (∀ (s : State) (src region q : Nat) (ex excl : Bool) (t0 a : Nat) (b : Byte) (e : Nat),
    (dirOf s region).holders = [(src, ex, t0)] → (dirOf s region).queue = [(q, excl)] → s.fab.exportWaits = [] →
    exportFor s src (a % 2 ^ 48) = some e → NoneWaits s (exportPa e (a % 2 ^ 48)) 1 →
    (∃ t, Takes (.tokenRevokeAck src region [(a, b)]) s t ∧ peek t.mem (exportPa e (a % 2 ^ 48)) = b ∧
      (dirOf t region).holders = [(q, excl, s.now)] ∧ t.fab.wire = s.fab.wire ++ [.grant q region .granted excl]) ∧
    ∃ t, Takes (.tokenReleaseReceived src region [(a, b)]) s t ∧ peek t.mem (exportPa e (a % 2 ^ 48)) = b ∧
      (dirOf t region).holders = [(q, excl, s.now)] ∧
      t.fab.wire = s.fab.wire ++ [.reply src 0 [], .grant q region .granted excl]) ∧
  (∀ (s : State) (region src q h t0 : Nat) (excl : Bool), s.fab.exportWaits = [] → (dirOf s region).queue = [(q, excl)] →
    (dirOf s region).holders = [(h, true, t0)] → h ≠ q → t0 + 4096 ≤ s.now → (dirOf s region).revoking = [] →
    ∃ t, Takes (.tokenTenureExpiry region src) s t ∧ t.fab.wire = s.fab.wire ++ [.revoke h region]) ∧
  ∀ (s : State) (r : FabReq) (o : Op) (a : Access) (x : Strand) (addr : Nat) (excl : Bool),
    Outstanding s r (.token o.id) o a x → o.kind = .tkacq → o.fields.strand = true → o.fields.fn = (if excl then 1 else 0) →
    r.parts = [(addr, .tokenAcq excl)] → s.fab.acquiring = [(regionOf addr, excl, [o.id])] → s.fab.tokens = [] →
    ∃ t y, Takes (.tokenGrant r.id .granted) s t ∧ t.fab.reqs = [] ∧ mget t.fab.tokens (regionOf addr) = some excl ∧
      strandAt t o.core o.slot = some y ∧
      sget y o.fields.d.toNat = fullCell (BitVec.ofNat 32 (if excl then 4 else 0))

/-! ### Collectives, the network and the copy engine -/

namespace Sys2Proof.Spec

/-- The request comes from the owner's host, and the service runs (R56, R58). -/
def Owns (s : State) (q : Req) : Prop := s.svc.running = true ∧ ∃ key, q.sender = .host key ∧ s.svc.owner = some key

/-- Member entries without a reserved bit, of strands that exist, at most 1,024 of them (R42). -/
def MembersLegal (ms : List Word) : Prop := ms.length ≤ 1024 ∧ ∀ w ∈ ms, w.toNat / 2 ^ 21 = 0 ∧ w.toNat / 2 ^ 7 % 2 ^ 13 < 6144

/-- The member of an entry (R42): device in bits [6:0], strand in [19:7], W in [20]. -/
def memberAt (w : Word) : Member := { dev := w.toNat % 2 ^ 7, strand := w.toNat / 2 ^ 7 % 2 ^ 13, w := w.getLsbD 20 }

/-- Members whose W is 1. -/
def gone (ms : List Member) : Nat := (ms.filter fun m => m.w).length

/-- An operation that is in flight for a live strand of its context. -/
def InFlight (s : State) (o : Op) (x : Strand) : Prop :=
  opById s o.id = some o ∧ o.complete = false ∧ o.discarded = false ∧ o.sample = none ∧ opFaulted o = false ∧ o.waits = [] ∧
  strandAt s o.core o.slot = some x ∧ x.ctx = o.ctx ∧ x.phase = .live

/-- The token of an operation has been written (R321). -/
def TokenIs (t : State) (o : Op) (w : Word) : Prop :=
  ∃ y, strandAt t o.core o.slot = some y ∧ sget y o.fields.d.toNat = fullCell w

/-- The attempt of a barrier that waits for its last member. -/
def LastMissing (c : CollDesc) (a : Attempt) (r : Arrival) (n : Nat) : Prop :=
  c.state = .running ∧ c.attempt = some a ∧ a.fn = 0 ∧ a.arrivals = [r] ∧ r.rank ≠ n ∧ c.arr = 1 ∧ c.wdr = 0 ∧
  c.members.length = 2 ∧ c.edits = [] ∧ a.noRoot = false

/-- Sends, in order. -/
def SendsAll (s t : State) (ws : List Wire) : Prop := t.fab.wire = s.fab.wire ++ ws

end Sys2Proof.Spec
open Sys2Proof.Spec

/-- R34, R42 to R46, R338, R339, R370: an arrival packet opens an attempt, completes one, or is dropped and counted; one that
differs from the first, or comes again from a member, raises an abort; an abort waits for the end of the cycle, after a completion of
the same cycle, when the copy sends it, if it is its own, and its acknowledgement, and enters ABORTING; it ends with the next attempt
number and the members withdrawn in the token; an attempt 2^20 cycles without an arrival is aborted; a withdrawal sets W; the owner's
edits apply to a descriptor that is IDLE and are answered. Packets of another attempt, of whatever kind, are dropped and counted. The
model's choices: that an arrival packet is answered OK (log entry 36), and that a copy acknowledges on entering ABORTING, the
originator's too (log entry 55). -/
def Obligations.CollectiveEvents : Prop :=
  (∀ (s : State) (src d rank : Nat) (q0 q1 : Word) (fn : Nat) (input : List Byte) (c : CollDesc), c = collOf s d →
    c.state = .idle → c.wdr = 0 → 2 ≤ c.members.length → fn < 2 →
    ∃ t a, Takes (.collArrivalPacket src d c.att.toNat rank q0 q1 fn input) s t ∧ SendsAll s t [.reply src 0 []] ∧
      collOf t d = { c with state := .running, arr := 1, attempt := some a } ∧ a.fn = fn ∧
      a.arrivals = [{ rank := rank, input := input, op := none, since := s.now }]) ∧
  (∀ (s : State) (src d rank : Nat) (q0 q1 : Word) (input : List Byte) (c : CollDesc) (a : Attempt) (r : Arrival) (o : Op)
    (x : Strand), c = collOf s d → LastMissing c a r rank → a.dtype = (collParams [q0, q1]).dtype →
    a.op = (collParams [q0, q1]).op → a.root = (collParams [q0, q1]).root → r.op = some o.id → InFlight s o x → s.fab.reqs = [] →
    ∃ t, Takes (.collArrivalPacket src d c.att.toNat rank q0 q1 0 input) s t ∧ (collOf t d).state = .idle ∧
      (collOf t d).att = c.att ∧ (collOf t d).arr = 0 ∧ (collOf t d).attempt = none ∧ TokenIs t o (collToken 0 0 c.att)) ∧
  (∀ (s : State) (src d rank : Nat) (q0 q1 : Word) (fn : Nat) (input : List Byte) (c : CollDesc) (a : Attempt), c = collOf s d →
    c.state = .running → c.attempt = some a → c.abort = none → c.members ≠ [] →
    (a.fn ≠ fn ∨ a.dtype ≠ (collParams [q0, q1]).dtype ∨ a.op ≠ (collParams [q0, q1]).op ∨
      a.root ≠ (collParams [q0, q1]).root ∨ (fn ≠ 0 ∧ a.count ≠ (collParams [q0, q1]).count) ∨ ∃ r ∈ a.arrivals, r.rank = rank) →
    ∃ t, Takes (.collArrivalPacket src d c.att.toNat rank q0 q1 fn input) s t ∧ SendsAll s t [.reply src 0 []] ∧
      collOf t d = { c with abort := some { own := true, acked := [] } }) ∧
  (∀ (s : State) (src d att rank : Nat) (q0 q1 : Word) (fn : Nat) (input : List Byte), BitVec.ofNat 16 att ≠ (collOf s d).att →
    ∀ i ∈ [Instr.collArrivalPacket src d att rank q0 q1 fn input, .collAbortNotice d att, .collAbortAck d att src,
      .withdrawalNotice d att rank], ∃ t, Takes i s t ∧
        collOf t d = { collOf s d with drop := min 8191 ((collOf s d).drop + 1) } ∧ t.ops = s.ops ∧ t.cores = s.cores) ∧
  (∀ (s : State) (d : Nat) (c : CollDesc) (a : Attempt), c = collOf s d → c.state = .running → c.attempt = some a →
    c.abort = none → c.members ≠ [] →
    (∃ t, Takes (.collAbortNotice d c.att.toNat) s t ∧ SendsAll s t [] ∧
      collOf t d = { c with abort := some { own := false, acked := [] } }) ∧
    (a.since + 2 ^ 20 ≤ s.now → ∃ t, Takes (.collTimeout d) s t ∧ SendsAll s t [] ∧
      collOf t d = { c with abort := some { own := true, acked := [] } })) ∧
  (∀ (s : State) (d v : Nat) (c : CollDesc) (a : Attempt) (x : AbortDue), s.coll = [(d, c)] → c.state = .running →
    c.attempt = some a → c.abort = some x → otherDevices s c = [v] → v ∉ x.acked →
    SendsAll s (collSweep s) ((if x.own then [.collAbort v d c.att.toNat] else []) ++ [.collAck v d c.att.toNat]) ∧
    collOf (collSweep s) d = { c with state := .aborting, abort := none, attempt := some { a with acks := [v] } }) ∧
  (∀ (s : State) (d v : Nat) (c : CollDesc) (a : Attempt) (r : Arrival) (o : Op) (x : Strand), c = collOf s d →
    c.state = .aborting → c.attempt = some a → a.acks = [v] → a.arrivals = [r] → r.op = some o.id → c.waiting = [] →
    c.edits = [] → InFlight s o x → ∃ t, Takes (.collAbortAck d c.att.toNat v) s t ∧ (collOf t d).state = .idle ∧
      (collOf t d).att = c.att + 1 ∧ (collOf t d).arr = 0 ∧ (collOf t d).wdr = gone c.members ∧ (collOf t d).attempt = none ∧
      TokenIs t o (collToken 1 c.wdr (c.att + 1))) ∧
  (∀ (s : State) (d rank : Nat) (c : CollDesc) (m : Member), c = collOf s d → c.state = .idle → c.members[rank]? = some m →
    m.w = false → ∃ t, Takes (.withdrawalNotice d c.att.toNat rank) s t ∧
      collOf t d = { c with members := c.members.set rank { m with w := true }, wdr := c.wdr + 1 }) ∧
  (∀ (s : State) (q : Req) (desc : DWord) (c : CollDesc), Owns s q → desc.toNat < 256 → c = collOf s desc.toNat →
    c.state = .running → c.abort = none → c.members ≠ [] →
    ∃ u t, Takes (.colldescAbort q desc) s t ∧ Answered u t q 0 [] ∧ u.svc = s.svc ∧ SendsAll s t [] ∧
      collOf t desc.toNat = { c with abort := some { own := true, acked := [] } }) ∧
  ∀ (s : State) (q : Req) (desc ctx : DWord) (ms : List Word) (c : CollDesc), Owns s q → desc.toNat < 256 →
    c = collOf s desc.toNat → c.state = .idle → c.edits = [] →
    (MembersLegal ms → (mget s.ctxs ctx.toNat).isSome = true → ∃ u t, Takes (.colldescSetUp q desc ctx ms) s t ∧
      Answered u t q 0 [] ∧ u.svc = s.svc ∧ collOf t desc.toNat =
        { c with ctx := ctx.toNat, members := ms.map memberAt, wdr := gone (ms.map memberAt) }) ∧
    (MembersLegal ms → c.members.length + ms.length ≤ 1024 → ∃ u t, Takes (.colldescAddMembers q desc ms) s t ∧
      Answered u t q 0 [] ∧ u.svc = s.svc ∧ collOf t desc.toNat =
        { c with members := c.members ++ ms.map memberAt, wdr := gone (c.members ++ ms.map memberAt) }) ∧
    (MembersLegal ms → ∃ u t, Takes (.colldescRemoveMembers q desc ms) s t ∧ Answered u t q 0 [] ∧ u.svc = s.svc ∧
      ∀ m, m ∈ (collOf t desc.toNat).members ↔
        m ∈ c.members ∧ ∀ w ∈ ms, ¬ ((memberAt w).dev = m.dev ∧ (memberAt w).strand = m.strand)) ∧
    (∀ w m, ms = [w] → MembersLegal ms → c.members = [m] → m.w = false → m.dev = (memberAt w).dev →
      m.strand = (memberAt w).strand → m.dev = s.phys.deviceId → ∃ u t, Takes (.colldescWithdraw q desc ms) s t ∧
      Answered u t q 0 [] ∧ u.svc = s.svc ∧ (collOf t desc.toNat).members = [{ m with w := true }]) ∧
    ∃ u t, Takes (.colldescRead q desc) s t ∧ u.svc = s.svc ∧ collOf t desc.toNat = { c with drop := 0 } ∧
      Answered u t q 0 (leBytes 8 (collWord c) ++ padEight (c.members.flatMap fun m => leBytes 4 (memberWord m)))

/-- R37, R47, R50, R51, R336, R341, R342: a message without a posted request is kept, and dropped and counted without a valid
connection or in a mode that the device does not have (the first: log entry 78); a
delivery completes its operation with its length as COUNT; lost retries fault it REMOTE; the data of a NETRD is written into its
buffer; the copy engine writes exactly the bytes of its chunk, and the last chunk completes the copy with its COUNT. -/
def Obligations.NetworkAndCopyEvents : Prop :=
  (∀ (s : State) (mode : NetMode) (conn tag : Nat) (bs : List Byte),
    (mode = .rudi ∨ mode = .uud ∨ (mgetD s.fab.conns conn 0).getLsbD 0 = false →
      ∃ t, Takes (.netMessageArrival mode conn tag bs) s t ∧ t = { s with net := { s.net with dropped := s.net.dropped + 1 } }) ∧
    (mode = .rod ∨ mode = .rud → (mgetD s.fab.conns conn 0).getLsbD 0 = true → conn ≠ 0 →
      (∀ p ∈ s.net.posts, ¬ (p.conn = conn ∧ p.tag = tag ∧ p.fired = none)) →
      ∃ t, Takes (.netMessageArrival mode conn tag bs) s t ∧
        t = { s with net := { s.net with received := s.net.received ++ [(conn, tag, bs)] } })) ∧
  (∀ (s : State) (o : Op) (w : NetWork) (x : Strand) (k : Nat), InFlight s o x → o.work = .net w → w.sent = some k →
    s.net.posts = [] →
    (w.what = 0 ∨ w.what = 2 → ∃ t, Takes (.netDeliveryConfirm o.id) s t ∧ TokenIs t o (netToken 0 w.len) ∧
      t.mem = s.mem) ∧
    (w.what < 3 → o.accs = [] → ∃ t o', Takes (.netRetryExhausted o.id) s t ∧ opById t o.id = some o' ∧
      faultOf o' = some (0x0E, BitVec.ofNat 32 (0x13 + 256 * 0xFF), w.buf, o.lanes)) ∧
    (w.what < 3 → o.accs = [] → k + 2 ^ 20 ≤ s.now → o.kind = .net → (∀ r ∈ s.fab.reqs, r.id ≠ o.id) →
      ∃ t o', Takes (.fabricTimeout o.id) s t ∧ opById t o.id = some o' ∧
        faultOf o' = some (0x0E, BitVec.ofNat 32 (0x14 + 256 * 0xFF), w.buf, o.lanes)) ∧
    ∀ (a : Access) (pa cattr : Nat) (data : List Byte), w.what = 1 → o.tok = none → o.accs = [a] →
      a.place = some (.dev pa cattr) → a.data.toNat = w.len → data.length = w.len → NoneWaits s pa w.len →
      s.fab.reqs = [] → ∃ t, Takes (.netrdDataReturn o.id data) s t ∧ TokenIs t o (netToken 0 w.len) ∧
        ∀ b, peek t.mem b = if pa ≤ b ∧ b < pa + w.len then (data[b - pa]?).getD 0 else peek s.mem b) ∧
  ∀ (s : State) (o : Op) (w : CpyWork) (x : Strand) (m : Move) (i pa cattr len : Nat), InFlight s o x → o.work = .cpy w →
    o.accs = [] → o.gate = .none → w.cur = some i → w.todo = [] → w.past = none → w.dry = false →
    w.writing = false → w.due ≤ s.now → w.moves = [m] →
    m.dst = .mem (.dev pa cattr) → m.dbit = 0 → m.sbit % 8 = 0 → m.n = 8 * len → NoneWaits s pa len → s.fab.reqs = [] →
    ∃ t, Takes (.cpyChunkComplete o.id) s t ∧ TokenIs t o (BitVec.ofNat 32 w.count) ∧
      ∀ b, peek t.mem b = if pa ≤ b ∧ b < pa + len then mgetD o.got (b - pa) 0 else peek s.mem b

/-! ### The Linzel service -/

namespace Sys2Proof.Spec

/-- The request comes from the owner's host, or from a strand of the context that it names, and the service runs (R58). -/
def OwnsOrIn (s : State) (q : Req) (ctx : Nat) : Prop := Owns s q ∨ (s.svc.running = true ∧ ∃ g, q.sender = .strand g ctx)

/-- The requests that are the owner's alone (R58). -/
def ownerRequests (q : Req) (a b c : DWord) (x : BitVec 256) (y : BitVec 128) (ms : List Word) (bs : List Byte) : List Instr :=
  [ .ctxCreate q a b x c, .ctxDestroy q a, .ctxWeight q a b, .window q a y, .exportEntry q a x, .connectConnection q a y,
    .connectPath q a y, .colldescSetUp q a b ms, .colldescAddMembers q a ms, .colldescRemoveMembers q a ms,
    .colldescWithdraw q a ms, .colldescAbort q a, .colldescRead q a, .powerLimit q a, .fwUpdate q bs 0,
    .statusErrorLog q a b, .debugGrant q 0 a, .debugRevoke q 0 a ]

/-- The claim meets the conditions of R55: the certificate verifies for the key, the signature for the claim, and the term is
above TERM. -/
def ClaimGood (s : State) (term : DWord) (key : BitVec 768) (cert : List Byte) (sig : BitVec 768) : Prop :=
  Config.certVerify cert key = true ∧ Config.ecdsaVerify key (Config.sha384 (claimBytes term key cert)) sig = true ∧
  s.svc.term.toNat < term.toNat

/-- The digest that a release is signed over (R57). -/
def releaseDigest (term signer : DWord) : BitVec 384 := Config.sha384 (leBytes 8 term.toNat ++ leBytes 8 signer.toNat)

end Sys2Proof.Spec
open Sys2Proof.Spec

/-- R23, R53 to R60, R189, R296: a good claim stands for election while nobody owns the device, a bad one is DENIED, and with an
owner it is OWNED; the window's
winner is the highest term and owns the device; the owner's signature releases it; reports, power limit, firmware and status are
answered; what is the owner's alone is DENIED to others; an unknown code is BADARG; and the reply to a strand takes the place of
its arguments, with the status in D.
The model's choices: what an invalid claim is answered and which digests extend MEAS5 (log entry 42), what FIRST of STATUS counts from
(log entry 23), and what a reply too long for its block is answered (log entry 49). -/
def Obligations.IdentityRequests : Prop :=
  (∀ (s : State) (q : Req) (nonce : BitVec 384), s.svc.running = true → ∃ t, Takes (.attest q nonce) s t ∧
    Answered s t q 0 (reportBody s nonce ++ leBytes 96 (Config.identitySign (Config.sha384 (reportBody s nonce))).toNat ++
      leBytes 8 Config.certChain.length ++ padEight Config.certChain)) ∧
  (∀ (s : State) (q : Req) (term : DWord) (key : BitVec 768) (cert : List Byte) (sig : BitVec 768), s.svc.running = true →
    (s.svc.owner = none → ClaimGood s term key cert sig → ∃ t c, Takes (.claim q term key cert sig) s t ∧
      t = { s with svc := { s.svc with claims := s.svc.claims ++ [c] } } ∧ c.req = q ∧ c.term = term ∧ c.key = key ∧
      c.keyHash = Config.sha384 (leBytes 96 key.toNat)) ∧
    (s.svc.owner = none → ¬ ClaimGood s term key cert sig → ∃ t, Takes (.claim q term key cert sig) s t ∧ Answered s t q 1 []) ∧
    (s.svc.owner.isSome = true → ∃ t, Takes (.claim q term key cert sig) s t ∧ Answered s t q 3 [])) ∧
  (∀ (s : State) (a b : Claim) (ka kb : BitVec 384), s.svc.running = true → s.svc.claims = [a, b] → a.req ≠ b.req →
    a.req.sender = .host ka → b.req.sender = .host kb → b.term.toNat < a.term.toNat →
    ∃ t, Takes .electionWindowClose s t ∧ t.svc.owner = some a.keyHash ∧ t.svc.term = a.term ∧ t.svc.claims = [] ∧
      Extended s t 5 a.digest ∧ t.svc.replies = s.svc.replies ++
        [{ sender := a.req.sender, seq := a.req.seq, code := a.req.code, status := 0, args := [] },
         { sender := b.req.sender, seq := b.req.seq, code := b.req.code, status := 2, args := [] }]) ∧
  (∀ (s : State) (q : Req) (term : DWord) (sig : BitVec 768), s.svc.running = true → s.svc.owner.isSome = true →
    s.svc.term = term → Config.ecdsaVerify s.svc.ownerKey (releaseDigest term 0) sig = true →
    ∃ u t, Takes (.release q term 0 sig) s t ∧ Answered u t q 0 [] ∧ u.svc.owner = none ∧ u.svc.term = term ∧
      Extended s u 5 (releaseDigest term 0)) ∧
  (∀ (s : State) (q : Req) (w : DWord), Owns s q → 900 ≤ w.toNat → w.toNat ≤ 1800 → ∃ u t, Takes (.powerLimit q w) s t ∧
    Answered u t q 0 [] ∧ u.power = { s.power with limit := w.toNat } ∧ u.svc = s.svc) ∧
  (∀ (s : State) (q : Req) (image : List Byte) (sig : BitVec 768), Owns s q →
    Config.ecdsaVerify Config.birrovKey (Config.sha384 image) sig = true → ∃ u t, Takes (.fwUpdate q image sig) s t ∧
      Answered u t q 0 [] ∧ u.bootFlash = { image := image, sig := sig } ∧ u.flashKnown = true ∧ u.svc.flashLocked = true ∧
      Extended s u 6 (Config.sha384 image)) ∧
  (∀ (s : State) (q : Req), s.svc.running = true → (∃ t args, Takes (.statusDevice q) s t ∧ Answered s t q 0 args) ∧
    (∃ t args, Takes (.statusThermal q) s t ∧ Answered s t q 0 args) ∧
    ∀ code, ∃ t, Takes (.unknownRequest q code) s t ∧ Answered s t q 4 []) ∧
  (∀ (s : State) (q : Req) (first count : DWord), Owns s q → count.toNat ≤ 2048 → ∃ t, Takes (.statusErrorLog q first count) s t ∧
    Answered s t q 0 (((s.svc.log.drop first.toNat).take count.toNat).flatMap fun r => leBytes 32 (logWord r))) ∧
  (∀ (s : State) (q : Req) (a b c : DWord) (x : BitVec 256) (y : BitVec 128) (ms : List Word) (bs : List Byte),
    s.svc.running = true → isOwner s q = false → ∀ i ∈ ownerRequests q a b c x y ms bs, ∃ t, Takes i s t ∧ Answered s t q 1 []) ∧
  ∀ (s : State) (g e d status pa : Nat) (k : Nat → Nat) (nx : Pc) (x : Strand) (r : SysReq) (p : Split) (args : List Byte),
    strandAt s (g / 32) (g % 32) = some x → x.handling = none → x.sys = some r → r.reply = some (status, args) →
    r.written = false → (∀ im ∈ s.images, im.core = g / 32 → mget im.data.slots (g % 32) = none ∧ splitsIn im.data (g % 32) = []) →
    splitsOf s (g / 32) (g % 32) = [(e, p)] → splitAt s (g / 32) e = some p → p.parked = some (.sys d nx) → p.held = none →
    d < 64 →
    (args.length ≤ r.len → NoneWaits s pa args.length →
      blockPlaces x.ctx g (blockLane x) (r.va.toNat + 8) args.length s =
        (some ((List.range args.length).map fun i => .dev (pa + i) (k i)), s) →
      ∃ t y p', Takes (.serviceReply g) s t ∧ strandAt t (g / 32) (g % 32) = some y ∧ y.sys = none ∧
        sget y d = fullCell (BitVec.ofNat 32 status) ∧ splitAt t (g / 32) e = some p' ∧ p'.parked = none ∧ p'.pc = nx ∧
        ∀ b, peek t.mem b = if pa ≤ b ∧ b < pa + args.length then (args[b - pa]?).getD 0 else peek s.mem b) ∧
    (r.len < args.length → ∃ t y p', Takes (.serviceReply g) s t ∧ strandAt t (g / 32) (g % 32) = some y ∧ y.sys = none ∧
      sget y d = fullCell 5 ∧ splitAt t (g / 32) e = some p' ∧ p'.parked = none ∧ p'.pc = nx ∧ t.mem = s.mem)

/-! ### Contexts, counters, mappings, launches -/

namespace Sys2Proof.Spec

/-- The arguments of CTXCREATE are in order (R60, R61): CONFIG without reserved bits, a weight from 1, PSZ up to 12, JOBID of 32 and
CORES of 192 bits, a telemetry ring of 0 or a power of two from 16 to 2^20 records. -/
def CtxArgsLegal (cfg jobid : DWord) (cores : BitVec 256) (tring : DWord) : Prop :=
  cfg.getLsbD 11 = false ∧ cfg.toNat / 2 ^ 16 = 0 ∧ cfg.toNat % 256 ≠ 0 ∧ cfg.toNat / 2 ^ 12 % 16 ≤ 12 ∧
  jobid.toNat < 2 ^ 32 ∧ cores.toNat < 2 ^ 192 ∧ (tring = 0 ∨ ∃ n, 4 ≤ n ∧ n ≤ 20 ∧ tring.toNat = 2 ^ n)

/-- A counter as COUNTER allocates it (R70). -/
def newCounter (ctx level : Nat) (parent : Option Nat) : Counter :=
  { count := 1, level := level, cancel := false, aband := false, done := false, parent := parent, ctx := ctx }

/-- Nothing but the counters, and the count of strands that terminated in launches of them (R288), has changed. -/
def OnlyCounters (s u : State) : Prop := { u with counters := s.counters, sched := { u.sched with terms := s.sched.terms } } = s

/-- A window entry in order (R29, R30): no reserved bit, SZ from 21 to 48, a fabric target below 240, bases aligned to the window and
an end within 2^48. -/
def WindowLegal (w : BitVec 128) : Prop :=
  w.getLsbD 0 = true ∧ w.getLsbD 7 = false ∧ w.extractLsb' 52 12 = 0 ∧ w.extractLsb' 92 4 = 0 ∧ w.extractLsb' 112 16 = 0 ∧
  21 ≤ (w.extractLsb' 1 6).toNat ∧ (w.extractLsb' 1 6).toNat ≤ 48 ∧ (w.extractLsb' 8 8).toNat < 240 ∧
  (w.extractLsb' 64 27).toNat * 2 ^ 21 + 2 ^ (w.extractLsb' 1 6).toNat ≤ 2 ^ 48 ∧
  (w.extractLsb' 16 36).toNat * 2 ^ 21 % 2 ^ (w.extractLsb' 1 6).toNat = 0 ∧
  (w.extractLsb' 64 27).toNat * 2 ^ 21 % 2 ^ (w.extractLsb' 1 6).toNat = 0

/-- The launch stands at the tail of its queue. -/
def AtTail (s u : State) (n : Nat) (desc : BitVec 1024) : Prop :=
  mgetD u.sched.queues n [] = mgetD s.sched.queues n [] ++ [{ desc := desc ||| 1, placed := 0, last := none, held := true }] ∧
  ∀ m, m ≠ n → mgetD u.sched.queues m [] = mgetD s.sched.queues m []

/-- The service has begun an invalidation of a range on every core; its request is answered when it is complete (R127). -/
def Invalidates (u t : State) (v : Inval) (ctx lo hi : Nat) (q : Req) : Prop :=
  t.svc.invals = u.svc.invals ++ [v] ∧ v.ctx = ctx ∧ v.lo = lo ∧ v.hi = hi ∧ v.req = some q ∧
  ∀ c, c < 192 → v.id ∈ (coreOf t c).invs

end Sys2Proof.Spec
open Sys2Proof.Spec

/-- R58, R60, R61, R69, R70, R92: CTXCREATE makes a context with what CONFIG, JOBID and CORES say; CTXDESTROY begins its end;
CTXWEIGHT and CTXHANDLER set the weight and the handler; COUNTER allocates with COUNT 1, reads, and frees a counter that is
done. That the lowest free context and counter are taken is the model's choice (log entry 94). -/
def Obligations.ContextRequests : Prop :=
  (∀ (s u : State) (q : Req) (cfg jobid : DWord) (cores : BitVec 256) (tring : DWord) (id : Nat) (x : Ctx), Owns s q →
    CtxArgsLegal cfg jobid cores tring → 1 ≤ id → id ≤ 255 → mget s.ctxs id = none →
    (∀ j, 1 ≤ j → j < id → (mget s.ctxs j).isSome = true) →
    buildCtx s id cfg.toNat jobid.toNat cores.toNat tring.toNat = some (x, u) → s.phys.lostCores = [] →
    ∃ t, Takes (.ctxCreate q cfg jobid cores tring) s t ∧
      Answered u t q 0 (leBytes 8 id ++ leBytes 8 x.pbase.toNat ++ leBytes 8 x.imgbase.toNat) ∧ mget t.ctxs id = some x ∧
      x.weight = cfg.toNat % 256 ∧ x.priomax = cfg.toNat / 256 % 4 ∧ x.sigreq = cfg.getLsbD 10 ∧
      x.psz = cfg.toNat / 2 ^ 12 % 16 ∧ x.jobid = jobid.truncate 32 ∧ x.cores = cores.truncate 192 ∧ x.handler = 0 ∧
      x.res = true ∧ x.destroying = none ∧ x.failed = false) ∧
  (∀ (s : State) (q : Req) (ctx w : DWord) (x : Ctx), Owns s q → mget s.ctxs ctx.toNat = some x →
    (x.destroying = none → ∃ t, Takes (.ctxDestroy q ctx) s t ∧
      t = { s with ctxs := mput s.ctxs ctx.toNat { x with destroying := some q } }) ∧
    (1 ≤ w.toNat → w.toNat ≤ 255 → ∃ t, Takes (.ctxWeight q ctx w) s t ∧
      Answered { s with ctxs := mput s.ctxs ctx.toNat { x with weight := w.toNat } } t q 0 [])) ∧
  (∀ (s : State) (q : Req) (ctx h : DWord) (x : Ctx), OwnsOrIn s q ctx.toNat → mget s.ctxs ctx.toNat = some x → TargetOk h →
    ∃ t, Takes (.ctxHandler q ctx h) s t ∧
      Answered { s with ctxs := mput s.ctxs ctx.toNat { x with handler := h.truncate 57 } } t q 0 []) ∧
  (∀ (s : State) (q : Req) (ctx op : DWord) (x : Ctx) (i : Nat), OwnsOrIn s q ctx.toNat → mget s.ctxs ctx.toNat = some x →
    x.destroying = none → op.toNat / 2 ^ 17 = 0 → i < 4096 → mget s.counters i = none →
    (∀ j, j < i → (mget s.counters j).isSome = true) →
    (op.getLsbD 16 = false → ∃ u t, Takes (.counterAllocate q ctx op) s t ∧ Answered u t q 0 (leBytes 8 i) ∧ OnlyCounters s u ∧
      mget u.counters i = some (newCounter ctx.toNat (op.toNat / 4 % 4) none) ∧
      ∀ j, j ≠ i → mget u.counters j = mget s.counters j) ∧
    (∀ c n, op.getLsbD 16 = true → n = op.toNat / 16 % 4096 → mget s.counters n = some c → c.ctx = ctx.toNat →
      op.toNat / 4 % 4 < c.level → c.done = false → ∃ u t, Takes (.counterAllocate q ctx op) s t ∧
      Answered u t q 0 (leBytes 8 i) ∧ mget u.counters i = some (newCounter ctx.toNat (op.toNat / 4 % 4) (some n)) ∧
      mget u.counters n = some { c with count := c.count + 1 })) ∧
  ∀ (s : State) (q : Req) (ctx op index : DWord) (c : Counter), OwnsOrIn s q ctx.toNat → mget s.counters index.toNat = some c →
    c.ctx = ctx.toNat → op.toNat / 2 ^ 17 = 0 →
    (∃ t, Takes (.counterRead q ctx op index) s t ∧
      Answered s t q 0 (leBytes 8 index.toNat ++ leBytes 8 (counterWord c))) ∧
    (c.done = true → launchNames s index.toNat = false → ∃ u t, Takes (.counterFree q ctx op index) s t ∧
      Answered u t q 0 (leBytes 8 index.toNat) ∧ OnlyCounters s u ∧ mget u.counters index.toNat = none ∧
      ∀ j, j ≠ index.toNat → mget u.counters j = mget s.counters j) ∧
    (c.done = false → ∃ t, Takes (.counterFree q ctx op index) s t ∧ Answered s t q 6 [])

/-- R30, R31, R33, R39, R48, R60, R73, R74, R127: MAP maps its pages, and one over an old mapping begins an invalidation; UNMAP begins an invalidation of the range on every core;
WINDOW waits for the tokens of the old range and then puts its contents in force, with the next generation when the window was live,
while every core keeps the old until its remap point; EXPORT and CONNECT write their entries; LAUNCH puts a launch in order at the
tail of its queue. The model's choices: what MAP and LAUNCH refuse, and in which order (log entries 44 and 47), and that a MAP without
an old mapping is answered at once, when the stores of the clusters are at the home (log entry 38). -/
def Obligations.MappingAndLaunchRequests : Prop :=
  (∀ (s u : State) (q : Req) (ctx va size w0 w1 flags : DWord) (x : Ctx), OwnsOrIn s q ctx.toNat →
    mget s.ctxs ctx.toNat = some x → flags.toNat < 16 → size ≠ 0 →
    va.toNat % 2 ^ pageBits (flags.toNat / 4 % 4) = 0 → size.toNat % 2 ^ pageBits (flags.toNat / 4 % 4) = 0 →
    va.toNat + size.toNat ≤ 2 ^ 57 → w0.getLsbD 0 = true → w0.getLsbD 1 = true → keptRange x va.toNat size.toNat = false →
    mapPages x ctx.toNat (pageBits (flags.toNat / 4 % 4)) w0.toNat w1.toNat flags.toNat va.toNat
      (size.toNat / 2 ^ pageBits (flags.toNat / 4 % 4)) 0 s = .ok u →
    (anyMapped s va.toNat (va.toNat + size.toNat) walkLevels (x.ptroot.toNat * 4096) 0 = false →
      ∃ t, Takes (.map q ctx va size w0 w1 flags) s t ∧ Answered (flushAll u) t q 0 []) ∧
    (anyMapped s va.toNat (va.toNat + size.toNat) walkLevels (x.ptroot.toNat * 4096) 0 = true →
      ∃ t v, Takes (.map q ctx va size w0 w1 flags) s t ∧ Invalidates u t v ctx.toNat va.toNat (va.toNat + size.toNat) q)) ∧
  (∀ (s : State) (q : Req) (ctx va size : DWord) (x : Ctx), OwnsOrIn s q ctx.toNat → mget s.ctxs ctx.toNat = some x → size ≠ 0 →
    va.toNat % 65536 = 0 → size.toNat % 65536 = 0 → va.toNat + size.toNat ≤ 2 ^ 57 →
    keptRange x va.toNat size.toNat = false → ∃ t v, Takes (.unmap q ctx va size) s t ∧
      Invalidates s t v ctx.toNat va.toNat (va.toNat + size.toNat) q) ∧
  (∀ (s : State) (q : Req) (entry : DWord) (w : BitVec 128), Owns s q → entry.toNat < 256 → WindowLegal w →
    s.fab.tokens = [] → s.fab.reqs = [] → (∀ c, mget (coreOf s c).oldWin entry.toNat = none) →
    ∃ t gen wait, Takes (.window q entry w) s t ∧ t = { s with fab := { s.fab with windowWaits := s.fab.windowWaits ++ [wait] } } ∧
      wait = { window := entry.toNat, bits := w, req := some q } ∧ windowDue t wait = true ∧
      gen = ((mgetD s.fab.windows entry.toNat 0).toNat / 2 ^ 96 % 2 ^ 16 +
        if (mgetD s.fab.windows entry.toNat 0).getLsbD 0 then 1 else 0) % 2 ^ 16 ∧
      (mgetD (windowStep t wait).fab.windows entry.toNat 0).toNat = w.toNat % 2 ^ 96 + gen * 2 ^ 96 ∧
      (windowStep t wait).fab.remaps = s.fab.remaps ++
        [{ window := entry.toNat, gen := gen, old := mgetD s.fab.windows entry.toNat 0, req := some q, marks := [] }] ∧
      ∀ c, c < 192 → mget (coreOf (windowStep t wait) c).oldWin entry.toNat = some (mgetD s.fab.windows entry.toNat 0)) ∧
  (∀ (s : State) (q : Req) (entry : DWord) (x : BitVec 256), Owns s q → entry.toNat < 256 → x.getLsbD 0 = true →
    exportBad s entry.toNat x.toNat = false →
    ((mgetD s.fab.exports entry.toNat 0).getLsbD 0 = false → ∃ u t, Takes (.exportEntry q entry x) s t ∧ Answered u t q 0 [] ∧
      mgetD u.fab.exports entry.toNat 0 = x ∧ ∀ m, m ≠ entry.toNat → mgetD u.fab.exports m 0 = mgetD s.fab.exports m 0) ∧
    ((mgetD s.fab.exports entry.toNat 0).getLsbD 0 = true → mgetD s.fab.exports entry.toNat 0 ≠ x →
      ∃ t, Takes (.exportEntry q entry x) s t ∧
        t.fab.exportWaits = s.fab.exportWaits ++ [{ entry := entry.toNat, bits := x, req := q }] ∧
        t.fab.exports = s.fab.exports)) ∧
  (∀ (s : State) (q : Req) (entry : DWord) (w : BitVec 128), Owns s q → s.fab.reqs = [] →
    (1 ≤ entry.toNat → entry.toNat < 65536 → w.getLsbD 0 = true → w.extractLsb' 16 16 = 0 →
      (w.extractLsb' 4 4).toNat ≤ 7 → ∃ u t, Takes (.connectConnection q entry w) s t ∧ Answered u t q 0 [] ∧
        mgetD u.fab.conns entry.toNat 0 = w ∧ ∀ m, m ≠ entry.toNat → mgetD u.fab.conns m 0 = mgetD s.fab.conns m 0) ∧
    (entry.toNat < 1920 → w.extractLsb' 16 112 = 0 → (w.extractLsb' 0 8).toNat < 24 →
      ∃ u t, Takes (.connectPath q entry w) s t ∧ Answered u t q 0 [] ∧ mgetD u.fab.paths entry.toNat 0 = w)) ∧
  ∀ (s : State) (q : Req) (desc : BitVec 1024) (close : DWord) (x : Ctx) (n : Nat),
    OwnsOrIn s q (descField desc 15 8) → mget s.ctxs (descField desc 15 8) = some x → n = close.toNat / 2 ^ 40 →
    n ≤ 4 * x.priomax + 3 → n < 16 → close.toNat % 2 ^ 40 = 0 → x.failed = false →
    (x.sigreq = true → imageTrusted s (Config.imageFile desc) = true) → x.destroying = none →
    descBad s x (descField desc 15 8) desc = false →
    ((mgetD s.sched.queues n []).length < 64 → ∃ u t, Takes (.launch q desc close) s t ∧ Answered u t q 0 [] ∧ AtTail s u n desc ∧
      u.counters = s.counters ∧ u.svc = s.svc ∧ u.mem = s.mem) ∧
    ((mgetD s.sched.queues n []).length = 64 → ∃ t, Takes (.launch q desc close) s t ∧ Answered s t q 6 [])

/-! ### Debugging -/

namespace Sys2Proof.Spec

/-- The request comes from a host that holds a debug grant for a context that exists, and the service runs (R200). -/
def Debugs (s : State) (q : Req) (ctx : DWord) : Prop :=
  s.svc.running = true ∧ (∃ key, q.sender = .host key ∧ (key, ctx.toNat) ∈ s.svc.grants) ∧ (mget s.ctxs ctx.toNat).isSome = true

/-- A strand of a context that stands in its slot. -/
def Stands (s : State) (ctx strand : DWord) (x : Strand) : Prop :=
  strandAt s (strand.toNat / 32) (strand.toNat % 32) = some x ∧ x.ctx = ctx.toNat ∧ strand ≠ BitVec.allOnes 64

/-- The context's descriptor is changed, and nothing else. -/
def withCtx (s : State) (ctx : DWord) (x : Ctx) : State := { s with ctxs := mput s.ctxs ctx.toNat x }

/-- The strand in its slot is changed, and nothing else of the machine but the model's count of free values. -/
def OnlyStrand (s u : State) (strand : DWord) (x : Strand) : Prop :=
  strandAt u (strand.toNat / 32) (strand.toNat % 32) = some x ∧ { u with cores := s.cores, fresh := s.fresh } = s ∧
  ∀ c sl, c ≠ strand.toNat / 32 ∨ sl ≠ strand.toNat % 32 → strandAt u c sl = strandAt s c sl

end Sys2Proof.Spec
open Sys2Proof.Spec

/-- R186, R191, R197 to R200, R293: the owner grants and revokes debug rights; a holder configures tracing, halts and resumes
strands, reads stop records and state, writes a halted strand's registers, which become FULL, and sets breakpoints; an enabled
breakpoint at a split's PC halts its strand with reason 1; others are DENIED; and a YIELD comes to its end.
The model's choices: the encodings of the arguments, who holds a halt, that a second halt adds a holder and that REVOKE lets go only its
own (log entry 48), and where the trace ring lies (log entry 43). -/
def Obligations.DebugRequests : Prop :=
  (∀ (s : State) (q : Req) (key : BitVec 384) (ctx : DWord), Owns s q → (mget s.ctxs ctx.toNat).isSome = true →
    ∃ u t, Takes (.debugGrant q key ctx) s t ∧ Answered u t q 0 [] ∧ (key, ctx.toNat) ∈ u.svc.grants ∧
      ∀ g, g ≠ (key, ctx.toNat) → (g ∈ u.svc.grants ↔ g ∈ s.svc.grants)) ∧
  (∀ (s : State) (q : Req) (key : BitVec 384) (ctx : DWord), Owns s q → ∃ u t, Takes (.debugRevoke q key ctx) s t ∧
    Answered u t q 0 [] ∧ (∀ g, g ∈ u.svc.grants ↔ g ∈ s.svc.grants ∧ g ≠ (key, ctx.toNat)) ∧
    ∀ (strand : DWord) (x : Strand) (h : StopRec), Stands s ctx strand x → x.halted = some h →
      ∃ y, strandAt u (strand.toNat / 32) (strand.toNat % 32) = some y ∧
        ((∀ k ∈ h.holders, k = key) → key ∈ h.holders → y.halted = none) ∧
        (key ∉ h.holders → y.halted = some h) ∧
        ∀ k, k ∈ h.holders → k ≠ key → ∃ h', y.halted = some h' ∧ k ∈ h'.holders ∧ key ∉ h'.holders) ∧
  (∀ (s : State) (q : Req) (ctx size n flags : DWord) (x : Ctx), Debugs s q ctx → mget s.ctxs ctx.toNat = some x →
    (size = 0 ∨ ∃ e, 4 ≤ e ∧ e ≤ 20 ∧ size.toNat = 2 ^ e) → (n = 0 ∨ ∃ e, 8 ≤ e ∧ e ≤ 20 ∧ n.toNat = 2 ^ e) →
    flags.toNat < 4 →
    (size.toNat = (match x.trace with | none => 0 | some r => r.size) → ∃ t, Takes (.traceCfg q ctx size n flags) s t ∧
      Answered (withCtx s ctx { x with
        interval := n.toNat, stallRecs := flags.getLsbD 0, markRecs := flags.getLsbD 1 }) t q 0 []) ∧
    (x.trace = none → size ≠ 0 →
      (∀ r u, makeRing s x ctx.toNat traceVa size.toNat 128 = some (r, u) → ∃ t, Takes (.traceCfg q ctx size n flags) s t ∧
        Answered (withCtx u ctx { x with
          trace := some r, interval := n.toNat, stallRecs := flags.getLsbD 0, markRecs := flags.getLsbD 1 }) t q 0 []) ∧
      (makeRing s x ctx.toNat traceVa size.toNat 128 = none → ∃ t, Takes (.traceCfg q ctx size n flags) s t ∧
        Answered s t q 5 []))) ∧
  (∀ (s : State) (q : Req) (key : BitVec 384) (ctx strand : DWord) (x : Strand), Debugs s q ctx → q.sender = .host key →
    Stands s ctx strand x →
    (x.halted = none → x.phase ≠ .ending → ∃ u t h, Takes (.debugHalt q ctx strand) s t ∧ Answered u t q 0 [] ∧
      OnlyStrand s u strand { x with halted := some h, steps := none } ∧ h.reason = 0 ∧ h.depth = x.handling.isSome ∧
      h.cycle = cycleOf s (strand.toNat / 32) ∧ h.holders = [key] ∧ (splitsOf s (strand.toNat / 32) (strand.toNat % 32) ≠ [] →
        h.nsplit = (splitsOf s (strand.toNat / 32) (strand.toNat % 32)).length)) ∧
    (∀ h, x.halted = some h → x.phase ≠ .ending → ∃ u t, Takes (.debugHalt q ctx strand) s t ∧ Answered u t q 0 [] ∧
      OnlyStrand s u strand { x with halted := some { h with holders := (h.holders ++ [key]).eraseDups } }) ∧
    (x.halted.isSome = true → ∃ u t, Takes (.debugResume q ctx strand 0) s t ∧ Answered u t q 0 [] ∧
      OnlyStrand s u strand { x with halted := none, steps := none }) ∧
    (∀ n, x.halted.isSome = true → 1 ≤ n.toNat → n.toNat ≤ 255 → ∃ u t, Takes (.debugResume q ctx strand n) s t ∧
      Answered u t q 0 [] ∧ OnlyStrand s u strand { x with halted := none, steps := some (n.toNat, key) }) ∧
    (∀ r, x.halted = some r → ∃ t, Takes (.readStop q ctx strand) s t ∧
      Answered s t q 0 (leBytes 64 (stopWord strand.toNat r))) ∧
    (x.halted = none → ∃ t, Takes (.readStop q ctx strand) s t ∧ Answered s t q 6 []) ∧
    (∀ off len, x.halted.isSome = true → off.toNat + len.toNat ≤ 0x6000 → ∃ t bs, Takes (.debugRead q ctx strand off len) s t ∧
      slotImageOf s ctx.toNat strand.toNat = some bs ∧
      Answered s t q 0 (padEight ((bs.drop off.toNat).take len.toNat))) ∧
    (∀ off r w, x.halted.isSome = true → off.toNat = 0x3C00 + 4 * r → r < 64 → (sget x r).st ≠ .pending →
      ∃ u t, Takes (.debugWrite q ctx strand off (leBytes 4 w)) s t ∧ Answered u t q 0 [] ∧
        OnlyStrand s u strand (sset x r (fullCell (BitVec.ofNat 32 w)))) ∧
    (∀ off b, x.halted.isSome = true →
      (0x3F40 ≤ off.toNat ∧ off.toNat < 0x4080 ∨ 0x5E00 ≤ off.toNat ∧ off.toNat < 0x6000) →
      ∃ t, Takes (.debugWrite q ctx strand off [b]) s t ∧ Answered s t q 4 []) ∧
    (∀ off b, x.halted.isSome = true → 0x4080 ≤ off.toNat → off.toNat < 0x40C0 →
      ∃ u t, Takes (.debugWrite q ctx strand off [b]) s t ∧ Answered u t q 0 [] ∧ OnlyStrand s u strand x)) ∧
  (∀ (s : State) (q : Req) (key : BitVec 384) (ctx index pc filter : DWord) (x : Ctx), Debugs s q ctx → q.sender = .host key →
    mget s.ctxs ctx.toNat = some x → index.toNat < 8 → pc.extractLsb' 57 6 = 0 →
    (filter = BitVec.allOnes 64 ∨ filter.toNat < 6144) → ∃ t, Takes (.setBp q ctx index pc filter) s t ∧
      Answered (withCtx s ctx { x with
        bps := mput x.bps index.toNat
          { pc := pc.truncate 57, en := pc.getLsbD 63, setter := key
            filter := if filter = BitVec.allOnes 64 then none else some filter.toNat } }) t q 0 []) ∧
  (∀ (s : State) (q : Req) (ctx a b : DWord), s.svc.running = true → (∀ key, q.sender = .host key → (key, ctx.toNat) ∉ s.svc.grants) →
    ∀ i ∈ [Instr.traceCfg q ctx a b 0, .debugHalt q ctx a, .debugResume q ctx a b, .readStop q ctx a, .debugRead q ctx a b 0,
      .debugWrite q ctx a b [], .setBp q ctx a b 0], ∃ t, Takes i s t ∧ Answered s t q 1 []) ∧
  (∀ (s : State) (c e n : Nat) (p : Split) (x : Strand) (k : Ctx) (b : Breakpoint), splitAt s c e = some p →
    strandAt s c p.slot = some x → p.bpSkip = false → x.halted = none → x.phase ≠ .ending → mget s.ctxs x.ctx = some k → k.bps = [(n, b)] →
    b.en = true → b.pc = p.pc → (b.filter = none ∨ b.filter = some (gidOf c p.slot)) →
    ∃ t h, Takes (.breakpointHalt c e) s t ∧ strandAt t c p.slot = some { x with halted := some h, steps := none } ∧
      h.reason = 1 ∧ h.bp = n ∧ h.pc = p.pc ∧ h.smask = p.smask ∧ h.holders = [b.setter] ∧ splitAt t c e = some { p with bpSkip := true } ∧ t.mem = s.mem) ∧
  ∀ (s : State) (c e : Nat) (p : Split), splitAt s c e = some p → p.yieldTo ≤ s.now →
    ∃ t, Takes (.yieldExpiry c e) s t ∧ splitAt t c e = some { p with yieldTo := 0 } ∧
      ∀ e', e' ≠ e → splitAt t c e' = splitAt s c e'

/-! ### Scheduling, sharing, paging, the array -/

namespace Sys2Proof.Spec

/-- A strand has been placed in a slot that was free (R79): live, in its launch, with one split of all its slices at the entry. -/
structure Placed (t : State) (c sl : Nat) (r : Resv) (x : Strand) : Prop where
  strand : strandAt t c sl = some x ∧ x.phase = .live ∧ x.ctx = r.ctx ∧ x.lcnt = r.lcnt ∧ x.slices = r.slices ∧
    x.handling = none ∧ x.arisen = none
  split : ∃ e p, splitsOf t c sl = [(e, p)] ∧ p.pc = r.entry ∧ p.smask = BitVec.ofNat 8 (2 ^ r.slices - 1) ∧ p.jstk = []

/-- The launch at the head of a queue goes to a core where it holds a reservation and a slot is free. -/
def HeadGoes (s : State) (n : Nat) (l : Launch) (rest : List Launch) (c sl : Nat) (r : Resv) (k : Counter) : Prop :=
  mgetD s.sched.queues n [] = l :: rest ∧ headWork s n = .place c ∧ resvOf (coreOf s c) (descLcnt l.desc) = some r ∧
  pickSlot (coreOf s c) = some sl ∧ splitsOf s c sl = [] ∧ mget s.counters r.lcnt = some k ∧ k.done = false ∧ 1 ≤ k.count ∧
  r.lcnt = descLcnt l.desc

/-- The cores of a cluster. -/
def coreIn (k c : Nat) : Prop := 8 * k ≤ c ∧ c < 8 * k + 8

/-- Only the named cluster and the model's own counters have changed. -/
def OnlyCluster (s t : State) (k : Nat) : Prop :=
  { t with clusters := s.clusters } = s ∧ ∀ j, j ≠ k → clusterAt t j = clusterAt s j

/-- The access of a load that waits at the service. -/
def WaitsAtService (s : State) (o : Op) (a : Access) (x : Strand) (since d : Nat) : Prop :=
  InFlight s o x ∧ o.kind = .load ∧ o.work = .mem ∧ o.accs = [a] ∧ a.st = .atService since d ∧ a.eva = a.va.toNat ∧
  inBacking s o.ctx a.eva = false

/-- Debug requests that a holder of a grant may make for a context and a halted strand of it (R200). -/
def debugForms (q : Req) (ctx strand : DWord) (w : Nat) : List Instr :=
  [ .traceCfg q ctx 0 0 0, .debugHalt q ctx strand, .debugResume q ctx strand 0, .debugResume q ctx strand 1, .readStop q ctx strand,
    .debugRead q ctx strand 0 0x6000, .debugWrite q ctx strand 0x3C00 (leBytes 4 w), .setBp q ctx 0 0 (BitVec.allOnes 64) ]

/-- The last reply that leaves the device answers the request with status OK. -/
def AnsweredOk (s t : State) (q : Req) : Prop :=
  ∃ args, t.svc.replies = s.svc.replies ++ [{ sender := q.sender, seq := q.seq, code := q.code, status := 0, args := args }]

end Sys2Proof.Spec
open Sys2Proof.Spec

/-- R70, R75 to R82: a dispatcher places the next strand of the launch at the head of a queue, with its index and NSTRAND in s0 and
s1, and takes the launch off its queue after the last; a record launch reserves its cores and leaves its queue; a bin's timer runs
out; and a full bin starts a strand whose lanes hold its records. -/
def Obligations.LaunchesAreDispatched : Prop :=
  (∀ (s : State) (n : Nat) (l : Launch) (rest : List Launch) (c sl : Nat) (r : Resv) (k : Counter),
    HeadGoes s n l rest c sl r k →
    (l.placed + 1 < r.nstrand → ∃ t x, Takes (.dispatchPlace n) s t ∧ Placed t c sl r x ∧
      x.exited = 0 ∧ sget x 0 = fullCell (BitVec.ofNat 32 l.placed) ∧ sget x 1 = fullCell (BitVec.ofNat 32 r.nstrand) ∧
      mget t.counters r.lcnt = some { k with count := k.count + 1 } ∧
      mgetD t.sched.queues n [] = { l with placed := l.placed + 1, last := some c } :: rest) ∧
    (r.nstrand = l.placed + 1 → ∃ t x, Takes (.dispatchPlace n) s t ∧ Placed t c sl r x ∧
      sget x 0 = fullCell (BitVec.ofNat 32 l.placed) ∧ mget t.counters r.lcnt = some k ∧
      mgetD t.sched.queues n [] = rest)) ∧
  (∀ (s : State) (n : Nat) (l : Launch) (rest : List Launch) (c : Nat) (x : Ctx), mgetD s.sched.queues n [] = l :: rest →
    isRecord l.desc = true → depCancelled s l.desc = false → mget s.ctxs (descCtx l.desc) = some x →
    missingCores s x l.desc = [c] → grantable s x l.desc = [c] →
    ∃ t r, Takes (.recordLaunchReserve n) s t ∧ resvOf (coreOf t c) (descLcnt l.desc) = some r ∧ r.recl = true ∧
      r.ctx = descCtx l.desc ∧ mgetD t.sched.queues n [] = rest ∧ t.sched.records = s.sched.records ++ [l]) ∧
  (∀ (s : State) (c n : Nat) (b : Bin), mget (coreOf s c).bins n = some b → b.ton = true → b.left = 0 → b.expired = false →
    ∃ t, Takes (.binTimerExpiry c n) s t ∧ coreOf t c =
      { coreOf s c with bins := mput (coreOf s c).bins n { b with expired := true } } ∧
      ∀ c', c' ≠ c → coreOf t c' = coreOf s c') ∧
  ∀ (s : State) (c n sl : Nat) (b : Bin) (w0 w1 w2 w3 : RegCell) (r : Resv) (k : Counter), mget (coreOf s c).bins n = some b →
    binDue s c n = true → b.recs = [[w0, w1, w2, w3]] → resvOf (coreOf s c) b.tlc = some r → r.dmr = false → 1 ≤ r.slices →
    r.slices ≤ 8 → pickSlot (coreOf s c) = some sl → splitsOf s c sl = [] → mget s.counters r.lcnt = some k →
    k.done = false → 1 ≤ k.count →
    ∃ t x, Takes (.binStart c n) s t ∧ Placed t c sl r x ∧ livingLanes x = 1 ∧ vget x 0 0 = w0 ∧ vget x 1 0 = w1 ∧
      vget x 2 0 = w2 ∧ vget x 3 0 = w3 ∧ sget x 0 = fullCell (BitVec.ofNat 32 n) ∧ sget x 1 = fullCell 1 ∧
      mget t.counters r.lcnt = some k ∧ mget (coreOf t c).bins n = some { b with
        recs := [], expired := false, ton := false, left := 0 }

/-- R89 to R92, R184 to R188: the next pending context takes a free cluster with a quantum of 2^20 times its weight; an owner
without work gives it up and its surplus; a used-up quantum asks the collectors to save when another context is pending; engines
that stand still are acknowledged; the images are written and the cores vacated; a restored context owns the cluster again; and a
handler 2^20 cycles after the stop request is stopped. -/
def Obligations.ClustersAreShared : Prop :=
  (∀ (s : State) (k c : Nat) (x : Ctx), (clusterAt s k).run = none → (clusterAt s k).coll = .idle →
    nextPending s k (clusterAt s k).last = some c → mget s.ctxs c = some x →
    ((clusterAt s k).resident = some c ∨ (clusterAt s k).resident = none ∧ ∀ im ∈ s.images, im.ctx ≠ c) →
    ∃ t, Takes (.clusterTake k) s t ∧ OnlyCluster s t k ∧ (clusterAt t k).run = some c ∧ (clusterAt t k).resident = some c ∧
      deficitOf (clusterAt t k) c = deficitOf (clusterAt s k) c + ((2 ^ 20 * x.weight : Nat) : Int)) ∧
  (∀ (s : State) (k c : Nat), (clusterAt s k).run = some c → (clusterAt s k).coll = .idle → pend s k c = false →
    (∀ p ∈ s.ctxs, pend s k p.1 = false) → ∃ t, Takes (.ownershipLapse k) s t ∧ OnlyCluster s t k ∧ (clusterAt t k).run = none ∧
      (clusterAt t k).resident = (clusterAt s k).resident ∧
      deficitOf (clusterAt t k) c = min 0 (deficitOf (clusterAt s k) c)) ∧
  (∀ (s : State) (k c : Nat) (x : Ctx), (clusterAt s k).run = some c → (clusterAt s k).coll = .idle → pend s k c = true →
    deficitOf (clusterAt s k) c ≤ 0 → s.phys.bringIn = [] → mget s.ctxs c = some x →
    ((∃ p ∈ s.ctxs, p.1 ≠ c ∧ pend s k p.1 = true) → ∃ t, Takes (.quantumExpiry k) s t ∧
      (clusterAt t k).coll = .saving none ∧
      ∀ c', coreIn k c' → (coreOf t c').stopReq = some s.now ∧ (coreOf t c').engAck = false) ∧
    ((∀ p ∈ s.ctxs, p.1 ≠ c → pend s k p.1 = false) → ∃ t, Takes (.quantumExpiry k) s t ∧ OnlyCluster s t k ∧
      (clusterAt t k).run = some c ∧
      deficitOf (clusterAt t k) c = deficitOf (clusterAt s k) c + ((2 ^ 20 * x.weight : Nat) : Int))) ∧
  (∀ (s : State) (c t0 : Nat), (coreOf s c).stopReq = some t0 → (coreOf s c).engAck = false → (∀ o ∈ s.ops, o.core ≠ c) →
    (coreOf s c).fil = [] → ∃ t, Takes (.engineStopAck c) s t ∧ coreOf t c = { coreOf s c with engAck := true } ∧
      ∀ c', c' ≠ c → coreOf t c' = coreOf s c') ∧
  (∀ (s : State) (k r : Nat), (clusterAt s k).coll = .saving none → (clusterAt s k).resident = some r →
    (∀ c, coreIn k c → coreQuiet s c = true) → ∃ t, Takes (.preemptComplete k) s t ∧
      ∀ c, coreIn k c → (coreOf t c).slots = [] ∧ (coreOf t c).splits = [] ∧
        ∃ im ∈ t.images, im.ctx = r ∧ im.core = c ∧
          ∀ sl, mget im.data.slots sl = (strandAt s c sl).map fun x => { x with stalls := [] }) ∧
  (∀ (s : State) (k c : Nat) (x : Ctx) (im : Image), (clusterAt s k).coll = .restoring c → mget s.ctxs c = some x →
    s.images = [im] → im.ctx = c → coreIn k im.core → s.poison = [] → s.phys.retired = [] →
    ∃ t, Takes (.restoreComplete k) s t ∧ t.images = [] ∧ (clusterAt t k).run = some c ∧ (clusterAt t k).coll = .idle ∧
      (coreOf t im.core).slots = im.data.slots) ∧
  ∀ (s : State) (c sl t0 : Nat) (x : Strand), strandAt s c sl = some x → x.handling.isSome = true →
    (coreOf s c).stopReq = some t0 → t0 + 2 ^ 20 ≤ s.now → ∃ t, Takes (.preemptHandlerTimeout c sl) s t ∧
      strandAt t c sl = some x ∧ ∀ p ∈ splitsOf t c sl, p.2.cls = some .preempt

/-- R62, R63, R174, R177, R200, R243, R327, R331: the image of an idle context goes out to flash and comes back; the service's answer lets
an access be translated and performed again or makes it XLATE with DETAIL 3, at the latest after 2^20 cycles; and the array performs
the oldest operation of its queue, here FZERO.tile. A debug request of a holder of a grant, for a halted strand, and a grant or a
revocation of the owner complete with status OK (R200).
The model's choices: DETAIL 3 for a refusal of the service (log entry 18), that every image line of a retired stack goes out poisoned (log
entry 71), and the argument forms of the debug requests (log entry 48). -/
def Obligations.PagingAndServiceAnswers : Prop :=
  (∀ (s : State) (id : Nat) (x : Ctx), s.svc.running = true → mget s.ctxs id = some x → x.res = true →
    (x.moving = false → x.destroying = none → ctxActive s id = false → x.idleSince + Config.pageOutAge ≤ s.now →
      ∃ t, Takes (.pageOutStart id) s t ∧ t = { s with ctxs := mput s.ctxs id { x with moving := true } }) ∧
    (x.moving = true →
      (∃ t, Takes (.pageOutComplete id false) s t ∧
        t = { s with ctxs := mput s.ctxs id { x with moving := false, idleSince := s.now } }) ∧
      (flashThere s = true → ∃ t y image, Takes (.pageOutComplete id true) s t ∧ mget t.ctxs id = some y ∧ y.res = false ∧ y.moving = false ∧
        y.flash = some image ∧ image.digest = Config.sha384 (cellBytes image.cells) ∧
        image.cells = (cellsIn s.mem (x.imgbase.toNat * 2 ^ 21) (x.imgbase.toNat * 2 ^ 21 + imageBytes)).map
          (fun p => (p.1 - x.imgbase.toNat * 2 ^ 21, p.2)) ∧
        (s.phys.retired = [] → ∀ l, l ∈ image.poison ↔
          l < imageBytes / 128 ∧ x.imgbase.toNat * 2 ^ 14 + l ∈ s.poison) ∧
        (x.imgbase.toNat * 2 ^ 21 / 2 ^ 36 ∈ s.phys.retired → ∀ l, l < imageBytes / 128 → l ∈ image.poison)))) ∧
  (∀ (s u : State) (id b : Nat) (x : Ctx) (image : FlashImage), s.svc.running = true → mget s.ctxs id = some x →
    x.res = false → x.moving = true → x.flash = some image → image.digest = Config.sha384 (cellBytes image.cells) →
    keysRise image.cells = true → (∀ p ∈ image.cells, p.1 < imageBytes) → takeImage s = some (b, u) → b < 2 ^ 27 → flashThere s = true →
    ∃ t y, Takes (.pageInComplete id true) s t ∧ mget t.ctxs id = some y ∧ y.res = true ∧ y.moving = false ∧ y.flash = none ∧
      y.imgbase.toNat = b ∧ (∀ i, i < imageBytes → peek t.mem (b * 2 ^ 21 + i) = mgetD image.cells i 0) ∧
      ∀ l ∈ image.poison, b * 2 ^ 14 + l ∈ t.poison) ∧
  (∀ (s : State) (id : Nat) (x : Ctx), s.svc.running = true → mget s.ctxs id = some x → x.res = false → x.moving = true →
    (∀ p ∈ s.sched.queues, ∀ l ∈ p.2, descCtx l.desc ≠ id) → ∃ t, Takes (.pageInComplete id false) s t ∧
      t = { s with ctxs := mput s.ctxs id { x with moving := false, failed := true } }) ∧
  (∀ (s : State) (o : Op) (a : Access) (x : Strand) (since d : Nat), WaitsAtService s o a x since d →
    (∀ lf, (lookup s o.core o.ctx a.va.toNat).1 = .ok lf → leafLoc lf.w0.toNat = 0 → leafFmt lf.w1.toNat = 0 →
      lf.w0.getLsbD 2 = true → o.fields.md.getLsbD 0 = false → o.fields.md.getLsbD 1 = false → a.va.extractLsb' 57 7 = 0 →
      inPrivate a.va.toNat = false → a.va.toNat % accBytes o = 0 →
      ∃ t o' a' due, Takes (.translationFaultAnswer (.access o.id 0) true) s t ∧ opById t o.id = some o' ∧ o'.accs = [a'] ∧
        o'.isns = o.isns ∧ a'.st = .ready due ∧
        a'.place = some (.dev (entryAddr lf.w0.toNat + (a.va.toNat - lf.base)) (bitsOf lf.w0.toNat 9 8))) ∧
    (∃ t o', Takes (.translationFaultAnswer (.access o.id 0) false) s t ∧ opById t o.id = some o' ∧
      faultOf o' = some (0x04, 3, a.va, a.lanes)) ∧
    (since + 2 ^ 20 ≤ s.now → ∃ t o', Takes (.translationFaultTimeout (.access o.id 0)) s t ∧ opById t o.id = some o' ∧
      faultOf o' = some (0x04, 3, a.va, a.lanes))) ∧
  (∀ (s : State) (c e since d : Nat) (p : Split) (pc : Pc) (va : DWord), splitAt s c e = some p →
    p.fetch = some (pc, .atService va since d) →
    (∃ t, Takes (.translationFaultAnswer (.fetch c e) true) s t ∧ splitAt t c e = some { p with fetch := none }) ∧
    (∃ t, Takes (.translationFaultAnswer (.fetch c e) false) s t ∧
      splitAt t c e = some { p with fetch := some (pc, .failed 0x04 3 va) }) ∧
    (since + 2 ^ 20 ≤ s.now → ∃ t, Takes (.translationFaultTimeout (.fetch c e)) s t ∧
      splitAt t c e = some { p with fetch := some (pc, .failed 0x04 3 va) })) ∧
  (∀ (s : State) (q : Req) (ctx strand : DWord) (w : Nat) (x : Strand) (k : Ctx), Debugs s q ctx → Stands s ctx strand x →
    x.halted.isSome = true → (sget x 0).st ≠ .pending → mget s.ctxs ctx.toNat = some k → k.trace = none →
    ∀ i ∈ debugForms q ctx strand w, ∃ t, exec i s = .next t ∧ AnsweredOk s t q) ∧
  (∀ (s : State) (q : Req) (key : BitVec 384) (ctx : DWord), Owns s q → (mget s.ctxs ctx.toNat).isSome = true →
    ∀ i ∈ [Instr.debugGrant q key ctx, .debugRevoke q key ctx], ∃ t, exec i s = .next t ∧ AnsweredOk s t q) ∧
  ∀ (s : State) (c : Nat) (f : FilOp) (o : Op) (x : Strand), (coreOf s c).fil = [f] → f.due ≤ s.now →
    (coreOf s c).stopReq = none → (coreOf s c).rechecks = [] → f.opc = 0x6E → f.fields.fn ≠ 0 → f.ops = [o.id] →
    InFlight s o x → ∃ t, Takes (.filigreePerform c) s t ∧ (coreOf t c).fil = [] ∧
      ∀ key, mgetD (coreOf t c).acc key 0 =
        if key / 4096 = f.fields.imm16.toNat then 0 else mgetD (coreOf s c).acc key 0

/-! ### Encodings and the machine's step -/

namespace Sys2Proof.Spec

/-- Fields that are all zero (R226 to R228). -/
def zeroFields : Fields :=
  { long := false, hasLit := false, strand := false, d := 0, a := 0, b := 0, imm := false, g := 0, c := 0, ea := false, eb := false,
    ec := false, fn := 0, ty := .i32, md := 0, imm16 := 0, scope := .core, ord := .rlx, cache := 0, hz := false, aux := 0, lit := 0 }

/-- The decoder's answer to the words of an instruction in memory order. -/
def decoded (ws : List Word) : Except DecodeError Instr := decode (ws.flatMap bytesOfWord)

/-- The outside has no event for this cycle. -/
def InboxWaits (s : State) : Prop := ∀ q r, s.inbox = q :: r → s.now < q.1

/-- A core finds a word of code in a plain local page that may be executed (R125, R243), at an address that is not the private
window's and not poisoned. -/
def CodeAt (s : State) (c ctx va : Nat) (l : Leaf) : Prop :=
  lookup s c ctx va = (.ok l, s) ∧ inPrivate va = false ∧ l.w0.getLsbD 4 = true ∧ leafLoc l.w0.toNat = 0 ∧ leafFmt l.w1.toNat = 0 ∧
  poisonedIn s (entryAddr l.w0.toNat + (va - l.base)) 4 = false

/-- No barrier has an entry, on a core or in a saved image. -/
def NoBarriers (s : State) : Prop := (∀ p ∈ s.cores, p.2.barriers = []) ∧ ∀ im ∈ s.images, im.data.barriers = []

/-- No abort of a collective takes effect in this cycle (R339). -/
def NoAborts (s : State) : Prop := ∀ p ∈ s.coll, p.2.abort = none

/-- The bytes at a split's PC, with nothing of their fetch under way, decode to an instruction; t is the state after the fetch. -/
def Fetches (s t : State) (c e : Nat) (i : Instr) : Prop :=
  ∃ p x bs, splitAt s c e = some p ∧ p.parked = none ∧ p.fetch = none ∧ strandAt s c p.slot = some x ∧
    fetchInstr s c x.ctx p.pc [] = (.bytes bs, t) ∧ decode bs = .ok i

end Sys2Proof.Spec
open Sys2Proof.Spec

/-- R224 to R229, R241: every well-formed instruction decodes from its encoding as itself, with every operand, whatever follows it;
and bytes that decode begin with the encoding of the instruction they give, which is well-formed: no bit is dropped. -/
def Obligations.DecodeEncodeRoundTrip : Prop :=
  (∀ (i : Instr) (rest : List Byte), i.wf = true → i.encoded = true → decode (encode i ++ rest) = .ok i) ∧
  ∀ (bs : List Byte) (i : Instr), decode bs = .ok i → i.wf = true ∧ i.encoded = true ∧ ∃ rest, bs = encode i ++ rest

/-- The worked encodings of the spec: a guarded IADD and a release ST (R208), the strand-side short form, a refused short FFMA and a
reserved opcode (chapter 12), ICMP and LRED (chapter 13), FADD and CVT (14), HZBR and BAR (15), ATOM (16), FMMA (17), the
CELLOP.init with its literal (22). -/
def Obligations.SampleWordsDecode : Prop :=
  decoded [0x070C1409, 0x00001003, 0] = .ok (.iadd { zeroFields with
    long := true, d := 5, a := 6, b := 7, g := 3, eb := true }) ∧
  decoded [0x08080291, 0, 0x000A0010] = .ok (.st { zeroFields with
    long := true, a := 4, b := 8, imm16 := 16, scope := .dev, ord := .rel }) ∧
  decoded [0x818A0C0C] = .ok (.iadd { zeroFields with strand := true, d := 3, a := 69, b := 1, imm := true }) ∧
  decoded [0x03040518] = .error (.illegal 0x00000223) ∧ decoded [0x000001D8] = .error (.illegal 0x0000013B) ∧
  decoded [0x8A0808C9, 0x00008000, 0] = .ok (.icmp { zeroFields with
    long := true, d := 2, a := 4, b := 10, imm := true, fn := 2 }) ∧
  decoded [0x00142DB1, 0x01008000, 0x0C000000] = .ok (.lred { zeroFields with
    long := true, d := 11, a := 10, fn := 2, ty := .f32, aux := 12 }) ∧
  decoded [0x810C1501, 0x15400000, 0] = .ok (.fadd { zeroFields with
    long := true, d := 5, a := 6, b := 1, imm := true, ty := .f16, md := 5 }) ∧
  decoded [0x00101D79, 0x01C10000, 0] = .ok (.cvt { zeroFields with long := true, d := 7, a := 8, fn := 4, ty := .e4m3 }) ∧
  decoded [0x0000021D, 0, 0x0000FFFA] = .ok (.hzbr { zeroFields with long := true, strand := true, imm16 := 0xFFFA }) ∧
  decoded [0x83162A3D, 0, 0x000E0000] = .ok (.bar { zeroFields with
    long := true, strand := true, d := 10, a := 11, b := 3, imm := true, scope := .dev, ord := .ar }) ∧
  decoded [0x0A0822B9, 0x00800000, 0x000B0008] = .ok (.atom { zeroFields with
    long := true, d := 8, a := 4, b := 10, ty := .i64, imm16 := 8, scope := .sys, ord := .rel }) ∧
  decoded [0x0C10035D, 0x08000100, 3] = .ok (.fmma { zeroFields with
    long := true, strand := true, a := 8, b := 12, c := 16, md := 2, imm16 := 3 }) ∧
  decoded [0x003002D3, 4, 0x00020000, 0xB8, 0] = .ok (.cellInit { zeroFields with
    long := true, hasLit := true, a := 24, g := 4, scope := .dev, lit := 0xB8 })

/-- R85, R86, R224, R229: while no event is due, the machine's step executes, as the instruction of the split that is tried next, the
instruction that the bytes at its PC decode to; in the turn of blocked operations, which comes first where there are any (R101,
R103), a blocked one executes and another one is only probed, which shows whether its scheduler chooses it; those bytes are what
memory holds there when its words lie in plain local pages that may be executed; a due event of the outside comes before all else
(the model's choice, log entry 60); with nothing else to do a strand that was cancelled ends (R183, R299), and otherwise a cycle
passes. -/
def Obligations.StepRunsDecoded : Prop :=
  (∀ (s t : State) (c e : Nat) (i : Instr), s.power.phase = .running → InboxWaits s → internalAct s = none →
    nextIssue s = some (issueAct s c e) → Fetches s t c e i → step s = exec i { t with cur := some (c, e) }) ∧
  (∀ (s t : State) (c e : Nat) (i : Instr) (p : Split), s.power.phase = .running → InboxWaits s → internalAct s = none →
    nextIssue s = some (serveAct s c e) → Fetches (modSplit s c e fun q => { q with turn := some false }) t c e i →
    splitAt s c e = some p →
    (p.blocked.isSome = true → step s = exec i { t with cur := some (c, e) }) ∧
    (p.blocked = none → ∀ u, exec i { t with cur := some (c, e) } = .next u → ∃ w b cl, step s = .next w ∧
      w = (modSplit { t with cur := some (c, e) } c e fun q => { q with tried := t.now + 1, turn := some b, cls := if b = true then q.cls else cl }) ∧
      (b = true ↔ ∀ q, splitAt u c e = some q → schedOf q.slot ∈ (coreOf u c).issued))) ∧
  (∀ (s : State) (c ctx pa n : Nat) (pc : Pc), pc.toNat + 20 ≤ 2 ^ 57 → n = wordCount (BitVec.ofNat 32 (leNat (peeks s.mem pa 4))) →
    (∀ k, k < n → ∃ l, CodeAt s c ctx (pc.toNat + 4 * k) l ∧ entryAddr l.w0.toNat + (pc.toNat + 4 * k - l.base) = pa + 4 * k) →
    fetchInstr s c ctx pc [] = (.bytes (peeks s.mem pa (4 * n)), s)) ∧
  (∀ (s : State) (t0 : Nat) (i : Instr) (rest : List (Nat × Instr)), s.inbox = (t0, i) :: rest →
    (s.power.phase ≠ .running ∨ t0 ≤ s.now) → step s = exec i { s with inbox := rest, cur := none }) ∧
  ∀ (s : State), s.power.phase = .running → InboxWaits s → internalAct s = none → nextIssue s = none →
    (dueCancel s = none → NoBarriers s → NoAborts s →
      ∃ t, step s = .next t ∧ t.now = s.now + 1 ∧ t.mem = s.mem ∧ t.ops = s.ops) ∧
    ∀ c sl x n, liveStrands s = [(c, sl, x)] → x.phase ≠ .ending → x.cancelNext = some n → trapFirst s c sl x n = false →
      step s = .next (terminate s c sl 0x82)

/-- Every step keeps the canonical form of memory: addresses rise strictly, and no entry equals what an unlisted address reads
as. -/
def Obligations.MemoryFormKept : Prop := ∀ s t : State, Inv s → step s = .next t → Inv t

/-- R19, R20, R53, R101: right after reset the module is held, its status block is clear, every measurement register is zero, no
context, counter, strand or operation exists, every mailbox is empty and zero, and nothing happens without the outside. Memory
lists nothing and keeps its form; an unlisted byte reads as zero (the model's choice, log
entry 1, as is that the module stands powered and held in reset, log entry 2). -/
def Obligations.ResetState : Prop :=
  State.reset.power.phase = .held ∧ State.reset.power.trip = 0 ∧ State.reset.power.boot = 0 ∧ State.reset.power.tdie = 0 ∧
  State.reset.power.limit = 1800 ∧ (∀ n, mgetD State.reset.svc.meas n 0 = 0) ∧ State.reset.ctxs = [] ∧ State.reset.counters = [] ∧
  State.reset.ops = [] ∧ (∀ c, (coreOf State.reset c).slots = [] ∧ ∀ n, mgetD (coreOf State.reset c).mbox n emptyMailbox = emptyMailbox) ∧
  emptyMailbox.full = false ∧ emptyMailbox.val = 0 ∧ step State.reset = .next State.reset ∧
  Inv State.reset ∧ ∀ a, peek State.reset.mem a = 0

/-- A step of a machine whose outside sends events only never stops, whatever its state: it answers a next state, with the events to
come still events, so that the next step does not stop either. -/
def Obligations.StepNeverStops : Prop :=
  ∀ s : State, EventsOnly s → ∃ t, step s = .next t ∧ EventsOnly t
end

