-- ==== Sys2Proof/Laws/Maps.lean ====
section
/-! SUPPORT. Laws of the sparse maps and of memory: read after write, and the canonical form. -/
namespace Sys2Proof.Machine

/-! ### Reading a map after a change -/

theorem mget_mdel_same {α : Type} (m : List (Nat × α)) (k : Nat) : mget (mdel m k) k = none := by
  induction m with
  | nil => rfl
  | cons p r ih =>
      obtain ⟨k', x⟩ := p
      by_cases h : k' = k <;> simp [mdel, mget, h, ih]

theorem mget_mdel_ne {α : Type} (m : List (Nat × α)) {k j : Nat} (h : j ≠ k) : mget (mdel m k) j = mget m j := by
  induction m with
  | nil => rfl
  | cons p r ih =>
      obtain ⟨k', x⟩ := p
      by_cases hk : k' = k
      · subst hk
        simp [mdel, mget, ih, h.symm]
      · by_cases hj : k' = j
        · subst hj
          simp [mdel, mget, h]
        · simp [mdel, mget, hk, hj, ih]

theorem mget_mins_same {α : Type} (m : List (Nat × α)) (k : Nat) (x : α) (h : mget m k = none) :
    mget (mins m k x) k = some x := by
  induction m with
  | nil => simp [mins, mget]
  | cons p r ih =>
      obtain ⟨k', y⟩ := p
      have hk : k' ≠ k := by
        intro e
        simp [mget, e] at h
      have hr : mget r k = none := by simpa [mget, hk] using h
      by_cases hl : k < k' <;> simp [mins, mget, hl, hk, ih hr]

theorem mget_mins_ne {α : Type} (m : List (Nat × α)) {k j : Nat} (x : α) (h : j ≠ k) :
    mget (mins m k x) j = mget m j := by
  induction m with
  | nil => simp [mins, mget, h.symm]
  | cons p r ih =>
      obtain ⟨k', y⟩ := p
      by_cases hl : k < k'
      · simp [mins, mget, hl, h.symm]
      · by_cases hj : k' = j
        · subst hj
          simp [mins, mget, hl]
        · simp [mins, mget, hl, hj, ih]

/-- A written entry reads as written. -/
@[simp] theorem mget_mput_same {α : Type} (m : List (Nat × α)) (k : Nat) (x : α) : mget (mput m k x) k = some x :=
  mget_mins_same _ _ _ (mget_mdel_same m k)

/-- A write leaves every other entry alone. -/
theorem mget_mput_ne {α : Type} (m : List (Nat × α)) {k j : Nat} (x : α) (h : j ≠ k) : mget (mput m k x) j = mget m j := by
  rw [mput, mget_mins_ne _ _ h, mget_mdel_ne _ h]

@[simp] theorem mgetD_mput_same {α : Type} (m : List (Nat × α)) (k : Nat) (x d : α) : mgetD (mput m k x) k d = x := by
  simp [mgetD]

theorem mgetD_mput_ne {α : Type} (m : List (Nat × α)) {k j : Nat} (x d : α) (h : j ≠ k) :
    mgetD (mput m k x) j d = mgetD m j d := by
  simp [mgetD, mget_mput_ne m x h]

/-- A value written with its default reads as written. -/
@[simp] theorem mgetD_mset_same {α : Type} [DecidableEq α] (m : List (Nat × α)) (k : Nat) (x d : α) :
    mgetD (mset m k x d) k d = x := by
  unfold mset
  split
  · rename_i h
    simp [mgetD, mget_mdel_same, h]
  · simp

theorem mgetD_mset_ne {α : Type} [DecidableEq α] (m : List (Nat × α)) {k j : Nat} (x d e : α) (h : j ≠ k) :
    mgetD (mset m k x d) j e = mgetD m j e := by
  unfold mset
  split
  · simp [mgetD, mget_mdel_ne m h]
  · exact mgetD_mput_ne m x e h

/-! ### Strictly rising keys -/

theorem keysRise_tail {α : Type} {p : Nat × α} {m : List (Nat × α)} (h : keysRise (p :: m) = true) : keysRise m = true := by
  cases m with
  | nil => rfl
  | cons q r =>
      obtain ⟨k, x⟩ := p
      obtain ⟨k', y⟩ := q
      simp [keysRise] at h
      exact h.2

/-- Every key of a rising map is at least a bound below its first. -/
def keysAbove {α : Type} (b : Nat) (m : List (Nat × α)) : Prop := ∀ p ∈ m, b < p.1

theorem keysRise_cons {α : Type} {k : Nat} {x : α} {m : List (Nat × α)} (h : keysRise m = true) (hb : keysAbove k m) :
    keysRise ((k, x) :: m) = true := by
  cases m with
  | nil => rfl
  | cons q r =>
      obtain ⟨k', y⟩ := q
      simp [keysRise, h]
      exact hb (k', y) (by simp)

theorem keysAbove_of_rise {α : Type} {k : Nat} {x : α} {m : List (Nat × α)} (h : keysRise ((k, x) :: m) = true) :
    keysAbove k m := by
  induction m generalizing k x with
  | nil => intro p hp; cases hp
  | cons q r ih =>
      obtain ⟨k', y⟩ := q
      simp [keysRise] at h
      intro p hp
      rcases List.mem_cons.1 hp with rfl | hr
      · exact h.1
      · exact Nat.lt_trans h.1 (ih h.2 p hr)

theorem mem_mdel {α : Type} {m : List (Nat × α)} {k : Nat} {p : Nat × α} (h : p ∈ mdel m k) : p ∈ m ∧ p.1 ≠ k := by
  induction m with
  | nil => cases h
  | cons q r ih =>
      obtain ⟨k', x⟩ := q
      by_cases hk : k' = k
      · simp [mdel, hk] at h
        exact ⟨List.mem_cons_of_mem _ (ih h).1, (ih h).2⟩
      · simp [mdel, hk] at h
        rcases h with rfl | h
        · exact ⟨by simp, hk⟩
        · exact ⟨List.mem_cons_of_mem _ (ih h).1, (ih h).2⟩

theorem mem_mins {α : Type} {m : List (Nat × α)} {k : Nat} {x : α} {p : Nat × α} (h : p ∈ mins m k x) :
    p = (k, x) ∨ p ∈ m := by
  induction m with
  | nil => simpa [mins] using h
  | cons q r ih =>
      obtain ⟨k', y⟩ := q
      by_cases hl : k < k'
      · simpa [mins, hl] using h
      · simp [mins, hl] at h
        rcases h with rfl | h
        · simp
        · rcases ih h with e | e
          · exact Or.inl e
          · exact Or.inr (List.mem_cons_of_mem _ e)

theorem keysRise_mdel {α : Type} {m : List (Nat × α)} (k : Nat) (h : keysRise m = true) : keysRise (mdel m k) = true := by
  induction m with
  | nil => rfl
  | cons q r ih =>
      obtain ⟨k', x⟩ := q
      by_cases hk : k' = k
      · simpa [mdel, hk] using ih (keysRise_tail h)
      · simp only [mdel, hk, if_false]
        exact keysRise_cons (ih (keysRise_tail h)) fun p hp => keysAbove_of_rise h p (mem_mdel hp).1

theorem keysRise_mins {α : Type} {m : List (Nat × α)} (k : Nat) (x : α) (h : keysRise m = true) (hk : ∀ p ∈ m, p.1 ≠ k) :
    keysRise (mins m k x) = true := by
  induction m with
  | nil => rfl
  | cons q r ih =>
      obtain ⟨k', y⟩ := q
      by_cases hl : k < k'
      · simp only [mins, hl, if_true]
        refine keysRise_cons h fun p hp => ?_
        rcases List.mem_cons.1 hp with rfl | hr
        · exact hl
        · exact Nat.lt_trans hl (keysAbove_of_rise h p hr)
      · simp only [mins, hl, if_false]
        refine keysRise_cons (ih (keysRise_tail h) fun p hp => hk p (List.mem_cons_of_mem _ hp)) fun p hp => ?_
        rcases mem_mins hp with rfl | hr
        · have := hk (k', y) (by simp)
          simp at this
          show k' < k
          omega
        · exact keysAbove_of_rise h p hr

theorem keysRise_mput {α : Type} {m : List (Nat × α)} (k : Nat) (x : α) (h : keysRise m = true) :
    keysRise (mput m k x) = true :=
  keysRise_mins k x (keysRise_mdel k h) fun _ hp => (mem_mdel hp).2

theorem keysRise_filter {α : Type} (f : Nat × α → Bool) {m : List (Nat × α)} (h : keysRise m = true) :
    keysRise (m.filter f) = true := by
  induction m with
  | nil => rfl
  | cons q r ih =>
      obtain ⟨k', x⟩ := q
      by_cases hf : f (k', x) = true
      · simp only [List.filter_cons, hf, if_true]
        exact keysRise_cons (ih (keysRise_tail h)) fun p hp => keysAbove_of_rise h p (List.mem_filter.1 hp).1
      · rw [List.filter_cons, if_neg hf]
        exact ih (keysRise_tail h)

/-! ### Memory -/

/-- A byte reads as it was written. -/
@[simp] theorem peek_poke_same (m : List Host.Cell) (a : Nat) (b : Byte) : peek (poke m a b) a = b :=
  mgetD_mset_same m a b blankByte

/-- A write leaves every other byte alone. -/
theorem peek_poke_ne (m : List Host.Cell) {a a' : Nat} (b : Byte) (h : a' ≠ a) : peek (poke m a b) a' = peek m a' :=
  mgetD_mset_ne m b blankByte blankByte h

theorem Memory.wf_parts {m : List Host.Cell} :
    Memory.wf m = true ↔ keysRise m = true ∧ ∀ c ∈ m, c.2 ≠ blankByte := by
  simp [Memory.wf, List.all_eq_true]

/-- A byte write keeps the canonical form. -/
theorem Memory.wf_poke {m : List Host.Cell} (a : Nat) (b : Byte) (h : Memory.wf m = true) :
    Memory.wf (poke m a b) = true := by
  rw [Memory.wf_parts] at h ⊢
  unfold poke mset
  split
  · exact ⟨keysRise_mdel a h.1, fun c hc => h.2 c (mem_mdel hc).1⟩
  · refine ⟨keysRise_mput a b h.1, fun c hc => ?_⟩
    rcases mem_mins hc with rfl | hd
    · assumption
    · exact h.2 c (mem_mdel hd).1

/-- A write of bytes keeps the canonical form. -/
theorem Memory.wf_pokes {m : List Host.Cell} (a : Nat) (bs : List Byte) (h : Memory.wf m = true) :
    Memory.wf (pokes m a bs) = true := by
  induction bs generalizing m a with
  | nil => exact h
  | cons b r ih => exact ih (a + 1) (Memory.wf_poke a b h)

/-- A write of cells keeps the canonical form. -/
theorem Memory.wf_pokeCells {m : List Host.Cell} (cs : List Host.Cell) (h : Memory.wf m = true) :
    Memory.wf (pokeCells m cs) = true := by
  induction cs generalizing m with
  | nil => exact h
  | cons c r ih => exact ih (Memory.wf_poke c.1 c.2 h)

theorem Memory.wf_filter {m : List Host.Cell} (f : Host.Cell → Bool) (h : Memory.wf m = true) :
    Memory.wf (m.filter f) = true := by
  rw [Memory.wf_parts] at h ⊢
  exact ⟨keysRise_filter f h.1, fun c hc => h.2 c (List.mem_filter.1 hc).1⟩

/-- Clearing a range keeps the canonical form. -/
theorem Memory.wf_clearRange {m : List Host.Cell} (lo hi : Nat) (h : Memory.wf m = true) :
    Memory.wf (clearRange m lo hi) = true := Memory.wf_filter _ h

/-- The empty memory is in canonical form. -/
theorem Memory.wf_nil : Memory.wf [] = true := rfl

/-- A byte outside the written range reads as before. -/
theorem peek_pokes_outside (m : List Host.Cell) (a : Nat) (bs : List Byte) {x : Nat} (h : x < a ∨ a + bs.length ≤ x) :
    peek (pokes m a bs) x = peek m x := by
  induction bs generalizing m a with
  | nil => rfl
  | cons b r ih =>
      simp only [List.length_cons] at h
      rw [pokes, ih (poke m a b) (a + 1) (by omega), peek_poke_ne]
      omega

end Sys2Proof.Machine
end

