-- ==== Sys2Proof/Laws/State.lean ====
section
/-! SUPPORT. What each update of the state leaves alone: one law for each field and update. -/
namespace Sys2Proof.Machine

/-! ### putCore -/

@[simp] theorem putCore_power (s : State) (c : Nat) (x : Core) : (putCore s c x).power = s.power := rfl
@[simp] theorem putCore_bootFlash (s : State) (c : Nat) (x : Core) : (putCore s c x).bootFlash = s.bootFlash := rfl
@[simp] theorem putCore_flashKnown (s : State) (c : Nat) (x : Core) : (putCore s c x).flashKnown = s.flashKnown := rfl
@[simp] theorem putCore_phys (s : State) (c : Nat) (x : Core) : (putCore s c x).phys = s.phys := rfl
@[simp] theorem putCore_svc (s : State) (c : Nat) (x : Core) : (putCore s c x).svc = s.svc := rfl
@[simp] theorem putCore_fab (s : State) (c : Nat) (x : Core) : (putCore s c x).fab = s.fab := rfl
@[simp] theorem putCore_coll (s : State) (c : Nat) (x : Core) : (putCore s c x).coll = s.coll := rfl
@[simp] theorem putCore_net (s : State) (c : Nat) (x : Core) : (putCore s c x).net = s.net := rfl
@[simp] theorem putCore_ctxs (s : State) (c : Nat) (x : Core) : (putCore s c x).ctxs = s.ctxs := rfl
@[simp] theorem putCore_counters (s : State) (c : Nat) (x : Core) : (putCore s c x).counters = s.counters := rfl
@[simp] theorem putCore_sched (s : State) (c : Nat) (x : Core) : (putCore s c x).sched = s.sched := rfl
@[simp] theorem putCore_clusters (s : State) (c : Nat) (x : Core) : (putCore s c x).clusters = s.clusters := rfl
@[simp] theorem putCore_mem (s : State) (c : Nat) (x : Core) : (putCore s c x).mem = s.mem := rfl
@[simp] theorem putCore_poison (s : State) (c : Nat) (x : Core) : (putCore s c x).poison = s.poison := rfl
@[simp] theorem putCore_past (s : State) (c : Nat) (x : Core) : (putCore s c x).past = s.past := rfl
@[simp] theorem putCore_views (s : State) (c : Nat) (x : Core) : (putCore s c x).views = s.views := rfl
@[simp] theorem putCore_stale (s : State) (c : Nat) (x : Core) : (putCore s c x).stale = s.stale := rfl
@[simp] theorem putCore_ops (s : State) (c : Nat) (x : Core) : (putCore s c x).ops = s.ops := rfl
@[simp] theorem putCore_images (s : State) (c : Nat) (x : Core) : (putCore s c x).images = s.images := rfl
@[simp] theorem putCore_now (s : State) (c : Nat) (x : Core) : (putCore s c x).now = s.now := rfl
@[simp] theorem putCore_fresh (s : State) (c : Nat) (x : Core) : (putCore s c x).fresh = s.fresh := rfl
@[simp] theorem putCore_nextId (s : State) (c : Nat) (x : Core) : (putCore s c x).nextId = s.nextId := rfl
@[simp] theorem putCore_inbox (s : State) (c : Nat) (x : Core) : (putCore s c x).inbox = s.inbox := rfl
@[simp] theorem putCore_cur (s : State) (c : Nat) (x : Core) : (putCore s c x).cur = s.cur := rfl

/-! ### modCore -/

@[simp] theorem modCore_power (s : State) (c : Nat) (g : Core → Core) : (modCore s c g).power = s.power := rfl
@[simp] theorem modCore_bootFlash (s : State) (c : Nat) (g : Core → Core) : (modCore s c g).bootFlash = s.bootFlash := rfl
@[simp] theorem modCore_flashKnown (s : State) (c : Nat) (g : Core → Core) : (modCore s c g).flashKnown = s.flashKnown := rfl
@[simp] theorem modCore_phys (s : State) (c : Nat) (g : Core → Core) : (modCore s c g).phys = s.phys := rfl
@[simp] theorem modCore_svc (s : State) (c : Nat) (g : Core → Core) : (modCore s c g).svc = s.svc := rfl
@[simp] theorem modCore_fab (s : State) (c : Nat) (g : Core → Core) : (modCore s c g).fab = s.fab := rfl
@[simp] theorem modCore_coll (s : State) (c : Nat) (g : Core → Core) : (modCore s c g).coll = s.coll := rfl
@[simp] theorem modCore_net (s : State) (c : Nat) (g : Core → Core) : (modCore s c g).net = s.net := rfl
@[simp] theorem modCore_ctxs (s : State) (c : Nat) (g : Core → Core) : (modCore s c g).ctxs = s.ctxs := rfl
@[simp] theorem modCore_counters (s : State) (c : Nat) (g : Core → Core) : (modCore s c g).counters = s.counters := rfl
@[simp] theorem modCore_sched (s : State) (c : Nat) (g : Core → Core) : (modCore s c g).sched = s.sched := rfl
@[simp] theorem modCore_clusters (s : State) (c : Nat) (g : Core → Core) : (modCore s c g).clusters = s.clusters := rfl
@[simp] theorem modCore_mem (s : State) (c : Nat) (g : Core → Core) : (modCore s c g).mem = s.mem := rfl
@[simp] theorem modCore_poison (s : State) (c : Nat) (g : Core → Core) : (modCore s c g).poison = s.poison := rfl
@[simp] theorem modCore_past (s : State) (c : Nat) (g : Core → Core) : (modCore s c g).past = s.past := rfl
@[simp] theorem modCore_views (s : State) (c : Nat) (g : Core → Core) : (modCore s c g).views = s.views := rfl
@[simp] theorem modCore_stale (s : State) (c : Nat) (g : Core → Core) : (modCore s c g).stale = s.stale := rfl
@[simp] theorem modCore_ops (s : State) (c : Nat) (g : Core → Core) : (modCore s c g).ops = s.ops := rfl
@[simp] theorem modCore_images (s : State) (c : Nat) (g : Core → Core) : (modCore s c g).images = s.images := rfl
@[simp] theorem modCore_now (s : State) (c : Nat) (g : Core → Core) : (modCore s c g).now = s.now := rfl
@[simp] theorem modCore_fresh (s : State) (c : Nat) (g : Core → Core) : (modCore s c g).fresh = s.fresh := rfl
@[simp] theorem modCore_nextId (s : State) (c : Nat) (g : Core → Core) : (modCore s c g).nextId = s.nextId := rfl
@[simp] theorem modCore_inbox (s : State) (c : Nat) (g : Core → Core) : (modCore s c g).inbox = s.inbox := rfl
@[simp] theorem modCore_cur (s : State) (c : Nat) (g : Core → Core) : (modCore s c g).cur = s.cur := rfl

/-! ### putStrand -/

@[simp] theorem putStrand_power (s : State) (c sl : Nat) (x : Strand) : (putStrand s c sl x).power = s.power := rfl
@[simp] theorem putStrand_bootFlash (s : State) (c sl : Nat) (x : Strand) : (putStrand s c sl x).bootFlash = s.bootFlash := rfl
@[simp] theorem putStrand_flashKnown (s : State) (c sl : Nat) (x : Strand) : (putStrand s c sl x).flashKnown = s.flashKnown := rfl
@[simp] theorem putStrand_phys (s : State) (c sl : Nat) (x : Strand) : (putStrand s c sl x).phys = s.phys := rfl
@[simp] theorem putStrand_svc (s : State) (c sl : Nat) (x : Strand) : (putStrand s c sl x).svc = s.svc := rfl
@[simp] theorem putStrand_fab (s : State) (c sl : Nat) (x : Strand) : (putStrand s c sl x).fab = s.fab := rfl
@[simp] theorem putStrand_coll (s : State) (c sl : Nat) (x : Strand) : (putStrand s c sl x).coll = s.coll := rfl
@[simp] theorem putStrand_net (s : State) (c sl : Nat) (x : Strand) : (putStrand s c sl x).net = s.net := rfl
@[simp] theorem putStrand_ctxs (s : State) (c sl : Nat) (x : Strand) : (putStrand s c sl x).ctxs = s.ctxs := rfl
@[simp] theorem putStrand_counters (s : State) (c sl : Nat) (x : Strand) : (putStrand s c sl x).counters = s.counters := rfl
@[simp] theorem putStrand_sched (s : State) (c sl : Nat) (x : Strand) : (putStrand s c sl x).sched = s.sched := rfl
@[simp] theorem putStrand_clusters (s : State) (c sl : Nat) (x : Strand) : (putStrand s c sl x).clusters = s.clusters := rfl
@[simp] theorem putStrand_mem (s : State) (c sl : Nat) (x : Strand) : (putStrand s c sl x).mem = s.mem := rfl
@[simp] theorem putStrand_poison (s : State) (c sl : Nat) (x : Strand) : (putStrand s c sl x).poison = s.poison := rfl
@[simp] theorem putStrand_past (s : State) (c sl : Nat) (x : Strand) : (putStrand s c sl x).past = s.past := rfl
@[simp] theorem putStrand_views (s : State) (c sl : Nat) (x : Strand) : (putStrand s c sl x).views = s.views := rfl
@[simp] theorem putStrand_stale (s : State) (c sl : Nat) (x : Strand) : (putStrand s c sl x).stale = s.stale := rfl
@[simp] theorem putStrand_ops (s : State) (c sl : Nat) (x : Strand) : (putStrand s c sl x).ops = s.ops := rfl
@[simp] theorem putStrand_images (s : State) (c sl : Nat) (x : Strand) : (putStrand s c sl x).images = s.images := rfl
@[simp] theorem putStrand_now (s : State) (c sl : Nat) (x : Strand) : (putStrand s c sl x).now = s.now := rfl
@[simp] theorem putStrand_fresh (s : State) (c sl : Nat) (x : Strand) : (putStrand s c sl x).fresh = s.fresh := rfl
@[simp] theorem putStrand_nextId (s : State) (c sl : Nat) (x : Strand) : (putStrand s c sl x).nextId = s.nextId := rfl
@[simp] theorem putStrand_inbox (s : State) (c sl : Nat) (x : Strand) : (putStrand s c sl x).inbox = s.inbox := rfl
@[simp] theorem putStrand_cur (s : State) (c sl : Nat) (x : Strand) : (putStrand s c sl x).cur = s.cur := rfl

/-! ### modStrand -/

@[simp] theorem modStrand_power (s : State) (c sl : Nat) (g : Strand → Strand) : (modStrand s c sl g).power = s.power := by unfold modStrand; split <;> rfl
@[simp] theorem modStrand_bootFlash (s : State) (c sl : Nat) (g : Strand → Strand) : (modStrand s c sl g).bootFlash = s.bootFlash := by unfold modStrand; split <;> rfl
@[simp] theorem modStrand_flashKnown (s : State) (c sl : Nat) (g : Strand → Strand) : (modStrand s c sl g).flashKnown = s.flashKnown := by unfold modStrand; split <;> rfl
@[simp] theorem modStrand_phys (s : State) (c sl : Nat) (g : Strand → Strand) : (modStrand s c sl g).phys = s.phys := by unfold modStrand; split <;> rfl
@[simp] theorem modStrand_svc (s : State) (c sl : Nat) (g : Strand → Strand) : (modStrand s c sl g).svc = s.svc := by unfold modStrand; split <;> rfl
@[simp] theorem modStrand_fab (s : State) (c sl : Nat) (g : Strand → Strand) : (modStrand s c sl g).fab = s.fab := by unfold modStrand; split <;> rfl
@[simp] theorem modStrand_coll (s : State) (c sl : Nat) (g : Strand → Strand) : (modStrand s c sl g).coll = s.coll := by unfold modStrand; split <;> rfl
@[simp] theorem modStrand_net (s : State) (c sl : Nat) (g : Strand → Strand) : (modStrand s c sl g).net = s.net := by unfold modStrand; split <;> rfl
@[simp] theorem modStrand_ctxs (s : State) (c sl : Nat) (g : Strand → Strand) : (modStrand s c sl g).ctxs = s.ctxs := by unfold modStrand; split <;> rfl
@[simp] theorem modStrand_counters (s : State) (c sl : Nat) (g : Strand → Strand) : (modStrand s c sl g).counters = s.counters := by unfold modStrand; split <;> rfl
@[simp] theorem modStrand_sched (s : State) (c sl : Nat) (g : Strand → Strand) : (modStrand s c sl g).sched = s.sched := by unfold modStrand; split <;> rfl
@[simp] theorem modStrand_clusters (s : State) (c sl : Nat) (g : Strand → Strand) : (modStrand s c sl g).clusters = s.clusters := by unfold modStrand; split <;> rfl
@[simp] theorem modStrand_mem (s : State) (c sl : Nat) (g : Strand → Strand) : (modStrand s c sl g).mem = s.mem := by unfold modStrand; split <;> rfl
@[simp] theorem modStrand_poison (s : State) (c sl : Nat) (g : Strand → Strand) : (modStrand s c sl g).poison = s.poison := by unfold modStrand; split <;> rfl
@[simp] theorem modStrand_past (s : State) (c sl : Nat) (g : Strand → Strand) : (modStrand s c sl g).past = s.past := by unfold modStrand; split <;> rfl
@[simp] theorem modStrand_views (s : State) (c sl : Nat) (g : Strand → Strand) : (modStrand s c sl g).views = s.views := by unfold modStrand; split <;> rfl
@[simp] theorem modStrand_stale (s : State) (c sl : Nat) (g : Strand → Strand) : (modStrand s c sl g).stale = s.stale := by unfold modStrand; split <;> rfl
@[simp] theorem modStrand_ops (s : State) (c sl : Nat) (g : Strand → Strand) : (modStrand s c sl g).ops = s.ops := by unfold modStrand; split <;> rfl
@[simp] theorem modStrand_images (s : State) (c sl : Nat) (g : Strand → Strand) : (modStrand s c sl g).images = s.images := by unfold modStrand; split <;> rfl
@[simp] theorem modStrand_now (s : State) (c sl : Nat) (g : Strand → Strand) : (modStrand s c sl g).now = s.now := by unfold modStrand; split <;> rfl
@[simp] theorem modStrand_fresh (s : State) (c sl : Nat) (g : Strand → Strand) : (modStrand s c sl g).fresh = s.fresh := by unfold modStrand; split <;> rfl
@[simp] theorem modStrand_nextId (s : State) (c sl : Nat) (g : Strand → Strand) : (modStrand s c sl g).nextId = s.nextId := by unfold modStrand; split <;> rfl
@[simp] theorem modStrand_inbox (s : State) (c sl : Nat) (g : Strand → Strand) : (modStrand s c sl g).inbox = s.inbox := by unfold modStrand; split <;> rfl
@[simp] theorem modStrand_cur (s : State) (c sl : Nat) (g : Strand → Strand) : (modStrand s c sl g).cur = s.cur := by unfold modStrand; split <;> rfl

/-! ### putSplit -/

@[simp] theorem putSplit_power (s : State) (c e : Nat) (x : Split) : (putSplit s c e x).power = s.power := rfl
@[simp] theorem putSplit_bootFlash (s : State) (c e : Nat) (x : Split) : (putSplit s c e x).bootFlash = s.bootFlash := rfl
@[simp] theorem putSplit_flashKnown (s : State) (c e : Nat) (x : Split) : (putSplit s c e x).flashKnown = s.flashKnown := rfl
@[simp] theorem putSplit_phys (s : State) (c e : Nat) (x : Split) : (putSplit s c e x).phys = s.phys := rfl
@[simp] theorem putSplit_svc (s : State) (c e : Nat) (x : Split) : (putSplit s c e x).svc = s.svc := rfl
@[simp] theorem putSplit_fab (s : State) (c e : Nat) (x : Split) : (putSplit s c e x).fab = s.fab := rfl
@[simp] theorem putSplit_coll (s : State) (c e : Nat) (x : Split) : (putSplit s c e x).coll = s.coll := rfl
@[simp] theorem putSplit_net (s : State) (c e : Nat) (x : Split) : (putSplit s c e x).net = s.net := rfl
@[simp] theorem putSplit_ctxs (s : State) (c e : Nat) (x : Split) : (putSplit s c e x).ctxs = s.ctxs := rfl
@[simp] theorem putSplit_counters (s : State) (c e : Nat) (x : Split) : (putSplit s c e x).counters = s.counters := rfl
@[simp] theorem putSplit_sched (s : State) (c e : Nat) (x : Split) : (putSplit s c e x).sched = s.sched := rfl
@[simp] theorem putSplit_clusters (s : State) (c e : Nat) (x : Split) : (putSplit s c e x).clusters = s.clusters := rfl
@[simp] theorem putSplit_mem (s : State) (c e : Nat) (x : Split) : (putSplit s c e x).mem = s.mem := rfl
@[simp] theorem putSplit_poison (s : State) (c e : Nat) (x : Split) : (putSplit s c e x).poison = s.poison := rfl
@[simp] theorem putSplit_past (s : State) (c e : Nat) (x : Split) : (putSplit s c e x).past = s.past := rfl
@[simp] theorem putSplit_views (s : State) (c e : Nat) (x : Split) : (putSplit s c e x).views = s.views := rfl
@[simp] theorem putSplit_stale (s : State) (c e : Nat) (x : Split) : (putSplit s c e x).stale = s.stale := rfl
@[simp] theorem putSplit_ops (s : State) (c e : Nat) (x : Split) : (putSplit s c e x).ops = s.ops := rfl
@[simp] theorem putSplit_images (s : State) (c e : Nat) (x : Split) : (putSplit s c e x).images = s.images := rfl
@[simp] theorem putSplit_now (s : State) (c e : Nat) (x : Split) : (putSplit s c e x).now = s.now := rfl
@[simp] theorem putSplit_fresh (s : State) (c e : Nat) (x : Split) : (putSplit s c e x).fresh = s.fresh := rfl
@[simp] theorem putSplit_nextId (s : State) (c e : Nat) (x : Split) : (putSplit s c e x).nextId = s.nextId := rfl
@[simp] theorem putSplit_inbox (s : State) (c e : Nat) (x : Split) : (putSplit s c e x).inbox = s.inbox := rfl
@[simp] theorem putSplit_cur (s : State) (c e : Nat) (x : Split) : (putSplit s c e x).cur = s.cur := rfl

/-! ### modSplit -/

@[simp] theorem modSplit_power (s : State) (c e : Nat) (g : Split → Split) : (modSplit s c e g).power = s.power := by unfold modSplit; split <;> rfl
@[simp] theorem modSplit_bootFlash (s : State) (c e : Nat) (g : Split → Split) : (modSplit s c e g).bootFlash = s.bootFlash := by unfold modSplit; split <;> rfl
@[simp] theorem modSplit_flashKnown (s : State) (c e : Nat) (g : Split → Split) : (modSplit s c e g).flashKnown = s.flashKnown := by unfold modSplit; split <;> rfl
@[simp] theorem modSplit_phys (s : State) (c e : Nat) (g : Split → Split) : (modSplit s c e g).phys = s.phys := by unfold modSplit; split <;> rfl
@[simp] theorem modSplit_svc (s : State) (c e : Nat) (g : Split → Split) : (modSplit s c e g).svc = s.svc := by unfold modSplit; split <;> rfl
@[simp] theorem modSplit_fab (s : State) (c e : Nat) (g : Split → Split) : (modSplit s c e g).fab = s.fab := by unfold modSplit; split <;> rfl
@[simp] theorem modSplit_coll (s : State) (c e : Nat) (g : Split → Split) : (modSplit s c e g).coll = s.coll := by unfold modSplit; split <;> rfl
@[simp] theorem modSplit_net (s : State) (c e : Nat) (g : Split → Split) : (modSplit s c e g).net = s.net := by unfold modSplit; split <;> rfl
@[simp] theorem modSplit_ctxs (s : State) (c e : Nat) (g : Split → Split) : (modSplit s c e g).ctxs = s.ctxs := by unfold modSplit; split <;> rfl
@[simp] theorem modSplit_counters (s : State) (c e : Nat) (g : Split → Split) : (modSplit s c e g).counters = s.counters := by unfold modSplit; split <;> rfl
@[simp] theorem modSplit_sched (s : State) (c e : Nat) (g : Split → Split) : (modSplit s c e g).sched = s.sched := by unfold modSplit; split <;> rfl
@[simp] theorem modSplit_clusters (s : State) (c e : Nat) (g : Split → Split) : (modSplit s c e g).clusters = s.clusters := by unfold modSplit; split <;> rfl
@[simp] theorem modSplit_mem (s : State) (c e : Nat) (g : Split → Split) : (modSplit s c e g).mem = s.mem := by unfold modSplit; split <;> rfl
@[simp] theorem modSplit_poison (s : State) (c e : Nat) (g : Split → Split) : (modSplit s c e g).poison = s.poison := by unfold modSplit; split <;> rfl
@[simp] theorem modSplit_past (s : State) (c e : Nat) (g : Split → Split) : (modSplit s c e g).past = s.past := by unfold modSplit; split <;> rfl
@[simp] theorem modSplit_views (s : State) (c e : Nat) (g : Split → Split) : (modSplit s c e g).views = s.views := by unfold modSplit; split <;> rfl
@[simp] theorem modSplit_stale (s : State) (c e : Nat) (g : Split → Split) : (modSplit s c e g).stale = s.stale := by unfold modSplit; split <;> rfl
@[simp] theorem modSplit_ops (s : State) (c e : Nat) (g : Split → Split) : (modSplit s c e g).ops = s.ops := by unfold modSplit; split <;> rfl
@[simp] theorem modSplit_images (s : State) (c e : Nat) (g : Split → Split) : (modSplit s c e g).images = s.images := by unfold modSplit; split <;> rfl
@[simp] theorem modSplit_now (s : State) (c e : Nat) (g : Split → Split) : (modSplit s c e g).now = s.now := by unfold modSplit; split <;> rfl
@[simp] theorem modSplit_fresh (s : State) (c e : Nat) (g : Split → Split) : (modSplit s c e g).fresh = s.fresh := by unfold modSplit; split <;> rfl
@[simp] theorem modSplit_nextId (s : State) (c e : Nat) (g : Split → Split) : (modSplit s c e g).nextId = s.nextId := by unfold modSplit; split <;> rfl
@[simp] theorem modSplit_inbox (s : State) (c e : Nat) (g : Split → Split) : (modSplit s c e g).inbox = s.inbox := by unfold modSplit; split <;> rfl
@[simp] theorem modSplit_cur (s : State) (c e : Nat) (g : Split → Split) : (modSplit s c e g).cur = s.cur := by unfold modSplit; split <;> rfl

/-! ### delSplit -/

@[simp] theorem delSplit_power (s : State) (c e : Nat) : (delSplit s c e).power = s.power := rfl
@[simp] theorem delSplit_bootFlash (s : State) (c e : Nat) : (delSplit s c e).bootFlash = s.bootFlash := rfl
@[simp] theorem delSplit_flashKnown (s : State) (c e : Nat) : (delSplit s c e).flashKnown = s.flashKnown := rfl
@[simp] theorem delSplit_phys (s : State) (c e : Nat) : (delSplit s c e).phys = s.phys := rfl
@[simp] theorem delSplit_svc (s : State) (c e : Nat) : (delSplit s c e).svc = s.svc := rfl
@[simp] theorem delSplit_fab (s : State) (c e : Nat) : (delSplit s c e).fab = s.fab := rfl
@[simp] theorem delSplit_coll (s : State) (c e : Nat) : (delSplit s c e).coll = s.coll := rfl
@[simp] theorem delSplit_net (s : State) (c e : Nat) : (delSplit s c e).net = s.net := rfl
@[simp] theorem delSplit_ctxs (s : State) (c e : Nat) : (delSplit s c e).ctxs = s.ctxs := rfl
@[simp] theorem delSplit_counters (s : State) (c e : Nat) : (delSplit s c e).counters = s.counters := rfl
@[simp] theorem delSplit_sched (s : State) (c e : Nat) : (delSplit s c e).sched = s.sched := rfl
@[simp] theorem delSplit_clusters (s : State) (c e : Nat) : (delSplit s c e).clusters = s.clusters := rfl
@[simp] theorem delSplit_mem (s : State) (c e : Nat) : (delSplit s c e).mem = s.mem := rfl
@[simp] theorem delSplit_poison (s : State) (c e : Nat) : (delSplit s c e).poison = s.poison := rfl
@[simp] theorem delSplit_past (s : State) (c e : Nat) : (delSplit s c e).past = s.past := rfl
@[simp] theorem delSplit_views (s : State) (c e : Nat) : (delSplit s c e).views = s.views := rfl
@[simp] theorem delSplit_stale (s : State) (c e : Nat) : (delSplit s c e).stale = s.stale := rfl
@[simp] theorem delSplit_ops (s : State) (c e : Nat) : (delSplit s c e).ops = s.ops := rfl
@[simp] theorem delSplit_images (s : State) (c e : Nat) : (delSplit s c e).images = s.images := rfl
@[simp] theorem delSplit_now (s : State) (c e : Nat) : (delSplit s c e).now = s.now := rfl
@[simp] theorem delSplit_fresh (s : State) (c e : Nat) : (delSplit s c e).fresh = s.fresh := rfl
@[simp] theorem delSplit_nextId (s : State) (c e : Nat) : (delSplit s c e).nextId = s.nextId := rfl
@[simp] theorem delSplit_inbox (s : State) (c e : Nat) : (delSplit s c e).inbox = s.inbox := rfl
@[simp] theorem delSplit_cur (s : State) (c e : Nat) : (delSplit s c e).cur = s.cur := rfl

/-! ### modCluster -/

@[simp] theorem modCluster_power (s : State) (k : Nat) (g : Cluster → Cluster) : (modCluster s k g).power = s.power := rfl
@[simp] theorem modCluster_bootFlash (s : State) (k : Nat) (g : Cluster → Cluster) : (modCluster s k g).bootFlash = s.bootFlash := rfl
@[simp] theorem modCluster_flashKnown (s : State) (k : Nat) (g : Cluster → Cluster) : (modCluster s k g).flashKnown = s.flashKnown := rfl
@[simp] theorem modCluster_phys (s : State) (k : Nat) (g : Cluster → Cluster) : (modCluster s k g).phys = s.phys := rfl
@[simp] theorem modCluster_svc (s : State) (k : Nat) (g : Cluster → Cluster) : (modCluster s k g).svc = s.svc := rfl
@[simp] theorem modCluster_fab (s : State) (k : Nat) (g : Cluster → Cluster) : (modCluster s k g).fab = s.fab := rfl
@[simp] theorem modCluster_coll (s : State) (k : Nat) (g : Cluster → Cluster) : (modCluster s k g).coll = s.coll := rfl
@[simp] theorem modCluster_net (s : State) (k : Nat) (g : Cluster → Cluster) : (modCluster s k g).net = s.net := rfl
@[simp] theorem modCluster_ctxs (s : State) (k : Nat) (g : Cluster → Cluster) : (modCluster s k g).ctxs = s.ctxs := rfl
@[simp] theorem modCluster_counters (s : State) (k : Nat) (g : Cluster → Cluster) : (modCluster s k g).counters = s.counters := rfl
@[simp] theorem modCluster_sched (s : State) (k : Nat) (g : Cluster → Cluster) : (modCluster s k g).sched = s.sched := rfl
@[simp] theorem modCluster_mem (s : State) (k : Nat) (g : Cluster → Cluster) : (modCluster s k g).mem = s.mem := rfl
@[simp] theorem modCluster_poison (s : State) (k : Nat) (g : Cluster → Cluster) : (modCluster s k g).poison = s.poison := rfl
@[simp] theorem modCluster_past (s : State) (k : Nat) (g : Cluster → Cluster) : (modCluster s k g).past = s.past := rfl
@[simp] theorem modCluster_views (s : State) (k : Nat) (g : Cluster → Cluster) : (modCluster s k g).views = s.views := rfl
@[simp] theorem modCluster_stale (s : State) (k : Nat) (g : Cluster → Cluster) : (modCluster s k g).stale = s.stale := rfl
@[simp] theorem modCluster_cores (s : State) (k : Nat) (g : Cluster → Cluster) : (modCluster s k g).cores = s.cores := rfl
@[simp] theorem modCluster_ops (s : State) (k : Nat) (g : Cluster → Cluster) : (modCluster s k g).ops = s.ops := rfl
@[simp] theorem modCluster_images (s : State) (k : Nat) (g : Cluster → Cluster) : (modCluster s k g).images = s.images := rfl
@[simp] theorem modCluster_now (s : State) (k : Nat) (g : Cluster → Cluster) : (modCluster s k g).now = s.now := rfl
@[simp] theorem modCluster_fresh (s : State) (k : Nat) (g : Cluster → Cluster) : (modCluster s k g).fresh = s.fresh := rfl
@[simp] theorem modCluster_nextId (s : State) (k : Nat) (g : Cluster → Cluster) : (modCluster s k g).nextId = s.nextId := rfl
@[simp] theorem modCluster_inbox (s : State) (k : Nat) (g : Cluster → Cluster) : (modCluster s k g).inbox = s.inbox := rfl
@[simp] theorem modCluster_cur (s : State) (k : Nat) (g : Cluster → Cluster) : (modCluster s k g).cur = s.cur := rfl

/-! ### modCtx -/

@[simp] theorem modCtx_power (s : State) (x : Nat) (g : Ctx → Ctx) : (modCtx s x g).power = s.power := by unfold modCtx; split <;> rfl
@[simp] theorem modCtx_bootFlash (s : State) (x : Nat) (g : Ctx → Ctx) : (modCtx s x g).bootFlash = s.bootFlash := by unfold modCtx; split <;> rfl
@[simp] theorem modCtx_flashKnown (s : State) (x : Nat) (g : Ctx → Ctx) : (modCtx s x g).flashKnown = s.flashKnown := by unfold modCtx; split <;> rfl
@[simp] theorem modCtx_phys (s : State) (x : Nat) (g : Ctx → Ctx) : (modCtx s x g).phys = s.phys := by unfold modCtx; split <;> rfl
@[simp] theorem modCtx_svc (s : State) (x : Nat) (g : Ctx → Ctx) : (modCtx s x g).svc = s.svc := by unfold modCtx; split <;> rfl
@[simp] theorem modCtx_fab (s : State) (x : Nat) (g : Ctx → Ctx) : (modCtx s x g).fab = s.fab := by unfold modCtx; split <;> rfl
@[simp] theorem modCtx_coll (s : State) (x : Nat) (g : Ctx → Ctx) : (modCtx s x g).coll = s.coll := by unfold modCtx; split <;> rfl
@[simp] theorem modCtx_net (s : State) (x : Nat) (g : Ctx → Ctx) : (modCtx s x g).net = s.net := by unfold modCtx; split <;> rfl
@[simp] theorem modCtx_counters (s : State) (x : Nat) (g : Ctx → Ctx) : (modCtx s x g).counters = s.counters := by unfold modCtx; split <;> rfl
@[simp] theorem modCtx_sched (s : State) (x : Nat) (g : Ctx → Ctx) : (modCtx s x g).sched = s.sched := by unfold modCtx; split <;> rfl
@[simp] theorem modCtx_clusters (s : State) (x : Nat) (g : Ctx → Ctx) : (modCtx s x g).clusters = s.clusters := by unfold modCtx; split <;> rfl
@[simp] theorem modCtx_mem (s : State) (x : Nat) (g : Ctx → Ctx) : (modCtx s x g).mem = s.mem := by unfold modCtx; split <;> rfl
@[simp] theorem modCtx_poison (s : State) (x : Nat) (g : Ctx → Ctx) : (modCtx s x g).poison = s.poison := by unfold modCtx; split <;> rfl
@[simp] theorem modCtx_past (s : State) (x : Nat) (g : Ctx → Ctx) : (modCtx s x g).past = s.past := by unfold modCtx; split <;> rfl
@[simp] theorem modCtx_views (s : State) (x : Nat) (g : Ctx → Ctx) : (modCtx s x g).views = s.views := by unfold modCtx; split <;> rfl
@[simp] theorem modCtx_stale (s : State) (x : Nat) (g : Ctx → Ctx) : (modCtx s x g).stale = s.stale := by unfold modCtx; split <;> rfl
@[simp] theorem modCtx_cores (s : State) (x : Nat) (g : Ctx → Ctx) : (modCtx s x g).cores = s.cores := by unfold modCtx; split <;> rfl
@[simp] theorem modCtx_ops (s : State) (x : Nat) (g : Ctx → Ctx) : (modCtx s x g).ops = s.ops := by unfold modCtx; split <;> rfl
@[simp] theorem modCtx_images (s : State) (x : Nat) (g : Ctx → Ctx) : (modCtx s x g).images = s.images := by unfold modCtx; split <;> rfl
@[simp] theorem modCtx_now (s : State) (x : Nat) (g : Ctx → Ctx) : (modCtx s x g).now = s.now := by unfold modCtx; split <;> rfl
@[simp] theorem modCtx_fresh (s : State) (x : Nat) (g : Ctx → Ctx) : (modCtx s x g).fresh = s.fresh := by unfold modCtx; split <;> rfl
@[simp] theorem modCtx_nextId (s : State) (x : Nat) (g : Ctx → Ctx) : (modCtx s x g).nextId = s.nextId := by unfold modCtx; split <;> rfl
@[simp] theorem modCtx_inbox (s : State) (x : Nat) (g : Ctx → Ctx) : (modCtx s x g).inbox = s.inbox := by unfold modCtx; split <;> rfl
@[simp] theorem modCtx_cur (s : State) (x : Nat) (g : Ctx → Ctx) : (modCtx s x g).cur = s.cur := by unfold modCtx; split <;> rfl

/-! ### modView -/

@[simp] theorem modView_power (s : State) (g : Nat) (f : View → View) : (modView s g f).power = s.power := rfl
@[simp] theorem modView_bootFlash (s : State) (g : Nat) (f : View → View) : (modView s g f).bootFlash = s.bootFlash := rfl
@[simp] theorem modView_flashKnown (s : State) (g : Nat) (f : View → View) : (modView s g f).flashKnown = s.flashKnown := rfl
@[simp] theorem modView_phys (s : State) (g : Nat) (f : View → View) : (modView s g f).phys = s.phys := rfl
@[simp] theorem modView_svc (s : State) (g : Nat) (f : View → View) : (modView s g f).svc = s.svc := rfl
@[simp] theorem modView_fab (s : State) (g : Nat) (f : View → View) : (modView s g f).fab = s.fab := rfl
@[simp] theorem modView_coll (s : State) (g : Nat) (f : View → View) : (modView s g f).coll = s.coll := rfl
@[simp] theorem modView_net (s : State) (g : Nat) (f : View → View) : (modView s g f).net = s.net := rfl
@[simp] theorem modView_ctxs (s : State) (g : Nat) (f : View → View) : (modView s g f).ctxs = s.ctxs := rfl
@[simp] theorem modView_counters (s : State) (g : Nat) (f : View → View) : (modView s g f).counters = s.counters := rfl
@[simp] theorem modView_sched (s : State) (g : Nat) (f : View → View) : (modView s g f).sched = s.sched := rfl
@[simp] theorem modView_clusters (s : State) (g : Nat) (f : View → View) : (modView s g f).clusters = s.clusters := rfl
@[simp] theorem modView_mem (s : State) (g : Nat) (f : View → View) : (modView s g f).mem = s.mem := rfl
@[simp] theorem modView_poison (s : State) (g : Nat) (f : View → View) : (modView s g f).poison = s.poison := rfl
@[simp] theorem modView_past (s : State) (g : Nat) (f : View → View) : (modView s g f).past = s.past := rfl
@[simp] theorem modView_stale (s : State) (g : Nat) (f : View → View) : (modView s g f).stale = s.stale := rfl
@[simp] theorem modView_cores (s : State) (g : Nat) (f : View → View) : (modView s g f).cores = s.cores := rfl
@[simp] theorem modView_ops (s : State) (g : Nat) (f : View → View) : (modView s g f).ops = s.ops := rfl
@[simp] theorem modView_images (s : State) (g : Nat) (f : View → View) : (modView s g f).images = s.images := rfl
@[simp] theorem modView_now (s : State) (g : Nat) (f : View → View) : (modView s g f).now = s.now := rfl
@[simp] theorem modView_fresh (s : State) (g : Nat) (f : View → View) : (modView s g f).fresh = s.fresh := rfl
@[simp] theorem modView_nextId (s : State) (g : Nat) (f : View → View) : (modView s g f).nextId = s.nextId := rfl
@[simp] theorem modView_inbox (s : State) (g : Nat) (f : View → View) : (modView s g f).inbox = s.inbox := rfl
@[simp] theorem modView_cur (s : State) (g : Nat) (f : View → View) : (modView s g f).cur = s.cur := rfl

/-! ### raiseView -/

@[simp] theorem raiseView_power (s : State) (c sl : Nat) : (raiseView s c sl).power = s.power := rfl
@[simp] theorem raiseView_bootFlash (s : State) (c sl : Nat) : (raiseView s c sl).bootFlash = s.bootFlash := rfl
@[simp] theorem raiseView_flashKnown (s : State) (c sl : Nat) : (raiseView s c sl).flashKnown = s.flashKnown := rfl
@[simp] theorem raiseView_phys (s : State) (c sl : Nat) : (raiseView s c sl).phys = s.phys := rfl
@[simp] theorem raiseView_svc (s : State) (c sl : Nat) : (raiseView s c sl).svc = s.svc := rfl
@[simp] theorem raiseView_fab (s : State) (c sl : Nat) : (raiseView s c sl).fab = s.fab := rfl
@[simp] theorem raiseView_coll (s : State) (c sl : Nat) : (raiseView s c sl).coll = s.coll := rfl
@[simp] theorem raiseView_net (s : State) (c sl : Nat) : (raiseView s c sl).net = s.net := rfl
@[simp] theorem raiseView_ctxs (s : State) (c sl : Nat) : (raiseView s c sl).ctxs = s.ctxs := rfl
@[simp] theorem raiseView_counters (s : State) (c sl : Nat) : (raiseView s c sl).counters = s.counters := rfl
@[simp] theorem raiseView_sched (s : State) (c sl : Nat) : (raiseView s c sl).sched = s.sched := rfl
@[simp] theorem raiseView_clusters (s : State) (c sl : Nat) : (raiseView s c sl).clusters = s.clusters := rfl
@[simp] theorem raiseView_mem (s : State) (c sl : Nat) : (raiseView s c sl).mem = s.mem := rfl
@[simp] theorem raiseView_poison (s : State) (c sl : Nat) : (raiseView s c sl).poison = s.poison := rfl
@[simp] theorem raiseView_past (s : State) (c sl : Nat) : (raiseView s c sl).past = s.past := rfl
@[simp] theorem raiseView_stale (s : State) (c sl : Nat) : (raiseView s c sl).stale = s.stale := rfl
@[simp] theorem raiseView_cores (s : State) (c sl : Nat) : (raiseView s c sl).cores = s.cores := rfl
@[simp] theorem raiseView_ops (s : State) (c sl : Nat) : (raiseView s c sl).ops = s.ops := rfl
@[simp] theorem raiseView_images (s : State) (c sl : Nat) : (raiseView s c sl).images = s.images := rfl
@[simp] theorem raiseView_now (s : State) (c sl : Nat) : (raiseView s c sl).now = s.now := rfl
@[simp] theorem raiseView_fresh (s : State) (c sl : Nat) : (raiseView s c sl).fresh = s.fresh := rfl
@[simp] theorem raiseView_nextId (s : State) (c sl : Nat) : (raiseView s c sl).nextId = s.nextId := rfl
@[simp] theorem raiseView_inbox (s : State) (c sl : Nat) : (raiseView s c sl).inbox = s.inbox := rfl
@[simp] theorem raiseView_cur (s : State) (c sl : Nat) : (raiseView s c sl).cur = s.cur := rfl

/-! ### settleStale -/

@[simp] theorem settleStale_power (s : State) (c sl : Nat) (p : BitVec 8 → Bool) : (settleStale s c sl p).power = s.power := rfl
@[simp] theorem settleStale_bootFlash (s : State) (c sl : Nat) (p : BitVec 8 → Bool) : (settleStale s c sl p).bootFlash = s.bootFlash := rfl
@[simp] theorem settleStale_flashKnown (s : State) (c sl : Nat) (p : BitVec 8 → Bool) : (settleStale s c sl p).flashKnown = s.flashKnown := rfl
@[simp] theorem settleStale_phys (s : State) (c sl : Nat) (p : BitVec 8 → Bool) : (settleStale s c sl p).phys = s.phys := rfl
@[simp] theorem settleStale_svc (s : State) (c sl : Nat) (p : BitVec 8 → Bool) : (settleStale s c sl p).svc = s.svc := rfl
@[simp] theorem settleStale_fab (s : State) (c sl : Nat) (p : BitVec 8 → Bool) : (settleStale s c sl p).fab = s.fab := rfl
@[simp] theorem settleStale_coll (s : State) (c sl : Nat) (p : BitVec 8 → Bool) : (settleStale s c sl p).coll = s.coll := rfl
@[simp] theorem settleStale_net (s : State) (c sl : Nat) (p : BitVec 8 → Bool) : (settleStale s c sl p).net = s.net := rfl
@[simp] theorem settleStale_ctxs (s : State) (c sl : Nat) (p : BitVec 8 → Bool) : (settleStale s c sl p).ctxs = s.ctxs := rfl
@[simp] theorem settleStale_counters (s : State) (c sl : Nat) (p : BitVec 8 → Bool) : (settleStale s c sl p).counters = s.counters := rfl
@[simp] theorem settleStale_sched (s : State) (c sl : Nat) (p : BitVec 8 → Bool) : (settleStale s c sl p).sched = s.sched := rfl
@[simp] theorem settleStale_clusters (s : State) (c sl : Nat) (p : BitVec 8 → Bool) : (settleStale s c sl p).clusters = s.clusters := rfl
@[simp] theorem settleStale_mem (s : State) (c sl : Nat) (p : BitVec 8 → Bool) : (settleStale s c sl p).mem = s.mem := rfl
@[simp] theorem settleStale_poison (s : State) (c sl : Nat) (p : BitVec 8 → Bool) : (settleStale s c sl p).poison = s.poison := rfl
@[simp] theorem settleStale_past (s : State) (c sl : Nat) (p : BitVec 8 → Bool) : (settleStale s c sl p).past = s.past := rfl
@[simp] theorem settleStale_views (s : State) (c sl : Nat) (p : BitVec 8 → Bool) : (settleStale s c sl p).views = s.views := rfl
@[simp] theorem settleStale_cores (s : State) (c sl : Nat) (p : BitVec 8 → Bool) : (settleStale s c sl p).cores = s.cores := rfl
@[simp] theorem settleStale_ops (s : State) (c sl : Nat) (p : BitVec 8 → Bool) : (settleStale s c sl p).ops = s.ops := rfl
@[simp] theorem settleStale_images (s : State) (c sl : Nat) (p : BitVec 8 → Bool) : (settleStale s c sl p).images = s.images := rfl
@[simp] theorem settleStale_now (s : State) (c sl : Nat) (p : BitVec 8 → Bool) : (settleStale s c sl p).now = s.now := rfl
@[simp] theorem settleStale_fresh (s : State) (c sl : Nat) (p : BitVec 8 → Bool) : (settleStale s c sl p).fresh = s.fresh := rfl
@[simp] theorem settleStale_nextId (s : State) (c sl : Nat) (p : BitVec 8 → Bool) : (settleStale s c sl p).nextId = s.nextId := rfl
@[simp] theorem settleStale_inbox (s : State) (c sl : Nat) (p : BitVec 8 → Bool) : (settleStale s c sl p).inbox = s.inbox := rfl
@[simp] theorem settleStale_cur (s : State) (c sl : Nat) (p : BitVec 8 → Bool) : (settleStale s c sl p).cur = s.cur := rfl

/-! ### notePast -/

@[simp] theorem notePast_power (s : State) (pa n : Nat) (plain : Bool) : (notePast s pa n plain).power = s.power := rfl
@[simp] theorem notePast_bootFlash (s : State) (pa n : Nat) (plain : Bool) : (notePast s pa n plain).bootFlash = s.bootFlash := rfl
@[simp] theorem notePast_flashKnown (s : State) (pa n : Nat) (plain : Bool) : (notePast s pa n plain).flashKnown = s.flashKnown := rfl
@[simp] theorem notePast_phys (s : State) (pa n : Nat) (plain : Bool) : (notePast s pa n plain).phys = s.phys := rfl
@[simp] theorem notePast_svc (s : State) (pa n : Nat) (plain : Bool) : (notePast s pa n plain).svc = s.svc := rfl
@[simp] theorem notePast_fab (s : State) (pa n : Nat) (plain : Bool) : (notePast s pa n plain).fab = s.fab := rfl
@[simp] theorem notePast_coll (s : State) (pa n : Nat) (plain : Bool) : (notePast s pa n plain).coll = s.coll := rfl
@[simp] theorem notePast_net (s : State) (pa n : Nat) (plain : Bool) : (notePast s pa n plain).net = s.net := rfl
@[simp] theorem notePast_ctxs (s : State) (pa n : Nat) (plain : Bool) : (notePast s pa n plain).ctxs = s.ctxs := rfl
@[simp] theorem notePast_counters (s : State) (pa n : Nat) (plain : Bool) : (notePast s pa n plain).counters = s.counters := rfl
@[simp] theorem notePast_sched (s : State) (pa n : Nat) (plain : Bool) : (notePast s pa n plain).sched = s.sched := rfl
@[simp] theorem notePast_clusters (s : State) (pa n : Nat) (plain : Bool) : (notePast s pa n plain).clusters = s.clusters := rfl
@[simp] theorem notePast_mem (s : State) (pa n : Nat) (plain : Bool) : (notePast s pa n plain).mem = s.mem := rfl
@[simp] theorem notePast_poison (s : State) (pa n : Nat) (plain : Bool) : (notePast s pa n plain).poison = s.poison := rfl
@[simp] theorem notePast_views (s : State) (pa n : Nat) (plain : Bool) : (notePast s pa n plain).views = s.views := rfl
@[simp] theorem notePast_stale (s : State) (pa n : Nat) (plain : Bool) : (notePast s pa n plain).stale = s.stale := rfl
@[simp] theorem notePast_cores (s : State) (pa n : Nat) (plain : Bool) : (notePast s pa n plain).cores = s.cores := rfl
@[simp] theorem notePast_ops (s : State) (pa n : Nat) (plain : Bool) : (notePast s pa n plain).ops = s.ops := rfl
@[simp] theorem notePast_images (s : State) (pa n : Nat) (plain : Bool) : (notePast s pa n plain).images = s.images := rfl
@[simp] theorem notePast_now (s : State) (pa n : Nat) (plain : Bool) : (notePast s pa n plain).now = s.now := rfl
@[simp] theorem notePast_fresh (s : State) (pa n : Nat) (plain : Bool) : (notePast s pa n plain).fresh = s.fresh := rfl
@[simp] theorem notePast_nextId (s : State) (pa n : Nat) (plain : Bool) : (notePast s pa n plain).nextId = s.nextId := rfl
@[simp] theorem notePast_inbox (s : State) (pa n : Nat) (plain : Bool) : (notePast s pa n plain).inbox = s.inbox := rfl
@[simp] theorem notePast_cur (s : State) (pa n : Nat) (plain : Bool) : (notePast s pa n plain).cur = s.cur := rfl

/-! ### forgetPast -/

@[simp] theorem forgetPast_power (s : State) (pa n : Nat) : (forgetPast s pa n).power = s.power := rfl
@[simp] theorem forgetPast_bootFlash (s : State) (pa n : Nat) : (forgetPast s pa n).bootFlash = s.bootFlash := rfl
@[simp] theorem forgetPast_flashKnown (s : State) (pa n : Nat) : (forgetPast s pa n).flashKnown = s.flashKnown := rfl
@[simp] theorem forgetPast_phys (s : State) (pa n : Nat) : (forgetPast s pa n).phys = s.phys := rfl
@[simp] theorem forgetPast_svc (s : State) (pa n : Nat) : (forgetPast s pa n).svc = s.svc := rfl
@[simp] theorem forgetPast_fab (s : State) (pa n : Nat) : (forgetPast s pa n).fab = s.fab := rfl
@[simp] theorem forgetPast_coll (s : State) (pa n : Nat) : (forgetPast s pa n).coll = s.coll := rfl
@[simp] theorem forgetPast_net (s : State) (pa n : Nat) : (forgetPast s pa n).net = s.net := rfl
@[simp] theorem forgetPast_ctxs (s : State) (pa n : Nat) : (forgetPast s pa n).ctxs = s.ctxs := rfl
@[simp] theorem forgetPast_counters (s : State) (pa n : Nat) : (forgetPast s pa n).counters = s.counters := rfl
@[simp] theorem forgetPast_sched (s : State) (pa n : Nat) : (forgetPast s pa n).sched = s.sched := rfl
@[simp] theorem forgetPast_clusters (s : State) (pa n : Nat) : (forgetPast s pa n).clusters = s.clusters := rfl
@[simp] theorem forgetPast_mem (s : State) (pa n : Nat) : (forgetPast s pa n).mem = s.mem := rfl
@[simp] theorem forgetPast_poison (s : State) (pa n : Nat) : (forgetPast s pa n).poison = s.poison := rfl
@[simp] theorem forgetPast_views (s : State) (pa n : Nat) : (forgetPast s pa n).views = s.views := rfl
@[simp] theorem forgetPast_stale (s : State) (pa n : Nat) : (forgetPast s pa n).stale = s.stale := rfl
@[simp] theorem forgetPast_cores (s : State) (pa n : Nat) : (forgetPast s pa n).cores = s.cores := rfl
@[simp] theorem forgetPast_ops (s : State) (pa n : Nat) : (forgetPast s pa n).ops = s.ops := rfl
@[simp] theorem forgetPast_images (s : State) (pa n : Nat) : (forgetPast s pa n).images = s.images := rfl
@[simp] theorem forgetPast_now (s : State) (pa n : Nat) : (forgetPast s pa n).now = s.now := rfl
@[simp] theorem forgetPast_fresh (s : State) (pa n : Nat) : (forgetPast s pa n).fresh = s.fresh := rfl
@[simp] theorem forgetPast_nextId (s : State) (pa n : Nat) : (forgetPast s pa n).nextId = s.nextId := rfl
@[simp] theorem forgetPast_inbox (s : State) (pa n : Nat) : (forgetPast s pa n).inbox = s.inbox := rfl
@[simp] theorem forgetPast_cur (s : State) (pa n : Nat) : (forgetPast s pa n).cur = s.cur := rfl

/-! ### acceptStore -/

@[simp] theorem acceptStore_power (s : State) (e : ClStore) : (acceptStore s e).power = s.power := rfl
@[simp] theorem acceptStore_bootFlash (s : State) (e : ClStore) : (acceptStore s e).bootFlash = s.bootFlash := rfl
@[simp] theorem acceptStore_flashKnown (s : State) (e : ClStore) : (acceptStore s e).flashKnown = s.flashKnown := rfl
@[simp] theorem acceptStore_phys (s : State) (e : ClStore) : (acceptStore s e).phys = s.phys := rfl
@[simp] theorem acceptStore_svc (s : State) (e : ClStore) : (acceptStore s e).svc = s.svc := rfl
@[simp] theorem acceptStore_fab (s : State) (e : ClStore) : (acceptStore s e).fab = s.fab := rfl
@[simp] theorem acceptStore_coll (s : State) (e : ClStore) : (acceptStore s e).coll = s.coll := rfl
@[simp] theorem acceptStore_net (s : State) (e : ClStore) : (acceptStore s e).net = s.net := rfl
@[simp] theorem acceptStore_ctxs (s : State) (e : ClStore) : (acceptStore s e).ctxs = s.ctxs := rfl
@[simp] theorem acceptStore_counters (s : State) (e : ClStore) : (acceptStore s e).counters = s.counters := rfl
@[simp] theorem acceptStore_sched (s : State) (e : ClStore) : (acceptStore s e).sched = s.sched := rfl
@[simp] theorem acceptStore_clusters (s : State) (e : ClStore) : (acceptStore s e).clusters = s.clusters := rfl
@[simp] theorem acceptStore_poison (s : State) (e : ClStore) : (acceptStore s e).poison = s.poison := rfl
@[simp] theorem acceptStore_views (s : State) (e : ClStore) : (acceptStore s e).views = s.views := rfl
@[simp] theorem acceptStore_stale (s : State) (e : ClStore) : (acceptStore s e).stale = s.stale := rfl
@[simp] theorem acceptStore_cores (s : State) (e : ClStore) : (acceptStore s e).cores = s.cores := rfl
@[simp] theorem acceptStore_ops (s : State) (e : ClStore) : (acceptStore s e).ops = s.ops := rfl
@[simp] theorem acceptStore_images (s : State) (e : ClStore) : (acceptStore s e).images = s.images := rfl
@[simp] theorem acceptStore_now (s : State) (e : ClStore) : (acceptStore s e).now = s.now := rfl
@[simp] theorem acceptStore_fresh (s : State) (e : ClStore) : (acceptStore s e).fresh = s.fresh := rfl
@[simp] theorem acceptStore_nextId (s : State) (e : ClStore) : (acceptStore s e).nextId = s.nextId := rfl
@[simp] theorem acceptStore_inbox (s : State) (e : ClStore) : (acceptStore s e).inbox = s.inbox := rfl
@[simp] theorem acceptStore_cur (s : State) (e : ClStore) : (acceptStore s e).cur = s.cur := rfl

/-! ### takeId -/

@[simp] theorem takeId_power (s : State) : ((takeId s).2).power = s.power := rfl
@[simp] theorem takeId_bootFlash (s : State) : ((takeId s).2).bootFlash = s.bootFlash := rfl
@[simp] theorem takeId_flashKnown (s : State) : ((takeId s).2).flashKnown = s.flashKnown := rfl
@[simp] theorem takeId_phys (s : State) : ((takeId s).2).phys = s.phys := rfl
@[simp] theorem takeId_svc (s : State) : ((takeId s).2).svc = s.svc := rfl
@[simp] theorem takeId_fab (s : State) : ((takeId s).2).fab = s.fab := rfl
@[simp] theorem takeId_coll (s : State) : ((takeId s).2).coll = s.coll := rfl
@[simp] theorem takeId_net (s : State) : ((takeId s).2).net = s.net := rfl
@[simp] theorem takeId_ctxs (s : State) : ((takeId s).2).ctxs = s.ctxs := rfl
@[simp] theorem takeId_counters (s : State) : ((takeId s).2).counters = s.counters := rfl
@[simp] theorem takeId_sched (s : State) : ((takeId s).2).sched = s.sched := rfl
@[simp] theorem takeId_clusters (s : State) : ((takeId s).2).clusters = s.clusters := rfl
@[simp] theorem takeId_mem (s : State) : ((takeId s).2).mem = s.mem := rfl
@[simp] theorem takeId_poison (s : State) : ((takeId s).2).poison = s.poison := rfl
@[simp] theorem takeId_past (s : State) : ((takeId s).2).past = s.past := rfl
@[simp] theorem takeId_views (s : State) : ((takeId s).2).views = s.views := rfl
@[simp] theorem takeId_stale (s : State) : ((takeId s).2).stale = s.stale := rfl
@[simp] theorem takeId_cores (s : State) : ((takeId s).2).cores = s.cores := rfl
@[simp] theorem takeId_ops (s : State) : ((takeId s).2).ops = s.ops := rfl
@[simp] theorem takeId_images (s : State) : ((takeId s).2).images = s.images := rfl
@[simp] theorem takeId_now (s : State) : ((takeId s).2).now = s.now := rfl
@[simp] theorem takeId_fresh (s : State) : ((takeId s).2).fresh = s.fresh := rfl
@[simp] theorem takeId_inbox (s : State) : ((takeId s).2).inbox = s.inbox := rfl
@[simp] theorem takeId_cur (s : State) : ((takeId s).2).cur = s.cur := rfl

/-! ### takeDue -/

@[simp] theorem takeDue_power (s : State) : ((takeDue s).2).power = s.power := rfl
@[simp] theorem takeDue_bootFlash (s : State) : ((takeDue s).2).bootFlash = s.bootFlash := rfl
@[simp] theorem takeDue_flashKnown (s : State) : ((takeDue s).2).flashKnown = s.flashKnown := rfl
@[simp] theorem takeDue_phys (s : State) : ((takeDue s).2).phys = s.phys := rfl
@[simp] theorem takeDue_svc (s : State) : ((takeDue s).2).svc = s.svc := rfl
@[simp] theorem takeDue_fab (s : State) : ((takeDue s).2).fab = s.fab := rfl
@[simp] theorem takeDue_coll (s : State) : ((takeDue s).2).coll = s.coll := rfl
@[simp] theorem takeDue_net (s : State) : ((takeDue s).2).net = s.net := rfl
@[simp] theorem takeDue_ctxs (s : State) : ((takeDue s).2).ctxs = s.ctxs := rfl
@[simp] theorem takeDue_counters (s : State) : ((takeDue s).2).counters = s.counters := rfl
@[simp] theorem takeDue_sched (s : State) : ((takeDue s).2).sched = s.sched := rfl
@[simp] theorem takeDue_clusters (s : State) : ((takeDue s).2).clusters = s.clusters := rfl
@[simp] theorem takeDue_mem (s : State) : ((takeDue s).2).mem = s.mem := rfl
@[simp] theorem takeDue_poison (s : State) : ((takeDue s).2).poison = s.poison := rfl
@[simp] theorem takeDue_past (s : State) : ((takeDue s).2).past = s.past := rfl
@[simp] theorem takeDue_views (s : State) : ((takeDue s).2).views = s.views := rfl
@[simp] theorem takeDue_stale (s : State) : ((takeDue s).2).stale = s.stale := rfl
@[simp] theorem takeDue_cores (s : State) : ((takeDue s).2).cores = s.cores := rfl
@[simp] theorem takeDue_ops (s : State) : ((takeDue s).2).ops = s.ops := rfl
@[simp] theorem takeDue_images (s : State) : ((takeDue s).2).images = s.images := rfl
@[simp] theorem takeDue_now (s : State) : ((takeDue s).2).now = s.now := rfl
@[simp] theorem takeDue_nextId (s : State) : ((takeDue s).2).nextId = s.nextId := rfl
@[simp] theorem takeDue_inbox (s : State) : ((takeDue s).2).inbox = s.inbox := rfl
@[simp] theorem takeDue_cur (s : State) : ((takeDue s).2).cur = s.cur := rfl

/-! ### modOp -/

@[simp] theorem modOp_power (s : State) (id : Nat) (g : Op → Op) : (modOp s id g).power = s.power := rfl
@[simp] theorem modOp_bootFlash (s : State) (id : Nat) (g : Op → Op) : (modOp s id g).bootFlash = s.bootFlash := rfl
@[simp] theorem modOp_flashKnown (s : State) (id : Nat) (g : Op → Op) : (modOp s id g).flashKnown = s.flashKnown := rfl
@[simp] theorem modOp_phys (s : State) (id : Nat) (g : Op → Op) : (modOp s id g).phys = s.phys := rfl
@[simp] theorem modOp_svc (s : State) (id : Nat) (g : Op → Op) : (modOp s id g).svc = s.svc := rfl
@[simp] theorem modOp_fab (s : State) (id : Nat) (g : Op → Op) : (modOp s id g).fab = s.fab := rfl
@[simp] theorem modOp_coll (s : State) (id : Nat) (g : Op → Op) : (modOp s id g).coll = s.coll := rfl
@[simp] theorem modOp_net (s : State) (id : Nat) (g : Op → Op) : (modOp s id g).net = s.net := rfl
@[simp] theorem modOp_ctxs (s : State) (id : Nat) (g : Op → Op) : (modOp s id g).ctxs = s.ctxs := rfl
@[simp] theorem modOp_counters (s : State) (id : Nat) (g : Op → Op) : (modOp s id g).counters = s.counters := rfl
@[simp] theorem modOp_sched (s : State) (id : Nat) (g : Op → Op) : (modOp s id g).sched = s.sched := rfl
@[simp] theorem modOp_clusters (s : State) (id : Nat) (g : Op → Op) : (modOp s id g).clusters = s.clusters := rfl
@[simp] theorem modOp_mem (s : State) (id : Nat) (g : Op → Op) : (modOp s id g).mem = s.mem := rfl
@[simp] theorem modOp_poison (s : State) (id : Nat) (g : Op → Op) : (modOp s id g).poison = s.poison := rfl
@[simp] theorem modOp_past (s : State) (id : Nat) (g : Op → Op) : (modOp s id g).past = s.past := rfl
@[simp] theorem modOp_views (s : State) (id : Nat) (g : Op → Op) : (modOp s id g).views = s.views := rfl
@[simp] theorem modOp_stale (s : State) (id : Nat) (g : Op → Op) : (modOp s id g).stale = s.stale := rfl
@[simp] theorem modOp_cores (s : State) (id : Nat) (g : Op → Op) : (modOp s id g).cores = s.cores := rfl
@[simp] theorem modOp_images (s : State) (id : Nat) (g : Op → Op) : (modOp s id g).images = s.images := rfl
@[simp] theorem modOp_now (s : State) (id : Nat) (g : Op → Op) : (modOp s id g).now = s.now := rfl
@[simp] theorem modOp_fresh (s : State) (id : Nat) (g : Op → Op) : (modOp s id g).fresh = s.fresh := rfl
@[simp] theorem modOp_nextId (s : State) (id : Nat) (g : Op → Op) : (modOp s id g).nextId = s.nextId := rfl
@[simp] theorem modOp_inbox (s : State) (id : Nat) (g : Op → Op) : (modOp s id g).inbox = s.inbox := rfl
@[simp] theorem modOp_cur (s : State) (id : Nat) (g : Op → Op) : (modOp s id g).cur = s.cur := rfl

/-! ### sweepOps -/

@[simp] theorem sweepOps_power (s : State) (c sl : Nat) : (sweepOps s c sl).power = s.power := by unfold sweepOps; dsimp only; split <;> rfl
@[simp] theorem sweepOps_bootFlash (s : State) (c sl : Nat) : (sweepOps s c sl).bootFlash = s.bootFlash := by unfold sweepOps; dsimp only; split <;> rfl
@[simp] theorem sweepOps_flashKnown (s : State) (c sl : Nat) : (sweepOps s c sl).flashKnown = s.flashKnown := by unfold sweepOps; dsimp only; split <;> rfl
@[simp] theorem sweepOps_phys (s : State) (c sl : Nat) : (sweepOps s c sl).phys = s.phys := by unfold sweepOps; dsimp only; split <;> rfl
@[simp] theorem sweepOps_svc (s : State) (c sl : Nat) : (sweepOps s c sl).svc = s.svc := by unfold sweepOps; dsimp only; split <;> rfl
@[simp] theorem sweepOps_fab (s : State) (c sl : Nat) : (sweepOps s c sl).fab = s.fab := by unfold sweepOps; dsimp only; split <;> rfl
@[simp] theorem sweepOps_coll (s : State) (c sl : Nat) : (sweepOps s c sl).coll = s.coll := by unfold sweepOps; dsimp only; split <;> rfl
@[simp] theorem sweepOps_net (s : State) (c sl : Nat) : (sweepOps s c sl).net = s.net := by unfold sweepOps; dsimp only; split <;> rfl
@[simp] theorem sweepOps_ctxs (s : State) (c sl : Nat) : (sweepOps s c sl).ctxs = s.ctxs := by unfold sweepOps; dsimp only; split <;> rfl
@[simp] theorem sweepOps_counters (s : State) (c sl : Nat) : (sweepOps s c sl).counters = s.counters := by unfold sweepOps; dsimp only; split <;> rfl
@[simp] theorem sweepOps_sched (s : State) (c sl : Nat) : (sweepOps s c sl).sched = s.sched := by unfold sweepOps; dsimp only; split <;> rfl
@[simp] theorem sweepOps_clusters (s : State) (c sl : Nat) : (sweepOps s c sl).clusters = s.clusters := by unfold sweepOps; dsimp only; split <;> rfl
@[simp] theorem sweepOps_mem (s : State) (c sl : Nat) : (sweepOps s c sl).mem = s.mem := by unfold sweepOps; dsimp only; split <;> rfl
@[simp] theorem sweepOps_poison (s : State) (c sl : Nat) : (sweepOps s c sl).poison = s.poison := by unfold sweepOps; dsimp only; split <;> rfl
@[simp] theorem sweepOps_past (s : State) (c sl : Nat) : (sweepOps s c sl).past = s.past := by unfold sweepOps; dsimp only; split <;> rfl
@[simp] theorem sweepOps_views (s : State) (c sl : Nat) : (sweepOps s c sl).views = s.views := by unfold sweepOps; dsimp only; split <;> rfl
@[simp] theorem sweepOps_stale (s : State) (c sl : Nat) : (sweepOps s c sl).stale = s.stale := by unfold sweepOps; dsimp only; split <;> rfl
@[simp] theorem sweepOps_cores (s : State) (c sl : Nat) : (sweepOps s c sl).cores = s.cores := by unfold sweepOps; dsimp only; split <;> rfl
@[simp] theorem sweepOps_images (s : State) (c sl : Nat) : (sweepOps s c sl).images = s.images := by unfold sweepOps; dsimp only; split <;> rfl
@[simp] theorem sweepOps_now (s : State) (c sl : Nat) : (sweepOps s c sl).now = s.now := by unfold sweepOps; dsimp only; split <;> rfl
@[simp] theorem sweepOps_fresh (s : State) (c sl : Nat) : (sweepOps s c sl).fresh = s.fresh := by unfold sweepOps; dsimp only; split <;> rfl
@[simp] theorem sweepOps_nextId (s : State) (c sl : Nat) : (sweepOps s c sl).nextId = s.nextId := by unfold sweepOps; dsimp only; split <;> rfl
@[simp] theorem sweepOps_inbox (s : State) (c sl : Nat) : (sweepOps s c sl).inbox = s.inbox := by unfold sweepOps; dsimp only; split <;> rfl
@[simp] theorem sweepOps_cur (s : State) (c sl : Nat) : (sweepOps s c sl).cur = s.cur := by unfold sweepOps; dsimp only; split <;> rfl

/-! ### logError -/

@[simp] theorem logError_power (s : State) (r : LogRec) : (logError s r).power = s.power := rfl
@[simp] theorem logError_bootFlash (s : State) (r : LogRec) : (logError s r).bootFlash = s.bootFlash := rfl
@[simp] theorem logError_flashKnown (s : State) (r : LogRec) : (logError s r).flashKnown = s.flashKnown := rfl
@[simp] theorem logError_phys (s : State) (r : LogRec) : (logError s r).phys = s.phys := rfl
@[simp] theorem logError_fab (s : State) (r : LogRec) : (logError s r).fab = s.fab := rfl
@[simp] theorem logError_coll (s : State) (r : LogRec) : (logError s r).coll = s.coll := rfl
@[simp] theorem logError_net (s : State) (r : LogRec) : (logError s r).net = s.net := rfl
@[simp] theorem logError_ctxs (s : State) (r : LogRec) : (logError s r).ctxs = s.ctxs := rfl
@[simp] theorem logError_counters (s : State) (r : LogRec) : (logError s r).counters = s.counters := rfl
@[simp] theorem logError_sched (s : State) (r : LogRec) : (logError s r).sched = s.sched := rfl
@[simp] theorem logError_clusters (s : State) (r : LogRec) : (logError s r).clusters = s.clusters := rfl
@[simp] theorem logError_mem (s : State) (r : LogRec) : (logError s r).mem = s.mem := rfl
@[simp] theorem logError_poison (s : State) (r : LogRec) : (logError s r).poison = s.poison := rfl
@[simp] theorem logError_past (s : State) (r : LogRec) : (logError s r).past = s.past := rfl
@[simp] theorem logError_views (s : State) (r : LogRec) : (logError s r).views = s.views := rfl
@[simp] theorem logError_stale (s : State) (r : LogRec) : (logError s r).stale = s.stale := rfl
@[simp] theorem logError_cores (s : State) (r : LogRec) : (logError s r).cores = s.cores := rfl
@[simp] theorem logError_ops (s : State) (r : LogRec) : (logError s r).ops = s.ops := rfl
@[simp] theorem logError_images (s : State) (r : LogRec) : (logError s r).images = s.images := rfl
@[simp] theorem logError_now (s : State) (r : LogRec) : (logError s r).now = s.now := rfl
@[simp] theorem logError_fresh (s : State) (r : LogRec) : (logError s r).fresh = s.fresh := rfl
@[simp] theorem logError_nextId (s : State) (r : LogRec) : (logError s r).nextId = s.nextId := rfl
@[simp] theorem logError_inbox (s : State) (r : LogRec) : (logError s r).inbox = s.inbox := rfl
@[simp] theorem logError_cur (s : State) (r : LogRec) : (logError s r).cur = s.cur := rfl

/-! ### countIssue -/

@[simp] theorem countIssue_power (s : State) (v : Iss) : (countIssue s v).power = s.power := rfl
@[simp] theorem countIssue_bootFlash (s : State) (v : Iss) : (countIssue s v).bootFlash = s.bootFlash := rfl
@[simp] theorem countIssue_flashKnown (s : State) (v : Iss) : (countIssue s v).flashKnown = s.flashKnown := rfl
@[simp] theorem countIssue_phys (s : State) (v : Iss) : (countIssue s v).phys = s.phys := rfl
@[simp] theorem countIssue_svc (s : State) (v : Iss) : (countIssue s v).svc = s.svc := rfl
@[simp] theorem countIssue_fab (s : State) (v : Iss) : (countIssue s v).fab = s.fab := rfl
@[simp] theorem countIssue_coll (s : State) (v : Iss) : (countIssue s v).coll = s.coll := rfl
@[simp] theorem countIssue_net (s : State) (v : Iss) : (countIssue s v).net = s.net := rfl
@[simp] theorem countIssue_ctxs (s : State) (v : Iss) : (countIssue s v).ctxs = s.ctxs := rfl
@[simp] theorem countIssue_counters (s : State) (v : Iss) : (countIssue s v).counters = s.counters := rfl
@[simp] theorem countIssue_sched (s : State) (v : Iss) : (countIssue s v).sched = s.sched := rfl
@[simp] theorem countIssue_mem (s : State) (v : Iss) : (countIssue s v).mem = s.mem := rfl
@[simp] theorem countIssue_poison (s : State) (v : Iss) : (countIssue s v).poison = s.poison := rfl
@[simp] theorem countIssue_past (s : State) (v : Iss) : (countIssue s v).past = s.past := rfl
@[simp] theorem countIssue_views (s : State) (v : Iss) : (countIssue s v).views = s.views := rfl
@[simp] theorem countIssue_stale (s : State) (v : Iss) : (countIssue s v).stale = s.stale := rfl
@[simp] theorem countIssue_ops (s : State) (v : Iss) : (countIssue s v).ops = s.ops := rfl
@[simp] theorem countIssue_images (s : State) (v : Iss) : (countIssue s v).images = s.images := rfl
@[simp] theorem countIssue_now (s : State) (v : Iss) : (countIssue s v).now = s.now := rfl
@[simp] theorem countIssue_fresh (s : State) (v : Iss) : (countIssue s v).fresh = s.fresh := rfl
@[simp] theorem countIssue_nextId (s : State) (v : Iss) : (countIssue s v).nextId = s.nextId := rfl
@[simp] theorem countIssue_inbox (s : State) (v : Iss) : (countIssue s v).inbox = s.inbox := rfl
@[simp] theorem countIssue_cur (s : State) (v : Iss) : (countIssue s v).cur = s.cur := rfl

/-! ### markIssued -/

@[simp] theorem markIssued_power (s : State) (v : Iss) : (markIssued s v).power = s.power := by unfold markIssued; simp
@[simp] theorem markIssued_bootFlash (s : State) (v : Iss) : (markIssued s v).bootFlash = s.bootFlash := by unfold markIssued; simp
@[simp] theorem markIssued_flashKnown (s : State) (v : Iss) : (markIssued s v).flashKnown = s.flashKnown := by unfold markIssued; simp
@[simp] theorem markIssued_phys (s : State) (v : Iss) : (markIssued s v).phys = s.phys := by unfold markIssued; simp
@[simp] theorem markIssued_svc (s : State) (v : Iss) : (markIssued s v).svc = s.svc := by unfold markIssued; simp
@[simp] theorem markIssued_fab (s : State) (v : Iss) : (markIssued s v).fab = s.fab := by unfold markIssued; simp
@[simp] theorem markIssued_coll (s : State) (v : Iss) : (markIssued s v).coll = s.coll := by unfold markIssued; simp
@[simp] theorem markIssued_net (s : State) (v : Iss) : (markIssued s v).net = s.net := by unfold markIssued; simp
@[simp] theorem markIssued_ctxs (s : State) (v : Iss) : (markIssued s v).ctxs = s.ctxs := by unfold markIssued; simp
@[simp] theorem markIssued_counters (s : State) (v : Iss) : (markIssued s v).counters = s.counters := by unfold markIssued; simp
@[simp] theorem markIssued_sched (s : State) (v : Iss) : (markIssued s v).sched = s.sched := by unfold markIssued; simp
@[simp] theorem markIssued_mem (s : State) (v : Iss) : (markIssued s v).mem = s.mem := by unfold markIssued; simp
@[simp] theorem markIssued_poison (s : State) (v : Iss) : (markIssued s v).poison = s.poison := by unfold markIssued; simp
@[simp] theorem markIssued_past (s : State) (v : Iss) : (markIssued s v).past = s.past := by unfold markIssued; simp
@[simp] theorem markIssued_views (s : State) (v : Iss) : (markIssued s v).views = s.views := by unfold markIssued; simp
@[simp] theorem markIssued_stale (s : State) (v : Iss) : (markIssued s v).stale = s.stale := by unfold markIssued; simp
@[simp] theorem markIssued_ops (s : State) (v : Iss) : (markIssued s v).ops = s.ops := by unfold markIssued; simp
@[simp] theorem markIssued_images (s : State) (v : Iss) : (markIssued s v).images = s.images := by unfold markIssued; simp
@[simp] theorem markIssued_now (s : State) (v : Iss) : (markIssued s v).now = s.now := by unfold markIssued; simp
@[simp] theorem markIssued_fresh (s : State) (v : Iss) : (markIssued s v).fresh = s.fresh := by unfold markIssued; simp
@[simp] theorem markIssued_nextId (s : State) (v : Iss) : (markIssued s v).nextId = s.nextId := by unfold markIssued; simp
@[simp] theorem markIssued_inbox (s : State) (v : Iss) : (markIssued s v).inbox = s.inbox := by unfold markIssued; simp
@[simp] theorem markIssued_cur (s : State) (v : Iss) : (markIssued s v).cur = s.cur := by unfold markIssued; simp

/-! ### setPc -/

@[simp] theorem setPc_power (s : State) (v : Iss) (pc : Pc) : (setPc s v pc).power = s.power := by unfold setPc; simp
@[simp] theorem setPc_bootFlash (s : State) (v : Iss) (pc : Pc) : (setPc s v pc).bootFlash = s.bootFlash := by unfold setPc; simp
@[simp] theorem setPc_flashKnown (s : State) (v : Iss) (pc : Pc) : (setPc s v pc).flashKnown = s.flashKnown := by unfold setPc; simp
@[simp] theorem setPc_phys (s : State) (v : Iss) (pc : Pc) : (setPc s v pc).phys = s.phys := by unfold setPc; simp
@[simp] theorem setPc_svc (s : State) (v : Iss) (pc : Pc) : (setPc s v pc).svc = s.svc := by unfold setPc; simp
@[simp] theorem setPc_fab (s : State) (v : Iss) (pc : Pc) : (setPc s v pc).fab = s.fab := by unfold setPc; simp
@[simp] theorem setPc_coll (s : State) (v : Iss) (pc : Pc) : (setPc s v pc).coll = s.coll := by unfold setPc; simp
@[simp] theorem setPc_net (s : State) (v : Iss) (pc : Pc) : (setPc s v pc).net = s.net := by unfold setPc; simp
@[simp] theorem setPc_ctxs (s : State) (v : Iss) (pc : Pc) : (setPc s v pc).ctxs = s.ctxs := by unfold setPc; simp
@[simp] theorem setPc_counters (s : State) (v : Iss) (pc : Pc) : (setPc s v pc).counters = s.counters := by unfold setPc; simp
@[simp] theorem setPc_sched (s : State) (v : Iss) (pc : Pc) : (setPc s v pc).sched = s.sched := by unfold setPc; simp
@[simp] theorem setPc_clusters (s : State) (v : Iss) (pc : Pc) : (setPc s v pc).clusters = s.clusters := by unfold setPc; simp
@[simp] theorem setPc_mem (s : State) (v : Iss) (pc : Pc) : (setPc s v pc).mem = s.mem := by unfold setPc; simp
@[simp] theorem setPc_poison (s : State) (v : Iss) (pc : Pc) : (setPc s v pc).poison = s.poison := by unfold setPc; simp
@[simp] theorem setPc_past (s : State) (v : Iss) (pc : Pc) : (setPc s v pc).past = s.past := by unfold setPc; simp
@[simp] theorem setPc_views (s : State) (v : Iss) (pc : Pc) : (setPc s v pc).views = s.views := by unfold setPc; simp
@[simp] theorem setPc_stale (s : State) (v : Iss) (pc : Pc) : (setPc s v pc).stale = s.stale := by unfold setPc; simp
@[simp] theorem setPc_ops (s : State) (v : Iss) (pc : Pc) : (setPc s v pc).ops = s.ops := by unfold setPc; simp
@[simp] theorem setPc_images (s : State) (v : Iss) (pc : Pc) : (setPc s v pc).images = s.images := by unfold setPc; simp
@[simp] theorem setPc_now (s : State) (v : Iss) (pc : Pc) : (setPc s v pc).now = s.now := by unfold setPc; simp
@[simp] theorem setPc_fresh (s : State) (v : Iss) (pc : Pc) : (setPc s v pc).fresh = s.fresh := by unfold setPc; simp
@[simp] theorem setPc_nextId (s : State) (v : Iss) (pc : Pc) : (setPc s v pc).nextId = s.nextId := by unfold setPc; simp
@[simp] theorem setPc_inbox (s : State) (v : Iss) (pc : Pc) : (setPc s v pc).inbox = s.inbox := by unfold setPc; simp
@[simp] theorem setPc_cur (s : State) (v : Iss) (pc : Pc) : (setPc s v pc).cur = s.cur := by unfold setPc; simp

/-! ### advance -/

@[simp] theorem advance_power (s : State) (v : Iss) : (advance s v).power = s.power := by unfold advance; simp
@[simp] theorem advance_bootFlash (s : State) (v : Iss) : (advance s v).bootFlash = s.bootFlash := by unfold advance; simp
@[simp] theorem advance_flashKnown (s : State) (v : Iss) : (advance s v).flashKnown = s.flashKnown := by unfold advance; simp
@[simp] theorem advance_phys (s : State) (v : Iss) : (advance s v).phys = s.phys := by unfold advance; simp
@[simp] theorem advance_svc (s : State) (v : Iss) : (advance s v).svc = s.svc := by unfold advance; simp
@[simp] theorem advance_fab (s : State) (v : Iss) : (advance s v).fab = s.fab := by unfold advance; simp
@[simp] theorem advance_coll (s : State) (v : Iss) : (advance s v).coll = s.coll := by unfold advance; simp
@[simp] theorem advance_net (s : State) (v : Iss) : (advance s v).net = s.net := by unfold advance; simp
@[simp] theorem advance_ctxs (s : State) (v : Iss) : (advance s v).ctxs = s.ctxs := by unfold advance; simp
@[simp] theorem advance_counters (s : State) (v : Iss) : (advance s v).counters = s.counters := by unfold advance; simp
@[simp] theorem advance_sched (s : State) (v : Iss) : (advance s v).sched = s.sched := by unfold advance; simp
@[simp] theorem advance_clusters (s : State) (v : Iss) : (advance s v).clusters = s.clusters := by unfold advance; simp
@[simp] theorem advance_mem (s : State) (v : Iss) : (advance s v).mem = s.mem := by unfold advance; simp
@[simp] theorem advance_poison (s : State) (v : Iss) : (advance s v).poison = s.poison := by unfold advance; simp
@[simp] theorem advance_past (s : State) (v : Iss) : (advance s v).past = s.past := by unfold advance; simp
@[simp] theorem advance_views (s : State) (v : Iss) : (advance s v).views = s.views := by unfold advance; simp
@[simp] theorem advance_stale (s : State) (v : Iss) : (advance s v).stale = s.stale := by unfold advance; simp
@[simp] theorem advance_ops (s : State) (v : Iss) : (advance s v).ops = s.ops := by unfold advance; simp
@[simp] theorem advance_images (s : State) (v : Iss) : (advance s v).images = s.images := by unfold advance; simp
@[simp] theorem advance_now (s : State) (v : Iss) : (advance s v).now = s.now := by unfold advance; simp
@[simp] theorem advance_fresh (s : State) (v : Iss) : (advance s v).fresh = s.fresh := by unfold advance; simp
@[simp] theorem advance_nextId (s : State) (v : Iss) : (advance s v).nextId = s.nextId := by unfold advance; simp
@[simp] theorem advance_inbox (s : State) (v : Iss) : (advance s v).inbox = s.inbox := by unfold advance; simp
@[simp] theorem advance_cur (s : State) (v : Iss) : (advance s v).cur = s.cur := by unfold advance; simp

/-! ### onStrand -/

@[simp] theorem onStrand_power (s : State) (v : Iss) (g : Strand → Strand) : (onStrand s v g).power = s.power := by unfold onStrand; simp
@[simp] theorem onStrand_bootFlash (s : State) (v : Iss) (g : Strand → Strand) : (onStrand s v g).bootFlash = s.bootFlash := by unfold onStrand; simp
@[simp] theorem onStrand_flashKnown (s : State) (v : Iss) (g : Strand → Strand) : (onStrand s v g).flashKnown = s.flashKnown := by unfold onStrand; simp
@[simp] theorem onStrand_phys (s : State) (v : Iss) (g : Strand → Strand) : (onStrand s v g).phys = s.phys := by unfold onStrand; simp
@[simp] theorem onStrand_svc (s : State) (v : Iss) (g : Strand → Strand) : (onStrand s v g).svc = s.svc := by unfold onStrand; simp
@[simp] theorem onStrand_fab (s : State) (v : Iss) (g : Strand → Strand) : (onStrand s v g).fab = s.fab := by unfold onStrand; simp
@[simp] theorem onStrand_coll (s : State) (v : Iss) (g : Strand → Strand) : (onStrand s v g).coll = s.coll := by unfold onStrand; simp
@[simp] theorem onStrand_net (s : State) (v : Iss) (g : Strand → Strand) : (onStrand s v g).net = s.net := by unfold onStrand; simp
@[simp] theorem onStrand_ctxs (s : State) (v : Iss) (g : Strand → Strand) : (onStrand s v g).ctxs = s.ctxs := by unfold onStrand; simp
@[simp] theorem onStrand_counters (s : State) (v : Iss) (g : Strand → Strand) : (onStrand s v g).counters = s.counters := by unfold onStrand; simp
@[simp] theorem onStrand_sched (s : State) (v : Iss) (g : Strand → Strand) : (onStrand s v g).sched = s.sched := by unfold onStrand; simp
@[simp] theorem onStrand_clusters (s : State) (v : Iss) (g : Strand → Strand) : (onStrand s v g).clusters = s.clusters := by unfold onStrand; simp
@[simp] theorem onStrand_mem (s : State) (v : Iss) (g : Strand → Strand) : (onStrand s v g).mem = s.mem := by unfold onStrand; simp
@[simp] theorem onStrand_poison (s : State) (v : Iss) (g : Strand → Strand) : (onStrand s v g).poison = s.poison := by unfold onStrand; simp
@[simp] theorem onStrand_past (s : State) (v : Iss) (g : Strand → Strand) : (onStrand s v g).past = s.past := by unfold onStrand; simp
@[simp] theorem onStrand_views (s : State) (v : Iss) (g : Strand → Strand) : (onStrand s v g).views = s.views := by unfold onStrand; simp
@[simp] theorem onStrand_stale (s : State) (v : Iss) (g : Strand → Strand) : (onStrand s v g).stale = s.stale := by unfold onStrand; simp
@[simp] theorem onStrand_ops (s : State) (v : Iss) (g : Strand → Strand) : (onStrand s v g).ops = s.ops := by unfold onStrand; simp
@[simp] theorem onStrand_images (s : State) (v : Iss) (g : Strand → Strand) : (onStrand s v g).images = s.images := by unfold onStrand; simp
@[simp] theorem onStrand_now (s : State) (v : Iss) (g : Strand → Strand) : (onStrand s v g).now = s.now := by unfold onStrand; simp
@[simp] theorem onStrand_fresh (s : State) (v : Iss) (g : Strand → Strand) : (onStrand s v g).fresh = s.fresh := by unfold onStrand; simp
@[simp] theorem onStrand_nextId (s : State) (v : Iss) (g : Strand → Strand) : (onStrand s v g).nextId = s.nextId := by unfold onStrand; simp
@[simp] theorem onStrand_inbox (s : State) (v : Iss) (g : Strand → Strand) : (onStrand s v g).inbox = s.inbox := by unfold onStrand; simp
@[simp] theorem onStrand_cur (s : State) (v : Iss) (g : Strand → Strand) : (onStrand s v g).cur = s.cur := by unfold onStrand; simp

/-! ### onCore -/

@[simp] theorem onCore_power (s : State) (v : Iss) (g : Core → Core) : (onCore s v g).power = s.power := rfl
@[simp] theorem onCore_bootFlash (s : State) (v : Iss) (g : Core → Core) : (onCore s v g).bootFlash = s.bootFlash := rfl
@[simp] theorem onCore_flashKnown (s : State) (v : Iss) (g : Core → Core) : (onCore s v g).flashKnown = s.flashKnown := rfl
@[simp] theorem onCore_phys (s : State) (v : Iss) (g : Core → Core) : (onCore s v g).phys = s.phys := rfl
@[simp] theorem onCore_svc (s : State) (v : Iss) (g : Core → Core) : (onCore s v g).svc = s.svc := rfl
@[simp] theorem onCore_fab (s : State) (v : Iss) (g : Core → Core) : (onCore s v g).fab = s.fab := rfl
@[simp] theorem onCore_coll (s : State) (v : Iss) (g : Core → Core) : (onCore s v g).coll = s.coll := rfl
@[simp] theorem onCore_net (s : State) (v : Iss) (g : Core → Core) : (onCore s v g).net = s.net := rfl
@[simp] theorem onCore_ctxs (s : State) (v : Iss) (g : Core → Core) : (onCore s v g).ctxs = s.ctxs := rfl
@[simp] theorem onCore_counters (s : State) (v : Iss) (g : Core → Core) : (onCore s v g).counters = s.counters := rfl
@[simp] theorem onCore_sched (s : State) (v : Iss) (g : Core → Core) : (onCore s v g).sched = s.sched := rfl
@[simp] theorem onCore_clusters (s : State) (v : Iss) (g : Core → Core) : (onCore s v g).clusters = s.clusters := rfl
@[simp] theorem onCore_mem (s : State) (v : Iss) (g : Core → Core) : (onCore s v g).mem = s.mem := rfl
@[simp] theorem onCore_poison (s : State) (v : Iss) (g : Core → Core) : (onCore s v g).poison = s.poison := rfl
@[simp] theorem onCore_past (s : State) (v : Iss) (g : Core → Core) : (onCore s v g).past = s.past := rfl
@[simp] theorem onCore_views (s : State) (v : Iss) (g : Core → Core) : (onCore s v g).views = s.views := rfl
@[simp] theorem onCore_stale (s : State) (v : Iss) (g : Core → Core) : (onCore s v g).stale = s.stale := rfl
@[simp] theorem onCore_ops (s : State) (v : Iss) (g : Core → Core) : (onCore s v g).ops = s.ops := rfl
@[simp] theorem onCore_images (s : State) (v : Iss) (g : Core → Core) : (onCore s v g).images = s.images := rfl
@[simp] theorem onCore_now (s : State) (v : Iss) (g : Core → Core) : (onCore s v g).now = s.now := rfl
@[simp] theorem onCore_fresh (s : State) (v : Iss) (g : Core → Core) : (onCore s v g).fresh = s.fresh := rfl
@[simp] theorem onCore_nextId (s : State) (v : Iss) (g : Core → Core) : (onCore s v g).nextId = s.nextId := rfl
@[simp] theorem onCore_inbox (s : State) (v : Iss) (g : Core → Core) : (onCore s v g).inbox = s.inbox := rfl
@[simp] theorem onCore_cur (s : State) (v : Iss) (g : Core → Core) : (onCore s v g).cur = s.cur := rfl

/-! ### takeStop -/

@[simp] theorem takeStop_power (s : State) : (takeStop s).power = s.power := rfl
@[simp] theorem takeStop_bootFlash (s : State) : (takeStop s).bootFlash = s.bootFlash := rfl
@[simp] theorem takeStop_flashKnown (s : State) : (takeStop s).flashKnown = s.flashKnown := rfl
@[simp] theorem takeStop_phys (s : State) : (takeStop s).phys = s.phys := rfl
@[simp] theorem takeStop_svc (s : State) : (takeStop s).svc = s.svc := rfl
@[simp] theorem takeStop_fab (s : State) : (takeStop s).fab = s.fab := rfl
@[simp] theorem takeStop_coll (s : State) : (takeStop s).coll = s.coll := rfl
@[simp] theorem takeStop_net (s : State) : (takeStop s).net = s.net := rfl
@[simp] theorem takeStop_ctxs (s : State) : (takeStop s).ctxs = s.ctxs := rfl
@[simp] theorem takeStop_counters (s : State) : (takeStop s).counters = s.counters := rfl
@[simp] theorem takeStop_sched (s : State) : (takeStop s).sched = s.sched := rfl
@[simp] theorem takeStop_clusters (s : State) : (takeStop s).clusters = s.clusters := rfl
@[simp] theorem takeStop_mem (s : State) : (takeStop s).mem = s.mem := rfl
@[simp] theorem takeStop_poison (s : State) : (takeStop s).poison = s.poison := rfl
@[simp] theorem takeStop_past (s : State) : (takeStop s).past = s.past := rfl
@[simp] theorem takeStop_views (s : State) : (takeStop s).views = s.views := rfl
@[simp] theorem takeStop_stale (s : State) : (takeStop s).stale = s.stale := rfl
@[simp] theorem takeStop_cores (s : State) : (takeStop s).cores = s.cores := rfl
@[simp] theorem takeStop_ops (s : State) : (takeStop s).ops = s.ops := rfl
@[simp] theorem takeStop_images (s : State) : (takeStop s).images = s.images := rfl
@[simp] theorem takeStop_now (s : State) : (takeStop s).now = s.now := rfl
@[simp] theorem takeStop_nextId (s : State) : (takeStop s).nextId = s.nextId := rfl
@[simp] theorem takeStop_inbox (s : State) : (takeStop s).inbox = s.inbox := rfl
@[simp] theorem takeStop_cur (s : State) : (takeStop s).cur = s.cur := rfl

/-! ### haltStrand -/

@[simp] theorem haltStrand_power (s : State) (c sl reason bp : Nat) (pc : Pc) (m : BitVec 8) (h : List (BitVec 384)) : (haltStrand s c sl reason bp pc m h).power = s.power := by unfold haltStrand; split <;> simp
@[simp] theorem haltStrand_bootFlash (s : State) (c sl reason bp : Nat) (pc : Pc) (m : BitVec 8) (h : List (BitVec 384)) : (haltStrand s c sl reason bp pc m h).bootFlash = s.bootFlash := by unfold haltStrand; split <;> simp
@[simp] theorem haltStrand_flashKnown (s : State) (c sl reason bp : Nat) (pc : Pc) (m : BitVec 8) (h : List (BitVec 384)) : (haltStrand s c sl reason bp pc m h).flashKnown = s.flashKnown := by unfold haltStrand; split <;> simp
@[simp] theorem haltStrand_phys (s : State) (c sl reason bp : Nat) (pc : Pc) (m : BitVec 8) (h : List (BitVec 384)) : (haltStrand s c sl reason bp pc m h).phys = s.phys := by unfold haltStrand; split <;> simp
@[simp] theorem haltStrand_svc (s : State) (c sl reason bp : Nat) (pc : Pc) (m : BitVec 8) (h : List (BitVec 384)) : (haltStrand s c sl reason bp pc m h).svc = s.svc := by unfold haltStrand; split <;> simp
@[simp] theorem haltStrand_fab (s : State) (c sl reason bp : Nat) (pc : Pc) (m : BitVec 8) (h : List (BitVec 384)) : (haltStrand s c sl reason bp pc m h).fab = s.fab := by unfold haltStrand; split <;> simp
@[simp] theorem haltStrand_coll (s : State) (c sl reason bp : Nat) (pc : Pc) (m : BitVec 8) (h : List (BitVec 384)) : (haltStrand s c sl reason bp pc m h).coll = s.coll := by unfold haltStrand; split <;> simp
@[simp] theorem haltStrand_net (s : State) (c sl reason bp : Nat) (pc : Pc) (m : BitVec 8) (h : List (BitVec 384)) : (haltStrand s c sl reason bp pc m h).net = s.net := by unfold haltStrand; split <;> simp
@[simp] theorem haltStrand_ctxs (s : State) (c sl reason bp : Nat) (pc : Pc) (m : BitVec 8) (h : List (BitVec 384)) : (haltStrand s c sl reason bp pc m h).ctxs = s.ctxs := by unfold haltStrand; split <;> simp
@[simp] theorem haltStrand_counters (s : State) (c sl reason bp : Nat) (pc : Pc) (m : BitVec 8) (h : List (BitVec 384)) : (haltStrand s c sl reason bp pc m h).counters = s.counters := by unfold haltStrand; split <;> simp
@[simp] theorem haltStrand_sched (s : State) (c sl reason bp : Nat) (pc : Pc) (m : BitVec 8) (h : List (BitVec 384)) : (haltStrand s c sl reason bp pc m h).sched = s.sched := by unfold haltStrand; split <;> simp
@[simp] theorem haltStrand_clusters (s : State) (c sl reason bp : Nat) (pc : Pc) (m : BitVec 8) (h : List (BitVec 384)) : (haltStrand s c sl reason bp pc m h).clusters = s.clusters := by unfold haltStrand; split <;> simp
@[simp] theorem haltStrand_mem (s : State) (c sl reason bp : Nat) (pc : Pc) (m : BitVec 8) (h : List (BitVec 384)) : (haltStrand s c sl reason bp pc m h).mem = s.mem := by unfold haltStrand; split <;> simp
@[simp] theorem haltStrand_poison (s : State) (c sl reason bp : Nat) (pc : Pc) (m : BitVec 8) (h : List (BitVec 384)) : (haltStrand s c sl reason bp pc m h).poison = s.poison := by unfold haltStrand; split <;> simp
@[simp] theorem haltStrand_past (s : State) (c sl reason bp : Nat) (pc : Pc) (m : BitVec 8) (h : List (BitVec 384)) : (haltStrand s c sl reason bp pc m h).past = s.past := by unfold haltStrand; split <;> simp
@[simp] theorem haltStrand_views (s : State) (c sl reason bp : Nat) (pc : Pc) (m : BitVec 8) (h : List (BitVec 384)) : (haltStrand s c sl reason bp pc m h).views = s.views := by unfold haltStrand; split <;> simp
@[simp] theorem haltStrand_stale (s : State) (c sl reason bp : Nat) (pc : Pc) (m : BitVec 8) (h : List (BitVec 384)) : (haltStrand s c sl reason bp pc m h).stale = s.stale := by unfold haltStrand; split <;> simp
@[simp] theorem haltStrand_ops (s : State) (c sl reason bp : Nat) (pc : Pc) (m : BitVec 8) (h : List (BitVec 384)) : (haltStrand s c sl reason bp pc m h).ops = s.ops := by unfold haltStrand; split <;> simp
@[simp] theorem haltStrand_images (s : State) (c sl reason bp : Nat) (pc : Pc) (m : BitVec 8) (h : List (BitVec 384)) : (haltStrand s c sl reason bp pc m h).images = s.images := by unfold haltStrand; split <;> simp
@[simp] theorem haltStrand_now (s : State) (c sl reason bp : Nat) (pc : Pc) (m : BitVec 8) (h : List (BitVec 384)) : (haltStrand s c sl reason bp pc m h).now = s.now := by unfold haltStrand; split <;> simp
@[simp] theorem haltStrand_nextId (s : State) (c sl reason bp : Nat) (pc : Pc) (m : BitVec 8) (h : List (BitVec 384)) : (haltStrand s c sl reason bp pc m h).nextId = s.nextId := by unfold haltStrand; split <;> simp
@[simp] theorem haltStrand_inbox (s : State) (c sl reason bp : Nat) (pc : Pc) (m : BitVec 8) (h : List (BitVec 384)) : (haltStrand s c sl reason bp pc m h).inbox = s.inbox := by unfold haltStrand; split <;> simp
@[simp] theorem haltStrand_cur (s : State) (c sl reason bp : Nat) (pc : Pc) (m : BitVec 8) (h : List (BitVec 384)) : (haltStrand s c sl reason bp pc m h).cur = s.cur := by unfold haltStrand; split <;> simp

/-! ### divide -/

@[simp] theorem divide_power (s : State) (v : Iss) (m : BitVec 8) (pc : Pc) (j : BitVec 8) : (divide s v m pc j).power = s.power := by unfold divide; dsimp only; split <;> rfl
@[simp] theorem divide_bootFlash (s : State) (v : Iss) (m : BitVec 8) (pc : Pc) (j : BitVec 8) : (divide s v m pc j).bootFlash = s.bootFlash := by unfold divide; dsimp only; split <;> rfl
@[simp] theorem divide_flashKnown (s : State) (v : Iss) (m : BitVec 8) (pc : Pc) (j : BitVec 8) : (divide s v m pc j).flashKnown = s.flashKnown := by unfold divide; dsimp only; split <;> rfl
@[simp] theorem divide_phys (s : State) (v : Iss) (m : BitVec 8) (pc : Pc) (j : BitVec 8) : (divide s v m pc j).phys = s.phys := by unfold divide; dsimp only; split <;> rfl
@[simp] theorem divide_svc (s : State) (v : Iss) (m : BitVec 8) (pc : Pc) (j : BitVec 8) : (divide s v m pc j).svc = s.svc := by unfold divide; dsimp only; split <;> rfl
@[simp] theorem divide_fab (s : State) (v : Iss) (m : BitVec 8) (pc : Pc) (j : BitVec 8) : (divide s v m pc j).fab = s.fab := by unfold divide; dsimp only; split <;> rfl
@[simp] theorem divide_coll (s : State) (v : Iss) (m : BitVec 8) (pc : Pc) (j : BitVec 8) : (divide s v m pc j).coll = s.coll := by unfold divide; dsimp only; split <;> rfl
@[simp] theorem divide_net (s : State) (v : Iss) (m : BitVec 8) (pc : Pc) (j : BitVec 8) : (divide s v m pc j).net = s.net := by unfold divide; dsimp only; split <;> rfl
@[simp] theorem divide_ctxs (s : State) (v : Iss) (m : BitVec 8) (pc : Pc) (j : BitVec 8) : (divide s v m pc j).ctxs = s.ctxs := by unfold divide; dsimp only; split <;> rfl
@[simp] theorem divide_counters (s : State) (v : Iss) (m : BitVec 8) (pc : Pc) (j : BitVec 8) : (divide s v m pc j).counters = s.counters := by unfold divide; dsimp only; split <;> rfl
@[simp] theorem divide_sched (s : State) (v : Iss) (m : BitVec 8) (pc : Pc) (j : BitVec 8) : (divide s v m pc j).sched = s.sched := by unfold divide; dsimp only; split <;> rfl
@[simp] theorem divide_clusters (s : State) (v : Iss) (m : BitVec 8) (pc : Pc) (j : BitVec 8) : (divide s v m pc j).clusters = s.clusters := by unfold divide; dsimp only; split <;> rfl
@[simp] theorem divide_mem (s : State) (v : Iss) (m : BitVec 8) (pc : Pc) (j : BitVec 8) : (divide s v m pc j).mem = s.mem := by unfold divide; dsimp only; split <;> rfl
@[simp] theorem divide_poison (s : State) (v : Iss) (m : BitVec 8) (pc : Pc) (j : BitVec 8) : (divide s v m pc j).poison = s.poison := by unfold divide; dsimp only; split <;> rfl
@[simp] theorem divide_past (s : State) (v : Iss) (m : BitVec 8) (pc : Pc) (j : BitVec 8) : (divide s v m pc j).past = s.past := by unfold divide; dsimp only; split <;> rfl
@[simp] theorem divide_views (s : State) (v : Iss) (m : BitVec 8) (pc : Pc) (j : BitVec 8) : (divide s v m pc j).views = s.views := by unfold divide; dsimp only; split <;> rfl
@[simp] theorem divide_stale (s : State) (v : Iss) (m : BitVec 8) (pc : Pc) (j : BitVec 8) : (divide s v m pc j).stale = s.stale := by unfold divide; dsimp only; split <;> rfl
@[simp] theorem divide_ops (s : State) (v : Iss) (m : BitVec 8) (pc : Pc) (j : BitVec 8) : (divide s v m pc j).ops = s.ops := by unfold divide; dsimp only; split <;> rfl
@[simp] theorem divide_images (s : State) (v : Iss) (m : BitVec 8) (pc : Pc) (j : BitVec 8) : (divide s v m pc j).images = s.images := by unfold divide; dsimp only; split <;> rfl
@[simp] theorem divide_now (s : State) (v : Iss) (m : BitVec 8) (pc : Pc) (j : BitVec 8) : (divide s v m pc j).now = s.now := by unfold divide; dsimp only; split <;> rfl
@[simp] theorem divide_fresh (s : State) (v : Iss) (m : BitVec 8) (pc : Pc) (j : BitVec 8) : (divide s v m pc j).fresh = s.fresh := by unfold divide; dsimp only; split <;> rfl
@[simp] theorem divide_nextId (s : State) (v : Iss) (m : BitVec 8) (pc : Pc) (j : BitVec 8) : (divide s v m pc j).nextId = s.nextId := by unfold divide; dsimp only; split <;> rfl
@[simp] theorem divide_inbox (s : State) (v : Iss) (m : BitVec 8) (pc : Pc) (j : BitVec 8) : (divide s v m pc j).inbox = s.inbox := by unfold divide; dsimp only; split <;> rfl
@[simp] theorem divide_cur (s : State) (v : Iss) (m : BitVec 8) (pc : Pc) (j : BitVec 8) : (divide s v m pc j).cur = s.cur := by unfold divide; dsimp only; split <;> rfl

/-! ### putBar -/

@[simp] theorem putBar_power (s : State) (c n : Nat) (b : BarEntry) : (putBar s c n b).power = s.power := rfl
@[simp] theorem putBar_bootFlash (s : State) (c n : Nat) (b : BarEntry) : (putBar s c n b).bootFlash = s.bootFlash := rfl
@[simp] theorem putBar_flashKnown (s : State) (c n : Nat) (b : BarEntry) : (putBar s c n b).flashKnown = s.flashKnown := rfl
@[simp] theorem putBar_phys (s : State) (c n : Nat) (b : BarEntry) : (putBar s c n b).phys = s.phys := rfl
@[simp] theorem putBar_svc (s : State) (c n : Nat) (b : BarEntry) : (putBar s c n b).svc = s.svc := rfl
@[simp] theorem putBar_fab (s : State) (c n : Nat) (b : BarEntry) : (putBar s c n b).fab = s.fab := rfl
@[simp] theorem putBar_coll (s : State) (c n : Nat) (b : BarEntry) : (putBar s c n b).coll = s.coll := rfl
@[simp] theorem putBar_net (s : State) (c n : Nat) (b : BarEntry) : (putBar s c n b).net = s.net := rfl
@[simp] theorem putBar_ctxs (s : State) (c n : Nat) (b : BarEntry) : (putBar s c n b).ctxs = s.ctxs := rfl
@[simp] theorem putBar_counters (s : State) (c n : Nat) (b : BarEntry) : (putBar s c n b).counters = s.counters := rfl
@[simp] theorem putBar_sched (s : State) (c n : Nat) (b : BarEntry) : (putBar s c n b).sched = s.sched := rfl
@[simp] theorem putBar_clusters (s : State) (c n : Nat) (b : BarEntry) : (putBar s c n b).clusters = s.clusters := rfl
@[simp] theorem putBar_mem (s : State) (c n : Nat) (b : BarEntry) : (putBar s c n b).mem = s.mem := rfl
@[simp] theorem putBar_poison (s : State) (c n : Nat) (b : BarEntry) : (putBar s c n b).poison = s.poison := rfl
@[simp] theorem putBar_past (s : State) (c n : Nat) (b : BarEntry) : (putBar s c n b).past = s.past := rfl
@[simp] theorem putBar_views (s : State) (c n : Nat) (b : BarEntry) : (putBar s c n b).views = s.views := rfl
@[simp] theorem putBar_stale (s : State) (c n : Nat) (b : BarEntry) : (putBar s c n b).stale = s.stale := rfl
@[simp] theorem putBar_ops (s : State) (c n : Nat) (b : BarEntry) : (putBar s c n b).ops = s.ops := rfl
@[simp] theorem putBar_images (s : State) (c n : Nat) (b : BarEntry) : (putBar s c n b).images = s.images := rfl
@[simp] theorem putBar_now (s : State) (c n : Nat) (b : BarEntry) : (putBar s c n b).now = s.now := rfl
@[simp] theorem putBar_fresh (s : State) (c n : Nat) (b : BarEntry) : (putBar s c n b).fresh = s.fresh := rfl
@[simp] theorem putBar_nextId (s : State) (c n : Nat) (b : BarEntry) : (putBar s c n b).nextId = s.nextId := rfl
@[simp] theorem putBar_inbox (s : State) (c n : Nat) (b : BarEntry) : (putBar s c n b).inbox = s.inbox := rfl
@[simp] theorem putBar_cur (s : State) (c n : Nat) (b : BarEntry) : (putBar s c n b).cur = s.cur := rfl

/-! ### raiseFlags -/

@[simp] theorem raiseFlags_power (s : State) (v : Iss) (fl : FpFlags) : (raiseFlags s v fl).power = s.power := by unfold raiseFlags; split <;> simp
@[simp] theorem raiseFlags_bootFlash (s : State) (v : Iss) (fl : FpFlags) : (raiseFlags s v fl).bootFlash = s.bootFlash := by unfold raiseFlags; split <;> simp
@[simp] theorem raiseFlags_flashKnown (s : State) (v : Iss) (fl : FpFlags) : (raiseFlags s v fl).flashKnown = s.flashKnown := by unfold raiseFlags; split <;> simp
@[simp] theorem raiseFlags_phys (s : State) (v : Iss) (fl : FpFlags) : (raiseFlags s v fl).phys = s.phys := by unfold raiseFlags; split <;> simp
@[simp] theorem raiseFlags_svc (s : State) (v : Iss) (fl : FpFlags) : (raiseFlags s v fl).svc = s.svc := by unfold raiseFlags; split <;> simp
@[simp] theorem raiseFlags_fab (s : State) (v : Iss) (fl : FpFlags) : (raiseFlags s v fl).fab = s.fab := by unfold raiseFlags; split <;> simp
@[simp] theorem raiseFlags_coll (s : State) (v : Iss) (fl : FpFlags) : (raiseFlags s v fl).coll = s.coll := by unfold raiseFlags; split <;> simp
@[simp] theorem raiseFlags_net (s : State) (v : Iss) (fl : FpFlags) : (raiseFlags s v fl).net = s.net := by unfold raiseFlags; split <;> simp
@[simp] theorem raiseFlags_ctxs (s : State) (v : Iss) (fl : FpFlags) : (raiseFlags s v fl).ctxs = s.ctxs := by unfold raiseFlags; split <;> simp
@[simp] theorem raiseFlags_counters (s : State) (v : Iss) (fl : FpFlags) : (raiseFlags s v fl).counters = s.counters := by unfold raiseFlags; split <;> simp
@[simp] theorem raiseFlags_sched (s : State) (v : Iss) (fl : FpFlags) : (raiseFlags s v fl).sched = s.sched := by unfold raiseFlags; split <;> simp
@[simp] theorem raiseFlags_clusters (s : State) (v : Iss) (fl : FpFlags) : (raiseFlags s v fl).clusters = s.clusters := by unfold raiseFlags; split <;> simp
@[simp] theorem raiseFlags_mem (s : State) (v : Iss) (fl : FpFlags) : (raiseFlags s v fl).mem = s.mem := by unfold raiseFlags; split <;> simp
@[simp] theorem raiseFlags_poison (s : State) (v : Iss) (fl : FpFlags) : (raiseFlags s v fl).poison = s.poison := by unfold raiseFlags; split <;> simp
@[simp] theorem raiseFlags_past (s : State) (v : Iss) (fl : FpFlags) : (raiseFlags s v fl).past = s.past := by unfold raiseFlags; split <;> simp
@[simp] theorem raiseFlags_views (s : State) (v : Iss) (fl : FpFlags) : (raiseFlags s v fl).views = s.views := by unfold raiseFlags; split <;> simp
@[simp] theorem raiseFlags_stale (s : State) (v : Iss) (fl : FpFlags) : (raiseFlags s v fl).stale = s.stale := by unfold raiseFlags; split <;> simp
@[simp] theorem raiseFlags_ops (s : State) (v : Iss) (fl : FpFlags) : (raiseFlags s v fl).ops = s.ops := by unfold raiseFlags; split <;> simp
@[simp] theorem raiseFlags_images (s : State) (v : Iss) (fl : FpFlags) : (raiseFlags s v fl).images = s.images := by unfold raiseFlags; split <;> simp
@[simp] theorem raiseFlags_now (s : State) (v : Iss) (fl : FpFlags) : (raiseFlags s v fl).now = s.now := by unfold raiseFlags; split <;> simp
@[simp] theorem raiseFlags_fresh (s : State) (v : Iss) (fl : FpFlags) : (raiseFlags s v fl).fresh = s.fresh := by unfold raiseFlags; split <;> simp
@[simp] theorem raiseFlags_nextId (s : State) (v : Iss) (fl : FpFlags) : (raiseFlags s v fl).nextId = s.nextId := by unfold raiseFlags; split <;> simp
@[simp] theorem raiseFlags_inbox (s : State) (v : Iss) (fl : FpFlags) : (raiseFlags s v fl).inbox = s.inbox := by unfold raiseFlags; split <;> simp
@[simp] theorem raiseFlags_cur (s : State) (v : Iss) (fl : FpFlags) : (raiseFlags s v fl).cur = s.cur := by unfold raiseFlags; split <;> simp

/-! ### writeP -/

@[simp] theorem writeP_power (s : State) (v : Iss) (n : Nat) (val : Nat → Bool) : (writeP s v n val).power = s.power := by unfold writeP; split <;> simp
@[simp] theorem writeP_bootFlash (s : State) (v : Iss) (n : Nat) (val : Nat → Bool) : (writeP s v n val).bootFlash = s.bootFlash := by unfold writeP; split <;> simp
@[simp] theorem writeP_flashKnown (s : State) (v : Iss) (n : Nat) (val : Nat → Bool) : (writeP s v n val).flashKnown = s.flashKnown := by unfold writeP; split <;> simp
@[simp] theorem writeP_phys (s : State) (v : Iss) (n : Nat) (val : Nat → Bool) : (writeP s v n val).phys = s.phys := by unfold writeP; split <;> simp
@[simp] theorem writeP_svc (s : State) (v : Iss) (n : Nat) (val : Nat → Bool) : (writeP s v n val).svc = s.svc := by unfold writeP; split <;> simp
@[simp] theorem writeP_fab (s : State) (v : Iss) (n : Nat) (val : Nat → Bool) : (writeP s v n val).fab = s.fab := by unfold writeP; split <;> simp
@[simp] theorem writeP_coll (s : State) (v : Iss) (n : Nat) (val : Nat → Bool) : (writeP s v n val).coll = s.coll := by unfold writeP; split <;> simp
@[simp] theorem writeP_net (s : State) (v : Iss) (n : Nat) (val : Nat → Bool) : (writeP s v n val).net = s.net := by unfold writeP; split <;> simp
@[simp] theorem writeP_ctxs (s : State) (v : Iss) (n : Nat) (val : Nat → Bool) : (writeP s v n val).ctxs = s.ctxs := by unfold writeP; split <;> simp
@[simp] theorem writeP_counters (s : State) (v : Iss) (n : Nat) (val : Nat → Bool) : (writeP s v n val).counters = s.counters := by unfold writeP; split <;> simp
@[simp] theorem writeP_sched (s : State) (v : Iss) (n : Nat) (val : Nat → Bool) : (writeP s v n val).sched = s.sched := by unfold writeP; split <;> simp
@[simp] theorem writeP_clusters (s : State) (v : Iss) (n : Nat) (val : Nat → Bool) : (writeP s v n val).clusters = s.clusters := by unfold writeP; split <;> simp
@[simp] theorem writeP_mem (s : State) (v : Iss) (n : Nat) (val : Nat → Bool) : (writeP s v n val).mem = s.mem := by unfold writeP; split <;> simp
@[simp] theorem writeP_poison (s : State) (v : Iss) (n : Nat) (val : Nat → Bool) : (writeP s v n val).poison = s.poison := by unfold writeP; split <;> simp
@[simp] theorem writeP_past (s : State) (v : Iss) (n : Nat) (val : Nat → Bool) : (writeP s v n val).past = s.past := by unfold writeP; split <;> simp
@[simp] theorem writeP_views (s : State) (v : Iss) (n : Nat) (val : Nat → Bool) : (writeP s v n val).views = s.views := by unfold writeP; split <;> simp
@[simp] theorem writeP_stale (s : State) (v : Iss) (n : Nat) (val : Nat → Bool) : (writeP s v n val).stale = s.stale := by unfold writeP; split <;> simp
@[simp] theorem writeP_ops (s : State) (v : Iss) (n : Nat) (val : Nat → Bool) : (writeP s v n val).ops = s.ops := by unfold writeP; split <;> simp
@[simp] theorem writeP_images (s : State) (v : Iss) (n : Nat) (val : Nat → Bool) : (writeP s v n val).images = s.images := by unfold writeP; split <;> simp
@[simp] theorem writeP_now (s : State) (v : Iss) (n : Nat) (val : Nat → Bool) : (writeP s v n val).now = s.now := by unfold writeP; split <;> simp
@[simp] theorem writeP_fresh (s : State) (v : Iss) (n : Nat) (val : Nat → Bool) : (writeP s v n val).fresh = s.fresh := by unfold writeP; split <;> simp
@[simp] theorem writeP_nextId (s : State) (v : Iss) (n : Nat) (val : Nat → Bool) : (writeP s v n val).nextId = s.nextId := by unfold writeP; split <;> simp
@[simp] theorem writeP_inbox (s : State) (v : Iss) (n : Nat) (val : Nat → Bool) : (writeP s v n val).inbox = s.inbox := by unfold writeP; split <;> simp
@[simp] theorem writeP_cur (s : State) (v : Iss) (n : Nat) (val : Nat → Bool) : (writeP s v n val).cur = s.cur := by unfold writeP; split <;> simp

/-! ### pushQueue -/

@[simp] theorem pushQueue_power (s : State) (v : Iss) (n : Nat) (val : Nat → DWord) (m : Word) : (pushQueue s v n val m).power = s.power := by unfold pushQueue; split <;> rfl
@[simp] theorem pushQueue_bootFlash (s : State) (v : Iss) (n : Nat) (val : Nat → DWord) (m : Word) : (pushQueue s v n val m).bootFlash = s.bootFlash := by unfold pushQueue; split <;> rfl
@[simp] theorem pushQueue_flashKnown (s : State) (v : Iss) (n : Nat) (val : Nat → DWord) (m : Word) : (pushQueue s v n val m).flashKnown = s.flashKnown := by unfold pushQueue; split <;> rfl
@[simp] theorem pushQueue_phys (s : State) (v : Iss) (n : Nat) (val : Nat → DWord) (m : Word) : (pushQueue s v n val m).phys = s.phys := by unfold pushQueue; split <;> rfl
@[simp] theorem pushQueue_svc (s : State) (v : Iss) (n : Nat) (val : Nat → DWord) (m : Word) : (pushQueue s v n val m).svc = s.svc := by unfold pushQueue; split <;> rfl
@[simp] theorem pushQueue_fab (s : State) (v : Iss) (n : Nat) (val : Nat → DWord) (m : Word) : (pushQueue s v n val m).fab = s.fab := by unfold pushQueue; split <;> rfl
@[simp] theorem pushQueue_coll (s : State) (v : Iss) (n : Nat) (val : Nat → DWord) (m : Word) : (pushQueue s v n val m).coll = s.coll := by unfold pushQueue; split <;> rfl
@[simp] theorem pushQueue_net (s : State) (v : Iss) (n : Nat) (val : Nat → DWord) (m : Word) : (pushQueue s v n val m).net = s.net := by unfold pushQueue; split <;> rfl
@[simp] theorem pushQueue_ctxs (s : State) (v : Iss) (n : Nat) (val : Nat → DWord) (m : Word) : (pushQueue s v n val m).ctxs = s.ctxs := by unfold pushQueue; split <;> rfl
@[simp] theorem pushQueue_counters (s : State) (v : Iss) (n : Nat) (val : Nat → DWord) (m : Word) : (pushQueue s v n val m).counters = s.counters := by unfold pushQueue; split <;> rfl
@[simp] theorem pushQueue_sched (s : State) (v : Iss) (n : Nat) (val : Nat → DWord) (m : Word) : (pushQueue s v n val m).sched = s.sched := by unfold pushQueue; split <;> rfl
@[simp] theorem pushQueue_clusters (s : State) (v : Iss) (n : Nat) (val : Nat → DWord) (m : Word) : (pushQueue s v n val m).clusters = s.clusters := by unfold pushQueue; split <;> rfl
@[simp] theorem pushQueue_mem (s : State) (v : Iss) (n : Nat) (val : Nat → DWord) (m : Word) : (pushQueue s v n val m).mem = s.mem := by unfold pushQueue; split <;> rfl
@[simp] theorem pushQueue_poison (s : State) (v : Iss) (n : Nat) (val : Nat → DWord) (m : Word) : (pushQueue s v n val m).poison = s.poison := by unfold pushQueue; split <;> rfl
@[simp] theorem pushQueue_past (s : State) (v : Iss) (n : Nat) (val : Nat → DWord) (m : Word) : (pushQueue s v n val m).past = s.past := by unfold pushQueue; split <;> rfl
@[simp] theorem pushQueue_views (s : State) (v : Iss) (n : Nat) (val : Nat → DWord) (m : Word) : (pushQueue s v n val m).views = s.views := by unfold pushQueue; split <;> rfl
@[simp] theorem pushQueue_stale (s : State) (v : Iss) (n : Nat) (val : Nat → DWord) (m : Word) : (pushQueue s v n val m).stale = s.stale := by unfold pushQueue; split <;> rfl
@[simp] theorem pushQueue_ops (s : State) (v : Iss) (n : Nat) (val : Nat → DWord) (m : Word) : (pushQueue s v n val m).ops = s.ops := by unfold pushQueue; split <;> rfl
@[simp] theorem pushQueue_images (s : State) (v : Iss) (n : Nat) (val : Nat → DWord) (m : Word) : (pushQueue s v n val m).images = s.images := by unfold pushQueue; split <;> rfl
@[simp] theorem pushQueue_now (s : State) (v : Iss) (n : Nat) (val : Nat → DWord) (m : Word) : (pushQueue s v n val m).now = s.now := by unfold pushQueue; split <;> rfl
@[simp] theorem pushQueue_fresh (s : State) (v : Iss) (n : Nat) (val : Nat → DWord) (m : Word) : (pushQueue s v n val m).fresh = s.fresh := by unfold pushQueue; split <;> rfl
@[simp] theorem pushQueue_nextId (s : State) (v : Iss) (n : Nat) (val : Nat → DWord) (m : Word) : (pushQueue s v n val m).nextId = s.nextId := by unfold pushQueue; split <;> rfl
@[simp] theorem pushQueue_inbox (s : State) (v : Iss) (n : Nat) (val : Nat → DWord) (m : Word) : (pushQueue s v n val m).inbox = s.inbox := by unfold pushQueue; split <;> rfl
@[simp] theorem pushQueue_cur (s : State) (v : Iss) (n : Nat) (val : Nat → DWord) (m : Word) : (pushQueue s v n val m).cur = s.cur := by unfold pushQueue; split <;> rfl

/-! ### writeD -/

@[simp] theorem writeD_power (s : State) (v : Iss) (r : Nat) (w : Bool) (val : Nat → DWord) (m : Word) : (writeD s v r w val m).power = s.power := by unfold writeD; split <;> split <;> simp
@[simp] theorem writeD_bootFlash (s : State) (v : Iss) (r : Nat) (w : Bool) (val : Nat → DWord) (m : Word) : (writeD s v r w val m).bootFlash = s.bootFlash := by unfold writeD; split <;> split <;> simp
@[simp] theorem writeD_flashKnown (s : State) (v : Iss) (r : Nat) (w : Bool) (val : Nat → DWord) (m : Word) : (writeD s v r w val m).flashKnown = s.flashKnown := by unfold writeD; split <;> split <;> simp
@[simp] theorem writeD_phys (s : State) (v : Iss) (r : Nat) (w : Bool) (val : Nat → DWord) (m : Word) : (writeD s v r w val m).phys = s.phys := by unfold writeD; split <;> split <;> simp
@[simp] theorem writeD_svc (s : State) (v : Iss) (r : Nat) (w : Bool) (val : Nat → DWord) (m : Word) : (writeD s v r w val m).svc = s.svc := by unfold writeD; split <;> split <;> simp
@[simp] theorem writeD_fab (s : State) (v : Iss) (r : Nat) (w : Bool) (val : Nat → DWord) (m : Word) : (writeD s v r w val m).fab = s.fab := by unfold writeD; split <;> split <;> simp
@[simp] theorem writeD_coll (s : State) (v : Iss) (r : Nat) (w : Bool) (val : Nat → DWord) (m : Word) : (writeD s v r w val m).coll = s.coll := by unfold writeD; split <;> split <;> simp
@[simp] theorem writeD_net (s : State) (v : Iss) (r : Nat) (w : Bool) (val : Nat → DWord) (m : Word) : (writeD s v r w val m).net = s.net := by unfold writeD; split <;> split <;> simp
@[simp] theorem writeD_ctxs (s : State) (v : Iss) (r : Nat) (w : Bool) (val : Nat → DWord) (m : Word) : (writeD s v r w val m).ctxs = s.ctxs := by unfold writeD; split <;> split <;> simp
@[simp] theorem writeD_counters (s : State) (v : Iss) (r : Nat) (w : Bool) (val : Nat → DWord) (m : Word) : (writeD s v r w val m).counters = s.counters := by unfold writeD; split <;> split <;> simp
@[simp] theorem writeD_sched (s : State) (v : Iss) (r : Nat) (w : Bool) (val : Nat → DWord) (m : Word) : (writeD s v r w val m).sched = s.sched := by unfold writeD; split <;> split <;> simp
@[simp] theorem writeD_clusters (s : State) (v : Iss) (r : Nat) (w : Bool) (val : Nat → DWord) (m : Word) : (writeD s v r w val m).clusters = s.clusters := by unfold writeD; split <;> split <;> simp
@[simp] theorem writeD_mem (s : State) (v : Iss) (r : Nat) (w : Bool) (val : Nat → DWord) (m : Word) : (writeD s v r w val m).mem = s.mem := by unfold writeD; split <;> split <;> simp
@[simp] theorem writeD_poison (s : State) (v : Iss) (r : Nat) (w : Bool) (val : Nat → DWord) (m : Word) : (writeD s v r w val m).poison = s.poison := by unfold writeD; split <;> split <;> simp
@[simp] theorem writeD_past (s : State) (v : Iss) (r : Nat) (w : Bool) (val : Nat → DWord) (m : Word) : (writeD s v r w val m).past = s.past := by unfold writeD; split <;> split <;> simp
@[simp] theorem writeD_views (s : State) (v : Iss) (r : Nat) (w : Bool) (val : Nat → DWord) (m : Word) : (writeD s v r w val m).views = s.views := by unfold writeD; split <;> split <;> simp
@[simp] theorem writeD_stale (s : State) (v : Iss) (r : Nat) (w : Bool) (val : Nat → DWord) (m : Word) : (writeD s v r w val m).stale = s.stale := by unfold writeD; split <;> split <;> simp
@[simp] theorem writeD_ops (s : State) (v : Iss) (r : Nat) (w : Bool) (val : Nat → DWord) (m : Word) : (writeD s v r w val m).ops = s.ops := by unfold writeD; split <;> split <;> simp
@[simp] theorem writeD_images (s : State) (v : Iss) (r : Nat) (w : Bool) (val : Nat → DWord) (m : Word) : (writeD s v r w val m).images = s.images := by unfold writeD; split <;> split <;> simp
@[simp] theorem writeD_now (s : State) (v : Iss) (r : Nat) (w : Bool) (val : Nat → DWord) (m : Word) : (writeD s v r w val m).now = s.now := by unfold writeD; split <;> split <;> simp
@[simp] theorem writeD_fresh (s : State) (v : Iss) (r : Nat) (w : Bool) (val : Nat → DWord) (m : Word) : (writeD s v r w val m).fresh = s.fresh := by unfold writeD; split <;> split <;> simp
@[simp] theorem writeD_nextId (s : State) (v : Iss) (r : Nat) (w : Bool) (val : Nat → DWord) (m : Word) : (writeD s v r w val m).nextId = s.nextId := by unfold writeD; split <;> split <;> simp
@[simp] theorem writeD_inbox (s : State) (v : Iss) (r : Nat) (w : Bool) (val : Nat → DWord) (m : Word) : (writeD s v r w val m).inbox = s.inbox := by unfold writeD; split <;> split <;> simp
@[simp] theorem writeD_cur (s : State) (v : Iss) (r : Nat) (w : Bool) (val : Nat → DWord) (m : Word) : (writeD s v r w val m).cur = s.cur := by unfold writeD; split <;> split <;> simp

/-! ### finishAlu -/

@[simp] theorem finishAlu_power (s : State) (v : Iss) (w : Bool) (res : Nat → DWord × FpFlags) (m : Word) : (finishAlu s v w res m).power = s.power := by unfold finishAlu; simp
@[simp] theorem finishAlu_bootFlash (s : State) (v : Iss) (w : Bool) (res : Nat → DWord × FpFlags) (m : Word) : (finishAlu s v w res m).bootFlash = s.bootFlash := by unfold finishAlu; simp
@[simp] theorem finishAlu_flashKnown (s : State) (v : Iss) (w : Bool) (res : Nat → DWord × FpFlags) (m : Word) : (finishAlu s v w res m).flashKnown = s.flashKnown := by unfold finishAlu; simp
@[simp] theorem finishAlu_phys (s : State) (v : Iss) (w : Bool) (res : Nat → DWord × FpFlags) (m : Word) : (finishAlu s v w res m).phys = s.phys := by unfold finishAlu; simp
@[simp] theorem finishAlu_svc (s : State) (v : Iss) (w : Bool) (res : Nat → DWord × FpFlags) (m : Word) : (finishAlu s v w res m).svc = s.svc := by unfold finishAlu; simp
@[simp] theorem finishAlu_fab (s : State) (v : Iss) (w : Bool) (res : Nat → DWord × FpFlags) (m : Word) : (finishAlu s v w res m).fab = s.fab := by unfold finishAlu; simp
@[simp] theorem finishAlu_coll (s : State) (v : Iss) (w : Bool) (res : Nat → DWord × FpFlags) (m : Word) : (finishAlu s v w res m).coll = s.coll := by unfold finishAlu; simp
@[simp] theorem finishAlu_net (s : State) (v : Iss) (w : Bool) (res : Nat → DWord × FpFlags) (m : Word) : (finishAlu s v w res m).net = s.net := by unfold finishAlu; simp
@[simp] theorem finishAlu_ctxs (s : State) (v : Iss) (w : Bool) (res : Nat → DWord × FpFlags) (m : Word) : (finishAlu s v w res m).ctxs = s.ctxs := by unfold finishAlu; simp
@[simp] theorem finishAlu_counters (s : State) (v : Iss) (w : Bool) (res : Nat → DWord × FpFlags) (m : Word) : (finishAlu s v w res m).counters = s.counters := by unfold finishAlu; simp
@[simp] theorem finishAlu_sched (s : State) (v : Iss) (w : Bool) (res : Nat → DWord × FpFlags) (m : Word) : (finishAlu s v w res m).sched = s.sched := by unfold finishAlu; simp
@[simp] theorem finishAlu_clusters (s : State) (v : Iss) (w : Bool) (res : Nat → DWord × FpFlags) (m : Word) : (finishAlu s v w res m).clusters = s.clusters := by unfold finishAlu; simp
@[simp] theorem finishAlu_mem (s : State) (v : Iss) (w : Bool) (res : Nat → DWord × FpFlags) (m : Word) : (finishAlu s v w res m).mem = s.mem := by unfold finishAlu; simp
@[simp] theorem finishAlu_poison (s : State) (v : Iss) (w : Bool) (res : Nat → DWord × FpFlags) (m : Word) : (finishAlu s v w res m).poison = s.poison := by unfold finishAlu; simp
@[simp] theorem finishAlu_past (s : State) (v : Iss) (w : Bool) (res : Nat → DWord × FpFlags) (m : Word) : (finishAlu s v w res m).past = s.past := by unfold finishAlu; simp
@[simp] theorem finishAlu_views (s : State) (v : Iss) (w : Bool) (res : Nat → DWord × FpFlags) (m : Word) : (finishAlu s v w res m).views = s.views := by unfold finishAlu; simp
@[simp] theorem finishAlu_stale (s : State) (v : Iss) (w : Bool) (res : Nat → DWord × FpFlags) (m : Word) : (finishAlu s v w res m).stale = s.stale := by unfold finishAlu; simp
@[simp] theorem finishAlu_ops (s : State) (v : Iss) (w : Bool) (res : Nat → DWord × FpFlags) (m : Word) : (finishAlu s v w res m).ops = s.ops := by unfold finishAlu; simp
@[simp] theorem finishAlu_images (s : State) (v : Iss) (w : Bool) (res : Nat → DWord × FpFlags) (m : Word) : (finishAlu s v w res m).images = s.images := by unfold finishAlu; simp
@[simp] theorem finishAlu_now (s : State) (v : Iss) (w : Bool) (res : Nat → DWord × FpFlags) (m : Word) : (finishAlu s v w res m).now = s.now := by unfold finishAlu; simp
@[simp] theorem finishAlu_fresh (s : State) (v : Iss) (w : Bool) (res : Nat → DWord × FpFlags) (m : Word) : (finishAlu s v w res m).fresh = s.fresh := by unfold finishAlu; simp
@[simp] theorem finishAlu_nextId (s : State) (v : Iss) (w : Bool) (res : Nat → DWord × FpFlags) (m : Word) : (finishAlu s v w res m).nextId = s.nextId := by unfold finishAlu; simp
@[simp] theorem finishAlu_inbox (s : State) (v : Iss) (w : Bool) (res : Nat → DWord × FpFlags) (m : Word) : (finishAlu s v w res m).inbox = s.inbox := by unfold finishAlu; simp
@[simp] theorem finishAlu_cur (s : State) (v : Iss) (w : Bool) (res : Nat → DWord × FpFlags) (m : Word) : (finishAlu s v w res m).cur = s.cur := by unfold finishAlu; simp

/-! ### takeSeq -/

@[simp] theorem takeSeq_power (s : State) (c : Nat) (o : WaitObj) : ((takeSeq s c o).2).power = s.power := rfl
@[simp] theorem takeSeq_bootFlash (s : State) (c : Nat) (o : WaitObj) : ((takeSeq s c o).2).bootFlash = s.bootFlash := rfl
@[simp] theorem takeSeq_flashKnown (s : State) (c : Nat) (o : WaitObj) : ((takeSeq s c o).2).flashKnown = s.flashKnown := rfl
@[simp] theorem takeSeq_phys (s : State) (c : Nat) (o : WaitObj) : ((takeSeq s c o).2).phys = s.phys := rfl
@[simp] theorem takeSeq_svc (s : State) (c : Nat) (o : WaitObj) : ((takeSeq s c o).2).svc = s.svc := rfl
@[simp] theorem takeSeq_fab (s : State) (c : Nat) (o : WaitObj) : ((takeSeq s c o).2).fab = s.fab := rfl
@[simp] theorem takeSeq_coll (s : State) (c : Nat) (o : WaitObj) : ((takeSeq s c o).2).coll = s.coll := rfl
@[simp] theorem takeSeq_net (s : State) (c : Nat) (o : WaitObj) : ((takeSeq s c o).2).net = s.net := rfl
@[simp] theorem takeSeq_ctxs (s : State) (c : Nat) (o : WaitObj) : ((takeSeq s c o).2).ctxs = s.ctxs := rfl
@[simp] theorem takeSeq_counters (s : State) (c : Nat) (o : WaitObj) : ((takeSeq s c o).2).counters = s.counters := rfl
@[simp] theorem takeSeq_sched (s : State) (c : Nat) (o : WaitObj) : ((takeSeq s c o).2).sched = s.sched := rfl
@[simp] theorem takeSeq_clusters (s : State) (c : Nat) (o : WaitObj) : ((takeSeq s c o).2).clusters = s.clusters := rfl
@[simp] theorem takeSeq_mem (s : State) (c : Nat) (o : WaitObj) : ((takeSeq s c o).2).mem = s.mem := rfl
@[simp] theorem takeSeq_poison (s : State) (c : Nat) (o : WaitObj) : ((takeSeq s c o).2).poison = s.poison := rfl
@[simp] theorem takeSeq_past (s : State) (c : Nat) (o : WaitObj) : ((takeSeq s c o).2).past = s.past := rfl
@[simp] theorem takeSeq_views (s : State) (c : Nat) (o : WaitObj) : ((takeSeq s c o).2).views = s.views := rfl
@[simp] theorem takeSeq_stale (s : State) (c : Nat) (o : WaitObj) : ((takeSeq s c o).2).stale = s.stale := rfl
@[simp] theorem takeSeq_ops (s : State) (c : Nat) (o : WaitObj) : ((takeSeq s c o).2).ops = s.ops := rfl
@[simp] theorem takeSeq_images (s : State) (c : Nat) (o : WaitObj) : ((takeSeq s c o).2).images = s.images := rfl
@[simp] theorem takeSeq_now (s : State) (c : Nat) (o : WaitObj) : ((takeSeq s c o).2).now = s.now := rfl
@[simp] theorem takeSeq_fresh (s : State) (c : Nat) (o : WaitObj) : ((takeSeq s c o).2).fresh = s.fresh := rfl
@[simp] theorem takeSeq_nextId (s : State) (c : Nat) (o : WaitObj) : ((takeSeq s c o).2).nextId = s.nextId := rfl
@[simp] theorem takeSeq_inbox (s : State) (c : Nat) (o : WaitObj) : ((takeSeq s c o).2).inbox = s.inbox := rfl
@[simp] theorem takeSeq_cur (s : State) (c : Nat) (o : WaitObj) : ((takeSeq s c o).2).cur = s.cur := rfl

/-! ### placeStrand -/

@[simp] theorem placeStrand_power (s : State) (c sl : Nat) (x : Strand) (pc : Pc) : (placeStrand s c sl x pc).power = s.power := rfl
@[simp] theorem placeStrand_bootFlash (s : State) (c sl : Nat) (x : Strand) (pc : Pc) : (placeStrand s c sl x pc).bootFlash = s.bootFlash := rfl
@[simp] theorem placeStrand_flashKnown (s : State) (c sl : Nat) (x : Strand) (pc : Pc) : (placeStrand s c sl x pc).flashKnown = s.flashKnown := rfl
@[simp] theorem placeStrand_phys (s : State) (c sl : Nat) (x : Strand) (pc : Pc) : (placeStrand s c sl x pc).phys = s.phys := rfl
@[simp] theorem placeStrand_svc (s : State) (c sl : Nat) (x : Strand) (pc : Pc) : (placeStrand s c sl x pc).svc = s.svc := rfl
@[simp] theorem placeStrand_fab (s : State) (c sl : Nat) (x : Strand) (pc : Pc) : (placeStrand s c sl x pc).fab = s.fab := rfl
@[simp] theorem placeStrand_coll (s : State) (c sl : Nat) (x : Strand) (pc : Pc) : (placeStrand s c sl x pc).coll = s.coll := rfl
@[simp] theorem placeStrand_net (s : State) (c sl : Nat) (x : Strand) (pc : Pc) : (placeStrand s c sl x pc).net = s.net := rfl
@[simp] theorem placeStrand_ctxs (s : State) (c sl : Nat) (x : Strand) (pc : Pc) : (placeStrand s c sl x pc).ctxs = s.ctxs := rfl
@[simp] theorem placeStrand_counters (s : State) (c sl : Nat) (x : Strand) (pc : Pc) : (placeStrand s c sl x pc).counters = s.counters := rfl
@[simp] theorem placeStrand_sched (s : State) (c sl : Nat) (x : Strand) (pc : Pc) : (placeStrand s c sl x pc).sched = s.sched := rfl
@[simp] theorem placeStrand_clusters (s : State) (c sl : Nat) (x : Strand) (pc : Pc) : (placeStrand s c sl x pc).clusters = s.clusters := rfl
@[simp] theorem placeStrand_mem (s : State) (c sl : Nat) (x : Strand) (pc : Pc) : (placeStrand s c sl x pc).mem = s.mem := rfl
@[simp] theorem placeStrand_poison (s : State) (c sl : Nat) (x : Strand) (pc : Pc) : (placeStrand s c sl x pc).poison = s.poison := rfl
@[simp] theorem placeStrand_past (s : State) (c sl : Nat) (x : Strand) (pc : Pc) : (placeStrand s c sl x pc).past = s.past := rfl
@[simp] theorem placeStrand_stale (s : State) (c sl : Nat) (x : Strand) (pc : Pc) : (placeStrand s c sl x pc).stale = s.stale := rfl
@[simp] theorem placeStrand_ops (s : State) (c sl : Nat) (x : Strand) (pc : Pc) : (placeStrand s c sl x pc).ops = s.ops := rfl
@[simp] theorem placeStrand_images (s : State) (c sl : Nat) (x : Strand) (pc : Pc) : (placeStrand s c sl x pc).images = s.images := rfl
@[simp] theorem placeStrand_now (s : State) (c sl : Nat) (x : Strand) (pc : Pc) : (placeStrand s c sl x pc).now = s.now := rfl
@[simp] theorem placeStrand_fresh (s : State) (c sl : Nat) (x : Strand) (pc : Pc) : (placeStrand s c sl x pc).fresh = s.fresh := rfl
@[simp] theorem placeStrand_nextId (s : State) (c sl : Nat) (x : Strand) (pc : Pc) : (placeStrand s c sl x pc).nextId = s.nextId := rfl
@[simp] theorem placeStrand_inbox (s : State) (c sl : Nat) (x : Strand) (pc : Pc) : (placeStrand s c sl x pc).inbox = s.inbox := rfl
@[simp] theorem placeStrand_cur (s : State) (c sl : Nat) (x : Strand) (pc : Pc) : (placeStrand s c sl x pc).cur = s.cur := rfl

/-! ### latchCycle -/

@[simp] theorem latchCycle_power (s : State) (v : Iss) (i : Nat) : (latchCycle s v i).power = s.power := by unfold latchCycle; split <;> (try split) <;> (try split) <;> simp
@[simp] theorem latchCycle_bootFlash (s : State) (v : Iss) (i : Nat) : (latchCycle s v i).bootFlash = s.bootFlash := by unfold latchCycle; split <;> (try split) <;> (try split) <;> simp
@[simp] theorem latchCycle_flashKnown (s : State) (v : Iss) (i : Nat) : (latchCycle s v i).flashKnown = s.flashKnown := by unfold latchCycle; split <;> (try split) <;> (try split) <;> simp
@[simp] theorem latchCycle_phys (s : State) (v : Iss) (i : Nat) : (latchCycle s v i).phys = s.phys := by unfold latchCycle; split <;> (try split) <;> (try split) <;> simp
@[simp] theorem latchCycle_svc (s : State) (v : Iss) (i : Nat) : (latchCycle s v i).svc = s.svc := by unfold latchCycle; split <;> (try split) <;> (try split) <;> simp
@[simp] theorem latchCycle_fab (s : State) (v : Iss) (i : Nat) : (latchCycle s v i).fab = s.fab := by unfold latchCycle; split <;> (try split) <;> (try split) <;> simp
@[simp] theorem latchCycle_coll (s : State) (v : Iss) (i : Nat) : (latchCycle s v i).coll = s.coll := by unfold latchCycle; split <;> (try split) <;> (try split) <;> simp
@[simp] theorem latchCycle_net (s : State) (v : Iss) (i : Nat) : (latchCycle s v i).net = s.net := by unfold latchCycle; split <;> (try split) <;> (try split) <;> simp
@[simp] theorem latchCycle_ctxs (s : State) (v : Iss) (i : Nat) : (latchCycle s v i).ctxs = s.ctxs := by unfold latchCycle; split <;> (try split) <;> (try split) <;> simp
@[simp] theorem latchCycle_counters (s : State) (v : Iss) (i : Nat) : (latchCycle s v i).counters = s.counters := by unfold latchCycle; split <;> (try split) <;> (try split) <;> simp
@[simp] theorem latchCycle_sched (s : State) (v : Iss) (i : Nat) : (latchCycle s v i).sched = s.sched := by unfold latchCycle; split <;> (try split) <;> (try split) <;> simp
@[simp] theorem latchCycle_clusters (s : State) (v : Iss) (i : Nat) : (latchCycle s v i).clusters = s.clusters := by unfold latchCycle; split <;> (try split) <;> (try split) <;> simp
@[simp] theorem latchCycle_mem (s : State) (v : Iss) (i : Nat) : (latchCycle s v i).mem = s.mem := by unfold latchCycle; split <;> (try split) <;> (try split) <;> simp
@[simp] theorem latchCycle_poison (s : State) (v : Iss) (i : Nat) : (latchCycle s v i).poison = s.poison := by unfold latchCycle; split <;> (try split) <;> (try split) <;> simp
@[simp] theorem latchCycle_past (s : State) (v : Iss) (i : Nat) : (latchCycle s v i).past = s.past := by unfold latchCycle; split <;> (try split) <;> (try split) <;> simp
@[simp] theorem latchCycle_views (s : State) (v : Iss) (i : Nat) : (latchCycle s v i).views = s.views := by unfold latchCycle; split <;> (try split) <;> (try split) <;> simp
@[simp] theorem latchCycle_stale (s : State) (v : Iss) (i : Nat) : (latchCycle s v i).stale = s.stale := by unfold latchCycle; split <;> (try split) <;> (try split) <;> simp
@[simp] theorem latchCycle_ops (s : State) (v : Iss) (i : Nat) : (latchCycle s v i).ops = s.ops := by unfold latchCycle; split <;> (try split) <;> (try split) <;> simp
@[simp] theorem latchCycle_images (s : State) (v : Iss) (i : Nat) : (latchCycle s v i).images = s.images := by unfold latchCycle; split <;> (try split) <;> (try split) <;> simp
@[simp] theorem latchCycle_now (s : State) (v : Iss) (i : Nat) : (latchCycle s v i).now = s.now := by unfold latchCycle; split <;> (try split) <;> (try split) <;> simp
@[simp] theorem latchCycle_fresh (s : State) (v : Iss) (i : Nat) : (latchCycle s v i).fresh = s.fresh := by unfold latchCycle; split <;> (try split) <;> (try split) <;> simp
@[simp] theorem latchCycle_nextId (s : State) (v : Iss) (i : Nat) : (latchCycle s v i).nextId = s.nextId := by unfold latchCycle; split <;> (try split) <;> (try split) <;> simp
@[simp] theorem latchCycle_inbox (s : State) (v : Iss) (i : Nat) : (latchCycle s v i).inbox = s.inbox := by unfold latchCycle; split <;> (try split) <;> (try split) <;> simp
@[simp] theorem latchCycle_cur (s : State) (v : Iss) (i : Nat) : (latchCycle s v i).cur = s.cur := by unfold latchCycle; split <;> (try split) <;> (try split) <;> simp

/-! ### putColl -/

@[simp] theorem putColl_power (s : State) (d : Nat) (c : CollDesc) : (putColl s d c).power = s.power := rfl
@[simp] theorem putColl_bootFlash (s : State) (d : Nat) (c : CollDesc) : (putColl s d c).bootFlash = s.bootFlash := rfl
@[simp] theorem putColl_flashKnown (s : State) (d : Nat) (c : CollDesc) : (putColl s d c).flashKnown = s.flashKnown := rfl
@[simp] theorem putColl_phys (s : State) (d : Nat) (c : CollDesc) : (putColl s d c).phys = s.phys := rfl
@[simp] theorem putColl_svc (s : State) (d : Nat) (c : CollDesc) : (putColl s d c).svc = s.svc := rfl
@[simp] theorem putColl_fab (s : State) (d : Nat) (c : CollDesc) : (putColl s d c).fab = s.fab := rfl
@[simp] theorem putColl_net (s : State) (d : Nat) (c : CollDesc) : (putColl s d c).net = s.net := rfl
@[simp] theorem putColl_ctxs (s : State) (d : Nat) (c : CollDesc) : (putColl s d c).ctxs = s.ctxs := rfl
@[simp] theorem putColl_counters (s : State) (d : Nat) (c : CollDesc) : (putColl s d c).counters = s.counters := rfl
@[simp] theorem putColl_sched (s : State) (d : Nat) (c : CollDesc) : (putColl s d c).sched = s.sched := rfl
@[simp] theorem putColl_clusters (s : State) (d : Nat) (c : CollDesc) : (putColl s d c).clusters = s.clusters := rfl
@[simp] theorem putColl_mem (s : State) (d : Nat) (c : CollDesc) : (putColl s d c).mem = s.mem := rfl
@[simp] theorem putColl_poison (s : State) (d : Nat) (c : CollDesc) : (putColl s d c).poison = s.poison := rfl
@[simp] theorem putColl_past (s : State) (d : Nat) (c : CollDesc) : (putColl s d c).past = s.past := rfl
@[simp] theorem putColl_views (s : State) (d : Nat) (c : CollDesc) : (putColl s d c).views = s.views := rfl
@[simp] theorem putColl_stale (s : State) (d : Nat) (c : CollDesc) : (putColl s d c).stale = s.stale := rfl
@[simp] theorem putColl_cores (s : State) (d : Nat) (c : CollDesc) : (putColl s d c).cores = s.cores := rfl
@[simp] theorem putColl_ops (s : State) (d : Nat) (c : CollDesc) : (putColl s d c).ops = s.ops := rfl
@[simp] theorem putColl_images (s : State) (d : Nat) (c : CollDesc) : (putColl s d c).images = s.images := rfl
@[simp] theorem putColl_now (s : State) (d : Nat) (c : CollDesc) : (putColl s d c).now = s.now := rfl
@[simp] theorem putColl_fresh (s : State) (d : Nat) (c : CollDesc) : (putColl s d c).fresh = s.fresh := rfl
@[simp] theorem putColl_nextId (s : State) (d : Nat) (c : CollDesc) : (putColl s d c).nextId = s.nextId := rfl
@[simp] theorem putColl_inbox (s : State) (d : Nat) (c : CollDesc) : (putColl s d c).inbox = s.inbox := rfl
@[simp] theorem putColl_cur (s : State) (d : Nat) (c : CollDesc) : (putColl s d c).cur = s.cur := rfl

/-! ### modPort -/

@[simp] theorem modPort_power (s : State) (n : Nat) (g : Port → Port) : (modPort s n g).power = s.power := by unfold modPort; split <;> rfl
@[simp] theorem modPort_bootFlash (s : State) (n : Nat) (g : Port → Port) : (modPort s n g).bootFlash = s.bootFlash := by unfold modPort; split <;> rfl
@[simp] theorem modPort_flashKnown (s : State) (n : Nat) (g : Port → Port) : (modPort s n g).flashKnown = s.flashKnown := by unfold modPort; split <;> rfl
@[simp] theorem modPort_svc (s : State) (n : Nat) (g : Port → Port) : (modPort s n g).svc = s.svc := by unfold modPort; split <;> rfl
@[simp] theorem modPort_fab (s : State) (n : Nat) (g : Port → Port) : (modPort s n g).fab = s.fab := by unfold modPort; split <;> rfl
@[simp] theorem modPort_coll (s : State) (n : Nat) (g : Port → Port) : (modPort s n g).coll = s.coll := by unfold modPort; split <;> rfl
@[simp] theorem modPort_net (s : State) (n : Nat) (g : Port → Port) : (modPort s n g).net = s.net := by unfold modPort; split <;> rfl
@[simp] theorem modPort_ctxs (s : State) (n : Nat) (g : Port → Port) : (modPort s n g).ctxs = s.ctxs := by unfold modPort; split <;> rfl
@[simp] theorem modPort_counters (s : State) (n : Nat) (g : Port → Port) : (modPort s n g).counters = s.counters := by unfold modPort; split <;> rfl
@[simp] theorem modPort_sched (s : State) (n : Nat) (g : Port → Port) : (modPort s n g).sched = s.sched := by unfold modPort; split <;> rfl
@[simp] theorem modPort_clusters (s : State) (n : Nat) (g : Port → Port) : (modPort s n g).clusters = s.clusters := by unfold modPort; split <;> rfl
@[simp] theorem modPort_mem (s : State) (n : Nat) (g : Port → Port) : (modPort s n g).mem = s.mem := by unfold modPort; split <;> rfl
@[simp] theorem modPort_poison (s : State) (n : Nat) (g : Port → Port) : (modPort s n g).poison = s.poison := by unfold modPort; split <;> rfl
@[simp] theorem modPort_past (s : State) (n : Nat) (g : Port → Port) : (modPort s n g).past = s.past := by unfold modPort; split <;> rfl
@[simp] theorem modPort_views (s : State) (n : Nat) (g : Port → Port) : (modPort s n g).views = s.views := by unfold modPort; split <;> rfl
@[simp] theorem modPort_stale (s : State) (n : Nat) (g : Port → Port) : (modPort s n g).stale = s.stale := by unfold modPort; split <;> rfl
@[simp] theorem modPort_cores (s : State) (n : Nat) (g : Port → Port) : (modPort s n g).cores = s.cores := by unfold modPort; split <;> rfl
@[simp] theorem modPort_ops (s : State) (n : Nat) (g : Port → Port) : (modPort s n g).ops = s.ops := by unfold modPort; split <;> rfl
@[simp] theorem modPort_images (s : State) (n : Nat) (g : Port → Port) : (modPort s n g).images = s.images := by unfold modPort; split <;> rfl
@[simp] theorem modPort_now (s : State) (n : Nat) (g : Port → Port) : (modPort s n g).now = s.now := by unfold modPort; split <;> rfl
@[simp] theorem modPort_fresh (s : State) (n : Nat) (g : Port → Port) : (modPort s n g).fresh = s.fresh := by unfold modPort; split <;> rfl
@[simp] theorem modPort_nextId (s : State) (n : Nat) (g : Port → Port) : (modPort s n g).nextId = s.nextId := by unfold modPort; split <;> rfl
@[simp] theorem modPort_inbox (s : State) (n : Nat) (g : Port → Port) : (modPort s n g).inbox = s.inbox := by unfold modPort; split <;> rfl
@[simp] theorem modPort_cur (s : State) (n : Nat) (g : Port → Port) : (modPort s n g).cur = s.cur := by unfold modPort; split <;> rfl

/-! ### sendWire -/

@[simp] theorem sendWire_power (s : State) (w : Wire) : (sendWire s w).power = s.power := rfl
@[simp] theorem sendWire_bootFlash (s : State) (w : Wire) : (sendWire s w).bootFlash = s.bootFlash := rfl
@[simp] theorem sendWire_flashKnown (s : State) (w : Wire) : (sendWire s w).flashKnown = s.flashKnown := rfl
@[simp] theorem sendWire_phys (s : State) (w : Wire) : (sendWire s w).phys = s.phys := rfl
@[simp] theorem sendWire_svc (s : State) (w : Wire) : (sendWire s w).svc = s.svc := rfl
@[simp] theorem sendWire_coll (s : State) (w : Wire) : (sendWire s w).coll = s.coll := rfl
@[simp] theorem sendWire_net (s : State) (w : Wire) : (sendWire s w).net = s.net := rfl
@[simp] theorem sendWire_ctxs (s : State) (w : Wire) : (sendWire s w).ctxs = s.ctxs := rfl
@[simp] theorem sendWire_counters (s : State) (w : Wire) : (sendWire s w).counters = s.counters := rfl
@[simp] theorem sendWire_sched (s : State) (w : Wire) : (sendWire s w).sched = s.sched := rfl
@[simp] theorem sendWire_clusters (s : State) (w : Wire) : (sendWire s w).clusters = s.clusters := rfl
@[simp] theorem sendWire_mem (s : State) (w : Wire) : (sendWire s w).mem = s.mem := rfl
@[simp] theorem sendWire_poison (s : State) (w : Wire) : (sendWire s w).poison = s.poison := rfl
@[simp] theorem sendWire_past (s : State) (w : Wire) : (sendWire s w).past = s.past := rfl
@[simp] theorem sendWire_views (s : State) (w : Wire) : (sendWire s w).views = s.views := rfl
@[simp] theorem sendWire_stale (s : State) (w : Wire) : (sendWire s w).stale = s.stale := rfl
@[simp] theorem sendWire_cores (s : State) (w : Wire) : (sendWire s w).cores = s.cores := rfl
@[simp] theorem sendWire_ops (s : State) (w : Wire) : (sendWire s w).ops = s.ops := rfl
@[simp] theorem sendWire_images (s : State) (w : Wire) : (sendWire s w).images = s.images := rfl
@[simp] theorem sendWire_now (s : State) (w : Wire) : (sendWire s w).now = s.now := rfl
@[simp] theorem sendWire_fresh (s : State) (w : Wire) : (sendWire s w).fresh = s.fresh := rfl
@[simp] theorem sendWire_nextId (s : State) (w : Wire) : (sendWire s w).nextId = s.nextId := rfl
@[simp] theorem sendWire_inbox (s : State) (w : Wire) : (sendWire s w).inbox = s.inbox := rfl
@[simp] theorem sendWire_cur (s : State) (w : Wire) : (sendWire s w).cur = s.cur := rfl

/-! ### putDir -/

@[simp] theorem putDir_power (s : State) (r : Nat) (d : DirEntry) : (putDir s r d).power = s.power := rfl
@[simp] theorem putDir_bootFlash (s : State) (r : Nat) (d : DirEntry) : (putDir s r d).bootFlash = s.bootFlash := rfl
@[simp] theorem putDir_flashKnown (s : State) (r : Nat) (d : DirEntry) : (putDir s r d).flashKnown = s.flashKnown := rfl
@[simp] theorem putDir_phys (s : State) (r : Nat) (d : DirEntry) : (putDir s r d).phys = s.phys := rfl
@[simp] theorem putDir_svc (s : State) (r : Nat) (d : DirEntry) : (putDir s r d).svc = s.svc := rfl
@[simp] theorem putDir_coll (s : State) (r : Nat) (d : DirEntry) : (putDir s r d).coll = s.coll := rfl
@[simp] theorem putDir_net (s : State) (r : Nat) (d : DirEntry) : (putDir s r d).net = s.net := rfl
@[simp] theorem putDir_ctxs (s : State) (r : Nat) (d : DirEntry) : (putDir s r d).ctxs = s.ctxs := rfl
@[simp] theorem putDir_counters (s : State) (r : Nat) (d : DirEntry) : (putDir s r d).counters = s.counters := rfl
@[simp] theorem putDir_sched (s : State) (r : Nat) (d : DirEntry) : (putDir s r d).sched = s.sched := rfl
@[simp] theorem putDir_clusters (s : State) (r : Nat) (d : DirEntry) : (putDir s r d).clusters = s.clusters := rfl
@[simp] theorem putDir_mem (s : State) (r : Nat) (d : DirEntry) : (putDir s r d).mem = s.mem := rfl
@[simp] theorem putDir_poison (s : State) (r : Nat) (d : DirEntry) : (putDir s r d).poison = s.poison := rfl
@[simp] theorem putDir_past (s : State) (r : Nat) (d : DirEntry) : (putDir s r d).past = s.past := rfl
@[simp] theorem putDir_views (s : State) (r : Nat) (d : DirEntry) : (putDir s r d).views = s.views := rfl
@[simp] theorem putDir_stale (s : State) (r : Nat) (d : DirEntry) : (putDir s r d).stale = s.stale := rfl
@[simp] theorem putDir_cores (s : State) (r : Nat) (d : DirEntry) : (putDir s r d).cores = s.cores := rfl
@[simp] theorem putDir_ops (s : State) (r : Nat) (d : DirEntry) : (putDir s r d).ops = s.ops := rfl
@[simp] theorem putDir_images (s : State) (r : Nat) (d : DirEntry) : (putDir s r d).images = s.images := rfl
@[simp] theorem putDir_now (s : State) (r : Nat) (d : DirEntry) : (putDir s r d).now = s.now := rfl
@[simp] theorem putDir_fresh (s : State) (r : Nat) (d : DirEntry) : (putDir s r d).fresh = s.fresh := rfl
@[simp] theorem putDir_nextId (s : State) (r : Nat) (d : DirEntry) : (putDir s r d).nextId = s.nextId := rfl
@[simp] theorem putDir_inbox (s : State) (r : Nat) (d : DirEntry) : (putDir s r d).inbox = s.inbox := rfl
@[simp] theorem putDir_cur (s : State) (r : Nat) (d : DirEntry) : (putDir s r d).cur = s.cur := rfl

/-! ### modPower -/

@[simp] theorem modPower_bootFlash (s : State) (g : Power → Power) : (modPower s g).bootFlash = s.bootFlash := rfl
@[simp] theorem modPower_flashKnown (s : State) (g : Power → Power) : (modPower s g).flashKnown = s.flashKnown := rfl
@[simp] theorem modPower_phys (s : State) (g : Power → Power) : (modPower s g).phys = s.phys := rfl
@[simp] theorem modPower_svc (s : State) (g : Power → Power) : (modPower s g).svc = s.svc := rfl
@[simp] theorem modPower_fab (s : State) (g : Power → Power) : (modPower s g).fab = s.fab := rfl
@[simp] theorem modPower_coll (s : State) (g : Power → Power) : (modPower s g).coll = s.coll := rfl
@[simp] theorem modPower_net (s : State) (g : Power → Power) : (modPower s g).net = s.net := rfl
@[simp] theorem modPower_ctxs (s : State) (g : Power → Power) : (modPower s g).ctxs = s.ctxs := rfl
@[simp] theorem modPower_counters (s : State) (g : Power → Power) : (modPower s g).counters = s.counters := rfl
@[simp] theorem modPower_sched (s : State) (g : Power → Power) : (modPower s g).sched = s.sched := rfl
@[simp] theorem modPower_clusters (s : State) (g : Power → Power) : (modPower s g).clusters = s.clusters := rfl
@[simp] theorem modPower_mem (s : State) (g : Power → Power) : (modPower s g).mem = s.mem := rfl
@[simp] theorem modPower_poison (s : State) (g : Power → Power) : (modPower s g).poison = s.poison := rfl
@[simp] theorem modPower_past (s : State) (g : Power → Power) : (modPower s g).past = s.past := rfl
@[simp] theorem modPower_views (s : State) (g : Power → Power) : (modPower s g).views = s.views := rfl
@[simp] theorem modPower_stale (s : State) (g : Power → Power) : (modPower s g).stale = s.stale := rfl
@[simp] theorem modPower_cores (s : State) (g : Power → Power) : (modPower s g).cores = s.cores := rfl
@[simp] theorem modPower_ops (s : State) (g : Power → Power) : (modPower s g).ops = s.ops := rfl
@[simp] theorem modPower_images (s : State) (g : Power → Power) : (modPower s g).images = s.images := rfl
@[simp] theorem modPower_now (s : State) (g : Power → Power) : (modPower s g).now = s.now := rfl
@[simp] theorem modPower_fresh (s : State) (g : Power → Power) : (modPower s g).fresh = s.fresh := rfl
@[simp] theorem modPower_nextId (s : State) (g : Power → Power) : (modPower s g).nextId = s.nextId := rfl
@[simp] theorem modPower_inbox (s : State) (g : Power → Power) : (modPower s g).inbox = s.inbox := rfl
@[simp] theorem modPower_cur (s : State) (g : Power → Power) : (modPower s g).cur = s.cur := rfl

/-! ### extendMeas -/

@[simp] theorem extendMeas_power (s : State) (n : Nat) (d : BitVec 384) : (extendMeas s n d).power = s.power := rfl
@[simp] theorem extendMeas_bootFlash (s : State) (n : Nat) (d : BitVec 384) : (extendMeas s n d).bootFlash = s.bootFlash := rfl
@[simp] theorem extendMeas_flashKnown (s : State) (n : Nat) (d : BitVec 384) : (extendMeas s n d).flashKnown = s.flashKnown := rfl
@[simp] theorem extendMeas_phys (s : State) (n : Nat) (d : BitVec 384) : (extendMeas s n d).phys = s.phys := rfl
@[simp] theorem extendMeas_fab (s : State) (n : Nat) (d : BitVec 384) : (extendMeas s n d).fab = s.fab := rfl
@[simp] theorem extendMeas_coll (s : State) (n : Nat) (d : BitVec 384) : (extendMeas s n d).coll = s.coll := rfl
@[simp] theorem extendMeas_net (s : State) (n : Nat) (d : BitVec 384) : (extendMeas s n d).net = s.net := rfl
@[simp] theorem extendMeas_ctxs (s : State) (n : Nat) (d : BitVec 384) : (extendMeas s n d).ctxs = s.ctxs := rfl
@[simp] theorem extendMeas_counters (s : State) (n : Nat) (d : BitVec 384) : (extendMeas s n d).counters = s.counters := rfl
@[simp] theorem extendMeas_sched (s : State) (n : Nat) (d : BitVec 384) : (extendMeas s n d).sched = s.sched := rfl
@[simp] theorem extendMeas_clusters (s : State) (n : Nat) (d : BitVec 384) : (extendMeas s n d).clusters = s.clusters := rfl
@[simp] theorem extendMeas_mem (s : State) (n : Nat) (d : BitVec 384) : (extendMeas s n d).mem = s.mem := rfl
@[simp] theorem extendMeas_poison (s : State) (n : Nat) (d : BitVec 384) : (extendMeas s n d).poison = s.poison := rfl
@[simp] theorem extendMeas_past (s : State) (n : Nat) (d : BitVec 384) : (extendMeas s n d).past = s.past := rfl
@[simp] theorem extendMeas_views (s : State) (n : Nat) (d : BitVec 384) : (extendMeas s n d).views = s.views := rfl
@[simp] theorem extendMeas_stale (s : State) (n : Nat) (d : BitVec 384) : (extendMeas s n d).stale = s.stale := rfl
@[simp] theorem extendMeas_cores (s : State) (n : Nat) (d : BitVec 384) : (extendMeas s n d).cores = s.cores := rfl
@[simp] theorem extendMeas_ops (s : State) (n : Nat) (d : BitVec 384) : (extendMeas s n d).ops = s.ops := rfl
@[simp] theorem extendMeas_images (s : State) (n : Nat) (d : BitVec 384) : (extendMeas s n d).images = s.images := rfl
@[simp] theorem extendMeas_now (s : State) (n : Nat) (d : BitVec 384) : (extendMeas s n d).now = s.now := rfl
@[simp] theorem extendMeas_fresh (s : State) (n : Nat) (d : BitVec 384) : (extendMeas s n d).fresh = s.fresh := rfl
@[simp] theorem extendMeas_nextId (s : State) (n : Nat) (d : BitVec 384) : (extendMeas s n d).nextId = s.nextId := rfl
@[simp] theorem extendMeas_inbox (s : State) (n : Nat) (d : BitVec 384) : (extendMeas s n d).inbox = s.inbox := rfl
@[simp] theorem extendMeas_cur (s : State) (n : Nat) (d : BitVec 384) : (extendMeas s n d).cur = s.cur := rfl

/-! ### putExport -/

@[simp] theorem putExport_power (s : State) (n : Nat) (b : BitVec 256) : (putExport s n b).power = s.power := rfl
@[simp] theorem putExport_bootFlash (s : State) (n : Nat) (b : BitVec 256) : (putExport s n b).bootFlash = s.bootFlash := rfl
@[simp] theorem putExport_flashKnown (s : State) (n : Nat) (b : BitVec 256) : (putExport s n b).flashKnown = s.flashKnown := rfl
@[simp] theorem putExport_phys (s : State) (n : Nat) (b : BitVec 256) : (putExport s n b).phys = s.phys := rfl
@[simp] theorem putExport_svc (s : State) (n : Nat) (b : BitVec 256) : (putExport s n b).svc = s.svc := rfl
@[simp] theorem putExport_coll (s : State) (n : Nat) (b : BitVec 256) : (putExport s n b).coll = s.coll := rfl
@[simp] theorem putExport_net (s : State) (n : Nat) (b : BitVec 256) : (putExport s n b).net = s.net := rfl
@[simp] theorem putExport_ctxs (s : State) (n : Nat) (b : BitVec 256) : (putExport s n b).ctxs = s.ctxs := rfl
@[simp] theorem putExport_counters (s : State) (n : Nat) (b : BitVec 256) : (putExport s n b).counters = s.counters := rfl
@[simp] theorem putExport_sched (s : State) (n : Nat) (b : BitVec 256) : (putExport s n b).sched = s.sched := rfl
@[simp] theorem putExport_clusters (s : State) (n : Nat) (b : BitVec 256) : (putExport s n b).clusters = s.clusters := rfl
@[simp] theorem putExport_mem (s : State) (n : Nat) (b : BitVec 256) : (putExport s n b).mem = s.mem := rfl
@[simp] theorem putExport_poison (s : State) (n : Nat) (b : BitVec 256) : (putExport s n b).poison = s.poison := rfl
@[simp] theorem putExport_past (s : State) (n : Nat) (b : BitVec 256) : (putExport s n b).past = s.past := rfl
@[simp] theorem putExport_views (s : State) (n : Nat) (b : BitVec 256) : (putExport s n b).views = s.views := rfl
@[simp] theorem putExport_stale (s : State) (n : Nat) (b : BitVec 256) : (putExport s n b).stale = s.stale := rfl
@[simp] theorem putExport_cores (s : State) (n : Nat) (b : BitVec 256) : (putExport s n b).cores = s.cores := rfl
@[simp] theorem putExport_ops (s : State) (n : Nat) (b : BitVec 256) : (putExport s n b).ops = s.ops := rfl
@[simp] theorem putExport_images (s : State) (n : Nat) (b : BitVec 256) : (putExport s n b).images = s.images := rfl
@[simp] theorem putExport_now (s : State) (n : Nat) (b : BitVec 256) : (putExport s n b).now = s.now := rfl
@[simp] theorem putExport_fresh (s : State) (n : Nat) (b : BitVec 256) : (putExport s n b).fresh = s.fresh := rfl
@[simp] theorem putExport_nextId (s : State) (n : Nat) (b : BitVec 256) : (putExport s n b).nextId = s.nextId := rfl
@[simp] theorem putExport_inbox (s : State) (n : Nat) (b : BitVec 256) : (putExport s n b).inbox = s.inbox := rfl
@[simp] theorem putExport_cur (s : State) (n : Nat) (b : BitVec 256) : (putExport s n b).cur = s.cur := rfl

end Sys2Proof.Machine
end

