-- ==== Sys2Proof/Laws/Frames.lean ====
section
/-! SUPPORT. What the shared operations on memory, the log and the service's replies leave alone, and that memory keeps its
canonical form. -/
namespace Sys2Proof.Machine

/-- Writing bytes of memory changes memory, its poison, the stores that clusters hold and the record of what bytes were, and nothing
else. -/
def MemOnly (s t : State) : Prop := { t with mem := s.mem, poison := s.poison, clusters := s.clusters, past := s.past } = s

theorem MemOnly.refl (s : State) : MemOnly s s := rfl

theorem MemOnly.trans {s t u : State} (h : MemOnly s t) (k : MemOnly t u) : MemOnly s u := by
  unfold MemOnly at *
  rw [← h, ← k]

/-- A field that memory writes leave alone. -/
theorem MemOnly.keeps {s t : State} (h : MemOnly s t) {α : Type} (g : State → α)
    (hg : ∀ (x : State) m p c w, g { x with mem := m, poison := p, clusters := c, past := w } = g x) : g t = g s := by
  conv => rhs; rw [← h, hg]

theorem notePast_memOnly (s : State) (pa n : Nat) (plain : Bool) : MemOnly s (notePast s pa n plain) := rfl

theorem acceptStore_memOnly (s : State) (e : ClStore) : MemOnly s (acceptStore s e) := rfl

theorem acceptStore_wf {s : State} (e : ClStore) (h : Memory.wf s.mem = true) : Memory.wf (acceptStore s e).mem = true :=
  Memory.wf_pokes _ _ h

/-- The home accepts stores of a cluster. -/
theorem acceptFrom_memOnly (s : State) (k : Nat) (p : ClStore → Bool) : MemOnly s (acceptFrom s k p) := by
  unfold acceptFrom
  dsimp only
  split
  · exact MemOnly.refl s
  · refine MemOnly.trans (t := List.foldl acceptStore s _) ?_ rfl
    exact List.foldlRecOn (motive := MemOnly s) _ _ (MemOnly.refl s) fun t ht e _ => ht.trans (acceptStore_memOnly t e)

theorem acceptFrom_wf {s : State} (k : Nat) (p : ClStore → Bool) (h : Memory.wf s.mem = true) :
    Memory.wf (acceptFrom s k p).mem = true := by
  unfold acceptFrom
  dsimp only
  split
  · exact h
  · exact List.foldlRecOn (motive := fun t : State => Memory.wf t.mem = true) _ _ h fun t ht e _ => acceptStore_wf e ht

theorem flushLines_memOnly (s : State) (lo n : Nat) : MemOnly s (flushLines s lo n) :=
  List.foldlRecOn (motive := MemOnly s) _ _ (MemOnly.refl s) fun t ht p _ => ht.trans (acceptFrom_memOnly t p.1 _)

theorem flushLines_wf {s : State} (lo n : Nat) (h : Memory.wf s.mem = true) : Memory.wf (flushLines s lo n).mem = true :=
  List.foldlRecOn (motive := fun t : State => Memory.wf t.mem = true) _ _ h fun _ ht p _ => acceptFrom_wf p.1 _ ht

theorem homeStore_memOnly (s : State) (pa : Nat) (bs : List Byte) (plain : Bool) : MemOnly s (homeStore s pa bs plain) :=
  (flushLines_memOnly s pa bs.length).trans rfl

theorem homeStore_wf {s : State} (pa : Nat) (bs : List Byte) (plain : Bool) (h : Memory.wf s.mem = true) :
    Memory.wf (homeStore s pa bs plain).mem = true := Memory.wf_pokes _ _ (flushLines_wf pa bs.length h)

theorem homeWrite_memOnly (s : State) (pa : Nat) (bs : List Byte) : MemOnly s (homeWrite s pa bs) := homeStore_memOnly s pa bs false

theorem homeWrite_wf {s : State} (pa : Nat) (bs : List Byte) (h : Memory.wf s.mem = true) :
    Memory.wf (homeWrite s pa bs).mem = true := homeStore_wf pa bs false h

theorem refreshCaps_memOnly (s : State) : MemOnly s (refreshCaps s) := by
  unfold refreshCaps
  refine List.foldlRecOn (motive := MemOnly s) _ _ (MemOnly.refl s) fun done hdone ctx _ => ?_
  dsimp only
  split
  · exact hdone.trans ((homeWrite_memOnly _ _ _).trans (homeWrite_memOnly _ _ _))
  · exact hdone

theorem refreshCaps_wf {s : State} (h : Memory.wf s.mem = true) : Memory.wf (refreshCaps s).mem = true := by
  unfold refreshCaps
  refine List.foldlRecOn (motive := fun t : State => Memory.wf t.mem = true) _ _ h fun done hdone ctx _ => ?_
  dsimp only
  split
  · exact homeWrite_wf _ _ (homeWrite_wf _ _ hdone)
  · exact hdone

@[simp] theorem refreshCaps_power (s : State) : (refreshCaps s).power = s.power :=
  (refreshCaps_memOnly s).keeps (fun t => t.power) fun _ _ _ _ _ => rfl
@[simp] theorem refreshCaps_phys (s : State) : (refreshCaps s).phys = s.phys :=
  (refreshCaps_memOnly s).keeps (fun t => t.phys) fun _ _ _ _ _ => rfl
@[simp] theorem refreshCaps_ctxs (s : State) : (refreshCaps s).ctxs = s.ctxs :=
  (refreshCaps_memOnly s).keeps (fun t => t.ctxs) fun _ _ _ _ _ => rfl
@[simp] theorem refreshCaps_svc (s : State) : (refreshCaps s).svc = s.svc :=
  (refreshCaps_memOnly s).keeps (fun t => t.svc) fun _ _ _ _ _ => rfl

/-- The newest record of the log. -/
theorem logError_last (s : State) (r : LogRec) : (logError s r).svc.log.getLast? = some r := by simp [logError]


end Sys2Proof.Machine
end

