-- ==== Sys2Proof/Laws/Regs.lean ====
section
/-! SUPPORT. Laws of the named operations over cores, strands, splits and registers, and of the view of the issuing split. -/
namespace Sys2Proof.Machine

/-! ### Cores, strands, splits -/

@[simp] theorem coreOf_putCore_same (s : State) (c : Nat) (k : Core) : coreOf (putCore s c k) c = k := by
  simp [coreOf, putCore]

theorem coreOf_putCore_ne (s : State) {c c' : Nat} (k : Core) (h : c' ≠ c) : coreOf (putCore s c k) c' = coreOf s c' := by
  simp [coreOf, putCore, mgetD_mput_ne _ _ _ h]

@[simp] theorem coreOf_modCore_same (s : State) (c : Nat) (g : Core → Core) : coreOf (modCore s c g) c = g (coreOf s c) :=
  coreOf_putCore_same _ _ _

theorem coreOf_modCore_ne (s : State) {c c' : Nat} (g : Core → Core) (h : c' ≠ c) :
    coreOf (modCore s c g) c' = coreOf s c' := coreOf_putCore_ne _ _ h

@[simp] theorem strandAt_putStrand_same (s : State) (c sl : Nat) (x : Strand) :
    strandAt (putStrand s c sl x) c sl = some x := by
  simp [strandAt, putStrand]

/-- A strand that changes reads as changed. -/
theorem strandAt_modStrand_same {s : State} {c sl : Nat} {x : Strand} (g : Strand → Strand) (h : strandAt s c sl = some x) :
    strandAt (modStrand s c sl g) c sl = some (g x) := by
  simp [modStrand, h]

/-- The other strands stay. -/
theorem strandAt_modStrand_ne (s : State) {c sl c' sl' : Nat} (g : Strand → Strand) (h : c' ≠ c ∨ sl' ≠ sl) :
    strandAt (modStrand s c sl g) c' sl' = strandAt s c' sl' := by
  unfold modStrand
  split
  · rfl
  · unfold putStrand strandAt
    by_cases hc : c' = c
    · subst hc
      have hs : sl' ≠ sl := h.resolve_left (fun e => e rfl)
      simp [mget_mput_ne _ _ hs]
    · rw [coreOf_modCore_ne _ _ hc]

/-- A change of a strand leaves the split table. -/
@[simp] theorem splitAt_modStrand (s : State) (c sl : Nat) (g : Strand → Strand) (c' e : Nat) :
    splitAt (modStrand s c sl g) c' e = splitAt s c' e := by
  unfold modStrand
  split
  · rfl
  · unfold putStrand splitAt
    by_cases hc : c' = c
    · subst hc
      simp
    · rw [coreOf_modCore_ne _ _ hc]

theorem splitAt_modSplit_same {s : State} {c e : Nat} {p : Split} (g : Split → Split) (h : splitAt s c e = some p) :
    splitAt (modSplit s c e g) c e = some (g p) := by
  rw [modSplit, h]
  simp [splitAt, putSplit]

theorem splitAt_modSplit_ne (s : State) {c e c' e' : Nat} (g : Split → Split) (h : c' ≠ c ∨ e' ≠ e) :
    splitAt (modSplit s c e g) c' e' = splitAt s c' e' := by
  unfold modSplit
  split
  · rfl
  · unfold putSplit splitAt
    by_cases hc : c' = c
    · subst hc
      have hs : e' ≠ e := h.resolve_left (fun e => e rfl)
      simp [mget_mput_ne _ _ hs]
    · rw [coreOf_modCore_ne _ _ hc]

/-- A change of a split leaves the strands. -/
@[simp] theorem strandAt_modSplit (s : State) (c e : Nat) (g : Split → Split) (c' sl : Nat) :
    strandAt (modSplit s c e g) c' sl = strandAt s c' sl := by
  unfold modSplit
  split
  · rfl
  · unfold putSplit strandAt
    by_cases hc : c' = c
    · subst hc
      simp
    · rw [coreOf_modCore_ne _ _ hc]

theorem coreOf_modStrand_ne (s : State) {c c' : Nat} (sl : Nat) (g : Strand → Strand) (h : c' ≠ c) :
    coreOf (modStrand s c sl g) c' = coreOf s c' := by
  unfold modStrand
  split
  · rfl
  · exact coreOf_modCore_ne _ _ h

theorem coreOf_modSplit_ne (s : State) {c c' : Nat} (e : Nat) (g : Split → Split) (h : c' ≠ c) :
    coreOf (modSplit s c e g) c' = coreOf s c' := by
  unfold modSplit
  split
  · rfl
  · exact coreOf_modCore_ne _ _ h

/-- What a change of a strand does to its core. -/
theorem coreOf_modStrand_same {s : State} {c sl : Nat} {x : Strand} (g : Strand → Strand) (h : strandAt s c sl = some x) :
    coreOf (modStrand s c sl g) c = { coreOf s c with slots := mput (coreOf s c).slots sl (g x) } := by
  simp [modStrand, h, putStrand]

/-- What a change of a split does to its core. -/
theorem coreOf_modSplit_same {s : State} {c e : Nat} {p : Split} (g : Split → Split) (h : splitAt s c e = some p) :
    coreOf (modSplit s c e g) c = { coreOf s c with splits := mput (coreOf s c).splits e (g p) } := by
  simp [modSplit, h, putSplit]

@[simp] theorem clusterAt_modCluster_same (s : State) (k : Nat) (g : Cluster → Cluster) :
    clusterAt (modCluster s k g) k = g (clusterAt s k) := by
  simp [clusterAt, modCluster]

theorem clusterAt_modCluster_ne (s : State) {k j : Nat} (g : Cluster → Cluster) (h : j ≠ k) :
    clusterAt (modCluster s k g) j = clusterAt s j := by
  simp [clusterAt, modCluster, mgetD_mput_ne _ _ _ h]

/-- A change of a cluster leaves the cores. -/
@[simp] theorem coreOf_modCluster (s : State) (k : Nat) (g : Cluster → Cluster) (c : Nat) :
    coreOf (modCluster s k g) c = coreOf s c := rfl

/-! ### Registers -/

@[simp] theorem vget_vset_same (x : Strand) (r l : Nat) (w : RegCell) : vget (vset x r l w) r l = w :=
  mgetD_mset_same _ _ _ _

theorem vget_vset_ne (x : Strand) {r l r' l' : Nat} (w : RegCell) (h : 32 * r' + l' ≠ 32 * r + l) :
    vget (vset x r l w) r' l' = vget x r' l' := mgetD_mset_ne _ _ _ _ h

@[simp] theorem sget_sset_same (x : Strand) (r : Nat) (w : RegCell) : sget (sset x r w) r = w := mgetD_mset_same _ _ _ _

theorem sget_sset_ne (x : Strand) {r r' : Nat} (w : RegCell) (h : r' ≠ r) : sget (sset x r w) r' = sget x r' :=
  mgetD_mset_ne _ _ _ _ h

/-- k0 reads true and discards what is written to it (R99). -/
@[simp] theorem kmask_zero (x : Strand) : kmask x 0 = BitVec.allOnes 32 := rfl
@[simp] theorem kset_zero (x : Strand) (m w : Word) : kset x 0 m w = x := rfl

theorem kmask_kset_same (x : Strand) {n : Nat} (m w : Word) (h : n ≠ 0) :
    kmask (kset x n m w) n = (kmask x n &&& ~~~m) ||| (w &&& m) := by
  simp [kmask, kset, h]

theorem kmask_kset_ne (x : Strand) {n j : Nat} (m w : Word) (h : j ≠ n) : kmask (kset x n m w) j = kmask x j := by
  unfold kset
  split
  · rfl
  · unfold kmask
    split
    · rfl
    · exact mgetD_mset_ne _ _ _ _ h

/-- g0 reads true and discards what is written to it (R99). -/
@[simp] theorem gget_zero (x : Strand) : gget x 0 = true := rfl
@[simp] theorem gset_zero (x : Strand) (b : Bool) : gset x 0 b = x := rfl

/-! ### The issuing split -/

/-- What the view of the issuing split shows. -/
theorem viewOf_some {s : State} {opc : BitVec 7} {f : Fields} {v : Iss} (h : viewOf s opc f = some v) :
    s.cur = some (v.c, v.e) ∧ splitAt s v.c v.e = some v.sp ∧ strandAt s v.c v.sl = some v.x ∧ v.sl = v.sp.slot ∧
      v.f = f ∧ v.opc = opc ∧ v.pc = v.sp.pc ∧ v.next = v.sp.pc + BitVec.ofNat 57 (instrSize f) ∧
      v.act = lanesOfSlices v.sp.smask &&& livingLanes v.x := by
  unfold viewOf at h
  split at h
  · cases h
  · rename_i c e hc
    split at h
    · cases h
    · rename_i sp hsp
      split at h
      · cases h
      · rename_i x hx
        cases h
        exact ⟨hc, hsp, hx, rfl, rfl, rfl, rfl, rfl, rfl⟩

/-- Without a tag and without a step count an issue leaves nothing behind. -/
theorem afterIssue_quiet (b s : State) {v : Iss} (hs : v.sample = none) (ht : v.x.steps = none) : afterIssue b s v = s := by
  simp [afterIssue, hs, ht, plainRecord, countStep]

/-- An instruction whose guard is not false, on a scheduler that has not issued in this cycle, answers what its body answers. -/
theorem issue_ok {s : State} {opc : BitVec 7} {f : Fields} {body : State → Iss → Except Stop State} {v : Iss} {t : State}
    (hv : viewOf s opc f = some v) (hp : passedOver s v = false) (ho : v.off = false) (hb : body (markIssued s v) v = .ok t) :
    issue s opc f body = .next (afterIssue s t v) := by
  simp [issue, hv, hp, ho, hb]

theorem issue_stop {s : State} {opc : BitVec 7} {f : Fields} {body : State → Iss → Except Stop State} {v : Iss} {e : Stop}
    (hv : viewOf s opc f = some v) (hp : passedOver s v = false) (ho : v.off = false) (hb : body (markIssued s v) v = .error e) :
    issue s opc f body = .next (stopped s v e) := by
  simp [issue, hv, hp, ho, hb]

/-- An issue never refuses, and faults only without an issuing split. -/
theorem issue_next {s : State} {opc : BitVec 7} {f : Fields} {body : State → Iss → Except Stop State} {v : Iss}
    (hv : viewOf s opc f = some v) : ∃ t, issue s opc f body = .next t := by
  unfold issue
  rw [hv]
  dsimp only
  split
  · exact ⟨_, rfl⟩
  · split
    · exact ⟨_, rfl⟩
    · split <;> exact ⟨_, rfl⟩

/-- Issuing leaves the strands. -/
@[simp] theorem strandAt_countIssue (s : State) (v : Iss) (c sl : Nat) : strandAt (countIssue s v) c sl = strandAt s c sl := by
  unfold countIssue strandAt
  by_cases h : c = v.c
  · subst h
    simp
  · simp [coreOf_modCore_ne _ _ h]

@[simp] theorem splitAt_countIssue (s : State) (v : Iss) (c e : Nat) : splitAt (countIssue s v) c e = splitAt s c e := by
  unfold countIssue splitAt
  by_cases h : c = v.c
  · subst h
    simp
  · simp [coreOf_modCore_ne _ _ h]

@[simp] theorem strandAt_markIssued (s : State) (v : Iss) (c sl : Nat) : strandAt (markIssued s v) c sl = strandAt s c sl := by
  simp [markIssued]

theorem coreOf_markIssued_ne (s : State) (v : Iss) {c : Nat} (h : c ≠ v.c) : coreOf (markIssued s v) c = coreOf s c := by
  unfold markIssued
  rw [coreOf_modSplit_ne _ _ _ h]
  unfold countIssue
  simp [coreOf_modCore_ne _ _ h]

end Sys2Proof.Machine
end

