-- ==== Sys2Proof/Laws/Operands.lean ====
section
/-! SUPPORT. What the shared operations of an issue do: reading sources, writing results, and the state after them. -/
namespace Sys2Proof.Safety
open Sys2Proof.Machine

/-! ### Sources and destinations -/

theorem mem_lanesOf {m : Word} {l : Nat} : l ∈ lanesOf m ↔ l < 32 ∧ m.getLsbD l = true := by
  simp [lanesOf]

theorem maskOf_false (p : Nat → Bool) (h : ∀ l, l < 32 → p l = false) : maskOf p = 0 := by
  unfold maskOf
  have : ∀ (ls : List Nat) (m : Word), (∀ l ∈ ls, l < 32) → ls.foldl (fun m l => if p l then m ||| laneBit l else m) m = m := by
    intro ls
    induction ls with
    | nil => intro m _; rfl
    | cons a r ih =>
      intro m hm
      have := h a (hm a (by simp))
      simp only [List.foldl_cons, this]
      exact ih m fun l hl => hm l (by simp [hl])
  exact this _ _ (by simp)

theorem consume_zero {x : Src} {m : Word} (h : x.poison &&& m = 0) : consume x m = .ok () := by
  simp [consume, h]

/-- A source without poison is carried or consumed alike (R188). -/
theorem carryOrConsume_clean {v : Iss} {r : Nat} {val : Nat → DWord} {m : Word} :
    carryOrConsume v r { val := val, poison := 0 } m = .ok () := by
  unfold carryOrConsume
  split
  · rfl
  · exact consume_zero (by simp)

theorem readV_ok {v : Iss} {r : Nat} {w e : Bool} (hs : v.f.strand = false) (h : Readable v r w) :
    readV v.x v.on r w e = .ok { val := fun l => regVal v r w l, poison := 0 } := by
  unfold readV Readable at *
  have hn : (if w then [r, r+1] else [r]).find? (fun q => (lanesOf v.on).any fun l => (vget v.x q l).st != .full) = none := by
    rw [List.find?_eq_none]
    intro q hq
    have := h q hq
    simp only [hs] at this
    simp only [List.any_eq_true, mem_lanesOf, not_exists, not_and, Bool.not_eq_true]
    intro l hl
    simp [(this.2 l hl.1 hl.2).1]
  simp only [hn]
  rw [Except.ok.injEq, Src.mk.injEq]
  constructor
  · funext l
    simp [regVal, hs]
  · apply maskOf_false
    intro l hl
    cases ho : v.on.getLsbD l with
    | false => simp
    | true =>
      simp only [Bool.true_and, List.any_eq_false]
      intro q hq
      have := h q hq
      simp only [hs] at this
      simp [(this.2 l hl ho).2]

theorem readS_ok {v : Iss} {r : Nat} {w e : Bool} (hs : v.f.strand = true) (h : Readable v r w) :
    readS v.x r w e = .ok { val := fun l => regVal v r w l, poison := 0 } := by
  unfold readS Readable at *
  have hn : (if w then [r, r+1] else [r]).find? (fun q => (sget v.x q).st != .full) = none := by
    rw [List.find?_eq_none]
    intro q hq
    have := h q hq
    simp only [hs, if_true] at this
    simp [this.2.1]
  simp only [hn]
  rw [Except.ok.injEq, Src.mk.injEq]
  constructor
  · funext l
    simp [regVal, hs]
  · rw [if_neg]
    simp only [List.any_eq_true, not_exists, not_and, Bool.not_eq_true]
    intro q hq
    have := h q hq
    simp only [hs, if_true] at this
    exact this.2.2

theorem readField_ok {s : State} {v : Iss} {r : Nat} {w e k : Bool} (h : Readable v r w) :
    readField s v r w e k = .ok (s, { val := fun l => regVal v r w l, poison := 0 }) := by
  have hr := h r (by cases w <;> simp [pairOf])
  unfold readField
  cases hs : v.f.strand with
  | true =>
    simp only [hs, if_true] at hr ⊢
    rw [if_neg (by omega), readS_ok hs h]; rfl
  | false =>
    simp only [hs] at hr ⊢
    have h2 := hr.1
    rw [if_neg (by simp), if_neg (by omega), readV_ok hs h]; rfl

theorem srcOpt_a {s : State} {v : Iss} {w : Option Bool} {t : Ty} (h : ReadableIf v v.f.a.toNat w) :
    srcOpt s v 0 w t = .ok (s, { val := fun l => valIf v v.f.a.toNat l w, poison := 0 }) := by
  cases w with
  | none => rfl
  | some w => exact readField_ok h
theorem srcOpt_c {s : State} {v : Iss} {w : Option Bool} {t : Ty} (h : ReadableIf v v.f.c.toNat w) :
    srcOpt s v 2 w t = .ok (s, { val := fun l => valIf v v.f.c.toNat l w, poison := 0 }) := by
  cases w with
  | none => rfl
  | some w => exact readField_ok h
theorem srcB_ok {s : State} {v : Iss} {w : Bool} {t : Ty} (h : BReady v (some w)) :
    srcB s v w t false = .ok (s, { val := fun l => bVal v t l (some w), poison := 0 }) := by
  unfold srcB bVal
  cases hb : bIsImm v.f false with
  | true => rfl
  | false =>
    have : Readable v v.f.b.toNat w := by
      rcases h with h | h
      · rw [hb] at h; cases h
      · exact h
    simp only [Bool.false_eq_true, if_false]
    exact readField_ok this
theorem srcOpt_b {s : State} {v : Iss} {w : Option Bool} {t : Ty} (h : BReady v w) :
    srcOpt s v 1 w t = .ok (s, { val := fun l => bVal v t l w, poison := 0 }) := by
  cases w with
  | none => rfl
  | some w => exact srcB_ok h

theorem readSources_ok {s : State} {v : Iss} {a b c : Option Bool} {t : Ty}
    (ha : ReadableIf v v.f.a.toNat a) (hb : BReady v b) (hc : ReadableIf v v.f.c.toNat c) :
    readSources s v a b c t = .ok (s, { val := fun l => valIf v v.f.a.toNat l a, poison := 0 },
      { val := fun l => bVal v t l b, poison := 0 }, { val := fun l => valIf v v.f.c.toNat l c, poison := 0 }) := by
  unfold readSources
  simp only [srcOpt_a ha, srcOpt_b hb, srcOpt_c hc, carryOrConsume_clean, bind, Except.bind]

theorem destReady_ok {s : State} {v : Iss} {r : Nat} {w o : Bool} (h : Writable v r w) : destReady s v r w o = .ok () := by
  have hr := h r (by cases w <;> simp [pairOf])
  unfold destReady
  cases hs : v.f.strand with
  | true =>
    simp only [hs, if_true] at hr ⊢
    rw [if_pos hr.1, if_neg]
    simp only [List.any_eq_true, not_exists, not_and, beq_iff_eq]
    intro q hq
    have := h q hq
    simp only [hs, if_true] at this
    exact this.2
  | false =>
    simp only [hs] at hr ⊢
    have h2 := hr.1
    rw [if_neg (by simp), if_pos h2, if_neg]
    simp only [List.any_eq_true, not_exists, not_and, beq_iff_eq, mem_lanesOf]
    intro l hl q hq
    have := h q hq
    simp only [hs] at this
    exact this.2 l hl.1 hl.2

theorem destCompare_ok {v : Iss} {r : Nat} {w : Bool} {val : Nat → DWord} (h : Writable v r w) : destCompare v r val = .ok () := by
  have hr := h r (by cases w <;> simp [pairOf])
  unfold destCompare
  cases hs : v.f.strand with
  | true => simp
  | false =>
    simp only [hs] at hr
    have h2 := hr.1
    rw [if_neg]
    simp; omega

theorem aluOp_ok {s : State} {v : Iss} {a b c : Option Bool} {t : Ty} {w : Bool}
    {g : Iss → DWord → DWord → DWord → DWord × FpFlags}
    (ha : ReadableIf v v.f.a.toNat a) (hb : BReady v b) (hc : ReadableIf v v.f.c.toNat c) (hd : Writable v v.f.d.toNat w) :
    aluOp a b c t w g s v = .ok (finishAlu s v w
      (fun l => g v (valIf v v.f.a.toNat l a) (bVal v t l b) (valIf v v.f.c.toNat l c)) 0) := by
  unfold aluOp
  simp [readSources_ok ha hb hc, destReady_ok hd, destCompare_ok hd, bind, Except.bind]

/-! ### The state after an issue -/

theorem CoreStep.start {s : State} {v : Iss} {opc : BitVec 7} {f : Fields} (h : viewOf s opc f = some v) :
    CoreStep s (markIssued s v) v (coreOf s v.c) v.x (splitAfter s v v.sp.pc) := by
  obtain ⟨hc, hp, hx, -⟩ := viewOf_some h
  have hp' : splitAt (countIssue s v) v.c v.e = some v.sp := by simpa using hp
  refine ⟨⟨?_, ?_, ?_, ?_, ?_, ?_, ?_⟩, ?_, ?_⟩
  · unfold markIssued modSplit
    rw [hp']
    rfl
  · intro c hc; exact coreOf_markIssued_ne s v hc
  · unfold markIssued
    rw [coreOf_modSplit_same _ hp']
    simp [countIssue]
  · intro sl hsl; simp
  · intro e he
    unfold markIssued
    rw [splitAt_modSplit_ne _ _ (Or.inr he)]
    simp
  · intro k hk
    unfold markIssued modSplit
    rw [hp']
    simp [countIssue, putSplit, clusterAt, modCluster, modCore, putCore, mgetD_mput_ne _ _ _ hk]
  · unfold markIssued modSplit
    rw [hp']
    simp [countIssue, putSplit, clusterAt, modCluster, modCore, putCore]
  · simpa using hx
  · unfold markIssued
    rw [splitAt_modSplit_same _ hp']
    rfl

theorem CoreStep.onStrand {s t : State} {v : Iss} {k : Core} {x : Strand} {p : Split} (h : CoreStep s t v k x p) (g : Strand → Strand) :
    CoreStep s (onStrand t v g) v k (g x) p := by
  obtain ⟨⟨h1, h2, h3, h4, h5, h6, h7⟩, hx, hp⟩ := h
  unfold Machine.onStrand
  refine ⟨⟨?_, ?_, ?_, ?_, ?_, ?_, ?_⟩, ?_, ?_⟩
  · simp only [modStrand, hx]; exact h1
  · intro c hc; rw [coreOf_modStrand_ne _ _ _ hc, h2 c hc]
  · rw [coreOf_modStrand_same _ hx]; exact h3
  · intro sl hsl; rw [strandAt_modStrand_ne _ _ (Or.inr hsl), h4 sl hsl]
  · intro e he; rw [splitAt_modStrand, h5 e he]
  · intro k hk; simp only [modStrand, hx]; exact h6 k hk
  · simp only [modStrand, hx]; exact h7
  · exact strandAt_modStrand_same _ hx
  · simpa using hp

theorem CoreStep.modSplit {s t : State} {v : Iss} {k : Core} {x : Strand} {p : Split} (h : CoreStep s t v k x p) (g : Split → Split) :
    CoreStep s (modSplit t v.c v.e g) v k x (g p) := by
  obtain ⟨⟨h1, h2, h3, h4, h5, h6, h7⟩, hx, hp⟩ := h
  refine ⟨⟨?_, ?_, ?_, ?_, ?_, ?_, ?_⟩, ?_, ?_⟩
  · simp only [Machine.modSplit, hp]; exact h1
  · intro c hc; rw [coreOf_modSplit_ne _ _ _ hc, h2 c hc]
  · rw [coreOf_modSplit_same _ hp]; exact h3
  · intro sl hsl; rw [strandAt_modSplit, h4 sl hsl]
  · intro e he; rw [splitAt_modSplit_ne _ _ (Or.inr he), h5 e he]
  · intro k hk; simp only [Machine.modSplit, hp]; exact h6 k hk
  · simp only [Machine.modSplit, hp]; exact h7
  · simpa using hx
  · exact splitAt_modSplit_same _ hp

theorem CoreStep.advance {s t : State} {v : Iss} {k : Core} {x : Strand} (h : CoreStep s t v k x (splitAfter s v v.sp.pc)) :
    CoreStep s (advance t v) v k x (splitAfter s v v.next) := by
  have := h.modSplit fun p => { p with pc := v.next }
  exact this

/-- A change of the core that keeps its slots and splits. -/
theorem CoreStep.onCore {s t : State} {v : Iss} {k : Core} {x : Strand} {p : Split} (h : CoreStep s t v k x p) (g : Core → Core)
    (hs : ∀ c : Core, (g c).slots = c.slots) (hp : ∀ c : Core, (g c).splits = c.splits)
    (hg : ∀ c : Core, { g c with slots := (g k).slots, splits := (g k).splits, issued := (g k).issued, issuedSlots := (g k).issuedSlots, samples := (g k).samples } =
       g { c with slots := k.slots, splits := k.splits, issued := k.issued, issuedSlots := k.issuedSlots, samples := k.samples }) :
    CoreStep s (onCore t v g) v (g k) x p := by
  obtain ⟨⟨h1, h2, h3, h4, h5, h6, h7⟩, hx, hq⟩ := h
  unfold Machine.onCore
  refine ⟨⟨?_, ?_, ?_, ?_, ?_, ?_, ?_⟩, ?_, ?_⟩
  · exact h1
  · intro c hc; rw [coreOf_modCore_ne _ _ hc, h2 c hc]
  · rw [coreOf_modCore_same, hg, h3]
  · intro sl hsl
    have := h4 sl hsl
    unfold strandAt at *
    rw [coreOf_modCore_same, hs]; exact this
  · intro e he
    have := h5 e he
    unfold splitAt at *
    rw [coreOf_modCore_same, hp]; exact this
  · intro j hj; exact h6 j hj
  · exact h7
  · unfold strandAt at *
    rw [coreOf_modCore_same, hs]; exact hx
  · unfold splitAt at *
    rw [coreOf_modCore_same, hp]; exact hq

theorem CoreStep.setPc {s t : State} {v : Iss} {k : Core} {x : Strand} {p : Split} (h : CoreStep s t v k x p) (pc : Pc) :
    CoreStep s (setPc t v pc) v k x { p with pc := pc } := h.modSplit _

theorem CoreStep.raiseFlags {s t : State} {v : Iss} {k : Core} {x : Strand} {p : Split} (h : CoreStep s t v k x p) (fl : FpFlags) :
    CoreStep s (raiseFlags t v fl) v k { x with fpflags := x.fpflags ||| fl } p := by
  unfold Machine.raiseFlags
  split
  · rename_i e
    subst e
    simpa using h
  · exact h.onStrand _

/-! ### Results in registers and predicates -/

/-- The strand after a result has been written to registers. -/
def wrote (v : Iss) (r : Nat) (w : Bool) (val : Nat → DWord) (x : Strand) : Strand :=
  if v.f.strand then
    let x := sset x r (cellOf32 (val 0) false)
    if w then sset x (r + 1) (cellHi32 (val 0) false) else x
  else (lanesOf v.on).foldl (fun x l =>
        let x := vset x r l (cellOf32 (val l) false)
        if w then vset x (r + 1) l (cellHi32 (val l) false) else x) x

theorem writeD_reg {s : State} {v : Iss} {r : Nat} {w : Bool} {val : Nat → DWord} (h : Writable v r w) :
    writeD s v r w val 0 = onStrand s v (wrote v r w val) := by
  have hr := h r (by cases w <;> simp [pairOf])
  unfold writeD wrote
  cases hs : v.f.strand with
  | true =>
    simp only [hs, if_true] at hr ⊢
    rw [if_pos hr.1]; simp
  | false =>
    simp only [hs] at hr ⊢
    have h2 := hr.1
    rw [if_neg (by simp), if_pos h2]; simp

theorem CoreStep.finishAlu {s t : State} {v : Iss} {k : Core} {x : Strand} {p : Split} {w : Bool} {res : Nat → DWord × FpFlags} (h : CoreStep s t v k x p)
    (hd : Writable v v.f.d.toNat w) :
    CoreStep s (finishAlu t v w res 0) v k
      { wrote v v.f.d.toNat w (fun l => (res l).1) x with
        fpflags := (wrote v v.f.d.toNat w (fun l => (res l).1) x).fpflags ||| flagsOf (elemsOf v) fun l => (res l).2 } { p with pc := v.next } := by
  unfold Machine.finishAlu Machine.advance
  rw [writeD_reg hd]
  exact ((h.onStrand _).raiseFlags _).setPc _

theorem cellOf32_eq (w : DWord) : cellOf32 w false = fullCell (w.extractLsb' 0 32) := by
  simp [cellOf32, fullCell, BitVec.truncate_eq_setWidth]
  ext i hi
  simp [BitVec.getElem_setWidth, BitVec.getElem_extractLsb']

theorem wrote_fields (v : Iss) (r : Nat) (w : Bool) (val : Nat → DWord) (x : Strand) :
    { wrote v r w val x with v := x.v, s := x.s } = x := by
  unfold wrote
  split
  · cases w <;> rfl
  · have : ∀ (ls : List Nat) (y : Strand), { y with v := x.v, s := x.s } = x →
        { ls.foldl (fun x l =>
          let x := vset x r l (cellOf32 (val l) false)
          if w then vset x (r + 1) l (cellHi32 (val l) false) else x) y with v := x.v, s := x.s } = x := by
      intro ls
      induction ls with
      | nil => intro y hy; exact hy
      | cons a rest ih =>
        intro y hy
        refine ih _ ?_
        cases w <;> exact hy
    exact this _ x rfl

theorem wrote_flags (v : Iss) (r : Nat) (w : Bool) (val : Nat → DWord) (x : Strand) : (wrote v r w val x).fpflags = x.fpflags := by
  have := wrote_fields v r w val x
  have h := congrArg Strand.fpflags this
  exact h

/-- Writing lanes one after another leaves the scalar registers alone, where a single write does. -/
theorem lanes_keep_scalars {α : Type} (write : Strand → α → Strand) (hw : ∀ y lane, (write y lane).s = y.s) (todo : List α) (x : Strand) :
    (todo.foldl write x).s = x.s :=
  List.foldlRecOn (motive := fun y => y.s = x.s) todo write rfl fun y hy lane _ => (hw y lane).trans hy

theorem wrote_lane {r : Nat} {w : Bool} {val : Nat → DWord} (ls : List Nat) (hn : ls.Nodup) (hl : ∀ l ∈ ls, l < 32) (x : Strand) (q l : Nat) (hlt : l < 32) :
    vget (ls.foldl (fun x l =>
        let x := vset x r l (cellOf32 (val l) false)
        if w then vset x (r + 1) l (cellHi32 (val l) false) else x) x) q l =
    if l ∈ ls then newCell r q w (val l) (vget x q l) else vget x q l := by
  induction ls generalizing x with
  | nil => simp
  | cons a rest ih =>
    have ha := hl a (by simp)
    rw [List.nodup_cons] at hn
    rw [List.foldl_cons, ih hn.2 (fun l h => hl l (by simp [h]))]
    by_cases hla : l = a
    · subst hla
      simp only [hn.1, if_false, List.mem_cons, true_or, if_true]
      unfold newCell
      cases w with
      | false =>
        by_cases hq : q = r
        · subst hq; simp [cellOf32_eq]
        · simp only [hq, if_false, Bool.false_eq_true, false_and]
          rw [vget_vset_ne]; omega
      | true =>
        by_cases hq : q = r
        · subst hq
          simp only [if_true]
          rw [vget_vset_ne _ _ (by omega)]; simp [cellOf32_eq]
        · by_cases hq1 : q = r + 1
          · subst hq1
            simp [cellHi32, fullCell]
          · simp only [hq, hq1, if_false, if_true, and_false]
            rw [vget_vset_ne _ _ (by omega), vget_vset_ne _ _ (by omega)]
    · have : vget (let x := vset x r a (cellOf32 (val a) false); if w then vset x (r + 1) a (cellHi32 (val a) false) else x) q l = vget x q l := by
        cases w with
        | false => simp only [Bool.false_eq_true, if_false]; rw [vget_vset_ne]; omega
        | true => simp only [if_true]; rw [vget_vset_ne _ _ (by omega), vget_vset_ne _ _ (by omega)]
      rw [this]
      simp [hla]

theorem lanesOf_nodup (m : Word) : (lanesOf m).Nodup := by
  unfold lanesOf
  exact List.Nodup.sublist List.filter_sublist List.nodup_range

theorem wrote_spec (v : Iss) (r : Nat) (w : Bool) (val : Nat → DWord) : Wrote v (wrote v r w val v.x) r w val := by
  unfold Wrote wrote
  cases hs : v.f.strand with
  | true =>
    simp only [if_true]
    refine ⟨by cases w <;> rfl, ?_⟩
    intro q
    unfold newCell
    cases w with
    | false =>
      by_cases hq : q = r
      · subst hq; simp [cellOf32_eq]
      · simp [hq, sget_sset_ne _ _ hq]
    | true =>
      by_cases hq : q = r
      · subst hq
        simp only [if_true]
        rw [sget_sset_ne _ _ (by omega)]; simp [cellOf32_eq]
      · by_cases hq1 : q = r + 1
        · subst hq1; simp [cellHi32, fullCell]
        · simp only [hq, hq1, if_false, if_true, and_false]
          rw [sget_sset_ne _ _ hq1, sget_sset_ne _ _ hq]
  | false =>
    simp only [Bool.false_eq_true, if_false]
    refine ⟨lanes_keep_scalars _ (fun x a => by cases w <;> rfl) _ _, ?_⟩
    intro q l hl
    rw [wrote_lane _ (lanesOf_nodup _) (fun l h => (mem_lanesOf.1 h).1) _ _ _ hl]
    simp [mem_lanesOf, hl]

theorem finish_spec {s : State} {opc : BitVec 7} {f : Fields} {v : Iss} {w : Bool} {res : Nat → DWord × FpFlags} (hv : viewOf s opc f = some v)
    (hd : Writable v v.f.d.toNat w) (t0 : State) (h0 : CoreStep s t0 v (coreOf s v.c) v.x (splitAfter s v v.sp.pc)) :
    ∃ x, StrandStep s (finishAlu t0 v w res 0) v x v.next ∧ SameButRegs v x ∧ Wrote v x f.d.toNat w (fun l => (res l).1) ∧
      x.fpflags = v.x.fpflags ||| flagsOf (elemsOf v) fun l => (res l).2 := by
  have hf := (viewOf_some hv).2.2.2.2.1
  have h := h0.finishAlu (res := res) hd
  refine ⟨_, ⟨h.rest, h.strand, h.split⟩, ?_, ?_, ?_⟩
  · have := wrote_fields v v.f.d.toNat w (fun l => (res l).1) v.x
    unfold SameButRegs
    have h2 := congrArg (fun x : Strand => { x with fpflags := v.x.fpflags }) this
    exact h2
  · have := wrote_spec v v.f.d.toNat w (fun l => (res l).1)
    rw [hf] at this
    unfold Wrote at *
    rw [hf] at *
    cases hs : f.strand
    · rw [hs] at this
      exact this
    · rw [hs] at this
      exact this
  · rw [wrote_flags]

theorem exec_ok {i : Instr} {s : State} {opc : BitVec 7} {f : Fields} {body : State → Iss → Except Stop State} {v : Iss} {t : State}
    (he : exec i s = issue s opc f body) (hi : Issues s opc f v) (hq : Quiet v) (hb : body (markIssued s v) v = .ok t) :
    exec i s = .next t := by
  rw [he, issue_ok hi.1 hi.2.1 hi.2.2 hb, afterIssue_quiet _ _ hq.1 hq.2]

/-- The strand after a predicate has been written. -/
def wroteP (v : Iss) (n : Nat) (val : Nat → Bool) (x : Strand) : Strand :=
  if v.f.strand then gset x n (val 0) else kset x n v.on (maskOf val)

theorem writeP_eq (s : State) (v : Iss) (n : Nat) (val : Nat → Bool) : writeP s v n val = onStrand s v (wroteP v n val) := by
  unfold writeP wroteP
  split <;> rfl

theorem maskOf_get (p : Nat → Bool) (l : Nat) (h : l < 32) : (maskOf p).getLsbD l = p l := by
  unfold maskOf
  have : ∀ (ls : List Nat) (m : Word), (∀ i ∈ ls, i < 32) → (ls.foldl (fun m l => if p l then m ||| laneBit l else m) m).getLsbD l = (m.getLsbD l || (decide (l ∈ ls) && p l)) := by
    intro ls
    induction ls with
    | nil => intro m _; simp
    | cons a r ih =>
      intro m hm
      have ha := hm a (by simp)
      rw [List.foldl_cons, ih _ (fun i hi => hm i (by simp [hi]))]
      have hb : (laneBit a).getLsbD l = decide (l = a) := by
        unfold laneBit
        rw [BitVec.getLsbD_ofNat]
        simp [h, Nat.testBit_two_pow]
        exact eq_comm
      by_cases hla : l = a
      · subst hla
        cases hp : p l <;> simp [hb]
      · cases hp : p a <;> simp [hb, hla]
  rw [this _ _ (by simp)]
  simp [h]

theorem gget_gset (x : Strand) (n i : Nat) (b : Bool) (hn : n < 8) (hi : i < 8) : gget (gset x n b) i = if i = n ∧ i ≠ 0 then b else gget x i := by
  by_cases h0 : i = 0
  · subst h0; simp
  · unfold gset
    by_cases hn0 : n = 0
    · subst hn0; simp [h0]
    · simp only [hn0, if_false, gget]
      have hi0 : (i == 0) = false := by simp [h0]
      simp only [hi0, Bool.false_or, ne_eq, h0, not_false_eq_true, and_true]
      have hb : (BitVec.ofNat 8 (2 ^ n)).getLsbD i = decide (n = i) := by
        rw [BitVec.getLsbD_ofNat]
        simp [hi, Nat.testBit_two_pow]
      cases b
      · simp only [Bool.false_eq_true, if_false, BitVec.getLsbD_and, BitVec.getLsbD_not, hb, hi, decide_true, Bool.true_and]
        by_cases h : i = n
        · subst h; simp
        · have : ¬ n = i := fun e => h e.symm
          simp [h, this]
      · simp only [if_true, BitVec.getLsbD_or, hb]
        by_cases h : i = n
        · subst h; simp
        · have : ¬ n = i := fun e => h e.symm
          simp [h, this]

theorem wroteP_spec (v : Iss) (n : Nat) (val : Nat → Bool) (hn : n < 8) : WroteP v (wroteP v n val v.x) n val := by
  unfold WroteP wroteP
  cases hs : v.f.strand with
  | true =>
    simp only [if_true]
    refine ⟨by unfold gset; split <;> rfl, fun i hi => gget_gset _ _ _ _ hn hi⟩
  | false =>
    simp only [Bool.false_eq_true, if_false]
    refine ⟨by unfold kset; split <;> rfl, fun i l hi hl => ?_⟩
    by_cases hin : i = n
    · subst hin
      by_cases h0 : i = 0
      · subst h0; simp
      · rw [kmask_kset_same _ _ _ h0]
        simp only [BitVec.getLsbD_or, BitVec.getLsbD_and, BitVec.getLsbD_not, hl, decide_true, Bool.true_and, maskOf_get _ _ hl]
        cases v.on.getLsbD l <;> simp [h0]
    · rw [kmask_kset_ne _ _ _ hin]
      simp [hin]

theorem wroteP_fields (v : Iss) (n : Nat) (val : Nat → Bool) (x : Strand) : { wroteP v n val x with k := x.k, g := x.g } = x := by
  unfold wroteP gset kset
  split <;> split <;> rfl

theorem finishP_spec {s : State} {opc : BitVec 7} {f : Fields} {v : Iss} {n : Nat} {res : Nat → Bool} {fl : FpFlags} (hv : viewOf s opc f = some v)
    (hn : n < 8) :
    ∃ x, StrandStep s (advance (raiseFlags (writeP (markIssued s v) v n res) v fl) v) v x v.next ∧ SameButPreds v x ∧ WroteP v x n res ∧
      x.fpflags = v.x.fpflags ||| fl := by
  have h0 := CoreStep.start hv
  rw [writeP_eq]
  have h := ((h0.onStrand (wroteP v n res)).raiseFlags fl).setPc v.next
  refine ⟨_, ⟨h.rest, h.strand, h.split⟩, ?_, ?_, ?_⟩
  · have := wroteP_fields v n res v.x
    have h2 := congrArg (fun x : Strand => { x with fpflags := v.x.fpflags }) this
    exact h2
  · have := wroteP_spec v n res hn
    unfold WroteP at *
    cases hs : v.f.strand
    · rw [hs] at this; exact this
    · rw [hs] at this; exact this
  · have := congrArg Strand.fpflags (wroteP_fields v n res v.x)
    have h2 : (wroteP v n res v.x).fpflags = v.x.fpflags := this
    show (wroteP v n res v.x).fpflags ||| fl = _
    rw [h2]

theorem finishD_spec {s : State} {opc : BitVec 7} {f : Fields} {v : Iss} {w : Bool} {res : Nat → DWord} (hv : viewOf s opc f = some v)
    (hd : Writable v v.f.d.toNat w) (t0 : State) (h0 : CoreStep s t0 v (coreOf s v.c) v.x (splitAfter s v v.sp.pc)) :
    ∃ x, StrandStep s (advance (writeD t0 v v.f.d.toNat w res 0) v) v x v.next ∧ SameButRegs v x ∧ x.fpflags = v.x.fpflags ∧ Wrote v x f.d.toNat w res := by
  obtain ⟨x, h1, h2, h3, h4⟩ := finish_spec (res := fun l => (res l, 0)) hv hd t0 h0
  have hfl : (flagsOf (elemsOf v) fun _ => (0 : FpFlags)) = 0 := by
    unfold flagsOf
    have : ∀ ls : List Nat, ls.foldl (fun (fl : FpFlags) _ => fl ||| (0:FpFlags)) 0 = 0 := by
      intro ls; induction ls with
      | nil => rfl
      | cons a r ih => exact ih
    exact this _
  refine ⟨x, ?_, h2, ?_, h3⟩
  · have e : finishAlu t0 v w (fun l => (res l, 0)) 0 = advance (writeD t0 v v.f.d.toNat w res 0) v := by
      unfold finishAlu; simp only [hfl, raiseFlags, if_true]
    rw [← e]; exact h1
  · rw [h4]; simp only [hfl]; simp

/-! ### What counting an issue leaves alone -/

@[simp] theorem opsOf_markIssued (s : State) (v : Iss) (c sl : Nat) : opsOf (markIssued s v) c sl = opsOf s c sl := by
  simp [opsOf]

@[simp] theorem splitOps_markIssued (s : State) (v : Iss) (c sl : Nat) : splitOps (markIssued s v) c sl = splitOps s c sl := by
  simp [splitOps, behindTrap]

theorem core_markIssued {s : State} {v : Iss} {opc : BitVec 7} {f : Fields} (h : viewOf s opc f = some v) :
    { coreOf (markIssued s v) v.c with slots := (coreOf s v.c).slots, splits := (coreOf s v.c).splits, issued := (coreOf s v.c).issued, issuedSlots := (coreOf s v.c).issuedSlots, samples := (coreOf s v.c).samples } = coreOf s v.c :=
  (CoreStep.start h).rest.core

theorem mbox_mi {s : State} {v : Iss} {opc f} (h : viewOf s opc f = some v) : (coreOf (markIssued s v) v.c).mbox = (coreOf s v.c).mbox := by
  have := congrArg Core.mbox (core_markIssued h); exact this
theorem queues_mi {s : State} {v : Iss} {opc f} (h : viewOf s opc f = some v) : (coreOf (markIssued s v) v.c).queues = (coreOf s v.c).queues := by
  have := congrArg Core.queues (core_markIssued h); exact this
theorem resvs_mi {s : State} {v : Iss} {opc f} (h : viewOf s opc f = some v) : (coreOf (markIssued s v) v.c).resvs = (coreOf s v.c).resvs := by
  have := congrArg Core.resvs (core_markIssued h); exact this
theorem stop_mi {s : State} {v : Iss} {opc f} (h : viewOf s opc f = some v) : (coreOf (markIssued s v) v.c).stopReq = (coreOf s v.c).stopReq := by
  have := congrArg Core.stopReq (core_markIssued h); exact this
theorem spad_mi {s : State} {v : Iss} {opc f} (h : viewOf s opc f = some v) : (coreOf (markIssued s v) v.c).spad = (coreOf s v.c).spad := by
  have := congrArg Core.spad (core_markIssued h); exact this
theorem spadP_mi {s : State} {v : Iss} {opc f} (h : viewOf s opc f = some v) : (coreOf (markIssued s v) v.c).spadPoison = (coreOf s v.c).spadPoison := by
  have := congrArg Core.spadPoison (core_markIssued h); exact this
theorem myResv_mi {s : State} {v : Iss} {opc f} (h : viewOf s opc f = some v) : myResv (markIssued s v) v = myResv s v := by
  unfold myResv resvOf; rw [resvs_mi h]
theorem slots_mi (s : State) (v : Iss) : (coreOf (markIssued s v) v.c).slots = (coreOf s v.c).slots := by
  unfold markIssued modSplit
  cases splitAt (countIssue s v) v.c v.e with
  | none => simp [countIssue]
  | some p => simp [countIssue, putSplit]

theorem any_mdel {α : Type} (m : List (Nat × α)) (k : Nat) (p : Nat × α → Bool) :
    (mdel m k).any (fun q => q.1 != k && p q) = m.any (fun q => q.1 != k && p q) := by
  induction m with
  | nil => rfl
  | cons q r ih =>
    obtain ⟨k', x⟩ := q
    by_cases h : k' = k
    · subst h; simp [mdel, ih]
    · simp [mdel, h, ih]
theorem any_mins {α : Type} (m : List (Nat × α)) (k : Nat) (x : α) (p : Nat × α → Bool) :
    (mins m k x).any (fun q => q.1 != k && p q) = m.any (fun q => q.1 != k && p q) := by
  induction m with
  | nil => simp [mins]
  | cons q r ih =>
    obtain ⟨k', y⟩ := q
    by_cases h : k < k'
    · simp [mins, h]
    · simp [mins, h, ih]
theorem any_mput {α : Type} (m : List (Nat × α)) (k : Nat) (x : α) (p : Nat × α → Bool) :
    (mput m k x).any (fun q => q.1 != k && p q) = m.any (fun q => q.1 != k && p q) := by
  unfold mput; rw [any_mins, any_mdel]

theorem splits_any {s : State} {v : Iss} {opc f} (h : viewOf s opc f = some v) (p : Nat × Split → Bool) :
    (coreOf (markIssued s v) v.c).splits.any (fun q => q.1 != v.e && p q) = (coreOf s v.c).splits.any (fun q => q.1 != v.e && p q) := by
  obtain ⟨hc, hp, hx, -⟩ := viewOf_some h
  have hp' : splitAt (countIssue s v) v.c v.e = some v.sp := by simpa using hp
  have : (coreOf (markIssued s v) v.c).splits = mput (coreOf s v.c).splits v.e (splitAfter s v v.sp.pc) := by
    unfold markIssued
    rw [coreOf_modSplit_same _ hp']
    simp [countIssue]
    rfl
  rw [this, any_mput]

theorem mustQueue_mi {s : State} {v : Iss} {opc f} (h : viewOf s opc f = some v) (o : WaitObj) : mustQueue (markIssued s v) v o = mustQueue s v o := by
  unfold mustQueue waitsBefore
  have e := splits_any h fun p => blockedBefore o (v.sp.blocked.bind fun (o', q) => if o' = o then some q else none) p.2
  have b (a c : Nat) : ((some a : Option Nat) != some c) = (a != c) := by
    by_cases h : a = c <;> simp [bne, h]
  simp only [markIssued_ops, markIssued_images, b] at e ⊢
  rw [e]

theorem clusterAt_mi {s : State} {v : Iss} {opc f} (h : viewOf s opc f = some v) (k : Nat) : (clusterAt (markIssued s v) k).stores = (clusterAt s k).stores := by
  have r := (CoreStep.start h).rest
  by_cases hk : k = clusterOf v.c
  · subst hk
    have := congrArg Cluster.stores r.cluster; exact this
  · rw [r.clusters k hk]

theorem fenceReady_mi {s : State} {v : Iss} {opc f} (h : viewOf s opc f = some v) (c sl : Nat) (m : BitVec 8) (a r : Bool) (sc : Scope) :
    fenceReady (markIssued s v) c sl m a r sc = fenceReady s c sl m a r sc := by
  unfold fenceReady
  simp only [splitOps_markIssued]
  have : scopeClean (markIssued s v) c sc = scopeClean s c sc := by
    unfold scopeClean storesHome clusterHolds hasDirty writingBack
    cases sc <;> simp [clusterAt_mi h]
  rw [this]

/-- The operations that can hold back a split are among the strand's. -/
theorem splitOps_clear {s : State} {v : Iss} (h : acquireClear (opsOf s v.c v.sl) v.sp.smask = true) :
    acquireClear (splitOps s v.c v.sl) v.sp.smask = true := by
  unfold acquireClear splitOps at *
  simp only [Bool.not_eq_true', List.any_eq_false] at h ⊢
  exact fun p hp => h p (List.mem_filter.mp hp).1

/-- With no acquire outstanding in the strand, a memory access issues (R140). -/
theorem acquirePassed_ok {s : State} {v : Iss} (h : acquireClear (opsOf s v.c v.sl) v.sp.smask = true) :
    acquirePassed s v = .ok () := by
  unfold acquirePassed
  rw [if_pos (splitOps_clear h)]

end Sys2Proof.Safety
end

