-- ==== Sys2Proof/Tests/Slice0.lean ====
section
/-! SUPPORT. Tests on small states: words of the spec decode to what they stand for, ill-formed terms are refused, single steps
give the values of the spec's worked examples, and every statement's hypotheses are met somewhere. -/
namespace Sys2Proof.Tests
open Sys2Proof.Machine Sys2Proof.Safety Sys2Proof.Spec

set_option Elab.async false

/-! ### Small states -/

/-- One strand of eight slices in slot 0 of core 0, whose split issues. -/
def base : State := { placeInstr State.reset [] with cur := some (0, 0) }

/-- What an instruction sees in a state. -/
def iss (s : State) (opc : BitVec 7) (f : Fields) : Iss :=
  (viewOf s opc f).getD
    { c := 0, e := 0, sl := 0, sp := fetchSplit, x := fetchStrand, opc := opc, f := f, pc := 0, next := 0, act := 0, on := 0,
      off := true, sample := none }

/-- The instruction issues, and the issue is quiet. -/
def issuesQuietly (s : State) (opc : BitVec 7) (f : Fields) : Bool :=
  (viewOf s opc f).isSome && !passedOver s (iss s opc f) && !(iss s opc f).off && (iss s opc f).sample.isNone && (iss s opc f).x.steps.isNone

theorem viewOf_iss {s : State} {opc : BitVec 7} {f : Fields} (h : (viewOf s opc f).isSome = true) :
    viewOf s opc f = some (iss s opc f) := by
  unfold iss
  cases hv : viewOf s opc f with
  | none => simp [hv] at h
  | some v => rfl

theorem quietly {s : State} {opc : BitVec 7} {f : Fields} (h : issuesQuietly s opc f = true) :
    Issues s opc f (iss s opc f) ∧ Quiet (iss s opc f) := by
  simp only [issuesQuietly, Bool.and_eq_true, Bool.not_eq_true'] at h
  exact ⟨⟨viewOf_iss h.1.1.1.1, h.1.1.1.2, h.1.1.2⟩, by simpa using h.1.2, by simpa using h.2⟩

/-- The base with another strand, with another core. -/
def baseX (g : Strand → Strand) : State := modStrand base 0 0 g
def baseK (g : Core → Core) : State := modCore base 0 g

/-- A reservation of everything a core has. -/
def resv1 : Resv :=
  { lcnt := 0, ctx := 1, base := 0, spad := 128, queues := 0xFF, mbox := BitVec.allOnes 32, bins := 0xFFFF, recl := false,
    slices := 8, dmr := false, entry := 0x10000, nstrand := 4, params := 0 }

/-- A queue of 64 words that holds 32. -/
def queue1 : QueueDesc := { emptyQueue with en := true, base := 0, size := 64, tail := 32 }

/-- The base with the reservation, queue 2 and a full mailbox 5. -/
def baseR : State := baseK fun k =>
  { k with resvs := [resv1], queues := [(2, queue1)], mbox := [(5, { emptyMailbox with val := 9, full := true })] }

/-! ### The hypotheses of the statements are met -/

/-- D v1, A v2, B v3, C v4. -/
def f3 : Fields := { zeroFields with d := 1, a := 2, b := 3, c := 4 }

theorem witness_IntegerResults :
    (Issues base 0x01 f3 (iss base 0x01 f3) ∧ Quiet (iss base 0x01 f3)) ∧
    (int2 .iadd 0x01 fun _ a b => a + b).Ready (iss base 0x01 f3) := by
  refine ⟨quietly (by decide +kernel), ?_⟩
  simp only [RegRow.Ready, int2, ReadableIf, BReady, Readable, Writable, pairOf, xT, nil_]; decide +kernel

theorem witness_FloatingPointResults :
    (Issues base 0x23 { f3 with long := true, ty := .f32 } (iss base 0x23 { f3 with long := true, ty := .f32 }) ∧
      Quiet (iss base 0x23 { f3 with long := true, ty := .f32 })) ∧
    ∃ row ∈ floatRows, row.opc = 0x23 ∧ row.Ready (iss base 0x23 { f3 with long := true, ty := .f32 }) := by
  refine ⟨quietly (by decide +kernel), floatRows[3], by simp [floatRows], rfl, ?_⟩
  show ReadableIf _ _ (some false) ∧ BReady _ (some false) ∧ ReadableIf _ _ (some false) ∧ Writable _ _ false
  simp only [ReadableIf, BReady, Readable, Writable, pairOf]; decide +kernel

theorem witness_ConversionAndTranscendentalResults :
    ((Issues base 0x2F f3 (iss base 0x2F f3) ∧ Quiet (iss base 0x2F f3)) ∧
      ∃ row ∈ formatRows, row.opc = 0x2F ∧ row.Ready (iss base 0x2F f3)) ∧
    ((Issues base 0x32 { f3 with fn := 4 } (iss base 0x32 { f3 with fn := 4 }) ∧ Quiet (iss base 0x32 { f3 with fn := 4 })) ∧
      qencRow.Ready (iss base 0x32 { f3 with fn := 4 })) ∧
    (Issues base 0x28 f3 (iss base 0x28 f3) ∧ Quiet (iss base 0x28 f3)) ∧ Readable (iss base 0x28 f3) 2 false ∧
      Writable (iss base 0x28 f3) 1 false := by
  refine ⟨⟨quietly (by decide +kernel), formatRows[0], by simp [formatRows], rfl, ?_⟩, ⟨quietly (by decide +kernel), ?_⟩,
    quietly (by decide +kernel), ?_⟩
  · show ReadableIf _ _ (some false) ∧ BReady _ none ∧ ReadableIf _ _ none ∧ Writable _ _ false
    simp only [ReadableIf, BReady, Readable, Writable, pairOf]; decide +kernel
  · show ReadableIf _ _ (some false) ∧ BReady _ (some false) ∧ ReadableIf _ _ none ∧ Writable _ _ false
    simp only [ReadableIf, BReady, Readable, Writable, pairOf]; decide +kernel
  · simp only [Readable, Writable, pairOf]; decide +kernel

theorem witness_PredicateResults :
    ((Issues base 0x19 { f3 with fn := 2 } (iss base 0x19 { f3 with fn := 2 }) ∧ Quiet (iss base 0x19 { f3 with fn := 2 })) ∧
      Readable (iss base 0x19 { f3 with fn := 2 }) 2 false ∧ BReady (iss base 0x19 { f3 with fn := 2 }) (some false)) ∧
    Issues base 0x1D f3 (iss base 0x1D f3) ∧ Quiet (iss base 0x1D f3) := by
  refine ⟨⟨quietly (by decide +kernel), ?_⟩, quietly (by decide +kernel)⟩
  simp only [BReady, Readable, pairOf]; decide +kernel

theorem witness_MoveAndSelectResults :
    (Issues base 0x00 zeroFields (iss base 0x00 zeroFields) ∧ Quiet (iss base 0x00 zeroFields)) ∧
    ((Issues base 0x1A f3 (iss base 0x1A f3) ∧ Quiet (iss base 0x1A f3)) ∧ Readable (iss base 0x1A f3) 2 false ∧
      BReady (iss base 0x1A f3) (some false) ∧ Writable (iss base 0x1A f3) 1 false) ∧
    (Issues base 0x1B f3 (iss base 0x1B f3) ∧ Quiet (iss base 0x1B f3)) ∧ BReady (iss base 0x1B f3) (some false) ∧
      Writable (iss base 0x1B f3) 1 false := by
  refine ⟨quietly (by decide +kernel), ⟨quietly (by decide +kernel), ?_⟩, quietly (by decide +kernel), ?_⟩ <;>
  · simp only [BReady, Readable, Writable, pairOf]; decide +kernel

theorem witness_RegisterFormsComplete :
    ∃ s1 xa xb xc, readSources (markIssued baseR (iss baseR 0x01 { f3 with strand := true, b := 69 }))
        (iss baseR 0x01 { f3 with strand := true, b := 69 }) (some false) (some false) none .i32 = .ok (s1, xa, xb, xc) ∧
      (xb.val 0).toNat = 9 ∧ destReady s1 (iss baseR 0x01 { f3 with strand := true, b := 69 }) 1 false false = .ok () :=
  ⟨_, _, _, _, rfl, by decide +kernel, rfl⟩

/-- MOV v1, q2 and MOV q2, v3. -/
def fPop : Fields := { zeroFields with d := 1, b := 122 }
def fPush : Fields := { zeroFields with d := 122, b := 3 }

theorem witness_QueueTransfers :
    ((Issues baseR 0x1B fPop (iss baseR 0x1B fPop) ∧ Quiet (iss baseR 0x1B fPop)) ∧ Writable (iss baseR 0x1B fPop) 1 false ∧
      QueueUsable baseR (iss baseR 0x1B fPop) 2 resv1 queue1 (.qpop 2) ∧
      (∀ b, (unitLanes (iss baseR 0x1B fPop).x.dmr (iss baseR 0x1B fPop).on).length ≤ wordsFor queue1 baseR.now b) ∧
      unitLanes (iss baseR 0x1B fPop).x.dmr (iss baseR 0x1B fPop).on ≠ [] ∧ accessPassed baseR (iss baseR 0x1B fPop) = .ok ()) ∧
    ((Issues baseR 0x1B fPush (iss baseR 0x1B fPush) ∧ Quiet (iss baseR 0x1B fPush)) ∧
      BReady (iss baseR 0x1B fPush) (some false) ∧ QueueUsable baseR (iss baseR 0x1B fPush) 2 resv1 queue1 (.qpush 2) ∧
      (∀ b, (unitLanes (iss baseR 0x1B fPush).x.dmr (iss baseR 0x1B fPush).on).length ≤
        spaceFor queue1 baseR.now b (ownPops (iss baseR 0x1B fPush) 2)) ∧
      fenceReady baseR 0 0 0xFF false true .core = true ∧
      comparePairs (iss baseR 0x1B fPush) (movValue (iss baseR 0x1B fPush)) = .ok ()) := by
  refine ⟨⟨quietly (by decide +kernel), ?_⟩, quietly (by decide +kernel), ?_⟩
  · simp only [Writable, pairOf, QueueUsable]
    exact ⟨by decide +kernel, by decide +kernel, by decide +kernel, by decide +kernel, rfl⟩
  · refine ⟨?_, ?_, by decide +kernel, by decide +kernel, rfl⟩
    · simp only [BReady, Readable, pairOf]; decide +kernel
    · simp only [QueueUsable]; decide +kernel

/-- MOV s1, m5 and MOV m6, s3. -/
def fTake : Fields := { zeroFields with strand := true, d := 1, b := 69 }
def fPut : Fields := { zeroFields with strand := true, d := 70, b := 3 }

theorem witness_MailboxMoves :
    ((Issues baseR 0x1B fTake (iss baseR 0x1B fTake) ∧ Quiet (iss baseR 0x1B fTake)) ∧
      Writable (iss baseR 0x1B fTake) 1 false ∧ MailboxOwned baseR (iss baseR 0x1B fTake) 5 ∧
      (mailboxOf baseR (iss baseR 0x1B fTake) 5).full = true ∧ mustQueue baseR (iss baseR 0x1B fTake) (.mread 5) = false ∧
      accessPassed baseR (iss baseR 0x1B fTake) = .ok ()) ∧
    (Issues baseR 0x1B fPut (iss baseR 0x1B fPut) ∧ Quiet (iss baseR 0x1B fPut)) ∧ BReady (iss baseR 0x1B fPut) (some false) ∧
      MailboxOwned baseR (iss baseR 0x1B fPut) 6 ∧ mustQueue baseR (iss baseR 0x1B fPut) (.mwrite 6) = false ∧
      (mailboxOf baseR (iss baseR 0x1B fPut) 6).full = false ∧ fenceReady baseR 0 0 0xFF false true .core = true := by
  refine ⟨⟨quietly (by decide +kernel), ?_, ⟨resv1, by decide +kernel⟩, by decide +kernel, by decide +kernel, rfl⟩, quietly (by decide +kernel), ?_,
    ⟨resv1, by decide +kernel⟩, by decide +kernel⟩
  · simp only [Writable, pairOf]; decide +kernel
  · simp only [BReady, Readable, pairOf]; decide +kernel

/-- Register v2 is empty in lane 31, and poisoned there. -/
def baseEmpty : State := baseX fun x => vset x 2 31 { val := 0, st := .vacant, poison := false }
def basePoison : State := baseX fun x => vset x 2 31 { val := 0, st := .full, poison := true }

theorem witness_UnreadableSources :
    (Issues baseEmpty 0x01 f3 (iss baseEmpty 0x01 f3) ∧ NotFull (iss baseEmpty 0x01 f3) 2) ∧
    Issues basePoison 0x01 f3 (iss basePoison 0x01 f3) ∧ Poisoned (iss basePoison 0x01 f3) 2 ∧
      BReady (iss basePoison 0x01 f3) (some false) := by
  refine ⟨⟨(quietly (by decide +kernel)).1, ?_⟩, (quietly (by decide +kernel)).1, ?_, ?_⟩
  · exact ⟨by decide, 31, by decide, by decide +kernel, by decide +kernel⟩
  · exact ⟨by decide, by decide +kernel, 31, by decide, by decide +kernel, by decide +kernel⟩
  · simp only [BReady, Readable, pairOf]; decide +kernel

theorem witness_FalseGuardSkips :
    viewOf base 0x41 { zeroFields with strand := true, g := 8 } = some (iss base 0x41 { zeroFields with strand := true, g := 8 }) ∧
    (iss base 0x41 { zeroFields with strand := true, g := 8 }).off = true ∧
    Quiet (iss base 0x41 { zeroFields with strand := true, g := 8 }) :=
  ⟨viewOf_iss (by decide +kernel), by decide +kernel, by decide +kernel, by decide +kernel⟩

/-- A lane instruction over the lanes of the split. -/
def fSplit : Fields := { f3 with long := true, md := 1 }

theorem witness_ShuffleResults :
    (Issues base 0x34 fSplit (iss base 0x34 fSplit) ∧ Quiet (iss base 0x34 fSplit)) ∧
    memberMask (iss base 0x34 fSplit) = .ok (BitVec.allOnes 32) ∧
    participants (iss base 0x34 fSplit) (BitVec.allOnes 32) = .ok (BitVec.allOnes 32) ∧
    Readable (asMembers (iss base 0x34 fSplit) (BitVec.allOnes 32)) 2 false ∧
    BReady (asMembers (iss base 0x34 fSplit) (BitVec.allOnes 32)) (some false) ∧
    Writable (asMembers (iss base 0x34 fSplit) (BitVec.allOnes 32)) 1 false := by
  refine ⟨quietly (by decide +kernel), rfl, rfl, ?_⟩
  simp only [BReady, Readable, Writable, pairOf]; decide +kernel

theorem witness_VoteResults :
    ((Issues base 0x35 fSplit (iss base 0x35 fSplit) ∧ Quiet (iss base 0x35 fSplit)) ∧
      memberMask (iss base 0x35 fSplit) = .ok (BitVec.allOnes 32) ∧
      participants (iss base 0x35 fSplit) (BitVec.allOnes 32) = .ok (BitVec.allOnes 32) ∧
      Writable (asMembers (iss base 0x35 fSplit) (BitVec.allOnes 32)) 1 false) ∧
    (Issues base 0x35 { fSplit with fn := 1 } (iss base 0x35 { fSplit with fn := 1 }) ∧
      Quiet (iss base 0x35 { fSplit with fn := 1 })) ∧
      memberMask (iss base 0x35 { fSplit with fn := 1 }) = .ok (BitVec.allOnes 32) := by
  refine ⟨⟨quietly (by decide +kernel), rfl, rfl, ?_⟩, quietly (by decide +kernel), rfl⟩
  simp only [Writable, pairOf]; decide +kernel

theorem witness_ReductionResults :
    (Issues base 0x36 fSplit (iss base 0x36 fSplit) ∧ Quiet (iss base 0x36 fSplit)) ∧
    memberMask (iss base 0x36 fSplit) = .ok (BitVec.allOnes 32) ∧
    participants (iss base 0x36 fSplit) (BitVec.allOnes 32) = .ok (BitVec.allOnes 32) ∧
    (Readable (asMembers (iss base 0x36 fSplit) (BitVec.allOnes 32)) 2 false ∧
      Writable (asMembers (iss base 0x36 fSplit) (BitVec.allOnes 32)) 1 false) ∧
    (Issues base 0x37 fSplit (iss base 0x37 fSplit) ∧ Quiet (iss base 0x37 fSplit)) ∧
    memberMask (iss base 0x37 fSplit) = .ok (BitVec.allOnes 32) ∧
    participants (iss base 0x37 fSplit) (BitVec.allOnes 32) = .ok (BitVec.allOnes 32) := by
  refine ⟨quietly (by decide +kernel), rfl, rfl, ?_, quietly (by decide +kernel), rfl, rfl⟩
  simp only [Readable, Writable, pairOf]; decide +kernel

/-- XMOV.bcast under a guard that is false everywhere, XMOV.pick of lane 31. -/
def fNone : Fields := { f3 with g := 8 }
def fPick : Fields := { f3 with strand := true, fn := 2, imm16 := 31 }

theorem witness_SideMoveResults :
    ((Issues base 0x38 f3 (iss base 0x38 f3) ∧ Quiet (iss base 0x38 f3)) ∧
      (∀ q ∈ pairOf 2 false, (sget (iss base 0x38 f3).x q).st = .full ∧ (sget (iss base 0x38 f3).x q).poison = false) ∧
      Writable (iss base 0x38 f3) 1 false) ∧
    ((Issues base 0x38 fNone (iss base 0x38 fNone) ∧ Quiet (iss base 0x38 fNone)) ∧ (iss base 0x38 fNone).on = 0) ∧
    ((Issues base 0x38 fPick (iss base 0x38 fPick) ∧ Quiet (iss base 0x38 fPick)) ∧
      ((lanesThere (iss base 0x38 fPick).x).getLsbD 31 = true ∧ (iss base 0x38 fPick).sp.smask.getLsbD (31 / 4) = true) ∧
      (∀ q ∈ pairOf 2 false, (vget (iss base 0x38 fPick).x q 31).st = .full ∧
        (vget (iss base 0x38 fPick).x q 31).poison = false) ∧ Writable (iss base 0x38 fPick) 1 false) := by
  refine ⟨⟨quietly (by decide +kernel), ?_⟩, ⟨quietly (by decide +kernel), by decide +kernel⟩, quietly (by decide +kernel), ?_⟩ <;>
  · simp only [Writable, pairOf]; decide +kernel

theorem witness_BlockExponentResults :
    (Issues base 0x32 { fSplit with ty := .f32 } (iss base 0x32 { fSplit with ty := .f32 }) ∧
      Quiet (iss base 0x32 { fSplit with ty := .f32 })) ∧
    memberMask (iss base 0x32 { fSplit with ty := .f32 }) = .ok (BitVec.allOnes 32) ∧
    participants (iss base 0x32 { fSplit with ty := .f32 }) (BitVec.allOnes 32) = .ok (BitVec.allOnes 32) ∧
    Readable (asMembers (iss base 0x32 { fSplit with ty := .f32 }) (BitVec.allOnes 32)) 2 false ∧
    BReady (asMembers (iss base 0x32 { fSplit with ty := .f32 }) (BitVec.allOnes 32)) (some false) ∧
    Writable (asMembers (iss base 0x32 { fSplit with ty := .f32 }) (BitVec.allOnes 32)) 1 false := by
  refine ⟨quietly (by decide +kernel), rfl, rfl, ?_⟩
  simp only [BReady, Readable, Writable, pairOf]; decide +kernel

/-- GETSR of CYCLE, of TRAPREC, and SETSR of FPMODE. -/
def fCycle : Fields := { zeroFields with d := 1, imm16 := 0x010 }
def fTrapRec : Fields := { zeroFields with d := 1, b := 3, imm16 := 0x071 }
def fSet : Fields := { zeroFields with strand := true, a := 2, imm16 := 0x051 }

theorem witness_SpecialRegisterAccess :
    ((Issues base 0x39 fCycle (iss base 0x39 fCycle) ∧ Quiet (iss base 0x39 fCycle)) ∧
      Writable (iss base 0x39 fCycle) 1 false) ∧
    ((Issues base 0x39 fTrapRec (iss base 0x39 fTrapRec) ∧ Quiet (iss base 0x39 fTrapRec)) ∧
      BReady (iss base 0x39 fTrapRec) (some false) ∧ (∀ l, l < 32 → rdBits .b32 (bVal (iss base 0x39 fTrapRec) .b32 l (some false)) < 128) ∧
      Writable (iss base 0x39 fTrapRec) 1 false) ∧
    (Issues base 0x3A fSet (iss base 0x3A fSet) ∧ Quiet (iss base 0x3A fSet)) ∧ Readable (iss base 0x3A fSet) 2 false := by
  refine ⟨⟨quietly (by decide +kernel), ?_⟩, ⟨quietly (by decide +kernel), ?_, ?_, ?_⟩, quietly (by decide +kernel), ?_⟩
  · simp only [Writable, pairOf]; decide +kernel
  · simp only [BReady, Readable, pairOf]; decide +kernel
  · decide +kernel
  · simp only [Writable, pairOf]; decide +kernel
  · simp only [Readable, pairOf]; decide +kernel

/-! Control -/

/-- A BRA of the strand side on g0 and of the vote kind on k2, 24 bytes back. -/
def fBra : Fields := { zeroFields with strand := true, long := true, imm16 := 0xFFFA }
def fBraK : Fields := { fBra with fn := 1, a := 2 }
/-- A strand instruction over A s2 and B 0. -/
def fS : Fields := { zeroFields with strand := true, long := true, d := 1, a := 2, imm := true }

theorem witness_BranchesAndJumps :
    ((Issues base 0x3C fBra (iss base 0x3C fBra) ∧ Quiet (iss base 0x3C fBra)) ∧ TargetOk (relTarget (iss base 0x3C fBra))) ∧
    ((Issues base 0x3C fBraK (iss base 0x3C fBraK) ∧ Quiet (iss base 0x3C fBraK)) ∧ (iss base 0x3C fBraK).act ≠ 0 ∧
      (∀ l, l < 32 → (iss base 0x3C fBraK).act.getLsbD l = true → (kmask (iss base 0x3C fBraK).x 2).getLsbD l = false) ∧
      TargetOk (relTarget (iss base 0x3C fBraK))) ∧
    ((Issues base 0x3E fBra (iss base 0x3E fBra) ∧ Quiet (iss base 0x3E fBra)) ∧ (sget (iss base 0x3E fBra).x 63).st ≠ .pending ∧
      TargetOk (relTarget (iss base 0x3E fBra))) ∧
    ((Issues base 0x3F fS (iss base 0x3F fS) ∧ Quiet (iss base 0x3F fS)) ∧ Readable (iss base 0x3F fS) 2 true ∧
      TargetOk (regVal (iss base 0x3F fS) 2 true 0)) ∧
    ((Issues base 0x43 fBra (iss base 0x43 fBra) ∧ Quiet (iss base 0x43 fBra)) ∧ allPassed base (iss base 0x43 fBra) none = true) ∧
    ((Issues base 0x45 fS (iss base 0x45 fS) ∧ Quiet (iss base 0x45 fS)) ∧ BesideTarget (iss base 0x45 fS) ∧
      TargetOk (relTarget (iss base 0x45 fS))) := by
  refine ⟨⟨quietly (by decide +kernel), ?_⟩, ⟨quietly (by decide +kernel), by decide +kernel, by decide +kernel, ?_⟩,
    ⟨quietly (by decide +kernel), by decide +kernel, ?_⟩, ⟨quietly (by decide +kernel), ?_, ?_⟩,
    ⟨quietly (by decide +kernel), by decide +kernel⟩, quietly (by decide +kernel), Or.inl (by decide), ?_⟩ <;>
  · simp only [TargetOk, Readable, pairOf]; decide +kernel

/-- Bad targets: s2 holds 2, s2:s3 has bit 57 set, lane 4 alone votes. -/
def baseOdd : State := baseX fun x => sset x 2 (fullCell 2)
def baseFar : State := baseX fun x => sset x 3 (fullCell 0x02000000)
def baseVote : State := baseX fun x => kset x 2 (BitVec.allOnes 32) 0x10
def fLit : Fields := { fBra with hasLit := true, lit := 2 }
def fLitFar : Fields := { fBra with hasLit := true, lit := 0x0400000000000000 }

/-- The same as uniform branches that lanes take together, and as operands of the strand side. -/
def fLitK : Fields := { fLit with fn := 1, a := 2, md := 5 }
def fLitB : Fields := { fS with hasLit := true, lit := 2, md := 1 }
def fReg : Fields := { fS with fn := 1 }

theorem witness_BadTargetsTrap :
    (Issues base 0x3C fLit (iss base 0x3C fLit) ∧ CanRaise (iss base 0x3C fLit) ∧
      gget (iss base 0x3C fLit).x 0 ≠ fLit.md.getLsbD 0 ∧ (relTarget (iss base 0x3C fLit)).extractLsb' 0 2 ≠ 0 ∧
      (relTarget (iss base 0x3C fLitFar)).extractLsb' 0 2 = 0 ∧ (relTarget (iss base 0x3C fLitFar)).extractLsb' 57 7 ≠ 0) ∧
    (Issues base 0x3C fLitK (iss base 0x3C fLitK) ∧ CanRaise (iss base 0x3C fLitK) ∧ (iss base 0x3C fLitK).act ≠ 0 ∧
      ∀ l, l < 32 → (iss base 0x3C fLitK).act.getLsbD l = true → (kmask (iss base 0x3C fLitK).x 2).getLsbD l = false) ∧
    (Issues base 0x3D fLitK (iss base 0x3D fLitK) ∧ CanRaise (iss base 0x3D fLitK) ∧ PairsAgreeOn (iss base 0x3D fLitK) 0 ∧
      (∀ i, i < 8 → (0xFF : BitVec 8).getLsbD i = takes (iss base 0x3D fLitK) i) ∧
      (iss base 0x3D fLitK).sp.smask &&& ~~~(0xFF : BitVec 8) = 0) ∧
    ((Issues base 0x3E fLit (iss base 0x3E fLit) ∧ CanRaise (iss base 0x3E fLit) ∧
        (sget (iss base 0x3E fLit).x 63).st ≠ .pending) ∧
      Issues baseOdd 0x3E fReg (iss baseOdd 0x3E fReg) ∧ CanRaise (iss baseOdd 0x3E fReg) ∧
        Readable (iss baseOdd 0x3E fReg) 2 true) ∧
    ((Issues baseOdd 0x3F fS (iss baseOdd 0x3F fS) ∧ CanRaise (iss baseOdd 0x3F fS) ∧ Readable (iss baseOdd 0x3F fS) 2 true ∧
        (regVal (iss baseOdd 0x3F fS) 2 true 0).extractLsb' 0 2 ≠ 0 ∧
        (regVal (iss baseFar 0x3F fS) 2 true 0).extractLsb' 57 7 ≠ 0) ∧
      Issues baseOdd 0x3F fReg (iss baseOdd 0x3F fReg) ∧ CanRaise (iss baseOdd 0x3F fReg) ∧
        Readable (iss baseOdd 0x3F fReg) 2 false) ∧
    (Issues base 0x43 fLit (iss base 0x43 fLit) ∧ CanRaise (iss base 0x43 fLit) ∧
      allPassed base (iss base 0x43 fLit) none = true) ∧
    (Issues base 0x45 fLitB (iss base 0x45 fLitB) ∧ CanRaise (iss base 0x45 fLitB) ∧ BesideTarget (iss base 0x45 fLitB) ∧
      (besideTarget (iss base 0x45 fLitB) 0).toNat ≤ alwOf (coreOf base 0) 0) ∧
    (Issues baseVote 0x3C fBraK (iss baseVote 0x3C fBraK) ∧ CanRaise (iss baseVote 0x3C fBraK) ∧
      (iss baseVote 0x3C fBraK).act.getLsbD 4 = true ∧
      (kmask (iss baseVote 0x3C fBraK).x 2).getLsbD 4 ≠ (kmask (iss baseVote 0x3C fBraK).x 2).getLsbD (lowLane (iss baseVote 0x3C fBraK).act) ∧
      ∀ j, j < 4 → (iss baseVote 0x3C fBraK).act.getLsbD j = true → (kmask (iss baseVote 0x3C fBraK).x 2).getLsbD j =
        (kmask (iss baseVote 0x3C fBraK).x 2).getLsbD (lowLane (iss baseVote 0x3C fBraK).act)) := by
  refine ⟨⟨(quietly (by decide +kernel)).1, ?_⟩, ⟨(quietly (by decide +kernel)).1, ?_⟩,
    ⟨(quietly (by decide +kernel)).1, ?_, fun h => ?_, by decide +kernel⟩,
    ⟨⟨(quietly (by decide +kernel)).1, ?_⟩, (quietly (by decide +kernel)).1, ?_⟩,
    ⟨⟨(quietly (by decide +kernel)).1, ?_⟩, (quietly (by decide +kernel)).1, ?_⟩,
    ⟨(quietly (by decide +kernel)).1, ?_⟩, ⟨(quietly (by decide +kernel)).1, ?_⟩, (quietly (by decide +kernel)).1, ?_⟩
  case refine_4 => exact absurd h (by decide +kernel)
  all_goals
  · simp only [CanRaise, Quiet, Readable, pairOf, BesideTarget]; decide +kernel

/-- A split with eight joins. -/
def baseDeep : State := modSplit baseVote 0 0 fun p => { p with jstk := [1, 2, 3, 4, 5, 6, 7, 8] }

theorem witness_DivergentBranch :
    ((Issues base 0x3D fBraK (iss base 0x3D fBraK) ∧ Quiet (iss base 0x3D fBraK)) ∧ PairsAgreeOn (iss base 0x3D fBraK) 0 ∧
      ∀ i, i < 8 → (0 : BitVec 8).getLsbD i = takes (iss base 0x3D fBraK) i) ∧
    ((Issues baseVote 0x3D fBraK (iss baseVote 0x3D fBraK) ∧ Quiet (iss baseVote 0x3D fBraK)) ∧
      (∀ i, i < 8 → (2 : BitVec 8).getLsbD i = takes (iss baseVote 0x3D fBraK) i) ∧
      (iss baseVote 0x3D fBraK).sp.smask &&& ~~~(2 : BitVec 8) ≠ 0 ∧ splitAt baseVote 0 (freeEntry (coreOf baseVote 0) 0) = none ∧
      (iss baseVote 0x3D fBraK).sp.jstk.length < 8 ∧ TargetOk (relTarget (iss baseVote 0x3D fBraK))) ∧
    (8 ≤ (iss baseDeep 0x3D fBraK).sp.jstk.length ∧ CanRaise (iss baseDeep 0x3D fBraK)) ∧
    ∀ i, i < 8 → (0xFF : BitVec 8).getLsbD i =
      takes (iss (baseX fun x => kset x 2 (BitVec.allOnes 32) (BitVec.allOnes 32)) 0x3D fBraK) i := by
  refine ⟨⟨quietly (by decide +kernel), fun h => ?_, by decide +kernel⟩, ⟨quietly (by decide +kernel), ?_⟩, ?_, by decide +kernel⟩
  · exact absurd h (by decide +kernel)
  · simp only [TargetOk]; decide +kernel
  · simp only [CanRaise, Quiet]; decide +kernel

/-- Two splits of the strand, and the second waiting at its REGANG. -/
def twoSplits (w : Bool) : State := baseK fun k =>
  { k with splits := [(0, { fetchSplit with smask := 1, jstk := [5] }), (1, { fetchSplit with smask := 2, jstk := [5], rgw := w })] }
def fJoin : Fields := { zeroFields with strand := true, long := true, imm16 := 5 }

theorem witness_RegangJoins :
    ((Issues base 0x40 fJoin (iss base 0x40 fJoin) ∧ Quiet (iss base 0x40 fJoin)) ∧ (iss base 0x40 fJoin).sp.jstk.getLast? ≠ some 5) ∧
    ((Issues (twoSplits false) 0x40 fJoin (iss (twoSplits false) 0x40 fJoin) ∧ Quiet (iss (twoSplits false) 0x40 fJoin)) ∧
      (iss (twoSplits false) 0x40 fJoin).sp.jstk.getLast? = some 5 ∧
      ∀ p ∈ arrivedSplits (twoSplits false) (iss (twoSplits false) 0x40 fJoin), p.2.rgw = true →
        WaitsFor (arrivedSplits (twoSplits false) (iss (twoSplits false) 0x40 fJoin)) p.2) ∧
    ((Issues (twoSplits true) 0x40 fJoin (iss (twoSplits true) 0x40 fJoin) ∧ Quiet (iss (twoSplits true) 0x40 fJoin)) ∧
      (iss (twoSplits true) 0x40 fJoin).sp.jstk.getLast? = some 5 ∧ AllArrived (twoSplits true) (iss (twoSplits true) 0x40 fJoin) ∧
      mergedSlice (twoSplits true) (iss (twoSplits true) 0x40 fJoin) 0 = true) ∧
    HoldsLowest (twoSplits true) (iss (twoSplits true) 0x40 fJoin) { fetchSplit with smask := 1, jstk := [5] } := by
  refine ⟨⟨quietly (by decide +kernel), by decide +kernel⟩, ⟨quietly (by decide +kernel), by decide +kernel, ?_⟩,
    ⟨quietly (by decide +kernel), by decide +kernel, ?_, by decide +kernel⟩, 0, by decide, fun j h => absurd h (by omega)⟩
  · simp only [WaitsFor]; decide +kernel
  · simp only [AllArrived, WaitsFor]; decide +kernel

/-- A strand whose lanes beyond slice 0 have exited. -/
def baseFew : State := modSplit (baseX fun x => { x with exited := 0xFFFFFFF0 }) 0 0 fun p => { p with smask := 1 }
/-- A strand in its handler. -/
def rec0 : TrapRec :=
  { cause := 0x0F, hzf := false, ling := false, svc := false, povf := false, rpl := false, fisn := 0, fslice := 0, fpc := 0x10000,
    spc := 0x10004, active := BitVec.allOnes 32, flanes := BitVec.allOnes 32, faddr := 0, detail := 0, exited := 0, nesc := 0,
    nblk := 0, nflt := 0, splits := [(0, fetchSplit)], prov := [], fentry := some 0 }
def baseHandler : State := baseX fun x => { x with handling := some rec0 }
/-- EXIT of every active lane. -/
def fExit : Fields := { zeroFields with strand := true }

theorem witness_ExitEndsLanes :
    ((Issues base 0x41 { fExit with fn := 1, a := 2 } (iss base 0x41 { fExit with fn := 1, a := 2 }) ∧
        Quiet (iss base 0x41 { fExit with fn := 1, a := 2 })) ∧
      splitLanes (afterExit (iss base 0x41 { fExit with fn := 1, a := 2 })) (iss base 0x41 { fExit with fn := 1, a := 2 }).sp ≠ 0 ∧
      NoneGathers base (iss base 0x41 { fExit with fn := 1, a := 2 })) ∧
    ((Issues (twoSplits false) 0x41 fExit (iss (twoSplits false) 0x41 fExit) ∧ Quiet (iss (twoSplits false) 0x41 fExit)) ∧
      splitLanes (afterExit (iss (twoSplits false) 0x41 fExit)) (iss (twoSplits false) 0x41 fExit).sp = 0 ∧
      NoneGathers (twoSplits false) (iss (twoSplits false) 0x41 fExit) ∧
      livingLanes (afterExit (iss (twoSplits false) 0x41 fExit)) ≠ 0 ∧ (iss (twoSplits false) 0x41 fExit).x.handling = none) ∧
    ((Issues baseHandler 0x41 fExit (iss baseHandler 0x41 fExit) ∧ Quiet (iss baseHandler 0x41 fExit)) ∧
      (iss baseHandler 0x41 fExit).x.handling.isSome = true ∧ (splitsOf baseHandler 0 0).length ≤ 1 ∧
      splitLanes (afterExit (iss baseHandler 0x41 fExit)) (iss baseHandler 0x41 fExit).sp = 0) ∧
    (Issues base 0x41 fExit (iss base 0x41 fExit) ∧ livingLanes (afterExit (iss base 0x41 fExit)) = 0 ∧
      (iss base 0x41 fExit).x.phase = .live ∧ (iss base 0x41 fExit).x.arisen = none ∧ allClear (opsOf base 0 0) = true) := by
  refine ⟨⟨quietly (by decide +kernel), ?_⟩, ⟨quietly (by decide +kernel), ?_⟩, ⟨quietly (by decide +kernel), ?_⟩,
    (quietly (by decide +kernel)).1, by decide +kernel⟩
  · simp only [NoneGathers]; decide +kernel
  · simp only [NoneGathers]; decide +kernel
  · decide +kernel

/-- HZTEST, WAITB -1, FENCE.ar, PREF, YIELD 3, MARK. -/
def fV : Fields := { zeroFields with d := 1, a := 2 }
def fWait : Fields := { zeroFields with strand := true, b := 127, imm := true }
def fFence : Fields := { zeroFields with strand := true, long := true, ord := .ar }
def fYield : Fields := { fWait with b := 3 }

theorem witness_FencesAndTestsComplete :
    ((Issues base 0x42 fExit (iss base 0x42 fExit) ∧ Quiet (iss base 0x42 fExit)) ∧ allPassed base (iss base 0x42 fExit) none = true) ∧
    (Issues base 0x44 fV (iss base 0x44 fV) ∧ Quiet (iss base 0x44 fV)) ∧
    ((Issues base 0x48 fWait (iss base 0x48 fWait) ∧ Quiet (iss base 0x48 fWait)) ∧ BReady (iss base 0x48 fWait) (some false) ∧
      (bdoneOf base 0 0 (iss base 0x48 fWait).x - (bVal (iss base 0x48 fWait) .b32 0 (some false)).truncate 16).toNat ≤ 32767) ∧
    ((Issues base 0x4A fExit (iss base 0x4A fExit) ∧ Quiet (iss base 0x4A fExit)) ∧ opsOf base 0 0 = [] ∧
      (clusterAt base 0).stores = []) ∧
    ((Issues base 0x5B fFence (iss base 0x5B fFence) ∧ Quiet (iss base 0x5B fFence)) ∧
      fenceReady base 0 0 0xFF true true .core = true) ∧
    ((Issues base 0x5B { fFence with scope := .sys } (iss base 0x5B { fFence with scope := .sys }) ∧
        Quiet (iss base 0x5B { fFence with scope := .sys })) ∧
      fenceReady base 0 0 0xFF true true .sys = true ∧ remoteClear (splitOps base 0 0) 0xFF = true) ∧
    ((Issues base 0x5C fV (iss base 0x5C fV) ∧ Quiet (iss base 0x5C fV)) ∧ Readable (iss base 0x5C fV) 2 true) ∧
    ((Issues base 0x4D fYield (iss base 0x4D fYield) ∧ Quiet (iss base 0x4D fYield)) ∧ BReady (iss base 0x4D fYield) (some false)) ∧
    (Issues base 0x4E fExit (iss base 0x4E fExit) ∧ Quiet (iss base 0x4E fExit)) ∧
      ∀ k, mget base.ctxs (iss base 0x4E fExit).x.ctx = some k → k.markRecs = false := by
  refine ⟨⟨quietly (by decide +kernel), by decide +kernel⟩, quietly (by decide +kernel), ⟨quietly (by decide +kernel), Or.inl (by decide +kernel),
    by decide +kernel⟩, ⟨quietly (by decide +kernel), by decide +kernel, by decide +kernel⟩, ⟨quietly (by decide +kernel), by decide +kernel⟩,
    ⟨quietly (by decide +kernel), by decide +kernel⟩, ⟨quietly (by decide +kernel), ?_⟩, ⟨quietly (by decide +kernel), Or.inl (by decide +kernel)⟩, quietly (by decide +kernel), ?_⟩
  · simp only [Readable, pairOf]; decide +kernel
  · intro k hk
    have : mget base.ctxs (iss base 0x4E fExit).x.ctx = some fetchCtx := rfl
    rw [this] at hk
    cases hk
    rfl

/-- A store of the strand that is outstanding in every lane of slice 0. -/
def openStore : Op :=
  { id := 7, core := 0, slot := 0, ctx := 1, kind := .store, pc := 0, npc := 0, opc := 0x52, fields := { zeroFields with a := 4, b := 8 },
    smask := 0xFF, isns := [(0, 0)], lanes := 0xF, active := BitVec.allOnes 32, settled := 0,
    accs := [{ lanes := 0xF, va := 0x10000, eva := 0x10000, place := some (.dev 0x10000 0), leaf := none, data := 5, data2 := 0,
               st := .ready 0, svc := false, walked := false }],
    gate := .none, acq := false, sc := false, scope := .dev, fpmode := 0, work := .mem, complete := false, discarded := false,
    batch := none, replay := false, charge := [], sample := none, got := [], waits := [],
    tok := none, merges := [] }
def baseOpen : State := { base with ops := [openStore] }

theorem witness_UnmetConditionsWait :
    (Issues baseOpen 0x42 fExit (iss baseOpen 0x42 fExit) ∧ allPassed baseOpen (iss baseOpen 0x42 fExit) none = false) ∧
    (Issues base 0x48 { fWait with b := 0 } (iss base 0x48 { fWait with b := 0 }) ∧ BReady (iss base 0x48 { fWait with b := 0 }) (some false) ∧
      32767 < (bdoneOf base 0 0 (iss base 0x48 { fWait with b := 0 }).x -
        (bVal (iss base 0x48 { fWait with b := 0 }) .b32 0 (some false)).truncate 16).toNat) ∧
    (Issues baseOpen 0x4A fExit (iss baseOpen 0x4A fExit) ∧ openStore ∈ splitOps baseOpen 0 0 ∧ openLanes openStore ≠ 0 ∧
      sameSplit openStore (iss baseOpen 0x4A fExit).sp.smask = true) ∧
    Issues baseOpen 0x5B fFence (iss baseOpen 0x5B fFence) := by
  exact ⟨⟨(quietly (by decide +kernel)).1, by decide +kernel⟩, ⟨(quietly (by decide +kernel)).1, Or.inl (by decide +kernel),
    by decide +kernel⟩, ⟨(quietly (by decide +kernel)).1, by decide +kernel⟩, (quietly (by decide +kernel)).1⟩

/-- BAR with a count of s2, at barrier 0. -/
def baseCount (n : Nat) : State := baseX fun x => sset x 2 (fullCell (BitVec.ofNat 32 n))

theorem firstArrives_count (n : Nat) (h : n = 1 ∨ n = 2) : FirstArrives (baseCount n) (iss (baseCount n) 0x47 fS) := by
  rcases h with rfl | rfl <;>
  · refine ⟨?_, ?_, ?_, ?read, Or.inl (by decide +kernel), ?_, ?_, ?_, ?_, ?_, ?_, ?_, ?fits⟩
    case read => simp only [Readable, pairOf]; decide +kernel
    case fits => rw [if_pos (by decide +kernel)]; decide +kernel
    all_goals decide +kernel

/-- The strand waits at barrier 0, with D s3, alone in an instance that expects one arrival. -/
def barEntry1 : BarEntry :=
  { emptyBar with isOpen := true, bound := true, scope := .core, lcnt := 0, expect := 1, arr := 1, wait := 1, arrived := 1 }
def barSplit : Split := { fetchSplit with parked := some (.barrier 0 3 0x10010) }
def baseBar : State := baseK fun k => { k with splits := [(0, barSplit)], barriers := [(0, barEntry1)] }

theorem witness_BarrierArrival :
    ((Issues (baseCount 2) 0x47 fS (iss (baseCount 2) 0x47 fS) ∧ Quiet (iss (baseCount 2) 0x47 fS)) ∧
      FirstArrives (baseCount 2) (iss (baseCount 2) 0x47 fS)) ∧
    (barOf (coreOf baseBar 0) 0 = barEntry1 ∧ barEntry1.isOpen = true ∧ barEntry1.late = 0 ∧ barEntry1.wait = laneBit 0 ∧
      barPeers baseBar 0 0 barEntry1 = [(none, 0, barEntry1)] ∧
      barEntry1.expect ≤ barEntry1.arr + barTerm baseBar 0 barEntry1 [(none, 0, barEntry1)] ∧
      strandAt baseBar 0 0 = some (iss base 0 f3).x ∧ (iss base 0 f3).x.handling = none ∧ splitsOf baseBar 0 0 = [(0, barSplit)] ∧
      splitAt baseBar 0 0 = some barSplit ∧ barSplit.held = none) ∧
    (CanRaise (iss base 0x47 { fS with b := 16 }) ∧ wordB (iss base 0x47 { fS with b := 16 }) .b32 = 16) ∧
    (CanRaise (iss (baseCount 6145) 0x47 fS) ∧ wordA (iss (baseCount 6145) 0x47 fS) = 6145 ∧ wordB (iss (baseCount 6145) 0x47 fS) .b32 < 16) := by
  refine ⟨⟨quietly (by decide +kernel), firstArrives_count 2 (Or.inr rfl)⟩, by decide +kernel, ?_, ?_⟩ <;>
  · simp only [CanRaise, Quiet]; decide +kernel

/-- Slot 0 has been bound by strand 3 in this cycle. -/
def baseBound : State := modCore (baseCount 239) 0 fun k =>
  { k with dst := mput k.dst 0 { dstOf k 0 with boundAt := base.now + 1, boundBy := 3 } }

theorem witness_DestinationBinding :
    ((Issues baseBound 0x46 fS (iss baseBound 0x46 fS) ∧ Quiet (iss baseBound 0x46 fS)) ∧
      Readable (iss baseBound 0x46 fS) 2 false ∧ Binds (wordA (iss baseBound 0x46 fS)) (some (.fabric 239)) ∧
      (dstOf (coreOf baseBound 0) 0).boundAt = baseBound.now + 1 ∧ 0 < (dstOf (coreOf baseBound 0) 0).boundBy) ∧
    ((Issues (baseCount 239) 0x46 fS (iss (baseCount 239) 0x46 fS) ∧ Quiet (iss (baseCount 239) 0x46 fS)) ∧
      Readable (iss (baseCount 239) 0x46 fS) 2 false ∧ BReady (iss (baseCount 239) 0x46 fS) (some false) ∧
      Binds (wordA (iss (baseCount 239) 0x46 fS)) (some (.fabric 239)) ∧ wordB (iss (baseCount 239) 0x46 fS) .b32 < 16 ∧
      ((dstOf (coreOf (baseCount 239) 0) 0).boundAt = (baseCount 239).now + 1 → (dstOf (coreOf (baseCount 239) 0) 0).boundBy ≤ 0)) ∧
    ((∀ d, ¬ Binds 240 d) ∧ wordA (iss (baseCount 240) 0x46 fS) = 240 ∧ CanRaise (iss (baseCount 240) 0x46 fS)) ∧
    Binds (wordA (iss (baseCount 512) 0x46 { fS with b := 16 })) none ∧ wordB (iss (baseCount 512) 0x46 { fS with b := 16 }) .b32 = 16 := by
  refine ⟨⟨quietly (by decide +kernel), ?_⟩, ⟨quietly (by decide +kernel), ?_⟩, ⟨?_, ?_⟩, ?_⟩
  · simp only [Readable, Binds, pairOf]; decide +kernel
  · simp only [Readable, BReady, Binds, pairOf]; decide +kernel
  · rintro d ⟨-, h | h | h⟩ <;> omega
  · simp only [CanRaise, Quiet]; decide +kernel
  · simp only [Binds]; decide +kernel

/-- A debug grant of host 1 for context 1. -/
def baseDebug : State := { base with svc := { base.svc with grants := [(1, 1)] } }

theorem witness_TrapAndBreakInstructions :
    (Issues base 0x4B fJoin (iss base 0x4B fJoin) ∧ CanRaise (iss base 0x4B fJoin)) ∧
    (Issues base 0x4F fExit (iss base 0x4F fExit) ∧ CanRaise (iss base 0x4F fExit) ∧ base.svc.grants = []) ∧
    ((Issues baseDebug 0x4F fExit (iss baseDebug 0x4F fExit) ∧ Quiet (iss baseDebug 0x4F fExit)) ∧
      (∃ g ∈ baseDebug.svc.grants, g.2 = (iss baseDebug 0x4F fExit).x.ctx) ∧ (iss baseDebug 0x4F fExit).x.halted = none ∧
      (iss baseDebug 0x4F fExit).x.phase ≠ .ending) ∧
    (Issues baseHandler 0x4B fJoin (iss baseHandler 0x4B fJoin) ∧ (iss baseHandler 0x4B fJoin).sample = none ∧
      (iss baseHandler 0x4B fJoin).x.handling.isSome = true ∧ (iss baseHandler 0x4B fJoin).x.phase ≠ .ending) := by
  refine ⟨⟨(quietly (by decide +kernel)).1, ?_⟩, ⟨(quietly (by decide +kernel)).1, ?_⟩, ⟨quietly (by decide +kernel), by decide +kernel⟩,
    (quietly (by decide +kernel)).1, by decide +kernel⟩
  · simp only [CanRaise, Quiet]; decide +kernel
  · simp only [CanRaise, Quiet]; decide +kernel

/-! Memory, engines, work -/

/-- LDS s1, [s2:s3] with s2:s3 at the page of the code. -/
def baseAddr : State := baseX fun x => sset x 2 (fullCell 0x10000)
def fLds : Fields := { zeroFields with strand := true, d := 1, a := 2 }

theorem lds_operands : (loadRow .lds 0x53).Operands (iss baseAddr 0x53 fLds) := by
  refine ⟨?_, trivial, trivial, fun h => by cases h⟩
  simp only [Readable, pairOf]; decide +kernel

theorem lds_canStart : CanStart baseAddr (iss baseAddr 0x53 fLds) (iss baseAddr 0x53 fLds).act (destPair fLds)
    ((loadRow .lds 0x53).charges baseAddr (iss baseAddr 0x53 fLds)) := by
  refine ⟨by decide +kernel, ?_, rfl, by decide +kernel⟩
  simp only [NotPending]; decide +kernel

theorem witness_MemoryOperationsStart :
    (loadRow .lds 0x53 ∈ memRows ∧ (Issues baseAddr 0x53 fLds (iss baseAddr 0x53 fLds) ∧ Quiet (iss baseAddr 0x53 fLds)) ∧
      (loadRow .lds 0x53).Operands (iss baseAddr 0x53 fLds) ∧ takingPart (iss baseAddr 0x53 fLds) ≠ 0 ∧
      CanStart baseAddr (iss baseAddr 0x53 fLds) (takingPart (iss baseAddr 0x53 fLds)) (destPair fLds)
        ((loadRow .lds 0x53).charges baseAddr (iss baseAddr 0x53 fLds))) ∧
    takingPart (iss base 0x51 { zeroFields with d := 1, a := 2, g := 8 }) = 0 ∧ ∀ p ∈ baseAddr.ops, p.id ≠ baseAddr.nextId :=
  ⟨⟨by simp [memRows], quietly (by decide +kernel), lds_operands, by decide +kernel, lds_canStart⟩, by decide +kernel⟩

theorem witness_AccessChecks :
    (Issues baseAddr 0x53 fLds (iss baseAddr 0x53 fLds) ∧ Quiet (iss baseAddr 0x53 fLds)) ∧ (iss baseAddr 0x53 fLds).act ≠ 0 ∧
    (iss baseAddr 0x53 fLds).x.phase = .live ∧ (∀ o ∈ baseAddr.ops, o.id ≠ baseAddr.nextId) ∧ (loadRow .lds 0x53).Operands (iss baseAddr 0x53 fLds) ∧
    CanStart baseAddr (iss baseAddr 0x53 fLds) (iss baseAddr 0x53 fLds).act (destPair fLds)
      ((loadRow .lds 0x53).charges baseAddr (iss baseAddr 0x53 fLds)) ∧
    (addrOf (iss baseAddr 0x53 fLds) 0).extractLsb' 57 7 = 0 ∧ inPrivate (addrOf (iss baseAddr 0x53 fLds) 0).toNat = false ∧
    (∃ lf, (lookup baseAddr 0 1 0x10000).1 = .ok lf ∧ leafLoc lf.w0.toNat = 0 ∧ lf.w0.getLsbD 2 = true ∧ leafFmt lf.w1.toNat = 0) ∧
    (lookup baseAddr 0 1 0x20000).1 = .error 0 ∧ (addrOf (iss baseAddr 0x53 fLds) 0).toNat % (tyWidth .i32 / 8) = 0 :=
  ⟨quietly (by decide +kernel), by decide +kernel, by decide +kernel, by decide +kernel, lds_operands, lds_canStart, by decide +kernel, by decide +kernel,
    ⟨fetchLeaf, rfl, by decide +kernel⟩, rfl, by decide +kernel⟩

/-- The access of an operation that is ready, on a plain page of the device. -/
def openAcc : Access :=
  { lanes := 0xF, va := 0x10000, eva := 0x10000, place := some (.dev 0x10000 0), leaf := none, data := 5, data2 := 0, st := .ready 0,
    svc := false, walked := false }
def baseDo (k : OpKind) : State := { base with ops := [{ openStore with kind := k }] }

theorem witness_PlainAccessesPerformed : ∀ k ∈ [OpKind.load, .store, .atom, .cas, .cell],
    opById (baseDo k) 7 = some { openStore with kind := k } ∧ openStore.accs = [openAcc] ∧ openAcc.lanes = openStore.lanes ∧
    performable (baseDo k) { openStore with kind := k } openAcc = true ∧ (baseDo k).fab.reqs = [] ∧
    strandAt (baseDo k) 0 0 = some (iss base 0 f3).x ∧ (iss base 0 f3).x.ctx = openStore.ctx ∧ (iss base 0 f3).x.phase = .live ∧
    (∀ p ∈ (baseDo k).clusters, p.2.stores = []) ∧ poisonedIn (baseDo k) 0x10000 4 = false ∧
    performable { base with ops := [{ openStore with kind := k, accs := [{ openAcc with place := some (.dev 0x10000 1) }] }] }
      { openStore with kind := k, accs := [{ openAcc with place := some (.dev 0x10000 1) }] }
      { openAcc with place := some (.dev 0x10000 1) } = true := by
  decide +kernel

/-- LDSP and STSP with zero addresses; an address beyond the reservation in lane 0; a misaligned one. -/
def fLdsp : Fields := { zeroFields with d := 1, a := 2 }
def fStsp : Fields := { zeroFields with a := 2, b := 3 }
def baseBeyond (w : Word) : State := modStrand baseR 0 0 fun x => vset x 2 0 (fullCell w)

theorem witness_ScratchpadAccess :
    ((Issues baseR 0x55 fLdsp (iss baseR 0x55 fLdsp) ∧ Quiet (iss baseR 0x55 fLdsp)) ∧ Readable (iss baseR 0x55 fLdsp) 2 false ∧
      Writable (iss baseR 0x55 fLdsp) 1 false ∧ myResv baseR (iss baseR 0x55 fLdsp) = some resv1 ∧
      SpadOk (iss baseR 0x55 fLdsp) resv1 (fun l => spAddr (iss baseR 0x55 fLdsp) (pairLane (iss baseR 0x55 fLdsp) l)) ∧
      SpadOrdered baseR (iss baseR 0x55 fLdsp) ∧ (coreOf baseR 0).spadPoison = []) ∧
    ((Issues baseR 0x56 fStsp (iss baseR 0x56 fStsp) ∧ Quiet (iss baseR 0x56 fStsp)) ∧
      BReady (iss baseR 0x56 fStsp) (some false) ∧ SpadOk (iss baseR 0x56 fStsp) resv1 (spAddr (iss baseR 0x56 fStsp)) ∧
      SpadOrdered baseR (iss baseR 0x56 fStsp) ∧ (iss baseR 0x56 fStsp).x.dmr = false) ∧
    (∀ w ∈ [0x80000, 2], Issues (baseBeyond w) 0x55 fLdsp (iss (baseBeyond w) 0x55 fLdsp) ∧
      CanRaise (iss (baseBeyond w) 0x55 fLdsp) ∧ Readable (iss (baseBeyond w) 0x55 fLdsp) 2 false ∧
      Issues (baseBeyond w) 0x56 fStsp (iss (baseBeyond w) 0x56 fStsp) ∧ CanRaise (iss (baseBeyond w) 0x56 fStsp) ∧
      BReady (iss (baseBeyond w) 0x56 fStsp) (some false)) ∧
    resv1.spad * 4096 ≤ spAddr (iss (baseBeyond 0x80000) 0x55 fLdsp) 0 ∧
    spAddr (iss (baseBeyond 2) 0x55 fLdsp) 0 < resv1.spad * 4096 ∧ spAddr (iss (baseBeyond 2) 0x55 fLdsp) 0 % (tyWidth .i32 / 8) ≠ 0 := by
  refine ⟨⟨quietly (by decide +kernel), ?_, ?_, by decide +kernel, ?_, ?_, by decide +kernel⟩, ⟨quietly (by decide +kernel), ?_, ?_, ?_,
    by decide +kernel⟩, fun w hw => ?_, by decide +kernel⟩
  · simp only [Readable, pairOf]; decide +kernel
  · simp only [Writable, pairOf]; decide +kernel
  · simp only [SpadOk]; decide +kernel
  · simp only [SpadOrdered]; decide +kernel
  · simp only [BReady, Readable, pairOf]; decide +kernel
  · simp only [SpadOk]; decide +kernel
  · simp only [SpadOrdered]; decide +kernel
  · have h : w = 0x80000 ∨ w = 2 := by simpa using hw
    rcases h with rfl | rfl <;>
    · refine ⟨(quietly (by decide +kernel)).1, ?_, ?_, (quietly (by decide +kernel)).1, ?_⟩ <;>
      · simp only [CanRaise, Quiet, BReady, Readable, pairOf]; decide +kernel

/-- QCFG 3, s2, 4; QCTL.count s1, 2; QCTL.off s1, 2. -/
def fQcfg : Fields := { zeroFields with strand := true, a := 2, b := 4, imm := true, imm16 := 3 }
def fQctl (n : BitVec 8) : Fields := { zeroFields with strand := true, d := 1, fn := n, imm16 := 2 }

theorem witness_QueueControl :
    ((Issues baseR 0x5D fQcfg (iss baseR 0x5D fQcfg) ∧ Quiet (iss baseR 0x5D fQcfg)) ∧ Readable (iss baseR 0x5D fQcfg) 2 false ∧
      BReady (iss baseR 0x5D fQcfg) (some false) ∧ myResv baseR (iss baseR 0x5D fQcfg) = some resv1 ∧
      wordB (iss baseR 0x5D fQcfg) .n32 = 4 ∧ wordA (iss baseR 0x5D fQcfg) + 4 ≤ resv1.spad * 1024 ∧
      (mgetD (coreOf baseR 0).queues 3 emptyQueue).en = false) ∧
    (CanRaise (iss baseR 0x5D { fQcfg with imm16 := 2 }) ∧ (mgetD (coreOf baseR 0).queues 2 emptyQueue).en = true) ∧
    (CanRaise (iss baseR 0x5D { fQcfg with b := 0 }) ∧ wordB (iss baseR 0x5D { fQcfg with b := 0 }) .n32 = 0) ∧
    ((Issues baseR 0x5E (fQctl 0) (iss baseR 0x5E (fQctl 0)) ∧ Quiet (iss baseR 0x5E (fQctl 0))) ∧
      Writable (iss baseR 0x5E (fQctl 0)) 1 false) ∧
    (Issues baseR 0x5E (fQctl 5) (iss baseR 0x5E (fQctl 5)) ∧ Quiet (iss baseR 0x5E (fQctl 5))) ∧
      (∀ p ∈ (coreOf baseR 0).splits, blockedOnQueue 2 p.2 = false) ∧ (coreOf baseR 0).stopReq = none := by
  refine ⟨⟨quietly (by decide +kernel), ?_⟩, ?_, ?_, ⟨quietly (by decide +kernel), ?_⟩, quietly (by decide +kernel), by decide +kernel⟩
  · simp only [Readable, BReady, pairOf]; decide +kernel
  · simp only [CanRaise, Quiet]; decide +kernel
  · simp only [CanRaise, Quiet]; decide +kernel
  · simp only [Writable, pairOf]; decide +kernel

/-- CPY s1, s4, s20 from the page of the code into the scratchpad, one byte. -/
def baseCopy : State := modStrand baseR 0 0 fun x => sset (sset x 4 (fullCell 0x10000)) 20 (fullCell 1)
def fCpy : Fields := { zeroFields with strand := true, long := true, d := 1, a := 4, b := 20, fn := 1 }
/-- COLL.bar s1, s4 at descriptor 0; NETWR s1, s4, 0 on connection 1. -/
def fColl : Fields := { zeroFields with strand := true, long := true, d := 1, a := 4, scope := .dev }
def fNet : Fields := { zeroFields with strand := true, long := true, d := 1, a := 4, imm := true }
def baseNet : State :=
  let s := modStrand baseR 0 0 fun x => sset (sset x 4 (fullCell 1)) 5 (fullCell 8)
  { s with fab := { s.fab with conns := [(1, 0x101)] } }

theorem witness_EngineOperationsStart :
    ((Issues baseCopy 0x65 fCpy (iss baseCopy 0x65 fCpy) ∧ Quiet (iss baseCopy 0x65 fCpy)) ∧ QuadReady (iss baseCopy 0x65 fCpy) 4 4 ∧
      BReady (iss baseCopy 0x65 fCpy) (some false) ∧ (iss baseCopy 0x65 fCpy).act ≠ 0 ∧
      wordAt (quad (iss baseCopy 0x65 fCpy) 4 4) 3 = 0 ∧ wordB (iss baseCopy 0x65 fCpy) .b32 < 2 ^ 31 ∧
      cpySpadOk (cpyWork (iss baseCopy 0x65 fCpy)) (((myResv baseCopy (iss baseCopy 0x65 fCpy)).map fun r => r.spad * 4096).getD 0) = true ∧
      CanStart baseCopy (iss baseCopy 0x65 fCpy) (iss baseCopy 0x65 fCpy).act [1] (cpyCharges baseCopy (iss baseCopy 0x65 fCpy)
        (cpyWork (iss baseCopy 0x65 fCpy)))) ∧
    ((Issues baseR 0x66 fColl (iss baseR 0x66 fColl) ∧ Quiet (iss baseR 0x66 fColl)) ∧ QuadReady (iss baseR 0x66 fColl) 4 4 ∧
      collLegal 0 (quad (iss baseR 0x66 fColl) 4 4) = true ∧
      CanStart baseR (iss baseR 0x66 fColl) (iss baseR 0x66 fColl).act [1] [(slotFor (coreOf baseR 0)
        (.group (collParams (quad (iss baseR 0x66 fColl) 4 4)).desc), unitsOf 0, (iss baseR 0x66 fColl).act)]) ∧
    ((Issues baseNet 0x61 fNet (iss baseNet 0x61 fNet) ∧ Quiet (iss baseNet 0x61 fNet)) ∧ QuadReady (iss baseNet 0x61 fNet) 4 4 ∧
      BReady (iss baseNet 0x61 fNet) (some true) ∧ (netWork (iss baseNet 0x61 fNet) 0 0).len = 8 ∧
      connOk baseNet 1 (netWork (iss baseNet 0x61 fNet) 0 0).conn false = true ∧
      CanStart baseNet (iss baseNet 0x61 fNet) (iss baseNet 0x61 fNet).act [1] [(15, unitsOf 8, (iss baseNet 0x61 fNet).act)]) := by
  refine ⟨⟨quietly (by decide +kernel), ?_, ?_, by decide +kernel, by decide +kernel, by decide +kernel, by decide +kernel, ?_⟩,
    ⟨quietly (by decide +kernel), ?_, by decide +kernel, ?_⟩, quietly (by decide +kernel), ?_, Or.inl (by decide +kernel),
    by decide +kernel, by decide +kernel, ?_⟩
  · simp only [QuadReady]; decide +kernel
  · simp only [BReady, Readable, pairOf]; decide +kernel
  · refine ⟨by decide +kernel, ?_, rfl, by decide +kernel⟩
    simp only [NotPending]; decide +kernel
  · simp only [QuadReady]; decide +kernel
  · refine ⟨by decide +kernel, ?_, rfl, by decide +kernel⟩
    simp only [NotPending]; decide +kernel
  · simp only [QuadReady]; decide +kernel
  · refine ⟨by decide +kernel, ?_, rfl, by decide +kernel⟩
    simp only [NotPending]; decide +kernel

/-- FMMA 0, s8, s12, s16 with one element each; FACC of one cell; FCFG s2. -/
def fFmma : Fields := { zeroFields with strand := true, long := true, a := 8, b := 12, c := 16 }
def baseFmma : State := modStrand baseR 0 0 fun x => sset (sset (sset x 16 (fullCell 1)) 17 (fullCell 1)) 18 (fullCell 1)
def fFacc : Fields := { zeroFields with strand := true, long := true, a := 4, b := 5, c := 6 }
def baseFacc : State := modStrand baseR 0 0 fun x => sset (sset x 5 (fullCell 0x00081000)) 6 (fullCell 4)
def fFcfg : Fields := { zeroFields with strand := true, a := 2 }

theorem witness_ArrayOperationsQueue :
    ((Issues baseFmma 0x6B fFmma (iss baseFmma 0x6B fFmma) ∧ Quiet (iss baseFmma 0x6B fFmma)) ∧
      QuadReady (iss baseFmma 0x6B fFmma) 8 4 ∧ QuadReady (iss baseFmma 0x6B fFmma) 12 4 ∧ QuadReady (iss baseFmma 0x6B fFmma) 16 3 ∧
      myResv baseFmma (iss baseFmma 0x6B fFmma) = some resv1 ∧ FmmaLegal baseFmma (iss baseFmma 0x6B fFmma) resv1 ∧
      (∀ i ∈ slicesOf (iss baseFmma 0x6B fFmma).act, hzOut (opsOf baseFmma 0 0) i < 512) ∧
      acquireClear (splitOps baseFmma 0 0) 0xFF = true) ∧
    (Issues base 0x6C fExit (iss base 0x6C fExit) ∧ Quiet (iss base 0x6C fExit)) ∧
    ((Issues baseFacc 0x6F fFacc (iss baseFacc 0x6F fFacc) ∧ Quiet (iss baseFacc 0x6F fFacc)) ∧
      Readable (iss baseFacc 0x6F fFacc) 4 false ∧ BReady (iss baseFacc 0x6F fFacc) (some false) ∧
      Readable (iss baseFacc 0x6F fFacc) 6 false ∧ FaccLegal baseFacc (iss baseFacc 0x6F fFacc) ∧
      acquireClear (splitOps baseFacc 0 0) 0xFF = true) ∧
    ((Issues (baseCount 16) 0x70 fFcfg (iss (baseCount 16) 0x70 fFcfg) ∧ Quiet (iss (baseCount 16) 0x70 fFcfg)) ∧
      Readable (iss (baseCount 16) 0x70 fFcfg) 2 false ∧ wordA (iss (baseCount 16) 0x70 fFcfg) = 16) ∧
    CanRaise (iss (baseCount 17) 0x70 fFcfg) ∧ wordA (iss (baseCount 17) 0x70 fFcfg) = 17 ∧
      wordA (iss (baseCount 3) 0x70 fFcfg) = 3 := by
  refine ⟨⟨quietly (by decide +kernel), ?_, ?_, ?_, by decide +kernel, ?_, by decide +kernel, by decide +kernel⟩, quietly (by decide +kernel),
    ⟨quietly (by decide +kernel), ?_, ?_, ?_, ?_, by decide +kernel⟩, ⟨quietly (by decide +kernel), ?_, by decide +kernel⟩, ?_⟩
  · simp only [QuadReady]; decide +kernel
  · simp only [QuadReady]; decide +kernel
  · simp only [QuadReady]; decide +kernel
  · refine ⟨by decide +kernel, by decide +kernel, by decide +kernel, fun at_ h => ?_, by decide +kernel, by decide +kernel,
      by decide +kernel, fun h => ?_⟩
    · have : gatherAddr (quad (iss baseFmma 0x6B fFmma) 8 4) = none := by decide +kernel
      exact absurd (this ▸ h : none = some at_) (by simp)
    · exact absurd h (by decide +kernel)
  · simp only [Readable, pairOf]; decide +kernel
  · simp only [BReady, Readable, pairOf]; decide +kernel
  · simp only [Readable, pairOf]; decide +kernel
  · refine ⟨?_, ?_, ?_, ?_, ?_, ?_, ?_, ?_, ?_, ?_, resv1, ?_⟩ <;> decide +kernel
  · simp only [Readable, pairOf]; decide +kernel
  · simp only [CanRaise, Quiet]; decide +kernel

/-- A clasp of slots 0 and 1 in s20; the strand of slot 1 has arrived. -/
def fClasp : Fields := { zeroFields with strand := true, long := true, d := 1, aux := 20, md := 4 }
def claspX : Strand := sset fetchStrand 20 (fullCell 3)
def arrived1 : ClaspArrival :=
  { slot := 1, entry := 1, opc := 0x71, fields := { fClasp with md := 0 }, vals := [] }
def baseClasp (gs : List Clasp) : State := baseK fun k =>
  { k with
      slots := [(0, claspX), (1, claspX)]
      splits := [(0, fetchSplit), (1, { fetchSplit with slot := 1, parked := if gs.isEmpty then none else some (.joint 1 0x1000C) })]
      clasps := gs }
def clasp1 : Clasp := { value := 3, arrived := [arrived1] }

theorem claspLegal_base (gs : List Clasp) (h : gs = [] ∨ gs = [clasp1]) (opc : BitVec 7) (ho : opc = 0x6C ∨ opc = 0x71)
    (md : BitVec 6) (hm : md = 0 ∨ md = 4) : ClaspLegal (baseClasp gs) (iss (baseClasp gs) opc { fClasp with md := md }) := by
  have key : ∀ sl ∈ [0, 1], strandAt (baseClasp gs) 0 sl = some claspX := by
    rcases h with rfl | rfl <;> decide +kernel
  rcases h with rfl | rfl <;> rcases ho with rfl | rfl <;> rcases hm with rfl | rfl <;>
  · refine ⟨?_, ?_, ?_, ?_, ?_, ?_, fun sl hsl => ⟨claspX, key sl hsl, rfl, rfl⟩⟩ <;> decide +kernel

theorem unbroken (gs : List Clasp) (h : gs = [] ∨ gs = [clasp1]) (v : Iss) (hc : v.c = 0) : NoneBroken (baseClasp gs) v := by
  have hk : (∀ p ∈ (coreOf (baseClasp gs) 0).splits, brokenNow (baseClasp gs) p.2 = false) ∧
      (∀ p ∈ (coreOf (baseClasp gs) 0).slots, p.2.handling = none) ∧ (baseClasp gs).images = [] := by
    rcases h with rfl | rfl <;> decide +kernel
  rintro k (rfl | ⟨im, him, -⟩)
  · rw [hc]
    refine ⟨hk.1, fun p hp r hr => ?_⟩
    rw [hk.2.1 p hp] at hr
    cases hr
  · rw [hk.2.2] at him
    cases him

theorem witness_ClaspsGather :
    ((Issues (baseClasp []) 0x6C fClasp (iss (baseClasp []) 0x6C fClasp) ∧ Quiet (iss (baseClasp []) 0x6C fClasp)) ∧
      ClaspLegal (baseClasp []) (iss (baseClasp []) 0x6C fClasp) ∧ (coreOf (baseClasp []) 0).clasps = [] ∧
      NoneBroken (baseClasp []) (iss (baseClasp []) 0x6C fClasp)) ∧
    (Issues (baseClasp [clasp1]) 0x71 { fClasp with md := 0 } (iss (baseClasp [clasp1]) 0x71 { fClasp with md := 0 }) ∧
      Quiet (iss (baseClasp [clasp1]) 0x71 { fClasp with md := 0 })) ∧
      ClaspLegal (baseClasp [clasp1]) (iss (baseClasp [clasp1]) 0x71 { fClasp with md := 0 }) ∧
      (coreOf (baseClasp [clasp1]) 0).clasps = [clasp1] ∧ clasp1.value = claspOf (iss (baseClasp [clasp1]) 0x71 { fClasp with md := 0 }) ∧
      fenceReady (baseClasp [clasp1]) 0 0 0xFF false true .core = true ∧
      (∀ a ∈ clasp1.arrived, a.slot ≠ 0 ∧ a.opc = 0x71 ∧
        sameJoint a (arrivalOf (iss (baseClasp [clasp1]) 0x71 { fClasp with md := 0 }) []) = true ∧
        ∃ x p d next, strandAt (baseClasp [clasp1]) 0 a.slot = some x ∧ x.handling = none ∧ x.arisen = none ∧
          splitAt (baseClasp [clasp1]) 0 a.entry = some p ∧ p.slot = a.slot ∧ p.parked = some (.joint d next) ∧ d < 64) ∧
      (∀ sl ∈ lanesOf (claspOf (iss (baseClasp [clasp1]) 0x71 { fClasp with md := 0 })), sl = 0 ∨ ∃ a ∈ clasp1.arrived, a.slot = sl) ∧
      NoneBroken (baseClasp [clasp1]) (iss (baseClasp [clasp1]) 0x71 { fClasp with md := 0 }) := by
  refine ⟨⟨quietly (by decide +kernel), claspLegal_base [] (Or.inl rfl) _ (Or.inl rfl) 4 (Or.inr rfl), by decide +kernel, unbroken [] (Or.inl rfl) _ rfl⟩,
    quietly (by decide +kernel), claspLegal_base [clasp1] (Or.inr rfl) _ (Or.inr rfl) 0 (Or.inl rfl), by decide +kernel, by decide +kernel,
    by decide +kernel, ?_, by decide +kernel, unbroken [clasp1] (Or.inr rfl) _ rfl⟩
  intro a ha
  rw [List.mem_singleton.1 ha]
  exact ⟨by decide, by decide, by decide +kernel, claspX, _, 1, 0x1000C, rfl, rfl, rfl, rfl, rfl, rfl, by decide⟩

/-- 1,024 batches of the strand are closed and not complete. -/
def batchOp (n : Nat) : Op := { openStore with kind := .cpy, batch := some (BitVec.ofNat 16 n) }
def baseOps (l : List Op) : State := { base with ops := l }
def baseBatches : State := baseOps ((List.range 1024).map batchOp)

theorem ops_base (l : List Op) : opsOf (baseOps l) 0 0 = l.filter fun o => o.core == 0 && o.slot == 0 && o.ctx == 1 := rfl

theorem batches_open : 1024 ≤ openBatches baseBatches 0 0 := by
  have nd : ((List.range 1024).map (BitVec.ofNat 16)).Nodup := by
    refine List.pairwise_map.2 ((List.nodup_range (n := 1024)).imp_of_mem fun ha hb hne h => hne ?_)
    have := congrArg BitVec.toNat h
    simp only [List.mem_range, BitVec.toNat_ofNat] at *
    omega
  refine Nat.le_trans (Nat.le_of_eq (by simp)) (nd.length_le_of_subset fun b hb => ?_)
  obtain ⟨n, hn, rfl⟩ := List.mem_map.1 hb
  rw [List.mem_eraseDups, List.mem_filterMap]
  refine ⟨batchOp n, ?_, rfl⟩
  rw [baseBatches, ops_base]
  exact List.mem_filter.2 ⟨List.mem_filter.2 ⟨List.mem_map_of_mem hn, rfl⟩, rfl⟩

theorem witness_BatchesClose :
    ((Issues base 0x49 fS (iss base 0x49 fS) ∧ Quiet (iss base 0x49 fS)) ∧ openBatches base 0 0 < 1024 ∧
      Writable (iss base 0x49 fS) 1 false) ∧
    Issues baseBatches 0x49 fS (iss baseBatches 0x49 fS) ∧ 1024 ≤ openBatches baseBatches 0 0 ∧
      Writable (iss baseBatches 0x49 fS) 1 false := by
  refine ⟨⟨quietly (by decide +kernel), by decide +kernel, ?_⟩, (quietly (by decide +kernel)).1, batches_open, ?_⟩ <;>
  · simp only [Writable, pairOf]; decide +kernel

/-- Bin 0 of the launch; EMIT v4 into it; SPAWN of the strand's own code. -/
def baseBin : State := modCore baseR 0 fun k => { k with bins := [(0, { emptyBin with en := true, thr := 31, tmr := 9 })] }
def fEmit : Fields := { zeroFields with a := 4, b := 0, imm := true }
def fSpawn : Fields := { zeroFields with strand := true, long := true, d := 1, imm16 := 3 }
def baseFull : State := baseK fun k => { k with slots := (List.range 32).map fun sl => (sl, fetchStrand) }

theorem witness_WorkIsCreated :
    ((Issues baseBin 0x67 fEmit (iss baseBin 0x67 fEmit) ∧ Quiet (iss baseBin 0x67 fEmit)) ∧
      (∀ i, i < 4 → Readable (iss baseBin 0x67 fEmit) (4 + i) false ∧
        comparePairs (iss baseBin 0x67 fEmit) (fun l => regVal (iss baseBin 0x67 fEmit) (4 + i) false l) = .ok ()) ∧
      BReady (iss baseBin 0x67 fEmit) (some false) ∧
      (∀ n ∈ binsOf (iss baseBin 0x67 fEmit), (binAt baseBin (iss baseBin 0x67 fEmit) n).en = true ∧
        binCancelled baseBin (binAt baseBin (iss baseBin 0x67 fEmit) n) = false ∧
        (binAt baseBin (iss baseBin 0x67 fEmit) n).recs.length + (recordsOf (iss baseBin 0x67 fEmit) n).length ≤ 64) ∧
      (coreOf baseBin 0).stopReq = none ∧ fenceReady baseBin 0 0 0xFF false true .core = true) ∧
    ((Issues baseR 0x68 fSpawn (iss baseR 0x68 fSpawn) ∧ Quiet (iss baseR 0x68 fSpawn)) ∧
      (∀ i, i < 8 → ∀ l, l < 32 → (vget (iss baseR 0x68 fSpawn).x i l).st = .full ∧ (vget (iss baseR 0x68 fSpawn).x i l).poison = false) ∧
      (sget (iss baseR 0x68 fSpawn).x 1).st = .full ∧ TargetOk (relTarget (iss baseR 0x68 fSpawn)) ∧
      pickSlot (coreOf baseR 0) = some 8 ∧ spawnAhead baseR (iss baseR 0x68 fSpawn) = false ∧
      splitAt baseR 0 (freeEntry (coreOf baseR 0) (schedOf 8)) = none) ∧
    (Issues baseFull 0x68 fSpawn (iss baseFull 0x68 fSpawn) ∧ Quiet (iss baseFull 0x68 fSpawn)) ∧
      pickSlot (coreOf baseFull 0) = none := by
  refine ⟨⟨quietly (by decide +kernel), ?_, Or.inl (by decide +kernel), by decide +kernel, by decide +kernel⟩,
    ⟨quietly (by decide +kernel), by decide +kernel, by decide +kernel, ?_, by decide +kernel, by decide +kernel, by decide +kernel⟩,
    quietly (by decide +kernel), by decide +kernel⟩
  · have h : ∀ i, i < 4 → Readable (iss baseBin 0x67 fEmit) (4 + i) false := by
      simp only [Readable, pairOf]; decide +kernel
    exact fun i hi => ⟨h i hi, rfl⟩
  · simp only [TargetOk]; decide +kernel

/-! Counters, traps, power, failures -/

/-- Counters 5 of the context and 6 of another; s2 names one. -/
def counterOf (x : Nat) : Counter :=
  { count := 3, level := 1, cancel := false, aband := false, done := false, parent := none, ctx := x }
def baseCtr (n : Nat) : State := { baseCount n with counters := [(5, counterOf 1), (6, counterOf 2), (7, { counterOf 1 with done := true })] }
def fSys : Fields := { zeroFields with strand := true, d := 1, a := 2, imm16 := 0x0203 }
def sys1 : SysReq :=
  { code := 0x0203, va := 0x10000, d := 1, entry := 0, seq := 0, taken := true, due := 0, len := 8, reply := some (0, [1, 2]),
    far := [], asked := [], lost := false, written := false }
def baseSys : State := baseX fun x => { x with sys := some sys1 }

theorem witness_CountersAndRequests :
    (∀ n ∈ [5, 6, 7], ∀ opc ∈ [(0x69 : BitVec 7), 0x6A],
      (Issues (baseCtr n) opc fS (iss (baseCtr n) opc fS) ∧ Quiet (iss (baseCtr n) opc fS)) ∧ Readable (iss (baseCtr n) opc fS) 2 false ∧
      Writable (iss (baseCtr n) opc fS) 1 false ∧ wordA (iss (baseCtr n) opc fS) = n) ∧
    mget (baseCtr 5).counters 5 = some (counterOf 1) ∧ mget (baseCtr 5).counters 6 = some (counterOf 2) ∧
    ((Issues base 0x50 fSys (iss base 0x50 fSys) ∧ Quiet (iss base 0x50 fSys)) ∧ Readable (iss base 0x50 fSys) 2 true ∧
      (sget (iss base 0x50 fSys).x 1).st ≠ .pending ∧ (iss base 0x50 fSys).x.sys = none) ∧
    Issues baseSys 0x50 fSys (iss baseSys 0x50 fSys) ∧ (iss baseSys 0x50 fSys).x.sys.isSome = true := by
  refine ⟨?_, by decide +kernel, by decide +kernel, ⟨quietly (by decide +kernel), ?_⟩, (quietly (by decide +kernel)).1, by decide +kernel⟩
  · intro n hn opc ho
    have h : ∀ n ∈ [5, 6, 7], ∀ opc ∈ [(0x69 : BitVec 7), 0x6A], issuesQuietly (baseCtr n) opc fS = true := by decide +kernel
    refine ⟨quietly (h n hn opc ho), ?_⟩
    revert n opc
    simp only [Readable, Writable, pairOf]; decide +kernel
  · simp only [Readable, pairOf]; decide +kernel

/-- A cause of the strand, its handler at 0x40000, and its one operation faulted. -/
def cause1 : Cause :=
  { code := 0x0F, detail := 5, faddr := 0, pc := 0x10000, spc := 0x10004, active := BitVec.allOnes 32, flanes := BitVec.allOnes 32,
    smask := 0xFF, fslice := 0, fisn := 0, rpl := false, svc := false, cycle := 0 }
def withHandler (s : State) : State := { s with ctxs := [(1, { fetchCtx with handler := 0x40000 })] }
def baseCause : State := baseX fun x => { x with arisen := some cause1 }
def badAcc : Access := { openAcc with st := .faulted 0x04 1 0x10000 0 }
def badOp : Op := { openStore with kind := .load, opc := 0x51, fields := f3, accs := [badAcc] }
def baseBad : State := withHandler { base with ops := [badOp] }
def baseTwice : State := { baseHandler with ops := [badOp] }

theorem witness_TrapEntry :
    (∃ x, strandAt baseCause 0 0 = some x ∧ x.phase ≠ .ending ∧ x.handling = none ∧ x.arisen = some cause1 ∧
      (∀ o ∈ opsOf baseCause 0 0, opFaulted o = false ∧ opResolved baseCause o = true) ∧ x.halted = none ∧ handlerOf baseCause x = 0 ∧
      strandAt (withHandler baseCause) 0 0 = some x ∧ handlerOf (withHandler baseCause) x ≠ 0 ∧ trapReady baseCause 0 0 x = true ∧
      (trapRecord baseCause 0 0 x).isSome = true) ∧
    (∃ x, strandAt baseBad 0 0 = some x ∧ x.phase ≠ .ending ∧ x.handling = none ∧ x.arisen = none ∧ opsOf baseBad 0 0 = [badOp] ∧
      badOp.kind ≠ .fil ∧ badOp.discarded = false ∧ badOp.accs = [badAcc] ∧ badAcc.st = .faulted 0x04 1 0x10000 0 ∧
      (slicesOf badAcc.lanes).head? = some 0 ∧ splitsOf baseBad 0 0 = [(0, fetchSplit)] ∧ fetchSplit.smask.getLsbD 0 = true ∧
      handlerOf baseBad x ≠ 0 ∧ x.halted = none) ∧
    ∃ x, strandAt baseTwice 0 0 = some x ∧ x.phase ≠ .ending ∧ x.handling.isSome = true ∧ badOp ∈ opsOf baseTwice 0 0 ∧
      opFaulted badOp = true ∧ x.trapMark ≤ badOp.id ∧ badOp.id ∉ x.trapOps :=
  ⟨⟨_, rfl, by decide +kernel⟩, ⟨_, rfl, by decide +kernel⟩, ⟨_, rfl, by decide +kernel⟩⟩

/-- The handler of a fault of the one operation. -/
def baseReturn : State :=
  { (baseX fun x => { x with handling := some { rec0 with hzf := true }, trapOps := [7], trapMark := 8 }) with ops := [badOp] }

/-- A handler whose record names a stop PC that no instruction stands at. -/
def baseAstray : State := baseX fun x => { x with handling := some { rec0 with spc := 0x10006 } }

theorem witness_TrapReturn :
    ((Issues baseHandler 0x4C fExit (iss baseHandler 0x4C fExit) ∧ Quiet (iss baseHandler 0x4C fExit)) ∧
      Returns baseHandler (iss baseHandler 0x4C fExit) rec0 0 fetchSplit ∧ opsOf baseHandler 0 0 = [] ∧
      (iss baseHandler 0x4C fExit).x.phase ≠ .ending) ∧
    ((Issues baseReturn 0x4C fExit (iss baseReturn 0x4C fExit) ∧ Quiet (iss baseReturn 0x4C fExit)) ∧
      Returns baseReturn (iss baseReturn 0x4C fExit) { rec0 with hzf := true } 0 fetchSplit ∧ opsOf baseReturn 0 0 = [badOp] ∧
      opById baseReturn badOp.id = some badOp ∧ badOp.id ∈ (iss baseReturn 0x4C fExit).x.trapOps ∧ badOp.sample = none ∧
      badOp.work = .mem ∧ openLanes badOp ≠ 0) ∧
    ((Issues baseAstray 0x4C fExit (iss baseAstray 0x4C fExit) ∧ Quiet (iss baseAstray 0x4C fExit)) ∧
      (iss baseAstray 0x4C fExit).x.handling = some { rec0 with spc := 0x10006 } ∧ (iss baseAstray 0x4C fExit).x.phase ≠ .ending ∧
      (0x10006 : Pc).extractLsb' 0 2 ≠ 0) ∧
    Issues base 0x4C fExit (iss base 0x4C fExit) ∧ CanRaise (iss base 0x4C fExit) := by
  refine ⟨⟨quietly (by decide +kernel), ?_, by decide +kernel⟩, ⟨quietly (by decide +kernel), ?_, by decide +kernel⟩,
    ⟨quietly (by decide +kernel), by decide +kernel⟩, (quietly (by decide +kernel)).1, ?_⟩
  · simp only [Returns]; decide +kernel
  · simp only [Returns]; decide +kernel
  · simp only [CanRaise, Quiet]; decide +kernel

/-- A strand that is stepped. -/
def baseStep (n : Nat) : State := baseX fun x => { x with steps := some (n, 5) }

theorem witness_SingleStepCounts : instrParts (.mark fExit) = some (0x4E, fExit) ∧ ∀ n ∈ [1, 2], Issues (baseStep n) 0x4E fExit (iss (baseStep n) 0x4E fExit) ∧
    (iss (baseStep n) 0x4E fExit).sample = none ∧ (iss (baseStep n) 0x4E fExit).x.steps = some (n, 5) ∧ (iss (baseStep n) 0x4E fExit).x.phase ≠ .ending ∧
    (iss (baseStep n) 0x4E fExit).x.halted = none ∧ mget (baseStep n).ctxs 1 = some fetchCtx ∧ fetchCtx.markRecs = false := by
  refine ⟨rfl, fun n hn => ?_⟩
  have h : ∀ n ∈ [1, 2], (viewOf (baseStep n) 0x4E fExit).isSome = true := by decide +kernel
  refine ⟨⟨viewOf_iss (h n hn), ?_⟩, ?_⟩ <;> revert n <;> decide +kernel

/-- A power controller in a phase. -/
def powered (p : BootPhase) (vin : Bool) : State := { State.reset with power := { Power.reset with phase := p, vin := vin } }
/-- A first stage, which the boot ROM accepts or not. -/
def stage1 : BootStage := { image := [1, 2, 3], sig := 4 }

theorem witness_PowerAndResetEvents :
    ((powered .off false).power.vin = false ∧ (powered .off false).power.pwrEn = true ∧ (powered .off false).power.phase = .off) ∧
    (let s : State := { powered .off true with power := { (powered .off true).power with vinOk := false } }
     s.power.vin = true ∧ s.power.vinOk = false ∧ s.power.pwrEn = true ∧ s.power.phase = .off) ∧
    ((powered .off true).power.vin = true ∧ (powered .off true).power.vinOk = true ∧ (powered .off true).power.phase = .off) ∧
    (∀ b ∈ [false, true], let s : State := { powered .railsUp true with power := { (powered .railsUp true).power with rstN := b } }
     s.power.phase = .railsUp ∧ s.power.rstN = b) ∧ (powered .held true).power.phase ≠ .off ∧
    ((powered .held true).power.phase = .held ∧ (powered .held true).power.pwrGood = true) ∧
    (Config.ecdsaVerify Config.birrovKey (Config.sha384 stage1.image) stage1.sig = true ∨
      Config.ecdsaVerify Config.birrovKey (Config.sha384 stage1.image) stage1.sig = false) ∧
    (powered .booting true).power.phase = .booting ∧
    (base.power.phase = .running ∧ base.power.limit < 1801 ∧ base.power.clockTherm = 1400) ∧
    (∀ hot ∈ [105000, 95000, 90000, 89999], hot ∈ [hot, 30000] ∧ ∀ x ∈ [hot, 30000], x ≤ hot) ∧ clock base ≠ 800 ∧
    ((powered .railsUp true).power.phase = .railsUp ∧
      (let shut : State := { base with svc := { base.svc with flashLocked := true } }
       shut.power.phase = .running ∧ shut.svc.flashLocked = true)) ∧
    (base.power.phase ≠ .off ∧ base.power.powerSeen = false ∧ base.power.thermSeen = false ∧ base.power.limit < 1801 ∧
      96000 ∈ [96000] ∧ ∀ x ∈ [96000], x ≤ 96000) ∧
    (let cold : State := { base with power := { base.power with clockTherm := 800 } }
     cold.power.phase = .running ∧ clock cold = 800 ∧ 104000 ∈ [104000] ∧ ∀ x ∈ [104000], x ≤ 104000) := by
  refine ⟨?_, ?_, ?_, ?_, ?_, ?_, ?verdict, ?_⟩
  case verdict =>
    cases Config.ecdsaVerify Config.birrovKey (Config.sha384 stage1.image) stage1.sig
    · exact Or.inr rfl
    · exact Or.inl rfl
  all_goals decide +kernel

/-- A port in use; a copy that waits in its engine; a strand whose checker differs. -/
def port1 : Port := { up := true, node := 1, reach := [2], credits := 4, miswired := false, spareUsed := 0, retraining := false }
def basePort (r : Bool) : State := { base with phys := { base.phys with ports := [(3, { port1 with retraining := r })] } }
def cpy1 : CpyWork :=
  { fn := 0, src := 0, dst := 0, count := 1, comp := 0, shape := none, past := none, dry := false, reach := [], todo := [0], kept := [], cur := none,
    moves := [], tags := [], writing := false, due := 0, blocked := none }
def copyOp (w : CpyWork) : Op := { openStore with kind := .cpy, opc := 0x61, accs := [], fields := { fS with d := 1 }, work := .cpy w }
def baseCopying (w : CpyWork) : State := { base with ops := [copyOp w] }

theorem witness_PhysicalFailures :
    base.svc.running = true ∧
    2 = boundaryCode .compute32 ∧ (mgetD base.phys.laneUsed 2 0 < Config.boundarySpares 2 ∨ Config.boundarySpares 2 ≤ mgetD base.phys.laneUsed 2 0) ∧
    ((basePort false).svc.running = true ∧ mget (basePort false).phys.ports 3 = some port1 ∧ port1.up = true ∧
      port1.spareUsed < Config.serdesSpares) ∧
    (mget (basePort true).phys.ports 3 = some { port1 with retraining := true } ∧ (basePort true).fab.reqs = []) ∧
    15 ∉ base.phys.retired ∧ (mgetD base.phys.rowsUsed 3 0 < Config.rowSpares 3 ∨ Config.rowSpares 3 ≤ mgetD base.phys.rowsUsed 3 0) ∧
    (191 ∉ base.phys.bringIn ∧ 191 ∉ base.phys.lostCores) ∧
    (mgetD base.phys.coresUsed (dieOf 191) 0 < Config.coreSpares ∧ Config.coreSpares ≤ mgetD [(dieOf 191, 8)] (dieOf 191) 0) ∧
    (splitAt base 0 0 = some fetchSplit ∧ strandAt base 0 0 = some fetchStrand ∧ fetchSplit.replay = false ∧
      fetchStrand.handling = none ∧ fetchStrand.arisen = none) ∧
    opById (baseCopying cpy1) 7 = some (copyOp cpy1) ∧ (copyOp cpy1).work = .cpy cpy1 ∧ (copyOp cpy1).complete = false ∧
      (copyOp cpy1).discarded = false ∧ (copyOp cpy1).replay = false ∧ opFaulted (copyOp cpy1) = false ∧
      (coreOf (baseCopying cpy1) 0).fil = [] ∧ strandAt (baseCopying cpy1) 0 0 = some fetchStrand ∧ fetchStrand.phase ≠ .ending := by
  refine ⟨rfl, rfl, Nat.lt_or_ge _ _, by decide +kernel, by decide +kernel, by decide +kernel, ?_, by decide +kernel,
    by decide +kernel, by decide +kernel, by decide +kernel⟩
  · show 0 < Config.rowSpares 3 ∨ _
    omega

/-! The fabric, tokens, collectives, the network -/

/-- A load of the strand in one fabric request, sent or to be sent again; fabric address 0x2000000000100 is device 2. -/
def farAddr : Nat := 2 * 2 ^ 48 + 0x100
def sentAcc : Access := { openAcc with place := some (.fab farAddr false), st := .sent 9 }
def farOp (k : OpKind) (f : Fields) : Op := { openStore with kind := k, opc := 0x51, fields := f, accs := [sentAcc] }
def req1 (own : ReqOwner) (p : FabKind) : FabReq :=
  { id := 9, core := 0, addr := farAddr, parts := [(farAddr, p)], owner := own, chan := none, port := some 3, age := 0, first := 0,
    reissue := none, sent := true }
def baseFar' (o : Op) (r : FabReq) (now : Nat) : State :=
  { base with ops := [o], now := now, fab := { base.fab with reqs := [r] }, phys := { base.phys with ports := [(3, port1)] } }
def loadReq : FabReq := req1 (.accesses 7 [0]) (.read 4)

/-- A served range: device 2 may read and write offset 0x10000 on, 64 KiB, at physical 0x40000. -/
def export1 : BitVec 256 := BitVec.ofNat 256 (1 + 16 * 256 + 1 * 2 ^ 64 + 4 * 2 ^ 96 + 2 ^ 130)
def baseExport (x : BitVec 256) : State := { base with fab := { base.fab with exports := [(0, x)] } }

theorem noneWaits {s : State} (h : s.clusters = base.clusters) (pa n : Nat) : NoneWaits s pa n := by
  intro p hp e he
  rw [h] at hp
  have : ∀ p ∈ base.clusters, p.2.stores = [] := by decide +kernel
  rw [this p hp] at he
  cases he

theorem export_serves : ∀ x ∈ [export1, export1 ||| 2], exportFor (baseExport x) 2 0x10008 = some x.toNat ∧
    exportPa x.toNat 0x10008 = 0x40008 := by
  intro x hx
  simp only [List.mem_cons, List.not_mem_nil, or_false] at hx
  rcases hx with rfl | rfl <;> decide +kernel

theorem outstanding_load : Outstanding (baseFar' (farOp .load f3) loadReq (2 ^ 20)) loadReq (.accesses 7 [0]) (farOp .load f3) sentAcc
    fetchStrand := ⟨by decide +kernel, by decide +kernel, by decide +kernel, by decide +kernel⟩

theorem witness_FabricReplies :
    (Outstanding (baseFar' (farOp .load f3) loadReq (2 ^ 20)) loadReq (.accesses 7 [0]) (farOp .load f3) sentAcc fetchStrand ∧
      loadReq.parts = [(farAddr, .read 4)] ∧ loadReq.first + 2 ^ 20 ≤ (baseFar' (farOp .load f3) loadReq (2 ^ 20)).now) ∧
    (let r := { loadReq with sent := false, reissue := some 64, age := 1 }
     let s := baseFar' (farOp .load f3) r 64
     s.fab.reqs = [r] ∧ r.sent = false ∧ r.chan = none ∧ r.reissue = some 64 ∧ 64 ≤ s.now ∧
      usablePorts s (fabTarget r.addr) = [(3, port1)] ∧ 0 < port1.credits ∧ port1.retraining = false ∧
      useStopped s (r.addr / 2 ^ 21) = false) ∧
    exportFor base 2 0x10008 = none ∧
    (∀ x ∈ [export1, export1 ||| 2], exportFor (baseExport x) 2 0x10008 = some x.toNat ∧ exportPa x.toNat 0x10008 = 0x40008) ∧
    (∀ x, NoneWaits (baseExport x) 0x40008 4 ∧ poisonedIn (baseExport x) 0x40008 4 = false) ∧
    bitOf export1.toNat 1 = false ∧ bitOf (export1 ||| 2).toNat 1 = true :=
  ⟨⟨outstanding_load, by decide +kernel, by decide +kernel⟩, by decide +kernel, by decide +kernel, export_serves,
    fun x => ⟨noneWaits rfl _ _, by simp [poisonedIn, baseExport]; decide +kernel⟩, by decide +kernel, by decide +kernel⟩

/-- A request of the owner's host, of a strand; a core that is to pass its points. -/
def hostReq (k : BitVec 384) : Req := { sender := .host k, seq := 1, code := 0 }
def baseOwned : State := { base with svc := { base.svc with owner := some 5, ownerKey := 6, term := 7 } }
def remap1 : Remap := { window := 1, gen := 2, old := 0, req := some (hostReq 5), marks := [] }
def inval1 (q : Option Req) : Inval := { id := 4, ctx := 1, lo := 0x10000, hi := 0x20000, req := q, frames := [], marks := [] }

/-- A window of 2 MiB on device 2. -/
def window1 : BitVec 128 := BitVec.ofNat 128 (1 + 21 * 2 + 2 * 2 ^ 8)

theorem witness_FabricMaintenance :
    (let s : State := { (baseK fun k => { k with dst := [(16, { dstOf k 16 with ceiling := 16 })] }) with now := 256 }
     (dstOf (coreOf s 0) 16).ceiling < 4095 ∧ (dstOf (coreOf s 0) 16).since + 256 ≤ s.now) ∧
    (let s : State := { base with fab := { base.fab with switching := [(2, 5)] } }
     mget s.fab.switching 2 = some 5 ∧ s.fab.reqs = []) ∧
    (coreOf (baseK fun k => { k with oldWin := [(1, 0)] }) 0).oldWin ≠ [] ∧
    (let s : State := { base with fab := { base.fab with remaps := [remap1] } }
     s.fab.remaps = [remap1] ∧ (∀ p ∈ s.cores, mget p.2.oldWin 1 = none) ∧ s.ops = [] ∧ s.images = [] ∧ s.fab.reqs = []) ∧
    (coreOf (baseK fun k => { k with invs := [4] }) 0).invs ≠ [] ∧
    (let s : State := { base with svc := { base.svc with invals := [inval1 (some (hostReq 5))] } }
     s.svc.invals = [inval1 (some (hostReq 5))] ∧ (∀ p ∈ s.cores, 4 ∉ p.2.invs) ∧ s.ops = [] ∧ s.images = [] ∧ s.fab.reqs = []) ∧
    (let s : State := { base with fab := { base.fab with windowWaits := [{ window := 3, bits := window1, req := none }] } }
     s.fab.windowWaits = [{ window := 3, bits := window1, req := none }] ∧ s.fab.tokens = []) ∧
    let s : State := { base with svc := { base.svc with running := true } }
    s.svc.running = true ∧ s.fab.reqs = [] ∧
      (window1.getLsbD 0 = true ∧ windowBad window1.toNat = false ∧ windowBad (window1 ||| 0x80).toNat = true) ∧
      ((0x101 : BitVec 128).toNat / 2 ^ 16 % 2 ^ 16 = 0 ∧ (0x101 : BitVec 128).toNat / 2 ^ 4 % 2 ^ 4 ≤ 7) ∧
      ((23 : BitVec 128).toNat / 2 ^ 16 = 0 ∧ (23 : BitVec 128).toNat % 2 ^ 8 < 24) ∧
      (exportBad s 4 0 = false ∧ (mgetD s.fab.exports 4 0).getLsbD 0 = false ∧ exportBad s 4 8 = true) ∧
      leNat (List.replicate 16 (1 : Byte)) / 2 ^ 48 % 2 ^ 16 ≠ 0 := by
  decide +kernel

/-- Region 1 of this device, exported with tokens to devices 2 and 3; its directory entry. -/
def export2 : BitVec 256 := BitVec.ofNat 256 (5 + 22 * 256 + 64 * 2 ^ 96 + 2 ^ 130 + 2 ^ 131)
def baseDir (hs : List (Nat × Bool × Nat)) (qs : List (Nat × Bool)) : State :=
  { base with now := 4096, fab := { base.fab with exports := [(0, export2)], dir := [(1, { holders := hs, queue := qs, revoking := [] })] } }
def baseToken : State := { base with fab := { base.fab with tokens := [(2 * 2 ^ 27 + 1, true)] } }
/-- A TKACQ of this device for the region of the fabric address. -/
def tkOp (excl : Bool) : Op := farOp .tkacq { fS with fn := if excl then 1 else 0 }
def tkReq (excl : Bool) : FabReq := req1 (.token 7) (.tokenAcq excl)
def baseTk (excl : Bool) : State :=
  let s := baseFar' (tkOp excl) (tkReq excl) 0
  { s with fab := { s.fab with acquiring := [(regionOf farAddr, excl, [7])] } }

theorem witness_OwnershipTokens :
    tokenExport base 2 1 = none ∧
    (tokenExport (baseDir [] []) 2 1 = some export2.toNat ∧ bitOf export2.toNat 1 = false ∧ (baseDir [] []).fab.exportWaits = [] ∧
      (dirOf (baseDir [] []) 1).queue = [] ∧ (dirOf (baseDir [] []) 1).holders = []) ∧
    (let s := baseDir [(3, true, 0)] []
     tokenExport s 2 1 = some export2.toNat ∧ (dirOf s 1).queue = [] ∧ (dirOf s 1).holders = [(3, true, 0)] ∧ 0 + 4096 ≤ s.now ∧
      (dirOf s 1).revoking = []) ∧
    (mget base.fab.tokens (2 * 2 ^ 27 + 1) = none ∧ mget baseToken.fab.tokens (2 * 2 ^ 27 + 1) = some true ∧
      baseToken.fab.reqs = []) ∧
    (let s := baseDir [(3, true, 0)] [(2, true)]
     (dirOf s 1).holders = [(3, true, 0)] ∧ (dirOf s 1).queue = [(2, true)] ∧ s.fab.exportWaits = [] ∧
      exportFor s 3 (2 ^ 21 % 2 ^ 48) = some export2.toNat ∧ s.clusters = base.clusters ∧ (3 : Nat) ≠ 2 ∧
      (dirOf s 1).revoking = []) ∧
    ∀ e, Outstanding (baseTk e) (tkReq e) (.token 7) (tkOp e) sentAcc fetchStrand ∧ (tkReq e).parts = [(farAddr, .tokenAcq e)] ∧
      (baseTk e).fab.acquiring = [(regionOf farAddr, e, [7])] ∧ (baseTk e).fab.tokens = [] := by
  refine ⟨?_, ?_, ?_, ?_, ?_, fun e => ⟨?sent, ?parts, ?asked, ?held⟩⟩
  case sent => cases e <;> refine ⟨?_, ?_, ?_, ?_⟩ <;> decide +kernel
  case parts | asked | held => cases e <;> decide +kernel
  all_goals decide +kernel

/-- A group of a strand of this device and one of device 2; the attempt of a barrier in which this device's COLL waits. -/
def mine : Member := { dev := 0, strand := 0, w := false }
def theirs : Member := { dev := 2, strand := 0, w := false }
def coll0 : CollDesc := { emptyColl with ctx := 1, members := [mine, theirs] }
def arr0 : Arrival := { rank := 0, input := [], op := some 7, since := 0 }
def att0 : Attempt :=
  { fn := 0, dtype := 0, op := 0, count := 0, root := 0, noRoot := false, arrivals := [arr0], acks := [], since := 0 }
def collOp : Op := { openStore with kind := .coll, opc := 0x66, fields := fColl, accs := [], work := .coll [0, 0, 0, 0] }
def baseColl (c : CollDesc) : State :=
  { baseOwned with coll := [(0, c)], ops := [collOp], now := 2 ^ 20 }
def collOn : CollDesc := { coll0 with state := .running, arr := 1, attempt := some att0 }
def collOff : CollDesc := { collOn with state := .aborting, attempt := some { att0 with acks := [2] } }
/-- An abort of the copy has arisen in this cycle. -/
def collDue : CollDesc := { collOn with abort := some { own := true, acked := [] } }
theorem owns_host (c : CollDesc) : Owns (baseColl c) (hostReq 5) := ⟨rfl, 5, rfl, rfl⟩
theorem inFlight_coll (c : CollDesc) : InFlight (baseColl c) collOp fetchStrand :=
  ⟨rfl, rfl, rfl, rfl, rfl, rfl, rfl, rfl, rfl⟩
theorem membersLegal : MembersLegal [0x100, 0x100102] ∧ MembersLegal [0] := by
  simp [MembersLegal]
theorem lastMissing_on : LastMissing collOn att0 arr0 1 := by
  simp only [LastMissing]; decide +kernel

theorem witness_CollectiveEvents :
    (collOf (baseColl coll0) 0 = coll0 ∧ coll0.state = .idle ∧ coll0.wdr = 0 ∧ coll0.members.length = 2 ∧ coll0.edits = []) ∧
    (collOf (baseColl collOn) 0 = collOn ∧ LastMissing collOn att0 arr0 1 ∧ att0.dtype = (collParams [0, 0]).dtype ∧
      att0.op = (collParams [0, 0]).op ∧ att0.root = (collParams [0, 0]).root ∧ InFlight (baseColl collOn) collOp fetchStrand ∧
      (baseColl collOn).fab.reqs = []) ∧
    (collOn.state = .running ∧ collOn.attempt = some att0 ∧ collOn.abort = none ∧ collOn.members ≠ [] ∧ att0.fn ≠ 1 ∧ arr0.rank = 0) ∧
    BitVec.ofNat 16 5 ≠ (collOf (baseColl coll0) 0).att ∧ att0.since + 2 ^ 20 ≤ (baseColl collOn).now ∧
    ((baseColl collDue).coll = [(0, collDue)] ∧ collDue.state = .running ∧ collDue.attempt = some att0 ∧
      collDue.abort = some { own := true, acked := [] } ∧ otherDevices (baseColl collDue) collDue = [2]) ∧
    (collOf (baseColl collOff) 0 = collOff ∧ collOff.state = .aborting ∧ collOff.attempt = some { att0 with acks := [2] } ∧
      collOff.waiting = [] ∧ collOff.edits = [] ∧ InFlight (baseColl collOff) collOp fetchStrand) ∧
    coll0.members[1]? = some theirs ∧ Owns (baseColl coll0) (hostReq 5) ∧ Owns (baseColl collOn) (hostReq 5) ∧
    (MembersLegal [0x100, 0x100102] ∧ (mget (baseColl coll0).ctxs 1).isSome = true) ∧
    (let c := { coll0 with members := [mine] }
     collOf (baseColl c) 0 = c ∧ MembersLegal [0] ∧ mine.w = false ∧ mine.dev = (memberAt 0).dev ∧ mine.strand = (memberAt 0).strand ∧
      mine.dev = (baseColl c).phys.deviceId) := by
  exact ⟨by decide +kernel, ⟨by decide +kernel, lastMissing_on, by decide +kernel, by decide +kernel, by decide +kernel, inFlight_coll _, rfl⟩,
    by decide +kernel, by decide +kernel, by decide +kernel, by decide +kernel,
    ⟨by decide +kernel, rfl, rfl, rfl, rfl, inFlight_coll _⟩, rfl, owns_host _, owns_host _, ⟨membersLegal.1, by decide +kernel⟩,
    by decide +kernel, membersLegal.2, by decide +kernel⟩

/-- A network operation whose message has left; a read that waits for its data; a copy of one byte in its last chunk. -/
def net1 (n : Nat) : NetWork := { what := n, conn := 1, tag := 0, len := 8, buf := 0x10000, peer := 0, sent := some 0 }
def netOp (n : Nat) (as_ : List Access) : Op :=
  { openStore with kind := .net, opc := 0x61, fields := fNet, accs := as_, work := .net (net1 n) }
def baseMsg (n : Nat) (as_ : List Access) : State := { baseNet with ops := [netOp n as_], now := 2 ^ 20 }
def netAcc : Access := { openAcc with data := 8 }
def move1 : Move := { src := .mem (.dev 0x10000 0), sbit := 0, dst := .mem (.dev 0x10100 0), dbit := 0, n := 8, va := 0x10100 }
def cpyNow : CpyWork := { cpy1 with todo := [], cur := some 0, moves := [move1] }

theorem witness_NetworkAndCopyEvents :
    (mget baseNet.fab.conns 2 = none ∧ mget baseNet.fab.conns 1 = some 0x101 ∧ (0x101 : BitVec 128).getLsbD 0 = true ∧
      baseNet.net.posts = []) ∧
    (∀ n ∈ [0, 1, 2], InFlight (baseMsg n []) (netOp n []) (iss baseNet 0x61 fNet).x ∧ (netOp n []).work = .net (net1 n) ∧
      (net1 n).sent = some 0 ∧ (baseMsg n []).net.posts = [] ∧ 0 + 2 ^ 20 ≤ (baseMsg n []).now ∧ (baseMsg n []).fab.reqs = []) ∧
    (InFlight (baseMsg 1 [netAcc]) (netOp 1 [netAcc]) (iss baseNet 0x61 fNet).x ∧ (netOp 1 [netAcc]).tok = none ∧
      netAcc.place = some (.dev 0x10000 0) ∧ netAcc.data.toNat = (net1 1).len ∧ NoneWaits (baseMsg 1 [netAcc]) 0x10000 8) ∧
    InFlight (baseCopying cpyNow) (copyOp cpyNow) fetchStrand ∧ (copyOp cpyNow).accs = [] ∧ (copyOp cpyNow).gate = .none ∧
      cpyNow.due ≤ (baseCopying cpyNow).now ∧ cpyNow.past = none ∧ cpyNow.dry = false ∧ cpyNow.todo = [] ∧ cpyNow.writing = false ∧ move1.dst = .mem (.dev 0x10100 0) ∧ move1.n = 8 * 1 ∧
      NoneWaits (baseCopying cpyNow) 0x10100 1 ∧ (baseCopying cpyNow).fab.reqs = [] := by
  refine ⟨?_, ?nets, ⟨?net, ?_, ?_, ?_, noneWaits rfl _ _⟩, ?copy, ?_, ?_, ?_, ?_, ?_, ?_, ?_, ?_, ?_, noneWaits rfl _ _, ?_⟩
  case nets | net | copy => simp only [InFlight]; decide +kernel
  all_goals decide +kernel

/-! The service, dispatch, sharing, paging -/

/-- A context with a page table, in which the page of the code is mapped. -/
def ctxM : Ctx := { fetchCtx with ptroot := 0x1000 }
def baseTable : State := { baseOwned with ctxs := [(1, ctxM)] }
def baseMapped : State := (mapPage baseTable ctxM 1 0x10000 16 (localLeaf 0x10000 true true true) 0).getD baseTable

/-- Two claims in an open window, the first with the higher term. -/
def claimA : Claim := { req := hostReq 5, term := 9, key := 1, keyHash := 5, digest := 2 }
def claimB : Claim := { req := hostReq 6, term := 8, key := 3, keyHash := 6, digest := 4 }
/-- The owner's request, that of another host, that of a strand of context 1. -/
def strandReq : Req := { sender := .strand 0 1, seq := 1, code := 0 }

theorem owns_of {s : State} (h : s.svc.running = true) (o : s.svc.owner = some 5) : Owns s (hostReq 5) := ⟨h, 5, rfl, o⟩

/-- The strand's request has its reply, of two bytes into a block with room for n. -/
def sysN (n : Nat) : SysReq := { sys1 with len := n, va := 0x10000 }
def repliedSplit : Split := { fetchSplit with parked := some (.sys 1 0x10004), cls := some .pipe }
def baseReplied (n : Nat) : State :=
  modCore baseMapped 0 fun k =>
    { k with slots := [(0, { fetchStrand with sys := some (sysN n) })], splits := [(0, repliedSplit)] }

theorem witness_IdentityRequests :
    (base.svc.running = true ∧ base.svc.owner = none ∧
      (ClaimGood base 1 2 [3] 4 ∨ ¬ ClaimGood base 1 2 [3] 4) ∧ baseOwned.svc.owner.isSome = true) ∧
    (let s : State := { base with svc := { base.svc with claims := [claimA, claimB] } }
     s.svc.running = true ∧ s.svc.claims = [claimA, claimB] ∧ claimA.req ≠ claimB.req ∧ claimB.term.toNat < claimA.term.toNat) ∧
    (baseOwned.svc.owner.isSome = true ∧ baseOwned.svc.term = 7) ∧
    (Owns baseOwned (hostReq 5) ∧ (900 : DWord).toNat = 900 ∧ (2048 : DWord).toNat ≤ 2048) ∧
    (isOwner baseOwned (hostReq 6) = false ∧ isOwner baseOwned strandReq = false ∧ baseOwned.svc.running = true) ∧
    (∀ n ∈ [1, 8], strandAt (baseReplied n) 0 0 = some { fetchStrand with sys := some (sysN n) } ∧
      (sysN n).reply = some (0, [1, 2]) ∧ (baseReplied n).images = [] ∧ splitsOf (baseReplied n) 0 0 = [(0, repliedSplit)] ∧
      splitAt (baseReplied n) 0 0 = some repliedSplit) ∧
    (([1, 2] : List Byte).length ≤ (sysN 8).len ∧ (sysN 1).len < ([1, 2] : List Byte).length ∧
      NoneWaits (baseReplied 8) 0x10008 2) ∧
    (sysN 8).written = false ∧ repliedSplit.held = none ∧
    blockPlaces 1 0 (blockLane fetchStrand) ((sysN 8).va.toNat + 8) 2 (baseReplied 8) =
      (some ((List.range 2).map fun i => .dev (0x10008 + i) 0), baseReplied 8) := by
  refine ⟨⟨rfl, rfl, Classical.em _, rfl⟩, by decide +kernel, by decide +kernel, ⟨owns_of rfl rfl, by decide +kernel⟩, by decide +kernel,
    by decide +kernel, ⟨by decide +kernel, by decide +kernel, ?_⟩, by decide +kernel⟩
  intro p hp e he
  have : ∀ p ∈ (baseReplied 8).clusters, p.2.stores = [] := by decide +kernel
  rw [this p hp] at he
  cases he

/-- A release and a firmware image that verify, or do not. -/
theorem witness_SignedRequests :
    (Config.ecdsaVerify baseOwned.svc.ownerKey (releaseDigest 7 0) 8 = true ∨
      Config.ecdsaVerify baseOwned.svc.ownerKey (releaseDigest 7 0) 8 = false) ∧
    (Config.ecdsaVerify Config.birrovKey (Config.sha384 [1]) 8 = true ∨ Config.ecdsaVerify Config.birrovKey (Config.sha384 [1]) 8 = false) :=
  ⟨by cases Config.ecdsaVerify baseOwned.svc.ownerKey (releaseDigest 7 0) 8 <;> simp,
    by cases Config.ecdsaVerify Config.birrovKey (Config.sha384 [1]) 8 <;> simp⟩

/-- Counters 0 (live, of context 1, level 2), 1 (done). -/
def baseCounters : State :=
  { baseOwned with counters := [(0, { counterOf 1 with level := 2 }), (1, { counterOf 1 with done := true, count := 0 })] }

theorem exists_of_isSome {α β : Type} {o : Option (α × β)} (h : o.isSome = true) : ∃ x u, o = some (x, u) := by
  cases o with
  | none => cases h
  | some p => exact ⟨p.1, p.2, rfl⟩

theorem witness_ContextRequests :
    (Owns baseOwned (hostReq 5) ∧ CtxArgsLegal 0x2305 9 1 16 ∧ mget baseOwned.ctxs 2 = none ∧
      (∀ j, 1 ≤ j → j < 2 → (mget baseOwned.ctxs j).isSome = true) ∧
      (∃ x u, buildCtx baseOwned 2 0x2305 9 1 16 = some (x, u)) ∧ baseOwned.phys.lostCores = []) ∧
    (mget baseOwned.ctxs 1 = some fetchCtx ∧ fetchCtx.destroying = none) ∧
    (OwnsOrIn baseOwned (hostReq 5) 1 ∧ OwnsOrIn baseOwned strandReq 1 ∧ TargetOk 0x40000) ∧
    (mget baseCounters.counters 2 = none ∧ (∀ j, j < 2 → (mget baseCounters.counters j).isSome = true) ∧
      (4 : DWord).toNat / 2 ^ 17 = 0 ∧ (4 : DWord).getLsbD 16 = false ∧ (0x10004 : DWord).getLsbD 16 = true ∧
      (0x10004 : DWord).toNat / 16 % 4096 = 0 ∧ mget baseCounters.counters 0 = some { counterOf 1 with level := 2 } ∧
      (0x10004 : DWord).toNat / 4 % 4 < 2) ∧
    (mget baseCounters.counters 1 = some { counterOf 1 with done := true, count := 0 } ∧ launchNames baseCounters 1 = false) := by
  refine ⟨⟨owns_of rfl rfl, ⟨?_, ?_, ?_, ?_, ?_, ?_, Or.inr ⟨4, by decide⟩⟩, ?_, ?lowest, exists_of_isSome ?_, rfl⟩, ?_,
    ⟨Or.inl (owns_of rfl rfl), Or.inr ⟨rfl, 0, rfl⟩, ?target⟩, ?_, ?_⟩
  case lowest =>
    intro j h1 h2
    obtain rfl : j = 1 := by omega
    decide +kernel
  case target => simp only [TargetOk]; decide +kernel
  all_goals decide +kernel

/-- A launch descriptor of context 1 with one strand of 8 slices, and a full queue. -/
def desc1 : BitVec 1024 := BitVec.ofNat 1024 (2 ^ 8 + 0x10000 * 2 ^ 96 + 2 ^ 160 + 8 * 2 ^ 184 + 2 ^ 320)
def launch1 : Launch := { desc := desc1 ||| 1, placed := 0, last := none, held := true }
def baseLaunch (n : Nat) : State :=
  { baseOwned with
      counters := [(0, { counterOf 1 with level := 0, count := 1 })],
      sched := { baseOwned.sched with queues := if n = 0 then [] else [(0, List.replicate n launch1)] } }
/-- Export of the code's page to device 2, and a change of it. -/
def export3 : BitVec 256 := BitVec.ofNat 256 (1 + 16 * 256 + 2 ^ 16 + 2 ^ 64 + 2 ^ 96 + 2 ^ 130)
def baseExported : State := { baseMapped with fab := { baseMapped.fab with exports := [(0, export3)] } }

theorem exists_of_ok {e : Except Nat State} (h : (match e with | .ok _ => true | .error _ => false) = true) : ∃ u, e = .ok u := by
  cases e with
  | error _ => cases h
  | ok u => exact ⟨u, rfl⟩

theorem export_fits : exportBad baseMapped 0 export3.toNat = false := by decide +kernel
theorem export_changes : exportBad baseExported 0 (export3 ||| 2).toNat = false := by decide +kernel
theorem nothing_mapped : anyMapped baseTable 0x10000 0x20000 walkLevels (ctxM.ptroot.toNat * 4096) 0 = false := by decide +kernel
theorem page_maps : ∃ u, mapPages ctxM 1 16 7 0 0 0x10000 1 0 baseTable = .ok u := exists_of_ok (by decide +kernel)
theorem page_remaps : ∃ u, mapPages ctxM 1 16 7 0 0 0x10000 1 0 baseMapped = .ok u := exists_of_ok (by decide +kernel)
theorem something_mapped : anyMapped baseMapped 0x10000 0x20000 walkLevels (ctxM.ptroot.toNat * 4096) 0 = true := by decide +kernel
theorem owned_mapped : baseMapped.svc.running = true ∧ baseMapped.svc.owner = some 5 := by decide +kernel
theorem windowLegal1 : WindowLegal window1 := by simp only [WindowLegal]; decide +kernel

theorem witness_MappingAndLaunchRequests :
    (mget baseTable.ctxs 1 = some ctxM ∧ (0x10000 : DWord).toNat % 2 ^ pageBits ((0 : DWord).toNat / 4 % 4) = 0 ∧
      (7 : DWord).getLsbD 0 = true ∧ (7 : DWord).getLsbD 1 = true ∧ keptRange ctxM 0x10000 0x10000 = false ∧
      anyMapped baseTable 0x10000 0x20000 walkLevels (ctxM.ptroot.toNat * 4096) 0 = false ∧
      (∃ u, mapPages ctxM 1 16 7 0 0 0x10000 1 0 baseTable = .ok u) ∧ mget baseMapped.ctxs 1 = some ctxM ∧
      anyMapped baseMapped 0x10000 0x20000 walkLevels (ctxM.ptroot.toNat * 4096) 0 = true ∧
      ∃ u, mapPages ctxM 1 16 7 0 0 0x10000 1 0 baseMapped = .ok u) ∧
    (let s : State := { baseOwned with cores := [] }
     Owns s (hostReq 5) ∧ WindowLegal window1 ∧ s.fab.tokens = [] ∧ s.fab.reqs = [] ∧ ∀ c, mget (coreOf s c).oldWin 3 = none) ∧
    (Owns baseMapped (hostReq 5) ∧ export3.getLsbD 0 = true ∧ exportBad baseMapped 0 export3.toNat = false ∧
      (mgetD baseMapped.fab.exports 0 0).getLsbD 0 = false) ∧
    ((export3 ||| 2).getLsbD 0 = true ∧ exportBad baseExported 0 (export3 ||| 2).toNat = false ∧
      (mgetD baseExported.fab.exports 0 0).getLsbD 0 = true ∧ mgetD baseExported.fab.exports 0 0 ≠ export3 ||| 2) ∧
    ((1 : BitVec 128).getLsbD 0 = true ∧ (1 : BitVec 128).extractLsb' 16 16 = 0 ∧ ((1 : BitVec 128).extractLsb' 4 4).toNat ≤ 7 ∧
      (23 : BitVec 128).extractLsb' 16 112 = 0 ∧ ((23 : BitVec 128).extractLsb' 0 8).toNat < 24) ∧
    (∀ n ∈ [0, 64], OwnsOrIn (baseLaunch n) (hostReq 5) 1 ∧ descField desc1 15 8 = 1 ∧ mget (baseLaunch n).ctxs 1 = some fetchCtx ∧
      descBad (baseLaunch n) fetchCtx 1 desc1 = false ∧ (mgetD (baseLaunch n).sched.queues 0 []).length = n) := by
  refine ⟨⟨by decide +kernel, by decide +kernel, by decide +kernel, by decide +kernel, by decide +kernel, nothing_mapped, page_maps, by decide +kernel,
      something_mapped, page_remaps⟩,
    ⟨owns_of rfl rfl, windowLegal1, rfl, rfl, fun c => rfl⟩,
    ⟨owns_of owned_mapped.1 owned_mapped.2, by decide +kernel, export_fits, by decide +kernel⟩,
    ⟨by decide +kernel, export_changes, by decide +kernel, by decide +kernel⟩, by decide +kernel,
    fun n hn => ⟨Or.inl (owns_of rfl rfl), by decide +kernel, rfl, ?_⟩⟩
  revert n; decide +kernel

/-- A halted strand of context 1, of which host 5 holds the debug rights. -/
def stop1 : StopRec := { reason := 0, bp := 0, depth := false, nsplit := 1, cycle := 0, pc := 0x10000, smask := 0xFF, holders := [5] }
def debugged (h : Option StopRec) : State :=
  let s := modStrand baseOwned 0 0 fun x => { x with halted := h }
  { s with svc := { s.svc with grants := [(5, 1)] } }
def break1 : Breakpoint := { pc := 0x10000, en := true, filter := none, setter := 5 }
def baseBreak : State := { base with ctxs := [(1, { fetchCtx with bps := [(2, break1)] })] }

/-- No frame of any stack is left. -/
def noMemory : State :=
  { baseTable with svc := { baseTable.svc with nextFrame := (List.range 16).map fun i => (i, 2 ^ 24), freeFrames := [] } }

theorem witness_DebugRequests :
    (Owns (debugged (some stop1)) (hostReq 5) ∧ (mget (debugged none).ctxs 1).isSome = true ∧
      Stands (debugged (some stop1)) 1 0 { fetchStrand with halted := some stop1 } ∧ (debugged (some stop1)).svc.grants = [(5, 1)]) ∧
    (Debugs (debugged none) (hostReq 5) 1 ∧ Debugs (debugged (some stop1)) (hostReq 5) 1 ∧
      mget (debugged none).ctxs 1 = some fetchCtx ∧ fetchCtx.trace = none ∧ (256 : DWord).toNat = 2 ^ 8) ∧
    (Stands (debugged none) 1 0 fetchStrand ∧ fetchStrand.halted = none ∧ fetchStrand.phase ≠ .ending) ∧
    (∃ bs, slotImageOf (debugged (some stop1)) 1 0 = some bs) ∧ (sget fetchStrand 63).st ≠ .pending ∧
    (0x10000 : DWord).extractLsb' 57 6 = 0 ∧ (∀ key, (hostReq 7).sender = .host key → (key, 1) ∉ (debugged none).svc.grants) ∧
    (splitAt baseBreak 0 0 = some fetchSplit ∧ strandAt baseBreak 0 0 = some fetchStrand ∧ fetchSplit.bpSkip = false ∧
      mget baseBreak.ctxs 1 = some { fetchCtx with bps := [(2, break1)] } ∧ break1.pc = fetchSplit.pc) ∧
    (let s := modSplit base 0 0 fun p => { p with yieldTo := 5 }
     splitAt { s with now := 5 } 0 0 = some { fetchSplit with yieldTo := 5 }) ∧
    (makeRing baseTable ctxM 1 traceVa 256 128).isSome = true ∧ (makeRing noMemory ctxM 1 traceVa 256 128).isSome = false ∧
    ctxM.trace = none := by
  refine ⟨⟨owns_of rfl rfl, by decide +kernel, ?_, rfl⟩, ⟨⟨rfl, ⟨5, rfl, ?_⟩, by decide +kernel⟩, ⟨rfl, ⟨5, rfl, ?_⟩, by decide +kernel⟩,
    by decide +kernel⟩, ⟨?_, by decide +kernel⟩, ?_, by decide +kernel, by decide +kernel, ?_, by decide +kernel, by decide +kernel,
    by decide +kernel, by decide +kernel, rfl⟩
  · simp only [Stands]; decide +kernel
  · simp [debugged]
  · simp [debugged]
  · simp only [Stands]; decide +kernel
  · exact Option.isSome_iff_exists.1 (by decide +kernel)
  · intro key h
    obtain rfl : 7 = key := by simpa [hostReq] using h
    simp [debugged]

/-- The launch at the head of queue 0, with its reservation, of one strand or of two; a record launch. -/
def resv2 (n : Nat) : Resv := { resv1 with lcnt := 0, nstrand := n }
def descN (n : Nat) : BitVec 1024 := BitVec.ofNat 1024 (2 ^ 8 + 0x10000 * 2 ^ 96 + n * 2 ^ 160 + 8 * 2 ^ 184 + 2 ^ 320)
def launchN (n : Nat) : Launch := { desc := descN n, placed := 0, last := none, held := true }
def counter0 : Counter := { counterOf 1 with level := 0, count := 1 }
def baseHead (n : Nat) : State :=
  { (baseK fun k => { k with resvs := [resv2 n] }) with
      counters := [(0, counter0)], sched := { base.sched with queues := [(0, [launchN n])] } }
def descR : BitVec 1024 := BitVec.ofNat 1024 (2 ^ 3 + 2 ^ 8 + 0x10000 * 2 ^ 96 + 8 * 2 ^ 184 + 2 ^ 256 + 31 * 2 ^ 272 + 63 * 2 ^ 280 + 2 ^ 320)
def launchR : Launch := { desc := descR, placed := 0, last := none, held := true }
def baseRec : State := { base with counters := [(0, counter0)], sched := { base.sched with queues := [(0, [launchR])] } }
/-- A bin whose timer has run out, and one that has expired, with one record. -/
def recW (n : Nat) : RegCell := fullCell (BitVec.ofNat 32 n)
def bin1 (b : Bool) : Bin :=
  { emptyBin with en := true, thr := 31, tmr := 63, tlc := 0, ton := !b, left := 0, expired := b, recs := [[recW 1, recW 2, recW 3, recW 4]] }
def baseBins (b : Bool) : State :=
  { (baseK fun k => { k with resvs := [resv2 1], bins := [(3, bin1 b)] }) with counters := [(0, counter0)] }

theorem witness_LaunchesAreDispatched :
    (∀ n ∈ [1, 2], HeadGoes (baseHead n) 0 (launchN n) [] 0 8 (resv2 n) counter0) ∧
    (mgetD baseRec.sched.queues 0 [] = [launchR] ∧ isRecord launchR.desc = true ∧ depCancelled baseRec launchR.desc = false ∧
      mget baseRec.ctxs (descCtx launchR.desc) = some fetchCtx ∧ missingCores baseRec fetchCtx launchR.desc = [0] ∧
      grantable baseRec fetchCtx launchR.desc = [0]) ∧
    (mget (coreOf (baseBins false) 0).bins 3 = some (bin1 false) ∧ (bin1 false).ton = true ∧ (bin1 false).left = 0 ∧
      (bin1 false).expired = false) ∧
    (mget (coreOf (baseBins true) 0).bins 3 = some (bin1 true) ∧ binDue (baseBins true) 0 3 = true ∧
      (bin1 true).recs = [[recW 1, recW 2, recW 3, recW 4]] ∧ resvOf (coreOf (baseBins true) 0) (bin1 true).tlc = some (resv2 1) ∧
      pickSlot (coreOf (baseBins true) 0) = some 8 ∧ splitsOf (baseBins true) 0 8 = [] ∧
      mget (baseBins true).counters (resv2 1).lcnt = some counter0 ∧ counter0.done = false ∧ 1 ≤ counter0.count) := by
  refine ⟨?_, by decide +kernel, by decide +kernel, by decide +kernel⟩
  simp only [HeadGoes]; decide +kernel

/-- Clusters: free with a context pending, owned with and without work, saving, restoring. -/
def cluster1 (c : Collector) (d : Int) : Cluster := { fetchCluster with coll := c, deficit := [(1, d)] }
def baseClu (x : Cluster) : State := { base with clusters := [(0, x)] }
def freeClu (r : Option Nat) : State := baseClu { fetchCluster with run := none, resident := r, last := 0 }
/-- Work of context 1 that waits, with no strand on the device. -/
def waiting1 (r : Option Nat) : State := { baseHead 1 with cores := [], clusters := (freeClu r).clusters }
/-- Two contexts with work. -/
def twoCtx : State :=
  { baseClu (cluster1 .idle 0) with
      ctxs := [(1, fetchCtx), (2, fetchCtx)],
      counters := [(0, counter0)],
      sched := { base.sched with queues := [(0, [{ launchN 1 with desc := descN 1 + 2 ^ 8 }])] } }
/-- A core that has stopped at its boundaries. -/
def baseQuiet : State :=
  { (baseK fun k => { k with stopReq := some 0, engAck := true }) with clusters := [(0, cluster1 (.saving none) 0)] }
def quietAll : State := { baseQuiet with cores := (List.range 8).map fun c => (c, { coreOf baseQuiet 0 with slots := if c = 0 then [(0, fetchStrand)] else [] }) }
def image1 : Image := { ctx := 1, core := 0, data := coreOf baseR 0, ops := [] }
def baseRestore : State := { base with clusters := [(0, cluster1 (.restoring 1) 0)], images := [image1], cores := [] }
def baseLate : State := { (modCore baseHandler 0 fun k => { k with stopReq := some 0 }) with now := 2 ^ 20 }

theorem witness_ClustersAreShared :
    (∀ r ∈ [none, some 1], (clusterAt (waiting1 r) 0).run = none ∧ (clusterAt (waiting1 r) 0).coll = .idle ∧
      nextPending (waiting1 r) 0 0 = some 1 ∧ (clusterAt (waiting1 r) 0).resident = r ∧ (waiting1 r).images = [] ∧
      mget (waiting1 r).ctxs 1 = some fetchCtx) ∧
    (let s : State := { base with cores := [] }
     (clusterAt s 0).run = some 1 ∧ (clusterAt s 0).coll = .idle ∧ pend s 0 1 = false ∧ ∀ p ∈ s.ctxs, pend s 0 p.1 = false) ∧
    ((clusterAt twoCtx 0).run = some 1 ∧ (clusterAt twoCtx 0).coll = .idle ∧ pend twoCtx 0 1 = true ∧ deficitOf (clusterAt twoCtx 0) 1 ≤ 0 ∧
      twoCtx.phys.bringIn = [] ∧ ∃ p ∈ twoCtx.ctxs, p.1 ≠ 1 ∧ pend twoCtx 0 p.1 = true) ∧
    (pend (baseClu (cluster1 .idle 0)) 0 1 = true ∧ deficitOf (clusterAt (baseClu (cluster1 .idle 0)) 0) 1 ≤ 0 ∧
      ∀ p ∈ (baseClu (cluster1 .idle 0)).ctxs, p.1 ≠ 1 → pend (baseClu (cluster1 .idle 0)) 0 p.1 = false) ∧
    (let s := baseK fun k => { k with stopReq := some 0 }
     (coreOf s 0).stopReq = some 0 ∧ (coreOf s 0).engAck = false ∧ s.ops = [] ∧ (coreOf s 0).fil = []) ∧
    ((clusterAt quietAll 0).coll = .saving none ∧ (clusterAt quietAll 0).resident = some 1 ∧ ∀ c, c < 8 → coreQuiet quietAll c = true) ∧
    ((clusterAt baseRestore 0).coll = .restoring 1 ∧ mget baseRestore.ctxs 1 = some fetchCtx ∧ baseRestore.images = [image1] ∧
      baseRestore.poison = [] ∧ baseRestore.phys.retired = []) ∧
    ∃ x, strandAt baseLate 0 0 = some x ∧ x.handling.isSome = true ∧ (coreOf baseLate 0).stopReq = some 0 ∧ 0 + 2 ^ 20 ≤ baseLate.now := by
  refine ⟨?_, ?_, ?_, ?_, ?_, ?_, ?_, _, rfl, ?_⟩ <;> decide +kernel

/-- An idle context, one whose image moves, one whose image is on flash. -/
def ctxI (res mv : Bool) (fl : Option FlashImage) : Ctx :=
  { fetchCtx with res := res, moving := mv, flash := fl, imgbase := 3 }
def baseI (x : Ctx) : State :=
  { base with ctxs := [(1, x)], cores := [], now := 2 ^ 32, phys := { base.phys with nvme := [0] } }
def cells1 : List Host.Cell := [(5, 7)]
def image2 : FlashImage := { cells := cells1, poison := [4], digest := Config.sha384 (cellBytes cells1) }
theorem exists_of_free {o : Option (Nat × State)} (h : (match o with | some p => decide (p.1 < 2 ^ 27) | none => false) = true) :
    ∃ b u, o = some (b, u) ∧ b < 2 ^ 27 := by
  cases o with
  | none => cases h
  | some p => exact ⟨p.1, p.2, rfl, of_decide_eq_true h⟩
/-- A load that waits at the service, on the page of the code; a fetch that does. -/
def svcAcc : Access := { openAcc with place := none, st := .atService 0 0 }
def svcOp : Op := { openStore with kind := .load, opc := 0x51, fields := f3, accs := [svcAcc] }
def baseSvc : State := { base with ops := [svcOp], now := 2 ^ 20 }
def fetchWaits : Split := { fetchSplit with fetch := some (0x10000, .atService 0x10000 0 0) }
/-- FZERO.tile of tile 2 in the array's queue. -/
def fTile : Fields := { zeroFields with strand := true, long := true, fn := 1, imm16 := 2 }
def filOp : Op := { openStore with kind := .fil, opc := 0x6E, fields := fTile, accs := [], work := .fil 7 }
def fil1 : FilOp :=
  { id := 7, ctx := 1, lcnt := 0, slot := 0, ops := [7], opc := 0x6E, fields := fTile, vals := [], gather := [], base := 0, spad := 128,
    nextK := 0, started := false, due := 0, sampled := false, batch := 0, pc := 0x10000, marked := [] }
def baseFil : State := { (baseK fun k => { k with fil := [fil1] }) with ops := [filOp] }

theorem debugs_halted : Debugs (debugged (some stop1)) (hostReq 5) 1 :=
  ⟨rfl, ⟨5, rfl, by simp [debugged]⟩, by decide +kernel⟩
theorem stands_halted : Stands (debugged (some stop1)) 1 0 { fetchStrand with halted := some stop1 } := by
  simp only [Stands]; decide +kernel
theorem base_queues : base.sched.queues = [] := by decide +kernel

theorem waits_svc : WaitsAtService baseSvc svcOp svcAcc fetchStrand 0 0 := by
  refine ⟨⟨rfl, rfl, rfl, rfl, by decide +kernel, rfl, by decide +kernel, rfl, rfl⟩, rfl, rfl, rfl, rfl, by decide +kernel, by decide +kernel⟩

theorem witness_PagingAndServiceAnswers :
    (base.svc.running = true ∧ mget (baseI (ctxI true false none)).ctxs 1 = some (ctxI true false none) ∧
      ctxActive (baseI (ctxI true false none)) 1 = false ∧ flashThere (baseI (ctxI true true none)) = true ∧
      (ctxI true false none).idleSince + Config.pageOutAge ≤ (baseI (ctxI true false none)).now ∧
      mget (baseI (ctxI true true none)).ctxs 1 = some (ctxI true true none)) ∧
    (mget (baseI (ctxI false true (some image2))).ctxs 1 = some (ctxI false true (some image2)) ∧
      flashThere (baseI (ctxI false true (some image2))) = true ∧ image2.digest = Config.sha384 (cellBytes image2.cells) ∧
      (∃ b u, takeImage (baseI (ctxI false true (some image2))) = some (b, u) ∧ b < 2 ^ 27) ∧
      ∀ p ∈ (baseI (ctxI false true (some image2))).sched.queues, ∀ l ∈ p.2, descCtx l.desc ≠ 1) ∧
    (keysRise cells1 = true ∧ ∀ p ∈ cells1, p.1 < imageBytes) ∧
    (Debugs (debugged (some stop1)) (hostReq 5) 1 ∧ Stands (debugged (some stop1)) 1 0 { fetchStrand with halted := some stop1 } ∧
      (sget { fetchStrand with halted := some stop1 } 0).st ≠ .pending ∧ mget (debugged (some stop1)).ctxs 1 = some fetchCtx ∧
      fetchCtx.trace = none ∧ Owns (debugged (some stop1)) (hostReq 5)) ∧
    (WaitsAtService baseSvc svcOp svcAcc fetchStrand 0 0 ∧ (lookup baseSvc 0 1 0x10000).1 = .ok fetchLeaf ∧
      leafLoc fetchLeaf.w0.toNat = 0 ∧ leafFmt fetchLeaf.w1.toNat = 0 ∧ fetchLeaf.w0.getLsbD 2 = true ∧
      f3.md.getLsbD 0 = false ∧ f3.md.getLsbD 1 = false ∧ inPrivate 0x10000 = false ∧ 0x10000 % accBytes svcOp = 0 ∧
      0 + 2 ^ 20 ≤ baseSvc.now) ∧
    (let s := modSplit base 0 0 fun _ => fetchWaits
     splitAt s 0 0 = some fetchWaits ∧ fetchWaits.fetch = some (0x10000, .atService 0x10000 0 0)) ∧
    ((coreOf baseFil 0).fil = [fil1] ∧ fil1.due ≤ baseFil.now ∧ (coreOf baseFil 0).stopReq = none ∧ (coreOf baseFil 0).rechecks = [] ∧
      fil1.fields.fn ≠ 0 ∧ fil1.ops = [filOp.id] ∧ InFlight baseFil filOp fetchStrand) :=
  ⟨by decide +kernel, ⟨rfl, by decide +kernel, rfl, exists_of_free (by decide +kernel), by simp [baseI, base_queues]⟩, by decide +kernel, ⟨debugs_halted, stands_halted, by decide +kernel,
      by decide +kernel, by decide +kernel, owns_of rfl rfl⟩, ⟨waits_svc, rfl, by decide +kernel⟩, by decide +kernel, by decide +kernel,
    (by decide +kernel : fil1.due ≤ baseFil.now), (rfl : (coreOf baseFil 0).stopReq = none), (rfl : (coreOf baseFil 0).rechecks = []),
    by decide +kernel, (rfl : fil1.ops = [filOp.id]), ⟨rfl, rfl, rfl, rfl, by decide +kernel, rfl, by decide +kernel, rfl, rfl⟩⟩

/-! Encodings and the step -/

theorem witness_DecodeEncodeRoundTrip :
    (Instr.iadd { f3 with c := 0 }).wf = true ∧ (Instr.iadd { f3 with c := 0 }).encoded = true ∧ decode (encode (Instr.iadd { f3 with c := 0 })) = .ok (Instr.iadd { f3 with c := 0 }) :=
  ⟨by decide +kernel, by decide +kernel, rfl⟩

/-- NOP at the PC, and the machine's turn. -/
def baseCode : State := placeInstr State.reset (encode (Instr.nop zeroFields))

/-- A strand that was cancelled, halted and so without an issue. -/
def endsX : Strand := { fetchStrand with halted := some stop1, cancelNext := some 0 }
def baseEnds : State := modStrand baseCode 0 0 fun _ => endsX

theorem code_at : CodeAt baseCode 0 1 0x10000 fetchLeaf := ⟨rfl, by decide +kernel⟩

/-- The core serves its blocked operations: the split is blocked, or another one is and this one is tried. -/
def baseServe (b : Bool) : State := modCore baseCode 0 fun k =>
  { k with serving := true, splits := [(0, { fetchSplit with blocked := if b then some (.qpop 2, 0) else none })] }

theorem witness_StepRunsDecoded :
    (baseCode.power.phase = .running ∧ InboxWaits baseCode ∧ internalAct baseCode = none ∧
      nextIssue baseCode = some (issueAct baseCode 0 0) ∧ Fetches baseCode baseCode 0 0 (Instr.nop zeroFields)) ∧
    (∀ b, (baseServe b).power.phase = .running ∧ InboxWaits (baseServe b) ∧ internalAct (baseServe b) = none ∧
      nextIssue (baseServe b) = some (serveAct (baseServe b) 0 0) ∧
      (∃ p, splitAt (baseServe b) 0 0 = some p ∧ p.blocked.isSome = b) ∧
      ∃ t, Fetches (modSplit (baseServe b) 0 0 fun q => { q with turn := some false }) t 0 0 (Instr.nop zeroFields)) ∧
    (fetchSplit.pc.toNat + 20 ≤ 2 ^ 57 ∧ wordCount (BitVec.ofNat 32 (leNat (peeks baseCode.mem 0x10000 4))) = 1 ∧
      CodeAt baseCode 0 1 0x10000 fetchLeaf) ∧
    (let s : State := { State.reset with inbox := [(3, Instr.vinRemoved)] }
     s.inbox = [(3, Instr.vinRemoved)] ∧ s.power.phase ≠ .running) ∧
    (let s : State := { State.reset with power := { Power.reset with phase := .running } }
     s.power.phase = .running ∧ internalAct s = none ∧ nextIssue s = none ∧ dueCancel s = none ∧ NoBarriers s ∧ NoAborts s) ∧
    (baseEnds.power.phase = .running ∧ internalAct baseEnds = none ∧ nextIssue baseEnds = none ∧
      liveStrands baseEnds = [(0, 0, endsX)] ∧ endsX.phase ≠ .ending ∧ endsX.cancelNext = some 0 ∧
      trapFirst baseEnds 0 0 endsX 0 = false) := by
  refine ⟨⟨by decide +kernel, fun q r h => ?_, by decide +kernel, by rfl, ?_⟩, fun b => ⟨?_, fun q r h => ?_, ?_, ?_, ?_, ?_⟩,
    ⟨by decide +kernel, by decide +kernel, code_at⟩, by decide +kernel,
    by simp only [NoBarriers, NoAborts]; decide +kernel, by decide +kernel, by decide +kernel, by rfl, by decide +kernel⟩
  · cases h
  · exact ⟨_, _, _, rfl, rfl, rfl, rfl, rfl, rfl⟩
  · cases b <;> rfl
  · cases b <;> cases h
  · cases b <;> rfl
  · cases b <;> rfl
  · cases b <;> exact ⟨_, rfl, rfl⟩
  · cases b <;> exact ⟨_, _, _, _, rfl, rfl, rfl, rfl, rfl, rfl⟩

theorem witness_MemoryFormKept : Inv baseCode ∧ ∃ t, step baseCode = .next t :=
  ⟨by simp only [Sys2Proof.Safety.Inv]; decide +kernel, _, rfl⟩

theorem witness_StepNeverStops : EventsOnly baseCode ∧
    (let s : State := { State.reset with inbox := [(3, Instr.vinRemoved)] }
     EventsOnly s) := by
  simp only [EventsOnly]; decide +kernel

/-! Words of R226 to R228 for the opcodes of R238 -/

theorem test_decode_integer :
    decoded [0] = .ok (.nop zeroFields) ∧
    decoded [0x070C1408] = .ok (.iadd { zeroFields with d := 5, a := 6, b := 7 }) ∧
    decoded [0x070C1410] = .ok (.isub { zeroFields with d := 5, a := 6, b := 7 }) ∧
    decoded [0x070C1418] = .ok (.imul { zeroFields with d := 5, a := 6, b := 7 }) ∧
    decoded [0x070C1420] = .ok (.imulh { zeroFields with d := 5, a := 6, b := 7 }) ∧
    decoded [0x070C1429, 0x00000090, 0] = .ok (.imad { zeroFields with d := 5, a := 6, b := 7, c := 9, long := true }) ∧
    decoded [0x070C1430] = .ok (.idiv { zeroFields with d := 5, a := 6, b := 7 }) ∧
    decoded [0x070C1438] = .ok (.irem { zeroFields with d := 5, a := 6, b := 7 }) ∧
    decoded [0x070C1440] = .ok (.imin { zeroFields with d := 5, a := 6, b := 7 }) ∧
    decoded [0x070C1448] = .ok (.imax { zeroFields with d := 5, a := 6, b := 7 }) ∧
    decoded [0x000C1450] = .ok (.iabs { zeroFields with d := 5, a := 6 }) ∧
    decoded [0x000C1458] = .ok (.ineg { zeroFields with d := 5, a := 6 }) ∧
    decoded [0x070C1460] = .ok (.and { zeroFields with d := 5, a := 6, b := 7 }) ∧
    decoded [0x070C1468] = .ok (.or { zeroFields with d := 5, a := 6, b := 7 }) ∧
    decoded [0x070C1470] = .ok (.xor { zeroFields with d := 5, a := 6, b := 7 }) ∧
    decoded [0x000C1478] = .ok (.not { zeroFields with d := 5, a := 6 }) ∧
    decoded [0x070C1480] = .ok (.shl { zeroFields with d := 5, a := 6, b := 7 }) ∧
    decoded [0x070C1488] = .ok (.shr { zeroFields with d := 5, a := 6, b := 7 }) ∧
    decoded [0x070C1490] = .ok (.sar { zeroFields with d := 5, a := 6, b := 7 }) ∧
    decoded [0x070C1498] = .ok (.rot { zeroFields with d := 5, a := 6, b := 7 }) ∧
    decoded [0x070C14A0] = .ok (.bfx { zeroFields with d := 5, a := 6, b := 7 }) ∧
    decoded [0x070C14A9, 0x00000090, 0] = .ok (.bfi { zeroFields with d := 5, a := 6, b := 7, c := 9, long := true }) ∧
    decoded [0x000C14B0] = .ok (.popc { zeroFields with d := 5, a := 6 }) ∧
    decoded [0x000C14B8] = .ok (.clz { zeroFields with d := 5, a := 6 }) ∧
    decoded [0x000C14C0] = .ok (.brev { zeroFields with d := 5, a := 6 }) ∧
    decoded [0x070C14C9, 0x0000C000, 0] = .ok (.icmp { zeroFields with d := 5, a := 6, b := 7, fn := 3, long := true }) ∧
    decoded [0x080C14D1, 0x00000070, 0] = .ok (.sel { zeroFields with d := 5, a := 6, b := 8, c := 7, long := true }) ∧
    decoded [0x070014D8] = .ok (.mov { zeroFields with d := 5, b := 7 }) ∧
    decoded [0x070C10E0] = .ok (.lea { zeroFields with d := 4, a := 6, b := 7, ty := .n64 }) ∧
    decoded [0x070C14E8] = .ok (.plop { zeroFields with d := 5, a := 6, b := 7 }) ∧
    decoded [0x000C14F0] = .ok (.cvti { zeroFields with d := 5, a := 6 }) ∧
    decoded [0x070C14F9, 0x06C00090, 0] = .ok (.idot4 { zeroFields with d := 5, a := 6, b := 7, c := 9, ty := .i8, md := 1, long := true }) := by
  refine ⟨?_, ?_, ?_, ?_, ?_, ?_, ?_, ?_, ?_, ?_, ?_, ?_, ?_, ?_, ?_, ?_, ?_, ?_, ?_, ?_, ?_, ?_, ?_, ?_, ?_, ?_, ?_, ?_, ?_, ?_, ?_, ?_⟩ <;> rfl

theorem test_decode_floating :
    decoded [0x070C1500] = .ok (.fadd { zeroFields with d := 5, a := 6, b := 7, ty := .f32 }) ∧
    decoded [0x070C1508] = .ok (.fsub { zeroFields with d := 5, a := 6, b := 7, ty := .f32 }) ∧
    decoded [0x070C1510] = .ok (.fmul { zeroFields with d := 5, a := 6, b := 7, ty := .f32 }) ∧
    decoded [0x070C1519, 0x15000090, 0] = .ok (.ffma { zeroFields with d := 5, a := 6, b := 7, c := 9, ty := .f32, md := 5, long := true }) ∧
    decoded [0x070C1520] = .ok (.fmin { zeroFields with d := 5, a := 6, b := 7, ty := .f32 }) ∧
    decoded [0x070C1528] = .ok (.fmax { zeroFields with d := 5, a := 6, b := 7, ty := .f32 }) ∧
    decoded [0x070C1530] = .ok (.fdiv { zeroFields with d := 5, a := 6, b := 7, ty := .f32 }) ∧
    decoded [0x000C1538] = .ok (.fsqrt { zeroFields with d := 5, a := 6, ty := .f32 }) ∧
    decoded [0x000C1540] = .ok (.frcp { zeroFields with d := 5, a := 6, ty := .f32 }) ∧
    decoded [0x000C1548] = .ok (.frsq { zeroFields with d := 5, a := 6, ty := .f32 }) ∧
    decoded [0x000C1550] = .ok (.fexp2 { zeroFields with d := 5, a := 6, ty := .f32 }) ∧
    decoded [0x000C1558] = .ok (.flog2 { zeroFields with d := 5, a := 6, ty := .f32 }) ∧
    decoded [0x000C1560] = .ok (.ftrig { zeroFields with d := 5, a := 6, ty := .f32 }) ∧
    decoded [0x070C1568] = .ok (.fcmp { zeroFields with d := 5, a := 6, b := 7, ty := .f32 }) ∧
    decoded [0x000C1570] = .ok (.fclass { zeroFields with d := 5, a := 6, ty := .f32 }) ∧
    decoded [0x00101D79, 0x01C10000, 0] = .ok (.cvt { zeroFields with d := 7, a := 8, fn := 4, ty := .e4m3, long := true }) ∧
    decoded [0x000C1580] = .ok (.frnd { zeroFields with d := 5, a := 6, ty := .f32 }) ∧
    decoded [0x070C1589, 0x03800090, 0] = .ok (.fdot2 { zeroFields with d := 5, a := 6, b := 7, c := 9, ty := .h2, long := true }) ∧
    decoded [0x070C1591, 0x01000000, 0x09000000] = .ok (.qenc { zeroFields with d := 5, a := 6, b := 7, ty := .f32, aux := 9, long := true }) ∧
    decoded [0x070C1599, 0x01010000, 0] = .ok (.qdec { zeroFields with d := 5, a := 6, b := 7, ty := .f32, fn := 4, long := true }) := by
  refine ⟨?_, ?_, ?_, ?_, ?_, ?_, ?_, ?_, ?_, ?_, ?_, ?_, ?_, ?_, ?_, ?_, ?_, ?_, ?_, ?_⟩ <;> rfl

theorem test_decode_lanes :
    decoded [0x070C15A1, 0, 0] = .ok (.shfl { zeroFields with d := 5, a := 6, b := 7, long := true }) ∧
    decoded [0x000C15A9, 0, 0] = .ok (.vote { zeroFields with d := 5, a := 6, long := true }) ∧
    decoded [0x000C15B1, 0, 0x09000000] = .ok (.lred { zeroFields with d := 5, a := 6, aux := 9, long := true }) ∧
    decoded [0x000C15B9, 0, 0] = .ok (.lscan { zeroFields with d := 5, a := 6, long := true }) ∧
    decoded [0x000C15C1, 0, 0] = .ok (.xmov { zeroFields with d := 5, a := 6, long := true }) ∧
    decoded [0x000015C9, 0, 0x00000010] = .ok (.getsr { zeroFields with d := 5, imm16 := 16, long := true }) ∧
    decoded [0x000C01D5, 0, 0x00000051] = .ok (.setsr { zeroFields with strand := true, a := 6, imm16 := 81, long := true }) := by
  refine ⟨?_, ?_, ?_, ?_, ?_, ?_, ?_⟩ <;> rfl

theorem test_decode_control :
    decoded [0x000C01E5, 0, 0x00000012] = .ok (.bra { zeroFields with strand := true, a := 6, imm16 := 18, long := true }) ∧
    decoded [0x000C01ED, 0x00024000, 0x00000012] = .ok (.brx { zeroFields with strand := true, a := 6, fn := 9, imm16 := 18, long := true }) ∧
    decoded [0x000001F5, 0, 0x00000012] = .ok (.call { zeroFields with strand := true, imm16 := 18, long := true }) ∧
    decoded [0x000C01FC] = .ok (.jmpr { zeroFields with strand := true, a := 6 }) ∧
    decoded [0x00000205, 0, 0x00000009] = .ok (.regang { zeroFields with strand := true, imm16 := 9, long := true }) ∧
    decoded [0x0000020C] = .ok (.exit { zeroFields with strand := true }) ∧
    decoded [0x00000214] = .ok (.hzwait { zeroFields with strand := true }) ∧
    decoded [0x0000021D, 0x00004000, 0x00000012] = .ok (.hzbr { zeroFields with strand := true, imm16 := 18, fn := 1, long := true }) ∧
    decoded [0x00001620] = .ok (.hztest { zeroFields with d := 5 }) ∧
    decoded [0x0700022D, 0x00024000, 0x00000012] = .ok (.albr { zeroFields with strand := true, b := 7, fn := 9, imm16 := 18, long := true }) ∧
    decoded [0x070C0234] = .ok (.dstbind { zeroFields with strand := true, a := 6, b := 7 }) ∧
    decoded [0x070C163C] = .ok (.bar { zeroFields with strand := true, d := 5, a := 6, b := 7, scope := .dev }) ∧
    decoded [0x07000244] = .ok (.waitb { zeroFields with strand := true, b := 7 }) ∧
    decoded [0x0000164C] = .ok (.fbatch { zeroFields with strand := true, d := 5 }) ∧
    decoded [0x00000254] = .ok (.opfence { zeroFields with strand := true }) ∧
    decoded [0x0000025D, 0, 0x00000009] = .ok (.trap { zeroFields with strand := true, imm16 := 9, long := true }) ∧
    decoded [0x00000264] = .ok (.tret { zeroFields with strand := true }) ∧
    decoded [0x00000265, 0x00004000, 0] = .ok (.tretReplay { zeroFields with strand := true, fn := 1, long := true }) ∧
    decoded [0x00000265, 0x00008000, 0] = .ok (.tretTerm { zeroFields with strand := true, fn := 2, long := true }) ∧
    decoded [0x0700026C] = .ok (.yield { zeroFields with strand := true, b := 7 }) ∧
    decoded [0x00000275, 0, 0x00000009] = .ok (.mark { zeroFields with strand := true, imm16 := 9, long := true }) ∧
    decoded [0x0000027C] = .ok (.brk { zeroFields with strand := true }) ∧
    decoded [0x000C1685, 0, 0x00000009] = .ok (.sys { zeroFields with strand := true, d := 5, a := 6, imm16 := 9, long := true }) := by
  refine ⟨?_, ?_, ?_, ?_, ?_, ?_, ?_, ?_, ?_, ?_, ?_, ?_, ?_, ?_, ?_, ?_, ?_, ?_, ?_, ?_, ?_, ?_, ?_⟩ <;> rfl

theorem test_decode_memory :
    decoded [0x000C1689, 0, 0x00000012] = .ok (.ld { zeroFields with d := 5, a := 6, imm16 := 18, long := true }) ∧
    decoded [0x070C0291, 0x70000000, 0x00800000] = .ok (.st { zeroFields with a := 6, b := 7, md := 28, hz := true, long := true }) ∧
    decoded [0x000C169C] = .ok (.lds { zeroFields with strand := true, d := 5, a := 6, scope := .dev }) ∧
    decoded [0x070C02A4] = .ok (.sts { zeroFields with strand := true, a := 6, b := 7, scope := .dev }) ∧
    decoded [0x000C16A8] = .ok (.ldsp { zeroFields with d := 5, a := 6, scope := .dev }) ∧
    decoded [0x070C02B0] = .ok (.stsp { zeroFields with a := 6, b := 7, scope := .dev }) ∧
    decoded [0x070C16B9, 0x00018000, 0x00130000] = .ok (.atom { zeroFields with d := 5, a := 6, b := 7, fn := 6, ord := .sc, scope := .sys, long := true }) ∧
    decoded [0x070C16C1, 0x00000090, 0x000C0000] = .ok (.cas { zeroFields with d := 5, a := 6, b := 7, c := 9, ord := .ar, long := true }) ∧
    decoded [0x070C02C8] = .ok (.cellAdd { zeroFields with a := 6, b := 7, ty := .f32, scope := .dev }) ∧
    decoded [0x070C02D0] = .ok (.cellInit { zeroFields with a := 6, b := 7, scope := .dev }) ∧
    decoded [0x000C16D1, 0x00004000, 0] = .ok (.cellRead { zeroFields with d := 5, a := 6, fn := 1, long := true }) ∧
    decoded [0x000C16D1, 0x00008000, 0] = .ok (.cellReadz { zeroFields with d := 5, a := 6, fn := 2, long := true }) ∧
    decoded [0x000002DD, 0, 0x00090000] = .ok (.fence { zeroFields with strand := true, ord := .rel, scope := .clu, long := true }) ∧
    decoded [0x000C02E1, 0x00004000, 0x00400000] = .ok (.pref { zeroFields with a := 6, cache := 2, fn := 1, long := true }) ∧
    decoded [0x070C02ED, 0, 0x00000005] = .ok (.qcfg { zeroFields with strand := true, a := 6, b := 7, imm16 := 5, long := true }) ∧
    decoded [0x000016F5, 0x0000C000, 0x00000006] = .ok (.qctl { zeroFields with strand := true, d := 5, fn := 3, imm16 := 6, long := true }) ∧
    decoded [0x000C16FD, 0x00004000, 0] = .ok (.tkacq { zeroFields with strand := true, d := 5, a := 6, fn := 1, long := true }) ∧
    decoded [0x000C0304] = .ok (.tkrel { zeroFields with strand := true, a := 6 }) := by
  refine ⟨?_, ?_, ?_, ?_, ?_, ?_, ?_, ?_, ?_, ?_, ?_, ?_, ?_, ?_, ?_, ?_, ?_, ?_⟩ <;> rfl

theorem test_decode_engines :
    decoded [0x0808170D, 0, 0x00800000] = .ok (.netwr { zeroFields with strand := true, d := 5, a := 4, b := 8, hz := true, long := true }) ∧
    decoded [0x08081715, 0, 0x00600000] = .ok (.netrd { zeroFields with strand := true, d := 5, a := 4, b := 8, cache := 3, long := true }) ∧
    decoded [0x0008171D, 0, 0] = .ok (.netsend { zeroFields with strand := true, d := 5, a := 4, long := true }) ∧
    decoded [0x08081725, 0x00004000, 0] = .ok (.netpost { zeroFields with strand := true, d := 5, a := 4, b := 8, fn := 1, long := true }) ∧
    decoded [0x0708172D, 0x0000C000, 0] = .ok (.cpy { zeroFields with strand := true, d := 5, a := 4, b := 7, fn := 3, long := true }) ∧
    decoded [0x00081735, 0, 0x000E0000] = .ok (.collBar { zeroFields with strand := true, d := 5, a := 4, ord := .ar, scope := .dev, long := true }) ∧
    decoded [0x00081735, 0x00004000, 0x00020000] = .ok (.collRed { zeroFields with strand := true, d := 5, a := 4, scope := .dev, fn := 1, long := true }) ∧
    decoded [0x00081735, 0x00008000, 0x00020000] = .ok (.collBcast { zeroFields with strand := true, d := 5, a := 4, scope := .dev, fn := 2, long := true }) ∧
    decoded [0x00081735, 0x0000C000, 0x00020000] = .ok (.collGather { zeroFields with strand := true, d := 5, a := 4, scope := .dev, fn := 3, long := true }) ∧
    decoded [0x00081735, 0x00010000, 0x00020000] = .ok (.collAbort { zeroFields with strand := true, d := 5, a := 4, scope := .dev, fn := 4, long := true }) ∧
    decoded [0x070C0338] = .ok (.emit { zeroFields with a := 6, b := 7 }) ∧
    decoded [0x00001745, 0x00004000, 0x00000012] = .ok (.spawn { zeroFields with strand := true, d := 5, fn := 1, imm16 := 18, long := true }) ∧
    decoded [0x000C174C] = .ok (.cancel { zeroFields with strand := true, d := 5, a := 6 }) ∧
    decoded [0x000C1754] = .ok (.wcnt { zeroFields with strand := true, d := 5, a := 6 }) ∧
    decoded [0x0808035D, 0x140000C0, 0x0900000F] = .ok (.fmma { zeroFields with strand := true, a := 4, b := 8, c := 12, md := 5, aux := 9, imm16 := 15, long := true }) ∧
    decoded [0x00000364] = .ok (.fdrain { zeroFields with strand := true }) ∧
    decoded [0x0000036C] = .ok (.fmerge { zeroFields with strand := true }) ∧
    decoded [0x00000374] = .ok (.fzeroBank { zeroFields with strand := true }) ∧
    decoded [0x00000375, 0x00004000, 0x0000000F] = .ok (.fzeroTile { zeroFields with strand := true, fn := 1, imm16 := 15, long := true }) ∧
    decoded [0x0508037D, 0x00008060, 0x0000000F] = .ok (.facc { zeroFields with strand := true, a := 4, b := 5, c := 6, fn := 2, imm16 := 15, long := true }) ∧
    decoded [0x000C0384] = .ok (.fcfg { zeroFields with strand := true, a := 6 }) ∧
    decoded [0x0000178D, 0, 0x09000000] = .ok (.claspset { zeroFields with strand := true, d := 5, aux := 9, long := true }) := by
  refine ⟨?_, ?_, ?_, ?_, ?_, ?_, ?_, ?_, ?_, ?_, ?_, ?_, ?_, ?_, ?_, ?_, ?_, ?_, ?_, ?_, ?_, ?_⟩ <;> rfl

/-! Ill-formed terms -/

/-- What the checks of R241 find in an instruction. -/
def refusedAt (i : Instr) : Option FieldError := (instrParts i).bind fun p => fieldError (fieldSpec i) p.2
/-- A 96-bit IADD, a strand-side one. -/
def gLong : Fields := { zeroFields with long := true, d := 1, a := 2, b := 3 }
def gStrand : Fields := { zeroFields with strand := true, long := true }

/-- One term for each check of R241 and for PRIV (R242): no one is well-formed. -/
theorem test_wf_refuses : ∀ p ∈ [
    (Instr.exit { gStrand with strand := false }, FieldError.illegal 1), (.ffma { gLong with long := false, ty := .f32 }, .illegal 2),
    (.iadd { gLong with ty := .i64 }, .illegal 3), (.iadd { gLong with strand := true, a := 96 }, .illegal 4),
    (.iadd { gLong with hasLit := true, lit := 5 }, .illegal 5), (.plop { gLong with imm := true }, .illegal 6),
    (.iadd { gLong with c := 1 }, .illegal 8), (.mov { gLong with a := 0, ea := true }, .illegal 9),
    (.iadd { gLong with imm := true, eb := true }, .illegal 10), (.iadd { gLong with ec := true }, .illegal 11),
    (.sys { gStrand with fn := 0x80 }, .priv), (.iadd { gLong with fn := 1 }, .illegal 12), (.iadd { gLong with ty := .f32 }, .illegal 13),
    (.iadd { gLong with md := 2 }, .illegal 14), (.regang { gStrand with imm16 := 256 }, .illegal 15),
    (.iadd { gLong with scope := .dev }, .illegal 16), (.iadd { gLong with ord := .acq }, .illegal 17),
    (.iadd { gLong with cache := 1 }, .illegal 18), (.iadd { gLong with hz := true }, .illegal 19),
    (.iadd { gLong with aux := 1 }, .illegal 20), (.iabs { gLong with b := 0, hasLit := true }, .illegal 21)],
    refusedAt p.1 = some p.2 ∧ p.1.wf = false := by decide +kernel

/-- Well-formedness also refuses a short form with a field of word 1, a literal value without a literal, and fields of another row. -/
theorem test_wf_refuses_shape : ∀ i ∈ [Instr.iadd { gLong with long := false, g := 1 }, .iadd { gLong with lit := 5 },
    .tretReplay gStrand, .cellRead { gLong with d := 2, b := 0 }], i.wf = false := by decide +kernel

/-! Worked examples of chapters 13 and 14 -/

/-- One lane of one slice. -/
def baseLane (a b c : Word) : State :=
  modSplit (baseX fun x => vset (vset (vset { x with exited := 0xFFFFFFFE } 2 0 (fullCell a)) 3 0 (fullCell b)) 4 0 (fullCell c)) 0 0
    fun p => { p with smask := 1 }
/-- The strand after an instruction; v1 of lane 0, and FPFLAGS. -/
def strandAfter (i : Instr) (s : State) : Option Strand :=
  match exec i s with
  | .next t => strandAt t 0 0
  | _ => none
def laneResult (i : Instr) (a b c : Word) : Option Word := (strandAfter i (baseLane a b c)).map fun x => (vget x 1 0).val
def laneFlags (i : Instr) (a b c : Word) : Option (BitVec 6) := (strandAfter i (baseLane a b c)).map fun x => x.fpflags
/-- D v1, A v2, B v3 with a type, a modifier and a function. -/
def g3 (ty : Ty) (md : BitVec 6 := 0) (fn : BitVec 8 := 0) : Fields := { gLong with ty := ty, md := md, fn := fn }
def g4 (ty : Ty) (md : BitVec 6 := 0) : Fields := { g3 ty md with c := 4 }
def g2 (ty : Ty) (md : BitVec 6 := 0) (fn : BitVec 8 := 0) : Fields := { g3 ty md fn with b := 0 }

/-- R247, R248: the table of values. -/
theorem test_integer_values : ∀ p ∈ [
    (Instr.iadd (g3 .i8 1), (100 : Nat), (100 : Nat), 0x7F), (.iadd (g3 .i8), 100, 100, 0xFFFFFFC8), (.isub (g3 .n32 1), 3, 5, 0),
    (.imulh (g3 .i32), 0x80000000, 2, 0xFFFFFFFF), (.imulh (g3 .n32), 0x80000000, 2, 1), (.idiv (g3 .n8), 7, 0, 0xFF),
    (.idiv (g3 .i32), 0x80000000, 0xFFFFFFFF, 0x80000000), (.irem (g3 .i32), 0xFFFFFFF9, 2, 0xFFFFFFFF),
    (.iabs (g2 .i32), 0x80000000, 0, 0x80000000), (.iabs (g2 .i32 1), 0x80000000, 0, 0x7FFFFFFF)],
    laneResult p.1 (BitVec.ofNat 32 p.2.1) (BitVec.ofNat 32 p.2.2.1) 0 = some (BitVec.ofNat 32 p.2.2.2) := by decide +kernel

/-- R249, R250, R252, R254, R255: shifts modulo the width, bit fields, conversions and the byte product. -/
theorem test_logic_values : ∀ p ∈ [
    (Instr.shl (g3 .i32), (3 : Nat), (33 : Nat), (0 : Nat), 6), (.shr (g3 .i8), 0x80, 1, 0, 0x40), (.bfx (g3 .i32), 0xF30, 0x404, 0, 3),
    (.bfx (g3 .i32), 0xF30, 0x808, 0, 15), (.bfx (g3 .i32), 0xF30, 0x604, 0, 0xFFFFFFF3), (.cvti (g2 .i8 0 0), 300, 0, 0, 44), (.cvti (g2 .i8 1 0), 300, 0, 0, 127),
    (.cvti (g2 .n32 0 11), 0xFFFFFF80, 0, 0, 0xFFFFFF80), (.idot4 (g4 .i8), 0x80FF0201, 0x02020202, 10, 2 ^ 32 - 242),
    (.idot4 (g4 .n8), 0x80FF0201, 0x02020202, 10, 782), (.mov { g3 .f32 with a := 0, imm := true }, 0, 0, 0, 0x40400000),
    (.mov { g3 .e4m3 with a := 0, imm := true, b := 61 }, 0, 0, 0, 0x67)],
    laneResult p.1 (BitVec.ofNat 32 p.2.1) (BitVec.ofNat 32 p.2.2.1) (BitVec.ofNat 32 p.2.2.2.1) = some (BitVec.ofNat 32 p.2.2.2.2) := by
  decide +kernel

/-- R266, R268, R271, R272: single rounding, the dot product, classes, and rounding to an integral value. Flags: NX is bit 4. -/
theorem test_float_values : ∀ p ∈ [
    (Instr.fmul (g3 .f32), (0x3F800800 : Nat), (0x3F800800 : Nat), (0 : Nat), (0x3F801000 : Nat), (16 : Nat)),
    (.fadd (g3 .f32), 0x3F801000, 0xBF801000, 0, 0, 0), (.ffma (g4 .f32), 0x3F800800, 0x3F800800, 0xBF801000, 0x33800000, 0),
    (.fdot2 (g4 .h2), 0x40003E00, 0xB4004000, 0x3F800000, 0x40600000, 0), (.fclass (g2 .e4m3), 0x80, 0, 0, 8, 0),
    (.fclass (g2 .e5m2), 0x7D, 0, 0, 0x100, 0), (.frnd (g2 .f32 0 2), 0xBE99999A, 0, 0, 0x80000000, 0)],
    laneResult p.1 (BitVec.ofNat 32 p.2.1) (BitVec.ofNat 32 p.2.2.1) (BitVec.ofNat 32 p.2.2.2.1) = some (BitVec.ofNat 32 p.2.2.2.2.1) ∧
    laneFlags p.1 (BitVec.ofNat 32 p.2.1) (BitVec.ofNat 32 p.2.2.1) (BitVec.ofNat 32 p.2.2.2.1) = some (BitVec.ofNat 6 p.2.2.2.2.2) := by
  decide +kernel

/-- R275: the table of conversions (RM 0, SAT8 0); NV is bit 0, OF bit 2. -/
theorem test_convert_values : ∀ p ∈ [
    (Instr.cvt (g2 .f16 0 4), (0x3E99999A : Nat), (0 : Nat), (0x34CD : Nat), (16 : Nat)), (.cvt (g2 .e4m3 0 4), 0x3E99999A, 0, 0x2A, 16),
    (.cvt (g2 .e5m2 0 4), 0x3E99999A, 0, 0x35, 16), (.cvt (g2 .e4m3 0 4), 0x447A0000, 0, 0x7F, 20),
    (.cvt (g2 .i32 0 4), 0xC0200000, 0, 0xFFFFFFFE, 16), (.cvt (g2 .i32 6 4), 0xC0200000, 0, 0xFFFFFFFD, 16),
    (.cvt (g2 .n8 0 4), 0xC0200000, 0, 0, 1), (.cvt (g3 .h2 0 4), 0x3FC00000, 0xBDC00000, 0xAE003E00, 0),
    (.cvt (g2 .f32 0 0x1E), 0xAE003E00, 0, 0xBDC00000, 0)],
    laneResult p.1 (BitVec.ofNat 32 p.2.1) (BitVec.ofNat 32 p.2.2.1) 0 = some (BitVec.ofNat 32 p.2.2.2.1) ∧
    laneFlags p.1 (BitVec.ofNat 32 p.2.1) (BitVec.ofNat 32 p.2.2.1) 0 = some (BitVec.ofNat 6 p.2.2.2.2) := by
  decide +kernel

/-- R276, R277: codes of the block of R156 under exponent 0x81, and back; SAT is bit 5 of FPFLAGS. -/
theorem test_block_values : ∀ p ∈ [
    (Instr.qenc (g3 .f32 0 4), (0x40400000 : Nat), (0x81 : Nat), (6 : Nat)), (.qenc (g3 .f32 0 4), 0xBFA00000, 0x81, 0xFFFFFFFE),
    (.qenc (g3 .f32 0 4), 0x3ECCCCCD, 0x81, 1), (.qdec (g3 .f32 0 4), 6, 0x81, 0x40400000), (.qdec (g3 .f32 0 4), 0xFFFFFFFE, 0x81, 0xBF800000),
    (.qdec (g3 .f32 0 4), 1, 0x81, 0x3F000000)],
    laneResult p.1 (BitVec.ofNat 32 p.2.1) (BitVec.ofNat 32 p.2.2.1) 0 = some (BitVec.ofNat 32 p.2.2.2) := by decide +kernel

/-- R259: the strand of two slices whose lane 3 has exited. -/
def baseTwo : State :=
  let vals : List Nat := [5, 2 ^ 32 - 2, 7, 9, 1, 4, 2 ^ 32 - 6, 3]
  modSplit (baseX fun x => (vals.zipIdx.foldl (fun x p => vset x 10 p.2 (fullCell (BitVec.ofNat 32 p.1)))
    (sset { x with slices := 2, exited := 8 } 20 (fullCell 0xFF)))) 0 0 fun p => { p with smask := 3 }
def row10 (i : Instr) : Option (List Int) :=
  (strandAfter i baseTwo).map fun x => [0, 1, 2, 4, 5, 6, 7].map fun l => (vget x 12 l).val.toInt
theorem test_lane_values :
    row10 (.lred { gLong with d := 12, a := 10, b := 0, aux := 20 }) = some [12, 12, 12, 12, 12, 12, 12] ∧
    row10 (.lscan { gLong with d := 12, a := 10, b := 0, aux := 20 }) = some [5, 3, 10, 11, 15, 9, 12] ∧
    row10 (.lscan { gLong with d := 12, a := 10, b := 0, md := 2, aux := 20 }) = some [0, 5, 3, 10, 11, 15, 9] ∧
    row10 (.shfl { gLong with d := 12, a := 10, b := 1, imm := true, fn := 2, aux := 20 }) = some [-2, 7, 7, 4, -6, 3, 3] := by
  decide +kernel

end Sys2Proof.Tests
end

section
/-! PROOFS. What the consequences of a fatal termination leave alone (R46, R70, R76, R97, R98, R182): they bring back no split and no
strand, and change neither the phase of a strand nor the code with which it has ended. -/
namespace Sys2Proof.Machine

/-! ### Reading and changing a map -/

/-- What a map lists for a key is one of its entries. -/
theorem mem_of_mget {α : Type} {m : List (Nat × α)} {k : Nat} {x : α} (h : mget m k = some x) : (k, x) ∈ m := by
  induction m with
  | nil => cases h
  | cons p r ih =>
      obtain ⟨k', y⟩ := p
      by_cases hk : k' = k
      · subst hk
        obtain rfl : y = x := by simpa [mget] using h
        exact List.mem_cons_self
      · exact List.mem_cons_of_mem _ (ih (by simpa [mget, hk] using h))

/-- A change of every value changes the value of a key. -/
theorem mget_mmap {α : Type} (m : List (Nat × α)) (f : Nat → α → α) (k : Nat) : mget (mmap m f) k = (mget m k).map (f k) := by
  induction m with
  | nil => rfl
  | cons p r ih =>
      obtain ⟨k', y⟩ := p
      by_cases hk : k' = k
      · subst hk
        simp [mmap, mget]
      · simpa [mmap, mget, hk] using ih

/-- A value read back after a write is the written one, or an old one under its own key. -/
theorem mget_mput_cases {α : Type} {m : List (Nat × α)} {k j : Nat} {x y : α} (h : mget (mput m k x) j = some y) :
    (j = k ∧ y = x) ∨ mget m j = some y := by
  by_cases hj : j = k
  · subst hj
    exact .inl ⟨rfl, by simpa using h.symm⟩
  · exact .inr (by rwa [mget_mput_ne m x hj] at h)

/-- An entry of a written map is the written one, or an old one. -/
theorem mem_mput {α : Type} {m : List (Nat × α)} {k : Nat} {x : α} {p : Nat × α} (h : p ∈ mput m k x) : p = (k, x) ∨ p ∈ m :=
  (mem_mins h).imp_right fun hp => (mem_mdel hp).1

/-! ### Fading -/

/-- A strand is in the phase of another, and has ended as that one has. -/
def SameLife (x y : Strand) : Prop := y.phase = x.phase ∧ y.fatal = x.fatal

/-- A core holds splits of no other slots than before, and strands in no other slots, each in its phase. -/
structure CoreFades (k k' : Core) : Prop where
  splits : ∀ p' ∈ k'.splits, ∃ p ∈ k.splits, p.2.slot = p'.2.slot
  strands : ∀ sl y, mget k'.slots sl = some y → ∃ x, mget k.slots sl = some x ∧ SameLife x y

/-- Every core holds splits of no other slots than before, and strands in no other slots, each in its phase. -/
def StrandsFade (s t : State) : Prop := ∀ c, CoreFades (coreOf s c) (coreOf t c)

theorem SameLife.refl (x : Strand) : SameLife x x := ⟨rfl, rfl⟩

theorem SameLife.trans {x y z : Strand} (h : SameLife x y) (k : SameLife y z) : SameLife x z :=
  ⟨k.1.trans h.1, k.2.trans h.2⟩

theorem CoreFades.of_eq {k k' : Core} (hp : k'.splits = k.splits) (hx : k'.slots = k.slots) : CoreFades k k' where
  splits p' h := ⟨p', hp ▸ h, rfl⟩
  strands _ y h := ⟨y, hx ▸ h, SameLife.refl y⟩

theorem CoreFades.trans {k k' k'' : Core} (h : CoreFades k k') (j : CoreFades k' k'') : CoreFades k k'' where
  splits p'' hp'' := by
    obtain ⟨p', hp', e'⟩ := j.splits p'' hp''
    obtain ⟨p, hp, e⟩ := h.splits p' hp'
    exact ⟨p, hp, e.trans e'⟩
  strands sl z hz := by
    obtain ⟨y, hy, l'⟩ := j.strands sl z hz
    obtain ⟨x, hx, l⟩ := h.strands sl y hy
    exact ⟨x, hx, l.trans l'⟩

theorem StrandsFade.of_cores {s t : State} (h : t.cores = s.cores) : StrandsFade s t := fun c =>
  .of_eq (by rw [coreOf, coreOf, h]) (by rw [coreOf, coreOf, h])

theorem StrandsFade.refl (s : State) : StrandsFade s s := .of_cores rfl

theorem StrandsFade.trans {s t u : State} (h : StrandsFade s t) (k : StrandsFade t u) : StrandsFade s u := fun c => (h c).trans (k c)

/-- A change that leaves the cores alone may follow. -/
theorem StrandsFade.andCores {s t u : State} (h : StrandsFade s t) (k : u.cores = t.cores) : StrandsFade s u := h.trans (.of_cores k)

/-- A change that leaves the cores alone may come first. -/
theorem StrandsFade.fromCores {s t u : State} (h : StrandsFade t u) (k : t.cores = s.cores) : StrandsFade s u :=
  StrandsFade.trans (.of_cores k) h

theorem StrandsFade.foldl {α : Type} {f : State → α → State} (l : List α) (h : ∀ t a, StrandsFade t (f t a)) (s : State) :
    StrandsFade s (l.foldl f s) :=
  List.foldlRecOn (motive := StrandsFade s) l f (.refl s) fun _ ht a _ => ht.trans (h _ a)

/-- An ended strand stays ended: what fades takes its splits away or leaves it none, and never changes its code. -/
theorem StrandsFade.keeps_ended {s t : State} (h : StrandsFade s t) {c sl code : Nat} (he : Spec.EndedWith s c sl code) :
    Spec.EndedWith t c sl code := by
  obtain ⟨hp, hx⟩ := he
  refine ⟨List.filter_eq_nil_iff.2 fun p' hp' => ?_, fun y hy => ?_⟩
  · obtain ⟨p, hmem, e⟩ := (h c).splits p' hp'
    simpa [e] using List.filter_eq_nil_iff.1 hp p hmem
  · obtain ⟨x, hs, hl⟩ := (h c).strands sl y hy
    obtain ⟨hphase, hfatal⟩ := hx x hs
    exact ⟨hl.1.trans hphase, hl.2.trans hfatal⟩

/-! ### Changes of a core, a strand, a split -/

theorem modCore_fades {s : State} {c : Nat} {g : Core → Core} (h : CoreFades (coreOf s c) (g (coreOf s c))) :
    StrandsFade s (modCore s c g) := fun c' => by
  by_cases hc : c' = c
  · subst hc
    simpa using h
  · exact .of_eq (by rw [coreOf_modCore_ne _ _ hc]) (by rw [coreOf_modCore_ne _ _ hc])

/-- A change of a core that is no change of its strands and splits. -/
theorem modCore_fades_of_eq (s : State) (c : Nat) {g : Core → Core} (hp : ∀ k, (g k).splits = k.splits) (hx : ∀ k, (g k).slots = k.slots) :
    StrandsFade s (modCore s c g) := modCore_fades (.of_eq (hp _) (hx _))

theorem putStrand_fades {s : State} {c sl : Nat} {x y : Strand} (hx : strandAt s c sl = some x) (hl : SameLife x y) :
    StrandsFade s (putStrand s c sl y) := modCore_fades
  { splits := fun p h => ⟨p, h, rfl⟩
    strands := fun sl' z hz => by
      rcases mget_mput_cases hz with ⟨rfl, rfl⟩ | h
      · exact ⟨x, hx, hl⟩
      · exact ⟨z, h, .refl z⟩ }

theorem modStrandAny_fades (s : State) (ctx c sl : Nat) {g : Strand → Strand} (hg : ∀ x, SameLife x (g x)) :
    StrandsFade s (modStrandAny s ctx c sl g) := by
  unfold modStrandAny
  split
  next x hx =>
    split
    · exact putStrand_fades hx (hg x)
    · exact .of_cores rfl
  · exact .of_cores rfl

theorem modSplit_fades (s : State) (c e : Nat) {g : Split → Split} (hg : ∀ p, (g p).slot = p.slot) :
    StrandsFade s (modSplit s c e g) := by
  unfold modSplit
  split
  · exact .refl s
  next p hp =>
    refine modCore_fades ⟨fun p' h => ?_, fun _ y h => ⟨y, h, .refl y⟩⟩
    rcases mem_mput h with rfl | h
    · exact ⟨(e, p), mem_of_mget hp, (hg p).symm⟩
    · exact ⟨p', h, rfl⟩

theorem modSplitsAny_fades (s : State) (ctx c sl : Nat) (q : Split → Bool) {g : Split → Split} (hg : ∀ p, (g p).slot = p.slot) :
    StrandsFade s (modSplitsAny s ctx c sl q g) := by
  unfold modSplitsAny
  dsimp only
  split
  next x hx =>
    split
    · refine modCore_fades ⟨fun p' h => ?_, fun n y h => ?_⟩
      · obtain ⟨p, hp, rfl⟩ := List.mem_map.1 h
        refine ⟨p, hp, ?_⟩
        dsimp only
        split
        · exact (hg p.2).symm
        · rfl
      · rw [mget_mmap] at h
        obtain ⟨x, hx, rfl⟩ := Option.map_eq_some_iff.1 h
        refine ⟨x, hx, ?_⟩
        split
        · exact ⟨rfl, rfl⟩
        · exact .refl x
    · exact .of_cores rfl
  · exact .of_cores rfl

/-- A change of every core. -/
theorem mapCores_fades {s t : State} {g : Core → Core} (ht : t.cores = mmap s.cores fun _ k => g k) (he : ∀ k, (g k).splits = k.splits)
    (hx : ∀ k, (g k).slots = k.slots) : StrandsFade s t := fun c => by
  unfold coreOf mgetD
  rw [ht, mget_mmap]
  cases mget s.cores c with
  | none => exact .of_eq rfl rfl
  | some k => exact .of_eq (he k) (hx k)

/-! ### Records (R172, R191 to R195) -/

@[simp] theorem ringPut_cores (s : State) (r : Ring) (bytes : List Byte) : (ringPut s r bytes).cores = s.cores := by
  unfold ringPut
  dsimp only
  split
  · rfl
  · split
    · rfl
    · split <;> rfl

@[simp] theorem tracePut_cores (s : State) (ctx c sl kind rest : Nat) : (tracePut s ctx c sl kind rest).cores = s.cores := by
  unfold tracePut
  split
  · rfl
  · split
    · rfl
    · exact ringPut_cores _ _ _

@[simp] theorem stallRecord_cores (s : State) (c sl kind : Nat) (x : Strand) : (stallRecord s c sl kind x).cores = s.cores := by
  unfold stallRecord
  split
  · split
    · exact tracePut_cores _ _ _ _ _ _
    · rfl
  · rfl

@[simp] theorem sampleRecord_cores (s : State) (ctx c sl : Nat) (m : Sample) (outcome level : Nat) (svcf walked apart : Bool) :
    (sampleRecord s ctx c sl m outcome level svcf walked apart).cores = s.cores := tracePut_cores _ _ _ _ _ _

@[simp] theorem sampleOp_cores (s : State) (id outcome : Nat) : (sampleOp s id outcome).cores = s.cores := by
  unfold sampleOp
  split
  · rfl
  · split
    · rfl
    · exact sampleRecord_cores _ _ _ _ _ _ _ _ _ _

@[simp] theorem sampleFaulted_cores (s : State) (id : Nat) : (sampleFaulted s id).cores = s.cores := by
  unfold sampleFaulted
  split
  · rfl
  · split
    · exact sampleOp_cores _ _ _
    · rfl

/-! ### Memory (R118) -/

theorem MemOnly.cores {s t : State} (h : MemOnly s t) : t.cores = s.cores := h.keeps (fun u => u.cores) fun _ _ _ _ _ => rfl

@[simp] theorem drainCluster_cores (s : State) (c : Nat) : (drainCluster s c).cores = s.cores :=
  List.foldlRecOn (motive := fun t : State => t.cores = s.cores) _ _ rfl fun t ht k _ => ((acceptFrom_memOnly t k _).cores).trans ht

/-! ### Charges (R41) -/

theorem foldl_refund_parts (cs : List Charge) (k : Core) : (cs.foldl refund k).splits = k.splits ∧ (cs.foldl refund k).slots = k.slots :=
  List.foldlRecOn (motive := fun k' : Core => k'.splits = k.splits ∧ k'.slots = k.slots) cs refund ⟨rfl, rfl⟩ fun k' h c _ => by
    unfold refund
    dsimp only
    split
    · exact h
    · exact h

theorem refundWhere_fades (s : State) (id : Nat) (p : Charge → Bool) : StrandsFade s (refundWhere s id p) := by
  unfold refundWhere
  split
  · exact .refl s
  · dsimp only
    split
    · exact .refl s
    · exact (modCore_fades_of_eq s _ (fun k => (foldl_refund_parts _ k).1) fun k => (foldl_refund_parts _ k).2).andCores rfl

theorem refundOp_fades (s : State) (id : Nat) : StrandsFade s (refundOp s id) := refundWhere_fades s id _

theorem refundDone_fades (s : State) (id : Nat) : StrandsFade s (refundDone s id) := by
  unfold refundDone
  split
  · exact .refl s
  · exact refundWhere_fades s id _

/-! ### Counters and retirement (R70, R71, R76, R84, R97) -/

@[simp] theorem markAband_cores (fuel : Nat) (s : State) (i : Nat) : (markAband fuel s i).cores = s.cores := by
  induction fuel generalizing s i with
  | zero => rfl
  | succ n ih =>
      unfold markAband
      split
      · rfl
      · dsimp only
        split
        · rfl
        · exact ih _ _

theorem dropRecord_parts (l : Nat) (k : Core) : (dropRecord l k).splits = k.splits ∧ (dropRecord l k).slots = k.slots := by
  unfold dropRecord
  split <;> exact ⟨rfl, rfl⟩

theorem freeRecords_fades (s : State) (l : Nat) : StrandsFade s (freeRecords s l) :=
  mapCores_fades (g := fun k => closeBars l (dropRecord l k)) rfl (fun k => (dropRecord_parts l k).1) fun k => (dropRecord_parts l k).2

theorem counterSub_fades (fuel : Nat) (s : State) (i n : Nat) : StrandsFade s (counterSub fuel s i n) := by
  induction fuel generalizing s i n with
  | zero => exact .refl s
  | succ m ih =>
      unfold counterSub
      split
      · exact .refl s
      next k _ =>
        split
        · exact .refl s
        · split
          · have hfree (u : State) : StrandsFade u (if k.level = 0 then freeRecords u i else u) := by
              split
              · exact freeRecords_fades u i
              · exact .refl u
            have hdone : StrandsFade s { s with counters := mput s.counters i { k with count := 0, done := true } } := .of_cores rfl
            dsimp only
            split
            · exact hdone.trans (hfree _)
            · exact (hdone.trans (hfree _)).trans (ih _ _ _)
          · exact .of_cores rfl

theorem dropResv_parts (l : Nat) (k : Core) : (dropResv l k).splits = k.splits ∧ (dropResv l k).slots = k.slots := by
  unfold dropResv
  split <;> exact ⟨rfl, rfl⟩

/-- Its slot is freed: a strand that retires leaves neither a strand nor a split behind (R97). -/
theorem retire_fades (s : State) (c sl : Nat) : StrandsFade s (retire s c sl) := by
  unfold retire
  split
  · exact .refl s
  · dsimp only
    have hrecord (x : Strand) : StrandsFade s (settleStale (drainCluster (stallRecord s c sl 3 x) c) c sl fun _ => true) :=
      .of_cores (by simp)
    have hfree (u : State) : StrandsFade u (modCore u c fun k =>
        { k with slots := mdel k.slots sl, splits := k.splits.filter fun p => p.2.slot != sl,
                 issuedSlots := k.issuedSlots.filter (· != sl)
                 rechecks := k.rechecks.map fun r => { r with members := r.members.filter (· != sl) } }) :=
      modCore_fades
        { splits := fun p h => ⟨p, (List.mem_filter.1 h).1, rfl⟩
          strands := fun sl' y h => by
            by_cases hs : sl' = sl
            · subst hs
              exact absurd (h.symm.trans (mget_mdel_same _ _)) (by simp)
            · exact ⟨y, (mget_mdel_ne _ hs).symm.trans h, .refl y⟩ }
    have hresv (u : State) (ctx l : Nat) : StrandsFade u (freeResv (leaveOps u ctx c sl) c l) :=
      .fromCores (modCore_fades_of_eq _ c (fun k => (dropResv_parts l k).1) fun k => (dropResv_parts l k).2) rfl
    exact (((hrecord _).trans (hfree _)).trans (hresv _ _ _)).trans (counterSub_fades _ _ _ _)

theorem checkRetire_fades (s : State) (c sl : Nat) : StrandsFade s (checkRetire s c sl) := by
  unfold checkRetire
  split
  · exact .refl s
  · split
    · exact retire_fades s c sl
    · exact .refl s

theorem sweepRetire_fades (s : State) (c sl : Nat) : StrandsFade s (checkRetire (sweepOps s c sl) c sl) :=
  (checkRetire_fades _ c sl).fromCores (sweepOps_cores s c sl)

end Sys2Proof.Machine
end

section
/-! PROOFS. What faulted operations, requests, collectives and clasps do to other strands when one of them ends: nothing that an ended
strand could come back by. -/
namespace Sys2Proof.Machine

/-! ### Registers -/

theorem SameLife.foldl {α : Type} {f : Strand → α → Strand} (l : List α) (h : ∀ y a, SameLife y (f y a)) (x : Strand) :
    SameLife x (l.foldl f x) :=
  List.foldlRecOn (motive := SameLife x) l f (.refl x) fun _ hy a _ => hy.trans (h _ a)

theorem smark_life (x : Strand) (r : Nat) (st : RegState) : SameLife x (smark x r st) := ⟨rfl, rfl⟩

theorem vmark_life (x : Strand) (r : Nat) (lanes : List Nat) (st : RegState) : SameLife x (vmark x r lanes st) :=
  .foldl lanes (fun y l => (⟨rfl, rfl⟩ : SameLife y (vset y r l _))) x

/-! ### Operations that settle or fault (R100, R106, R175, R321) -/

theorem vacate_fades (s : State) (o : Op) (lanes : Word) : StrandsFade s (vacate s o lanes) := by
  unfold vacate
  split
  · exact .refl s
  · refine modStrandAny_fades s _ _ _ fun x => .foldl _ (fun y r => ?_) x
    split
    · split
      · exact smark_life y r _
      · exact .refl y
    · exact vmark_life y r _ _

theorem afterFault_fades (s : State) (id : Nat) : StrandsFade s (afterFault s id) := by
  unfold afterFault
  split
  · exact .refl s
  next o _ =>
    dsimp only
    have hvacant (lanes : Word) : StrandsFade s (vacate (refundDone s id) o lanes) := (refundDone_fades s id).trans (vacate_fades _ o lanes)
    split
    · split
      · refine StrandsFade.trans ?_ (sweepRetire_fades _ _ _)
        exact (hvacant _).andCores ((sampleOp_cores _ id 2).trans (modOp_cores _ id _))
      · exact (hvacant _).andCores (sampleFaulted_cores _ _)
    · exact (hvacant _).andCores (sampleFaulted_cores _ _)

theorem faultAccs_fades (s : State) (id : Nat) (idx : List Nat) (code : Nat) (detail : Word) :
    StrandsFade s (faultAccs s id idx code detail) := .fromCores (afterFault_fades _ id) rfl

theorem faultOp_fades (s : State) (id code : Nat) (detail : Word) (addr : DWord) : StrandsFade s (faultOp s id code detail addr) := by
  unfold faultOp
  split
  · exact .refl s
  · exact .fromCores (faultAccs_fades _ id _ code detail) rfl

theorem settleLanes_fades (s : State) (id : Nat) (lanes : Word) : StrandsFade s (settleLanes s id lanes) := by
  unfold settleLanes
  split
  · exact .refl s
  · dsimp only
    refine StrandsFade.trans ?_ (sweepRetire_fades _ _ _)
    split
    · exact .fromCores ((refundOp_fades _ id).andCores (sampleOp_cores _ id 0)) rfl
    · split
      · exact .fromCores ((refundDone_fades _ id).andCores (sampleFaulted_cores _ id)) rfl
      · exact .of_cores rfl

theorem putToken_fades (s : State) (o : Op) (d : Nat) (w : Word) : StrandsFade s (putToken s o d w) := by
  unfold putToken
  refine .andCores ?_ (raiseView_cores _ _ _)
  exact modStrandAny_fades s o.ctx o.core o.slot fun _ => ⟨rfl, rfl⟩

theorem finishToken_fades (s : State) (id : Nat) (w : Word) : StrandsFade s (finishToken s id w) := by
  unfold finishToken
  split
  · exact .refl s
  next o _ =>
    dsimp only
    refine StrandsFade.trans ?_ (settleLanes_fades _ id _)
    split
    · exact .of_cores rfl
    · exact (putToken_fades s o _ w).andCores (modOp_cores _ _ _)

theorem tokenWhenDone_fades (s : State) (op : Nat) (w : Word) : StrandsFade s (tokenWhenDone s op w) := by
  unfold tokenWhenDone
  split
  · exact .refl s
  · split
    · exact finishToken_fades s op w
    · exact .of_cores rfl

/-! ### Replies and requests (R33, R34, R58, R296, R369) -/

theorem replyTo_fades (s : State) (q : Req) (status : Nat) (args : List Byte) : StrandsFade s (replyTo s q status args) := by
  unfold replyTo
  split
  · exact .of_cores rfl
  · exact .fromCores (modStrandAny_fades (takeDue s).2 _ _ _ fun _ => ⟨rfl, rfl⟩) rfl

theorem fetchFail_fades (s : State) (c e id code : Nat) (detail : Word) : StrandsFade s (fetchFail s c e id code detail) :=
  modSplit_fades s c e fun p => by split <;> rfl

theorem blockGot_fades (s : State) (ctx g id addr : Nat) (data : List Byte) (bad : Bool) :
    StrandsFade s (blockGot s ctx g id addr data bad) :=
  modStrandAny_fades s _ _ _ fun _ => ⟨rfl, rfl⟩

@[simp] theorem dropWritten_cores (s : State) (r : FabReq) : (dropWritten s r).cores = s.cores := by
  unfold dropWritten
  split
  · dsimp only
    split <;> rfl
  · rfl

@[simp] theorem abortComes_cores (s : State) (d : Nat) (own : Bool) (acked : List Nat) : (abortComes s d own acked).cores = s.cores := by
  unfold abortComes
  dsimp only
  split <;> rfl

@[simp] theorem collAbort_cores (s : State) (d : Nat) : (collAbort s d).cores = s.cores := by
  unfold collAbort
  split
  · exact abortComes_cores s d true []
  · rfl

theorem collLost_fades (s : State) (op desc : Nat) (detail : Word) : StrandsFade s (collLost s op desc detail) := by
  unfold collLost
  split
  · refine .andCores ?_ (collAbort_cores _ desc)
    exact .fromCores (faultOp_fades _ op _ _ _) rfl
  · exact .refl s

theorem failReq_fades (s : State) (r : FabReq) (code target : Nat) : StrandsFade s (failReq s r code target) := by
  unfold failReq
  extract_lets freed dropped detail
  have hfreed : freed.cores = s.cores := by
    dsimp only [freed]
    split
    · split
      · exact modPort_cores _ _ _
      · rfl
    · rfl
  have hdropped : dropped.cores = s.cores := (dropWritten_cores (dropReq freed r.id) r).trans hfreed
  clear_value dropped
  refine StrandsFade.fromCores (t := dropped) ?_ hdropped
  split
  · exact faultAccs_fades _ _ _ _ _
  · exact .fromCores (faultOp_fades _ _ _ _ _) rfl
  · exact .fromCores (.foldl _ (fun t id => faultAccs_fades t id _ _ _) _) rfl
  · exact collLost_fades _ _ _ _
  · exact faultAccs_fades _ _ _ _ _
  · exact .of_cores rfl
  · exact fetchFail_fades _ _ _ _ _ _
  · exact blockGot_fades _ _ _ _ _ _ _

theorem trySend_fades (s : State) (r : FabReq) : StrandsFade s (trySend s r) := by
  unfold trySend
  split
  · exact .refl s
  · split
    · exact failReq_fades s r _ _
    · exact .refl s
    · exact .of_cores (modPort_cores s _ _)

theorem pump_fades (s : State) : StrandsFade s (pump s) :=
  .foldl _ (fun t r => by
    split
    · exact .refl t
    · exact trySend_fades t _) s

/-! ### Buffers of engine operations -/

theorem foldl_cores {α : Type} {f : State → α → State} (l : List α) (h : ∀ t a, (f t a).cores = t.cores) (s : State) :
    (l.foldl f s).cores = s.cores :=
  List.foldlRecOn (motive := fun t : State => t.cores = s.cores) l f rfl fun _ ht a _ => (h _ a).trans ht

@[simp] theorem writeFar_cores (s : State) (o : Op) (addr : Nat) (tkc : Bool) (off : Nat) (va : DWord) (bs : List Byte) :
    (writeFar s o addr tkc off va bs).cores = s.cores :=
  foldl_cores _ (fun t a => by
    dsimp only
    split <;> rfl) s

@[simp] theorem writeSegs_cores (s : State) (op : Nat) (segs : List (Place × Nat × DWord × Nat)) (bytes : SMap Byte) :
    (writeSegs s op segs bytes).cores = s.cores :=
  foldl_cores segs (fun t a => by
    dsimp only
    split
    · rfl
    · exact (homeWrite_memOnly _ _ _).cores
    · rfl
    · exact writeFar_cores _ _ _ _ _ _ _) s

@[simp] theorem writeListed_cores (s : State) (op : Nat) (segs : List (Place × Nat × DWord × Nat)) (bytes : SMap Byte) :
    (writeListed s op segs bytes).cores = s.cores :=
  foldl_cores segs (fun t a => by
    dsimp only
    split
    · rfl
    · exact foldl_cores _ (fun u b => writeSegs_cores u op _ _) t) s

/-! ### Collectives (R44 to R46, R338, R370) -/

theorem applyEdits_fades (s : State) (d : Nat) : StrandsFade s (applyEdits s d) := by
  unfold applyEdits
  dsimp only
  split
  · exact .refl s
  · exact .fromCores (.foldl _ (fun t e => replyTo_fades t _ 0 []) _) rfl

theorem collComplete_fades (s : State) (d : Nat) : StrandsFade s (collComplete s d) := by
  unfold collComplete
  dsimp only
  split
  · exact .refl s
  · refine StrandsFade.trans ?_ (applyEdits_fades _ d)
    refine StrandsFade.trans ?_ (pump_fades _)
    refine StrandsFade.fromCores (StrandsFade.foldl _ (fun t r => ?_) _) (putColl_cores s d _)
    split
    · exact .refl t
    · split
      · exact .refl t
      · refine .fromCores (tokenWhenDone_fades _ _ _) ?_
        split
        · rfl
        · exact writeListed_cores _ _ _ _

theorem collCheck_fades (s : State) (d : Nat) : StrandsFade s (collCheck s d) := by
  unfold collCheck
  dsimp only
  split
  · exact collComplete_fades s d
  · exact .refl s

theorem collWithdrawRank_fades (s : State) (d rank : Nat) : StrandsFade s (collWithdrawRank s d rank) := by
  unfold collWithdrawRank
  dsimp only
  split
  · exact .refl s
  · split
    · exact .refl s
    · split
      · split
        · exact .of_cores rfl
        · split
          · exact .fromCores (collCheck_fades _ d) rfl
          · exact .of_cores (collAbort_cores _ d)
      · exact .of_cores rfl
      · exact .of_cores rfl

theorem collWithdraw_fades (s : State) (d rank : Nat) : StrandsFade s (collWithdraw s d rank) :=
  .fromCores (collWithdrawRank_fades _ d rank) rfl

theorem collWithdrawStrand_fades (s : State) (gid ctx : Nat) : StrandsFade s (collWithdrawStrand s gid ctx) :=
  .foldl s.coll (fun t p => by
    dsimp only
    split
    · split
      · exact .refl t
      · exact collWithdraw_fades t _ _
    · exact .refl t) s

/-! ### Clasps, rechecks, barriers (R98, R170, R182) -/

theorem lowerOffender_slot (now offender : Nat) (hit : Word → Bool) (q : Split) : (lowerOffender now offender hit q).slot = q.slot := by
  unfold lowerOffender
  split
  · split <;> rfl
  · rfl

theorem claspBreak_fades (s : State) (c offender : Nat) (g : Clasp) : StrandsFade s (claspBreak s c offender g) :=
  .foldl _ (fun t a => by
    split
    · exact .refl t
    · exact modSplitsAny_fades t _ _ _ _ fun _ => rfl) s

theorem claspsBreak_fades (s : State) (c offender : Nat) (hit : Word → Bool) : StrandsFade s (claspsBreak s c offender hit) := by
  unfold claspsBreak
  dsimp only
  refine StrandsFade.trans (StrandsFade.trans (StrandsFade.foldl _ (fun t p => ?_) s)
    (modCore_fades_of_eq _ c ?_ ?_)) (StrandsFade.foldl _ (fun t g => claspBreak_fades t c offender g) _)
  · exact modSplitsAny_fades t _ _ _ _ fun q => lowerOffender_slot _ _ _ q
  · exact fun _ => rfl
  · exact fun _ => rfl

theorem claspDeparts_fades (s : State) (c sl : Nat) : StrandsFade s (claspDeparts s c sl) := by
  unfold claspDeparts
  refine StrandsFade.trans ?_ (claspsBreak_fades _ c sl _)
  exact modCore_fades_of_eq s c (fun _ => rfl) fun _ => rfl

theorem unsample_fades (s : State) (c sl : Nat) : StrandsFade s (unsample s c sl) :=
  modCore_fades_of_eq s c (fun _ => rfl) fun _ => rfl

theorem barTerminated_fades (s : State) (l c sl : Nat) : StrandsFade s (barTerminated s none l c sl) := by
  unfold barTerminated modPlace
  exact .fromCores (modCore_fades_of_eq _ c (fun _ => rfl) fun _ => rfl) rfl

end Sys2Proof.Machine
end

section
/-! PROOFS. How a trap is taken: a strand ends with a code, or its record is written and its handler entered (O38). -/
namespace Sys2Proof.Machine
open Spec

/-! ### The end of a strand (R181) -/

/-- A core without the splits of a slot. -/
def freeSplits (sl : Nat) (k : Core) : Core := { k with splits := k.splits.filter fun p => p.2.slot != sl }

theorem splitsOf_freeSplits (s : State) (c sl : Nat) : splitsOf (modCore s c (freeSplits sl)) c sl = [] := by
  simp [splitsOf, freeSplits, List.filter_filter]

/-- Freeing splits leaves the strands. -/
@[simp] theorem strandAt_freeSplits (s : State) (c sl c' sl' : Nat) :
    strandAt (modCore s c (freeSplits sl)) c' sl' = strandAt s c' sl' := by
  unfold strandAt
  by_cases hc : c' = c
  · subst hc
    simp [freeSplits]
  · rw [coreOf_modCore_ne _ _ hc]

/-- A strand that has been put into ENDING with a code, its splits freed, has ended. -/
theorem endedWith_freeSplits (s : State) (c sl code : Nat) {g : Strand → Strand} (hg : ∀ y, (g y).phase = .ending ∧ (g y).fatal = some code) :
    EndedWith (modCore (modStrand s c sl g) c (freeSplits sl)) c sl code := by
  refine ⟨splitsOf_freeSplits _ c sl, fun y hy => ?_⟩
  rw [strandAt_freeSplits] at hy
  cases hx : strandAt s c sl with
  | none =>
      rw [modStrand, hx] at hy
      exact absurd (hx.symm.trans hy) (by simp)
  | some x =>
      rw [strandAt_modStrand_same g hx] at hy
      obtain rfl : g x = y := by simpa using hy
      exact hg x

/-- A fatal termination ends the strand with its code, whatever its barriers, clasps and collectives do then. -/
theorem terminateWith_ended {s : State} {c sl : Nat} {x : Strand} (code : Nat) (engines : Bool) (hx : strandAt s c sl = some x)
    (hphase : x.phase ≠ .ending) : EndedWith (terminateWith s c sl code engines) c sl code := by
  unfold terminateWith
  split
  next h => exact absurd (hx.symm.trans h) (by simp)
  next y hy =>
  obtain rfl : x = y := by simpa using hx.symm.trans hy
  rw [if_neg hphase]
  extract_lets recorded discarded logged suspected marked freed counted left stopped withdrawn
  have hfreed : EndedWith freed c sl code := endedWith_freeSplits suspected c sl code fun _ => ⟨rfl, rfl⟩
  have hcounted : StrandsFade freed counted := by
    dsimp only [counted]
    split
    · exact unsample_fades freed c sl
    · exact .of_cores (markAband_cores 4 freed x.lcnt)
  have hleft : StrandsFade counted left := claspDeparts_fades counted c sl
  have hstopped : StrandsFade left stopped := barTerminated_fades left x.lcnt c sl
  have hwithdrawn : StrandsFade stopped withdrawn := collWithdrawStrand_fades stopped (gidOf c sl) x.ctx
  exact ((((hcounted.trans hleft).trans hstopped).trans hwithdrawn).trans (sweepRetire_fades withdrawn c sl)).keeps_ended hfreed

theorem terminate_ended {s : State} {c sl : Nat} {x : Strand} (code : Nat) (hx : strandAt s c sl = some x)
    (hphase : x.phase ≠ .ending) : EndedWith (terminate s c sl code) c sl code := terminateWith_ended code false hx hphase

/-! ### What TRAP_ENTRY decides (R175, R176, R181) -/

/-- A strand outside a handler takes no double fault. -/
theorem doubleFault_outside {x : Strand} (ops : List Op) (h : x.handling = none) : doubleFault x ops = false := by
  simp [doubleFault, h]

/-- In a handler the fault of an operation that the handler has issued is a double fault. -/
theorem doubleFault_issued {x : Strand} {ops : List Op} {o : Op} (hh : x.handling.isSome = true) (ho : o ∈ ops)
    (hf : opFaulted o = true) (hm : x.trapMark ≤ o.id) (hn : o.id ∉ x.trapOps) : doubleFault x ops = true := by
  unfold doubleFault
  rw [hh, Bool.true_and, List.any_eq_true]
  exact ⟨o, ho, by simp [hf, hn, hm]⟩

section
variable {s : State} {c sl : Nat} {x : Strand} (hx : strandAt s c sl = some x) (hphase : x.phase ≠ .ending)
include hx hphase

theorem exec_trapEntry_double (hd : doubleFault x (opsOf s c sl) = true) :
    exec (.trapEntry c sl) s = .next (terminate s c sl 0x81) := by
  change execTrapEntry c sl s = _
  simp [execTrapEntry, hx, hphase, hd]

theorem exec_trapEntry_ready (hh : x.handling = none) (hr : trapReady s c sl x = true) :
    exec (.trapEntry c sl) s = .next (takeTrap s c sl) := by
  change execTrapEntry c sl s = _
  simp [execTrapEntry, hx, hphase, hr, doubleFault_outside _ hh]

/-- Without a handler a trap ends the strand with the cause of its record (R176). -/
theorem trapEntry_ends {r : TrapRec} (hh : x.handling = none) (hr : trapReady s c sl x = true)
    (hrec : trapRecord s c sl x = some r) (h0 : handlerOf s x = 0) :
    ∃ t, exec (.trapEntry c sl) s = .next t ∧ EndedWith t c sl r.cause := by
  have htake : takeTrap s c sl = terminate s c sl r.cause := by simp [takeTrap, hx, hrec, h0]
  exact ⟨_, exec_trapEntry_ready hx hphase hh hr, htake ▸ terminate_ended r.cause hx hphase⟩

end

/-! ### Entering the handler (R175) -/

/-- The strand in its handler with record r. -/
def inHandler (s : State) (c sl : Nat) (x : Strand) (r : TrapRec) : Strand :=
  { x with
      handling := some r, lastRec := some r, arisen := none, hexit := 0, trapMark := s.nextId,
      trapOps := (trapFaults (opsOf s c sl) (r.hzf || x.arisen.isSome)).map (·.id) }

/-- The one split that the handler starts with. -/
def handlerSplit (s : State) (sl : Nat) (x : Strand) : Split :=
  { slot := sl, smask := BitVec.ofNat 8 (2 ^ x.slices - 1), pc := handlerOf s x, jstk := [], rgw := false,
    stamp := s.now, cls := none, tried := s.now + 1, blocked := none, desched := none, yieldTo := 0,
    parked := none, bpSkip := false, spawnWait := false, replay := false, fetch := none, held := none, turn := none,
    entering := true, reported := 0 }

/-- The state in which the handler starts: the strand's splits are freed before an entry is taken for the handler's. -/
def handlerStart (s : State) (c sl : Nat) (x : Strand) (r : TrapRec) : State :=
  let freed := modCore s c (freeSplits sl)
  putSplit (putStrand freed c sl (inHandler freed c sl x r)) c (freeEntry (coreOf freed c) (schedOf sl)) (handlerSplit s sl x)

/-- A trap of a strand that is not halted starts its handler. -/
theorem takeTrap_eq_handlerStart {s : State} {c sl : Nat} {x : Strand} {r : TrapRec} (hx : strandAt s c sl = some x)
    (hrec : trapRecord s c sl x = some r) (h0 : handlerOf s x ≠ 0) (hhalt : x.halted = none) :
    takeTrap s c sl = handlerStart s c sl x r := by
  unfold takeTrap
  rw [hx]
  dsimp only
  rw [hrec]
  dsimp only
  rw [if_neg h0]
  split
  · rfl
  next h hs => exact absurd (hhalt.symm.trans hs) (by simp)

/-- A write of a split makes it the one split of a slot that had none. -/
theorem splitsOf_putSplit_first {s : State} {c sl : Nat} (e : Nat) {p : Split} (hp : p.slot = sl) (h : splitsOf s c sl = []) :
    splitsOf (putSplit s c e p) c sl = [(e, p)] := by
  have hnone : ∀ m : SMap Split, (∀ q ∈ m, q.2.slot ≠ sl) → (mins m e p).filter (fun q => q.2.slot == sl) = [(e, p)] := by
    intro m hm
    induction m with
    | nil => simp [mins, hp]
    | cons q rest ih =>
        obtain ⟨k, q⟩ := q
        obtain ⟨hq, hrest⟩ := List.forall_mem_cons.1 hm
        by_cases hk : e < k
        · simpa [mins, hk, hp, hq] using hrest
        · simpa [mins, hk, hq] using ih hrest
  have hfree : ∀ q ∈ (coreOf s c).splits, q.2.slot ≠ sl := by simpa [splitsOf] using h
  simpa [splitsOf, putSplit, mput] using hnone _ fun q hq => hfree q (mem_mdel hq).1

/-- The handler starts as R175 says. -/
theorem handlerStart_entered {s : State} {c sl : Nat} {x : Strand} (r : TrapRec) : Entered s (handlerStart s c sl x r) c sl x r where
  strand := by
    refine ⟨inHandler (modCore s c (freeSplits sl)) c sl x r, ?_, rfl, rfl, rfl, ?_, rfl⟩
    · simp [handlerStart, strandAt, putSplit, putStrand]
    · change r.flanes &&& ~~~0#32 = r.flanes
      rw [BitVec.not_zero, BitVec.and_allOnes]
  split := by
    refine ⟨_, handlerSplit s sl x, splitsOf_putSplit_first _ rfl ?_, rfl, rfl, rfl, rfl⟩
    have h := splitsOf_freeSplits s c sl
    simpa [splitsOf, putStrand] using h
  device := rfl
  others c' sl' h := by
    unfold handlerStart putSplit putStrand strandAt
    by_cases hc : c' = c
    · subst hc
      have hs : sl' ≠ sl := h.resolve_left fun e => e rfl
      simp [freeSplits, mget_mput_ne _ _ hs]
    · rw [coreOf_modCore_ne _ _ hc, coreOf_modCore_ne _ _ hc, coreOf_modCore_ne _ _ hc]

theorem trapEntry_enters {s : State} {c sl : Nat} {x : Strand} {r : TrapRec} (hx : strandAt s c sl = some x) (hphase : x.phase ≠ .ending)
    (hh : x.handling = none) (hr : trapReady s c sl x = true) (hrec : trapRecord s c sl x = some r) (h0 : handlerOf s x ≠ 0)
    (hhalt : x.halted = none) : ∃ t, exec (.trapEntry c sl) s = .next t ∧ Entered s t c sl x r :=
  ⟨_, exec_trapEntry_ready hx hphase hh hr, takeTrap_eq_handlerStart hx hrec h0 hhalt ▸ handlerStart_entered r⟩

/-! ### The record of a precise cause (R178) -/

theorem deliveredOp_none {ops : List Op} (h : ∀ o ∈ ops, opFaulted o = false) : deliveredOp ops = none := by
  have hnil : (ops.filterMap fun o =>
      if opFaulted o && o.kind != .fil then ((faultSlices o).head?).map fun i => (o, i) else none) = [] :=
    List.filterMap_eq_nil_iff.2 fun o ho => by simp [h o ho]
  rw [deliveredOp, hnil]
  rfl

/-- Without a faulted operation the record is that of the cause that has arisen. -/
theorem trapRecord_cause {s : State} {c sl : Nat} {x : Strand} {k : Cause} (hk : x.arisen = some k)
    (h : ∀ o ∈ opsOf s c sl, opFaulted o = false) : ∃ r, trapRecord s c sl x = some r ∧ RecordsCause s c sl x k r := by
  unfold trapRecord
  dsimp only
  rw [deliveredOp_none h, hk]
  exact ⟨_, rfl, rfl, rfl, rfl, rfl, rfl, rfl, rfl, rfl, rfl, rfl, rfl, rfl⟩

theorem trapReady_cause {s : State} {c sl : Nat} {x : Strand} {k : Cause} (hphase : x.phase ≠ .ending) (hh : x.handling = none)
    (hk : x.arisen = some k) (h : ∀ o ∈ opsOf s c sl, opResolved s o = true) : trapReady s c sl x = true := by
  simpa [trapReady, hphase, hh, hk] using h

/-! ### The record of the fault of one operation (R175, R178) -/

/-- The one access of an operation has faulted with a code, a detail and an address. -/
structure OneFault (o : Op) (a : Access) (code : Nat) (detail : Word) (addr : DWord) : Prop where
  access : o.accs = [a]
  fault : ∃ cyc, a.st = .faulted code detail addr cyc
  kept : o.discarded = false

section
variable {o : Op} {a : Access} {code : Nat} {detail : Word} {addr : DWord} (hf : OneFault o a code detail addr)
include hf

theorem OneFault.accFault : ∃ cyc, accFault a = some (code, detail, addr, cyc) := by
  obtain ⟨cyc, hst⟩ := hf.fault
  obtain ⟨lanes, va, eva, place, leaf, data, data2, st, svc, walked⟩ := a
  obtain rfl : st = .faulted code detail addr cyc := hst
  exact ⟨cyc, rfl⟩

theorem OneFault.opFaulted : opFaulted o = true := by
  obtain ⟨cyc, ha⟩ := hf.accFault
  simp [Machine.opFaulted, hf.kept, hf.access, ha]

theorem OneFault.opResolved (s : State) : opResolved s o = true := by
  obtain ⟨cyc, hst⟩ := hf.fault
  simp [Machine.opResolved, hf.access, hst]

theorem OneFault.faultSlices : faultSlices o = slicesOf a.lanes := by
  obtain ⟨cyc, ha⟩ := hf.accFault
  simp [Machine.faultSlices, hf.kept, hf.access, ha]

theorem OneFault.faultOf : faultOf o = some (code, detail, addr, a.lanes) := by
  obtain ⟨cyc, ha⟩ := hf.accFault
  simp [Machine.faultOf, hf.access, ha, leastBy]

theorem OneFault.deliveredOp {i : Nat} (hk : o.kind ≠ .fil) (hi : (slicesOf a.lanes).head? = some i) :
    deliveredOp [o] = some (o, i) := by
  simp [Machine.deliveredOp, hf.opFaulted, hk, hf.faultSlices, hi, leastBy]

/-- With no precise cause the record is that of the one faulted operation, in the slice that it is delivered in. -/
theorem OneFault.trapRecord {s : State} {c sl : Nat} {x : Strand} {i e : Nat} {p : Split} (hn : x.arisen = none)
    (ho : opsOf s c sl = [o]) (hk : o.kind ≠ .fil) (hi : (slicesOf a.lanes).head? = some i) (hp : splitsOf s c sl = [(e, p)])
    (hpi : p.smask.getLsbD i = true) :
    ∃ r, trapRecord s c sl x = some r ∧ RecordsFault s c sl x o a i code detail addr p r := by
  have hhome : (splitsOf s c sl).find? (fun q => q.2.smask.getLsbD i) = some (e, p) := by simp [hp, hpi]
  unfold Machine.trapRecord
  dsimp only
  rw [ho, hf.deliveredOp hk hi, hn]
  dsimp only
  rw [hf.faultOf, hhome]
  exact ⟨_, rfl, rfl, rfl, rfl, rfl, rfl, rfl, rfl, rfl, rfl, rfl, rfl, rfl⟩

theorem OneFault.trapReady {s : State} {c sl : Nat} {x : Strand} (hphase : x.phase ≠ .ending) (hh : x.handling = none)
    (ho : opsOf s c sl = [o]) : trapReady s c sl x = true := by
  simp [Machine.trapReady, hphase, hh, ho, hf.opFaulted, hf.opResolved s]

end

/-! ### Taking a trap (R175, R176, R178, R181) -/

/-- Settles O38: the record is computed first, of the cause or of the one fault; with it the strand enters its handler, or it ends, and
what its end sets off never takes it out of ENDING. -/
theorem trapEntry : Obligations.TrapEntry := by
  unfold Obligations.TrapEntry
  refine ⟨?cause, ?fault, ?unhandled, ?double⟩
  case cause =>
    intro s c sl x k hx hphase hh hk hops
    obtain ⟨r, hrec, hr⟩ := trapRecord_cause hk fun o ho => (hops o ho).1
    have hready := trapReady_cause hphase hh hk fun o ho => (hops o ho).2
    refine ⟨fun h0 hhalt => ?_, fun h0 => ?_⟩
    · obtain ⟨t, ht, hent⟩ := trapEntry_enters hx hphase hh hready hrec h0 hhalt
      exact ⟨t, r, ht, hent, hr⟩
    · obtain ⟨hcode, -⟩ := hr
      exact hcode ▸ trapEntry_ends hx hphase hh hready hrec h0
  case fault =>
    intro s c sl x o a i code detail addr cyc e p hx hphase hh hn ho hk hd ha hst hi hp hpi h0 hhalt
    have hf : OneFault o a code detail addr := ⟨ha, ⟨cyc, hst⟩, hd⟩
    obtain ⟨r, hrec, hr⟩ := hf.trapRecord hn ho hk hi hp hpi
    obtain ⟨t, ht, hent⟩ := trapEntry_enters hx hphase hh (hf.trapReady hphase hh ho) hrec h0 hhalt
    exact ⟨t, r, ht, hent, hr⟩
  case unhandled =>
    intro s c sl x r hx hphase hh hready hrec h0
    exact trapEntry_ends hx hphase hh hready hrec h0
  case double =>
    intro s c sl x o hx hphase hh ho hf hm hn
    exact ⟨_, exec_trapEntry_double hx hphase (doubleFault_issued hh ho hf hm hn), terminate_ended 0x81 hx hphase⟩

end Sys2Proof.Machine
end

section
/-! PROOFS. The integer, logic, shift, bit-field, LEA, CVTI and IDOT4 instructions are the shared register operation, each with the
result of its row (O1). -/
namespace Sys2Proof.Spec
open Machine Safety

/-- An instruction that is the shared register operation over a row's operands, with the row's result, completes as the row says. -/
theorem RegRow.completes_of_aluOp {row : RegRow} {g : Fields → Iss → DWord → DWord → DWord → DWord × FpFlags}
    (hexec : ∀ f s, exec (row.con f) s =
      issue s row.opc f (aluOp (row.a f) (row.b f) (row.c f) (row.imm f) (row.wide f) (g f)))
    (hval : ∀ v, g v.f v = row.val v) : row.Completes := by
  intro f s v hissues hquiet ⟨ha, hb, hc, hd⟩
  have hview := hissues.1
  obtain rfl : v.f = f := by
    obtain ⟨-, -, -, -, hf, -⟩ := viewOf_some hview
    exact hf
  have hbody := aluOp_ok (s := markIssued s v) (t := row.imm v.f) (g := g v.f) ha hb hc hd
  rw [hval] at hbody
  obtain ⟨x, hx⟩ := finish_spec (res := row.result v) hview hd _ (CoreStep.start hview)
  exact ⟨_, x, exec_ok (hexec v.f s) hissues hquiet hbody, hx⟩

/-! ### The shared shapes (R247, R249) -/

section
variable {con : Fields → Instr} {opc : BitVec 7}

theorem int2_completes {val : Iss → Int → Int → Int} (g : Fields → Int → Int → Int)
    (hexec : ∀ f s, exec (con f) s = issue s opc f (arith2 f (g f))) (hval : ∀ v, g v.f = val v) :
    (int2 con opc val).Completes :=
  RegRow.completes_of_aluOp hexec fun v => by rw [hval]; rfl

theorem int1_completes {val : Int → Int} (hexec : ∀ f s, exec (con f) s = issue s opc f (arith1 f val)) :
    (int1 con opc val).Completes :=
  RegRow.completes_of_aluOp hexec fun _ => rfl

theorem pat2_completes {val : Nat → Nat → Nat} (hexec : ∀ f s, exec (con f) s = issue s opc f (logic2 f val)) :
    (pat2 con opc val).Completes :=
  RegRow.completes_of_aluOp hexec fun _ => rfl

theorem shift2_completes {val : Nat → Nat → Nat → Nat} (hexec : ∀ f s, exec (con f) s = issue s opc f (shift f val)) :
    (shift2 con opc val).Completes :=
  RegRow.completes_of_aluOp hexec fun _ => rfl

end

/-! ### The tables -/

/-- R247, R248. -/
theorem arithmeticRows_complete : ∀ row ∈ arithmeticRows, row.Completes := by
  simp only [arithmeticRows, List.forall_mem_cons]
  refine ⟨?iadd, ?isub, ?imul, ?imulh, ?imad, ?idiv, ?irem, ?imin, ?imax, ?iabs, ?ineg, List.forall_mem_nil _⟩
  case iadd => exact int2_completes (fun _ a b => a + b) (fun _ _ => rfl) fun _ => rfl
  case isub => exact int2_completes (fun _ a b => a - b) (fun _ _ => rfl) fun _ => rfl
  case imul => exact int2_completes (fun _ a b => a * b) (fun _ _ => rfl) fun _ => rfl
  case imulh => exact int2_completes (fun f a b => a * b / ((2 ^ tyWidth f.ty : Nat) : Int)) (fun _ _ => rfl) fun _ => rfl
  case imad => exact RegRow.completes_of_aluOp (fun _ _ => rfl) fun _ => rfl
  case idiv => exact int2_completes (fun f => quotOf f.ty) (fun _ _ => rfl) fun _ => rfl
  case irem => exact int2_completes (fun _ => remOf) (fun _ _ => rfl) fun _ => rfl
  case imin => exact int2_completes (fun _ a b => min a b) (fun _ _ => rfl) fun _ => rfl
  case imax => exact int2_completes (fun _ a b => max a b) (fun _ _ => rfl) fun _ => rfl
  case iabs => exact int1_completes fun _ _ => rfl
  case ineg => exact int1_completes fun _ _ => rfl

/-- R249, R250: NOT and the counts read A alone, BFX and BFI take position and length from B. -/
theorem logicRows_complete : ∀ row ∈ logicRows, row.Completes := by
  simp only [logicRows, List.forall_mem_cons]
  refine ⟨?and, ?or, ?xor, ?not, ?shl, ?shr, ?sar, ?rot, ?bfx, ?bfi, ?popc, ?clz, ?brev, List.forall_mem_nil _⟩
  case and | or | xor => exact pat2_completes fun _ _ => rfl
  case shl | shr | sar | rot => exact shift2_completes fun _ _ => rfl
  case not | bfx | bfi | popc | clz | brev => exact RegRow.completes_of_aluOp (fun _ _ => rfl) fun _ => rfl

/-- R252, R254, R255. -/
theorem convertRows_complete : ∀ row ∈ convertRows, row.Completes := by
  simp only [convertRows, List.forall_mem_cons]
  refine ⟨?lea, ?cvti, ?idot4, List.forall_mem_nil _⟩
  case lea | cvti | idot4 => exact RegRow.completes_of_aluOp (fun _ _ => rfl) fun _ => rfl

/-- Settles O1: every row is the shared register operation, which writes the row's result and changes nothing else. -/
theorem integerResults : Obligations.IntegerResults := by
  unfold Obligations.IntegerResults
  rw [List.forall_mem_append, List.forall_mem_append]
  exact ⟨⟨arithmeticRows_complete, logicRows_complete⟩, convertRows_complete⟩

end Sys2Proof.Spec
end

section
/-! PROOFS. What branches, jumps and requests share at their issue: sources that nothing holds back, waits, the jump to a target, and changes
that stay in the model's own record. -/
namespace Sys2Proof.Safety
open Machine Spec

/-! ### The view and its operands -/

theorem Issues.fields_eq {s : State} {opc : BitVec 7} {f : Fields} {v : Iss} (h : Issues s opc f v) : v.f = f := by
  obtain ⟨-, -, -, -, hf, -⟩ := viewOf_some h.1
  exact hf

theorem srcA_ok {s : State} {v : Iss} {w : Bool} (h : Readable v v.f.a.toNat w) :
    srcA s v w = .ok (s, { val := fun l => regVal v v.f.a.toNat w l, poison := 0 }) := readField_ok h

/-- A source without poison is consumed freely (R188). -/
theorem consume_clean (val : Nat → DWord) (m : Word) : consume { val := val, poison := 0 } m = .ok () :=
  consume_zero BitVec.zero_and

/-- B of an instruction whose literal, if it has one, is its target: a short immediate or a register (R233, R234). -/
theorem srcB_beside {s : State} {v : Iss} (h : BesideTarget v) :
    ∃ val, srcB s v false .b32 v.f.hasLit = .ok (s, { val := val, poison := 0 }) ∧
      ∀ l, besideTarget v l = (val l).truncate 32 := by
  unfold srcB besideTarget
  cases himm : v.f.imm with
  | true => exact ⟨fun _ => shortImm v.f.b .b32, by simp [bIsImm, immVal, himm], fun _ => rfl⟩
  | false =>
      obtain ⟨-, hb⟩ := h.resolve_left (by simp [himm])
      exact ⟨_, by simpa [bIsImm, himm] using readField_ok hb, fun _ => by simp⟩

/-! ### Lanes -/

/-- A mask that is not empty holds its lowest lane. -/
theorem lowLane_mem {m : Word} (h : m ≠ 0) : m.getLsbD (lowLane m) = true := by
  have hne : lanesOf m ≠ [] := fun hnil => h <| BitVec.eq_of_getLsbD_eq fun l hl => by
    have hl' : l ∉ lanesOf m := by simp [hnil]
    simpa [mem_lanesOf, hl] using hl'
  have hmem : lowLane m ∈ lanesOf m := by
    unfold lowLane
    rw [List.headD_eq_head?_getD, List.head?_eq_some_head hne]
    exact List.head_mem hne
  exact (mem_lanesOf.1 hmem).2

/-! ### Waits (R86) -/

/-- An instruction whose body waits leaves only the class of its wait, the lowest that holds. -/
theorem exec_waits {i : Instr} {s : State} {opc : BitVec 7} {f : Fields} {body : State → Iss → Except Stop State} {v : Iss}
    {cl : WaitClass} (he : exec i s = issue s opc f body) (hi : Issues s opc f v) (hb : body (markIssued s v) v = .error (.wait cl)) :
    exec i s = .next (waiting s v (lowestWait cl (operandWaits s v))) := by
  obtain ⟨hview, hturn, hguard⟩ := hi
  rw [he, issue_stop hview hturn hguard hb]
  rfl

/-! ### Jumps (R234, R243, R278) -/

theorem targetOf_eq_relTarget (v : Iss) : targetOf v = relTarget v := rfl

theorem checkTarget_ok {t : DWord} (h : TargetOk t) : checkTarget t = .ok () := by
  obtain ⟨halign, hbits⟩ := h
  simp [checkTarget, halign, hbits]

/-- Only a jump that is taken needs a target that can be fetched. -/
theorem jumpIf_ok {s : State} {v : Iss} {cond : Bool} {t : DWord} (h : cond = true → TargetOk t) :
    jumpIf s v cond t = .ok (setPc s v (if cond then t.truncate 57 else v.next)) := by
  cases cond with
  | true => simp [jumpIf, checkTarget_ok (h rfl), bind, Except.bind]
  | false => rfl

/-- An instruction that ends in a jump under a condition goes where the condition says. -/
theorem goes_of_jumpIf {i : Instr} {s : State} {opc : BitVec 7} {f : Fields} {body : State → Iss → Except Stop State} {v : Iss}
    {cond : Bool} {t : DWord} (he : exec i s = issue s opc f body) (hi : Issues s opc f v) (hq : Quiet v)
    (ht : cond = true → TargetOk t) (hb : body (markIssued s v) v = jumpIf (markIssued s v) v cond t) : Goes i s v cond t :=
  ⟨_, exec_ok he hi hq (hb.trans (jumpIf_ok ht)), (CoreStep.start hi.1).setPc _⟩

/-! ### Changes that leave no trace outside the model's own record -/

/-- A change of the free values used and of what reads may still return old only. -/
theorem CoreStep.unseen {s t u : State} {v : Iss} {k : Core} {x : Strand} {p : Split} (h : CoreStep s t v k x p)
    (hu : u = { t with fresh := u.fresh, views := u.views, stale := u.stale }) : CoreStep s u v k x p := by
  obtain ⟨⟨hdevice, hothers, hcore, hstrands, hsplits, hclusters, hcluster⟩, hstrand, hsplit⟩ := h
  rw [hu]
  exact ⟨⟨hdevice, hothers, hcore, hstrands, hsplits, hclusters, hcluster⟩, hstrand, hsplit⟩

theorem CoreStep.raiseView {s t : State} {v : Iss} {k : Core} {x : Strand} {p : Split} (h : CoreStep s t v k x p) (c sl : Nat) :
    CoreStep s (raiseView t c sl) v k x p := h.unseen rfl

theorem CoreStep.takeDue {s t : State} {v : Iss} {k : Core} {x : Strand} {p : Split} (h : CoreStep s t v k x p) :
    CoreStep s (takeDue t).2 v k x p := h.unseen rfl

end Sys2Proof.Safety
end

section
/-! PROOFS. BRA, CALL, JMPR, HZBR and ALBR are each a jump under their condition (O17). -/
namespace Sys2Proof.Spec
open Machine Safety

/-! ### BRA (R280) -/

theorem braBody_scalar {f : Fields} (s : State) (v : Iss) (hfn : f.fn = 0) :
    braBody f s v = jumpIf s v (gget v.x f.a.toNat != f.md.getLsbD 0) (relTarget v) := by
  simp [braBody, hfn, targetOf_eq_relTarget, bind, Except.bind]

/-- Lanes that all hold one value agree in their pairs too (R107). -/
theorem branchCompare_uniform {v : Iss} {k : Word} {b : Bool} (hall : ∀ l, l < 32 → v.act.getLsbD l = true → k.getLsbD l = b) :
    branchCompare v k = .ok () := by
  have hpairs : ((lanesOf v.act).any fun l =>
      v.act.getLsbD (primaryOf true l) && k.getLsbD l != k.getLsbD (primaryOf true l)) = false := by
    rw [List.any_eq_false]
    intro l hl hdiff
    obtain ⟨hlt, hact⟩ := mem_lanesOf.1 hl
    obtain ⟨hprim, hne⟩ := Bool.and_eq_true_iff.1 hdiff
    rw [hall l hlt hact, hall _ (BitVec.lt_of_getLsbD hprim) hprim] at hne
    simp at hne
  simp [branchCompare, hpairs]

/-- The lowest active lane sets the condition, and no active lane differs from it. -/
theorem braBody_uniform {f : Fields} (s : State) {v : Iss} {b : Bool} (hfn : f.fn ≠ 0) (hact : v.act ≠ 0)
    (hall : ∀ l, l < 32 → v.act.getLsbD l = true → (kmask v.x f.a.toNat).getLsbD l = b) :
    braBody f s v = jumpIf s v (b != f.md.getLsbD 0) (relTarget v) := by
  have hlow := lowLane_mem hact
  have href := hall _ (BitVec.lt_of_getLsbD hlow) hlow
  have hnone : ((lanesOf v.act).find? fun l => (kmask v.x f.a.toNat).getLsbD l != b) = none :=
    List.find?_eq_none.2 fun l hl => by
      obtain ⟨hlt, hl⟩ := mem_lanesOf.1 hl
      simp [hall l hlt hl]
  simp only [braBody, hfn, if_false, branchCompare_uniform hall, href, hnone, targetOf_eq_relTarget, bind, Except.bind]

/-! ### CALL, JMPR (R283) -/

/-- Where a CALL goes: to its register pair, or relative to its own PC. -/
def callTarget (v : Iss) : DWord := if v.f.fn = 1 then regVal v v.f.a.toNat true 0 else relTarget v

theorem callBody_ok (s : State) {v : Iss} (ha : v.f.fn = 1 → Readable v v.f.a.toNat true) (hr : (sget v.x 63).st ≠ .pending)
    (ht : TargetOk (callTarget v)) :
    callBody v.f s v =
      .ok (onStrand (setPc s v ((callTarget v).truncate 57)) v fun x => sset x 63 (fullCell (v.next.truncate 32))) := by
  have hjump : jumpIf s v true (callTarget v) = .ok (setPc s v ((callTarget v).truncate 57)) := jumpIf_ok fun _ => ht
  unfold callTarget at hjump ⊢
  by_cases hfn : v.f.fn = 1
  · simp only [hfn, if_true] at hjump ⊢
    simp only [callBody, hfn, if_true, srcA_ok (ha hfn), consume_clean, hr, if_false, hjump, bind, Except.bind]
  · simp only [hfn, if_false] at hjump ⊢
    simp only [callBody, hfn, if_false, noSrc, consume_clean, hr, hjump, targetOf_eq_relTarget, bind, Except.bind]

/-- Where a JMPR goes: to its register pair, or to its register within the 4 GiB of its own PC. -/
def jmprTarget (v : Iss) : DWord :=
  if v.f.fn = 0 then regVal v v.f.a.toNat true 0
  else ((v.pc.extractLsb' 32 25).zeroExtend 32 ++ (regVal v v.f.a.toNat false 0).truncate 32 : BitVec 64)

theorem jmprBody_eq (s : State) {v : Iss} (ha : Readable v v.f.a.toNat (v.f.fn == 0)) :
    jmprBody v.f s v = jumpIf s v true (jmprTarget v) := by
  unfold jmprTarget
  simp only [jmprBody, srcA_ok ha, consume_clean, bind, Except.bind]
  by_cases hfn : v.f.fn = 0
  · simp [hfn]
  · have hlow : ∀ w : DWord, w.truncate 32 = w.extractLsb' 0 32 := fun _ => BitVec.setWidth_eq_extractLsb' (by decide)
    simp only [hfn, if_false, beq_eq_false_iff_ne.2 hfn, hlow]

/-! ### HZBR, ALBR (R285, R286) -/

/-- What an HZBR compares the horizons with. -/
def hzbrPast (v : Iss) : Option (BitVec 16) := if v.f.fn = 2 then some ((besideTarget v 0).truncate 16) else none

theorem pastOf_ok (s : State) {v : Iss} (hb : v.f.fn = 2 → BesideTarget v) :
    ∃ past, pastOf s v (v.f.fn == 2) = .ok (s, past) ∧ past 0 = hzbrPast v := by
  unfold hzbrPast
  by_cases hfn : v.f.fn = 2
  · obtain ⟨val, hsrc, hval⟩ := srcB_beside (s := s) (hb hfn)
    refine ⟨fun l => some ((val l).truncate 16), ?_, by simp [hfn, hval]⟩
    simp only [pastOf, beq_iff_eq.2 hfn, if_true, hsrc, consume_clean, bind, Except.bind]
  · exact ⟨fun _ => none, by simp only [pastOf, beq_eq_false_iff_ne.2 hfn]; rfl, (if_neg hfn).symm⟩

theorem hzPassed_eq_passed (s : State) (v : Iss) (past : Option (BitVec 16)) (l : Nat) :
    hzPassed s v past l = passed s v past l := rfl

/-- Counting the issue passes no horizon. -/
theorem hzPassed_markIssued (s : State) (v : Iss) (past : Option (BitVec 16)) (l : Nat) :
    hzPassed (markIssued s v) v past l = passed s v past l := by
  rw [← hzPassed_eq_passed]
  simp only [hzPassed, opsOf_markIssued]

theorem hzbrBody_eq (s : State) {v : Iss} (hb : v.f.fn = 2 → BesideTarget v) :
    hzbrBody v.f (markIssued s v) v =
      jumpIf (markIssued s v) v (allPassed s v (hzbrPast v) != (v.f.fn == 1)) (relTarget v) := by
  obtain ⟨past, hpast, h0⟩ := pastOf_ok (markIssued s v) hb
  have hall : (lanesOf v.act).all (hzPassed (markIssued s v) v (past 0)) = allPassed s v (hzbrPast v) := by
    rw [h0, funext (hzPassed_markIssued s v (hzbrPast v))]
    rfl
  simp only [hzbrBody, hpast, hall, targetOf_eq_relTarget, bind, Except.bind]
  by_cases hfn : v.f.fn = 1
  · simp [hfn]
  · simp only [hfn, if_false, beq_eq_false_iff_ne.2 hfn, Bool.bne_false]

/-- The condition of an ALBR: its slot's allowance is below B, or under .ge has reached it. -/
def albrGoes (s : State) (v : Iss) : Bool :=
  if v.f.md.getLsbD 0 then decide ((besideTarget v 0).toNat ≤ alwOf (coreOf s v.c) v.f.fn.toNat)
  else decide (alwOf (coreOf s v.c) v.f.fn.toNat < (besideTarget v 0).toNat)

/-- Counting the issue spends no allowance. -/
theorem alwOf_markIssued {s : State} {v : Iss} {opc : BitVec 7} {f : Fields} (h : viewOf s opc f = some v) (n : Nat) :
    alwOf (coreOf (markIssued s v) v.c) n = alwOf (coreOf s v.c) n := by
  have hdst : (coreOf (markIssued s v) v.c).dst = (coreOf s v.c).dst := by
    have hcore := congrArg Core.dst (core_markIssued h)
    exact hcore
  simp [alwOf, dstOf, hdst]

theorem albrBody_eq {s : State} {v : Iss} {opc : BitVec 7} {f : Fields} (h : viewOf s opc f = some v) (hb : BesideTarget v) :
    albrBody v.f (markIssued s v) v = jumpIf (markIssued s v) v (albrGoes s v) (relTarget v) := by
  obtain ⟨val, hsrc, hval⟩ := srcB_beside (s := markIssued s v) hb
  have hbits : rdBits .b32 (val 0) = (besideTarget v 0).toNat := by
    rw [hval, BitVec.truncate_eq_setWidth, BitVec.toNat_setWidth]
    rfl
  simp only [albrBody, hsrc, consume_clean, hbits, alwOf_markIssued h, targetOf_eq_relTarget, bind, Except.bind]
  rfl

/-! ### The statement -/

/-- Settles O17: each body reads its operands and is then the jump under its condition; a CALL also writes s63. -/
theorem branchesAndJumps : Obligations.BranchesAndJumps := by
  unfold Obligations.BranchesAndJumps
  refine ⟨?scalar, ?uniform, ?call, ?jmpr, ?hzbr, ?albr⟩
  case scalar =>
    intro f s v hi hq hfn ht
    exact goes_of_jumpIf rfl hi hq (fun hc => ht (by simpa using hc)) (braBody_scalar _ v hfn)
  case uniform =>
    intro f s v b hi hq hfn hact hall ht
    exact goes_of_jumpIf rfl hi hq (fun hc => ht (by simpa using hc)) (braBody_uniform _ hfn hact hall)
  case call =>
    intro f s v hi hq _ hr ha ht
    obtain rfl := hi.fields_eq
    exact ⟨_, exec_ok rfl hi hq (callBody_ok _ ha hr ht), ((CoreStep.start hi.1).setPc _).onStrand _⟩
  case jmpr =>
    intro f s v a hi hq _ ha haddr ht
    obtain rfl := hi.fields_eq
    obtain rfl : a = jmprTarget v := haddr
    exact goes_of_jumpIf rfl hi hq (fun _ => ht) (jmprBody_eq _ ha)
  case hzbr =>
    intro f s v past hi hq _ hpast hb ht
    obtain rfl := hi.fields_eq
    obtain rfl : past = hzbrPast v := hpast
    exact goes_of_jumpIf rfl hi hq ht (hzbrBody_eq s hb)
  case albr =>
    intro f s v go hi hq _ hb hgo ht
    obtain rfl := hi.fields_eq
    obtain rfl : go = albrGoes s v := hgo
    exact goes_of_jumpIf rfl hi hq ht (albrBody_eq hi.1 hb)

end Sys2Proof.Spec
end

section
/-! PROOFS. CANCEL and WCNT write what they read of a counter, and SYS leaves its request with the strand (O37). -/
namespace Sys2Proof.Spec
open Machine Safety

/-! ### The counter that A names (R299, R300) -/

theorem myCounter_of_ownCounter {s : State} {v : Iss} {c : Option Counter} (h : ownCounter s v c) :
    myCounter (markIssued s v) v ((regVal v v.f.a.toNat false 0).toNat % 2 ^ 32) = c := by
  change myCounter (markIssued s v) v (wordA v) = c
  unfold myCounter
  rw [markIssued_counters]
  cases c with
  | some k =>
      obtain ⟨hget, hctx⟩ := h
      simp [hget, hctx]
  | none =>
      cases hget : mget s.counters (wordA v) with
      | none => rfl
      | some k => simp [h k hget]

/-! ### CANCEL (R299) -/

/-- What CANCEL answers for a counter. -/
def cancelAnswer : Option Counter → DWord
  | none => 2
  | some k => if k.done then 1 else 0

/-- What CANCEL does beside its answer: a counter that is not done is cancelled. -/
def afterCancel (u : State) (i : Nat) : Option Counter → State
  | none => u
  | some k => if k.done then u else cancelCounter u i

theorem cancelBody_ok {s : State} {v : Iss} {c : Option Counter} (ha : Readable v v.f.a.toNat false)
    (hd : Writable v v.f.d.toNat false) (hc : ownCounter s v c) :
    cancelBody v.f (markIssued s v) v =
      .ok (afterCancel (advance (writeD (markIssued s v) v v.f.d.toNat false (fun _ => cancelAnswer c) 0) v)
        (wordA v) c) := by
  simp only [cancelBody, srcA_ok ha, consume_clean, destReady_ok hd, myCounter_of_ownCounter hc, bind, Except.bind]
  rcases c with _ | k
  · rfl
  · cases hk : k.done <;> simp only [hk, cancelAnswer, afterCancel, if_true] <;> rfl

/-! ### WCNT (R300) -/

/-- What WCNT reads of a counter: its count or its upper word, 0 of one that is not the context's. -/
def counterRead (f : Fields) : Option Counter → Nat
  | none => 0
  | some k => if f.fn = 0 then k.count else counterWord k / 2 ^ 32

theorem wcntBody_ok {s : State} {v : Iss} {c : Option Counter} (ha : Readable v v.f.a.toNat false)
    (hd : Writable v v.f.d.toNat false) (hc : ownCounter s v c) :
    wcntBody v.f (markIssued s v) v =
      .ok (advance (writeD (raiseView (markIssued s v) v.c v.sl) v v.f.d.toNat false
        (fun _ => BitVec.ofNat 64 (counterRead v.f c % 2 ^ 32)) 0) v) := by
  simp only [wcntBody, srcA_ok ha, consume_clean, destReady_ok hd, myCounter_of_ownCounter hc, bind, Except.bind]
  cases c <;> rfl

/-! ### SYS (R296) -/

/-- The request that a SYS leaves with its strand. -/
def sysRequest (v : Iss) (due : Nat) : SysReq :=
  { code := v.f.imm16, va := regVal v v.f.a.toNat true 0, d := v.f.d.toNat, entry := v.e, seq := v.x.sysSeq, taken := false,
    due := due, len := 0, reply := none, far := [], asked := [], lost := false, written := false }

/-- A register that is not PENDING, and a mailbox of the launch, can be written later. -/
theorem laterDest_ok {s : State} {v : Iss} {d : Nat} (h : if d < 64 then (sget v.x d).st ≠ .pending else MailboxOwned s v (d - 64)) :
    laterDest s v d = .ok () := by
  unfold laterDest
  split at h
  next hd => simp [hd, h]
  next hd =>
    obtain ⟨r, hr, hbit⟩ := h
    simp [hd, hr, hbit]

section
variable {s : State} {v : Iss} (ha : Readable v v.f.a.toNat true)
  (hd : if v.f.d.toNat < 64 then (sget v.x v.f.d.toNat).st ≠ .pending else MailboxOwned s v (v.f.d.toNat - 64))
include ha hd

theorem sysBody_free (hsys : v.x.sys = none) :
    sysBody v.f s v =
      .ok (modSplit (onStrand (takeDue s).2 v fun x => { x with sysSeq := x.sysSeq + 1, sys := some (sysRequest v (takeDue s).1) })
        v.c v.e fun p => { p with parked := some (.sys v.f.d.toNat v.next), cls := some .pipe, held := v.sample }) := by
  simp only [sysBody, srcA_ok ha, consume_clean, laterDest_ok hd, hsys, bind, Except.bind]
  rfl

/-- A strand has one request at a time. -/
theorem sysBody_busy (hsys : v.x.sys.isSome = true) : sysBody v.f s v = .error (.wait .pipe) := by
  simp only [sysBody, srcA_ok ha, consume_clean, laterDest_ok hd, hsys, if_true, bind, Except.bind]

end

/-! ### The statement -/

/-- Settles O37: CANCEL and WCNT look the counter up and write D, and CANCEL then cancels; SYS parks its split with the one request of
the strand, or waits while there is one. -/
theorem countersAndRequests : Obligations.CountersAndRequests := by
  unfold Obligations.CountersAndRequests
  refine ⟨?cancel, ?wcnt, ?sys⟩
  case cancel =>
    intro f s v c hi hq _ ha hd hc
    obtain rfl := hi.fields_eq
    obtain ⟨x, hstep, hrest, hflags, hwrote⟩ :=
      finishD_spec (res := fun _ => cancelAnswer c) hi.1 hd _ (CoreStep.start hi.1)
    refine ⟨_, _, x, exec_ok rfl hi hq (cancelBody_ok ha hd hc), hstep, hrest, hflags, ?answer, ?cancelled⟩
    case answer => cases c <;> exact hwrote
    case cancelled => cases c <;> rfl
  case wcnt =>
    intro f s v c hi hq _ ha hd hc
    obtain rfl := hi.fields_eq
    obtain ⟨x, hstep, hrest, hflags, hwrote⟩ := finishD_spec hi.1 hd _ ((CoreStep.start hi.1).raiseView v.c v.sl)
    refine ⟨_, x, exec_ok rfl hi hq (wcntBody_ok ha hd hc), hstep, hrest, hflags, ?_⟩
    cases c <;> exact hwrote
  case sys =>
    intro f s v hi _ ha hd
    obtain rfl := hi.fields_eq
    have hd' : if v.f.d.toNat < 64 then (sget v.x v.f.d.toNat).st ≠ .pending
        else MailboxOwned (markIssued s v) v (v.f.d.toNat - 64) := by
      simpa only [MailboxOwned, myResv_mi hi.1] using hd
    refine ⟨fun hfree hq => ?free, fun hbusy => exec_waits rfl hi (sysBody_busy ha hd' hbusy)⟩
    case free =>
      refine ⟨_, sysRequest v (takeDue (markIssued s v)).1, exec_ok rfl hi hq (sysBody_free ha hd' hfree), ?_, rfl, rfl, rfl, rfl,
        rfl, rfl, rfl⟩
      have hsample : v.sample = none := hq.1
      rw [hsample]
      exact ((CoreStep.start hi.1).takeDue.onStrand _).modSplit _

end Sys2Proof.Spec
end
